-- ==== Sys2Proof/Word.lean ====
section
/-! DEFINITION. The bit-vector words of the I2C engine: bytes, the 11-bit command word, the 16-bit request header,
the 8-bit event code (spec 30_encoding.md R110, R114). -/

namespace Sys2Proof

/-- One byte of application memory or of bus data (R80, R83). -/
abbrev Byte := BitVec 8

/-- A CMD word: command in bits 10:8, data byte in bits 7:0 (R114). -/
abbrev CmdWord := BitVec 11

/-- A REQ header: bits 15:13 zero, bit 12 engine, bits 11:8 operation, bits 7:0 bus index (R111). -/
abbrev ReqWord := BitVec 16

/-- An EVT code (R120). -/
abbrev EvtCode := BitVec 8

/-- A bus index as the request header carries it: header bits 7:0 (R111). -/
abbrev BusIndex := BitVec 8

end Sys2Proof
end

