-- ==== Sys2Proof/Config.lean ====
section
/-! DEFINITION. What an implementation fixes: the parameters of spec 00_scope.md R8 and R9. The parameters that the
spec leaves open are one record, carried unchanged by the state, so that every claim about every state is a claim about
every value of them; the one value that the spec leaves unspecified and the machine goes on with is an opaque constant. -/

namespace Sys2Proof

/-- Readings of what the aborted-by-timeout flag changes in a receive completion (R9, R235). -/
inductive AbortedRx where
  | sameAsNormal
  | forceStop
  | suppressCallback
deriving DecidableEq, Repr

/-- The open parameters of R9. `busIdleCycles` is named by R150 and no rule depends on its value. -/
structure Params where
  /-- `NUM_INSTANCES`. -/
  numInst        : Nat
  /-- `TXFIFO_DEPTH`. -/
  txDepth        : Nat
  /-- `RXFIFO_DEPTH`. -/
  rxDepth        : Nat
  /-- `ADDR_W`. -/
  addrW          : Nat
  /-- `SIZE_W`. -/
  sizeW          : Nat
  /-- `TIMEOUT_W`. -/
  timeoutW       : Nat
  clkHiMin       : Nat
  clkHiMax       : Nat
  clkLoMin       : Nat
  clkLoMax       : Nat
  setHoldMin     : Nat
  setHoldMax     : Nat
  dataVdMin      : Nat
  dataVdMax      : Nat
  setHoldNum     : Nat
  setHoldDen     : Nat
  dataVdNum      : Nat
  dataVdDen      : Nat
  periodOverhead : Nat
  busIdleCycles  : Nat
  /-- `ABORTED_RX_COMPLETION`. -/
  abortedRx      : AbortedRx
deriving DecidableEq, Repr

/-- The defaults of R9; `BUS_IDLE_CYCLES` has none there (notes/assumptions/2.md). -/
def Params.default : Params where
  numInst := 1
  txDepth := 4
  rxDepth := 4
  addrW := 32
  sizeW := 32
  timeoutW := 32
  clkHiMin := 1
  clkHiMax := 63
  clkLoMin := 3
  clkLoMax := 63
  setHoldMin := 2
  setHoldMax := 63
  dataVdMin := 1
  dataVdMax := 63
  setHoldNum := 1
  setHoldDen := 1
  dataVdNum := 1
  dataVdDen := 2
  periodOverhead := 2
  busIdleCycles := 0
  abortedRx := .sameAsNormal

/-- The constraint column of R9. -/
abbrev Params.wf (p : Params) : Prop :=
  1 ≤ p.numInst ∧ 1 ≤ p.txDepth ∧ 1 ≤ p.rxDepth ∧ 1 ≤ p.addrW ∧ 9 ≤ p.sizeW ∧ 1 ≤ p.timeoutW ∧
  p.clkHiMin ≤ p.clkHiMax ∧ p.clkLoMin ≤ p.clkLoMax ∧ 0 < p.setHoldDen ∧ 0 < p.dataVdDen

namespace Config

/-- `RX_MAX`: the largest master receive count (R8). -/
def rxMax : Nat := 256

/-- `SWQ_CAP`: the capacity of the software command queue (R8). -/
def swqCap : Nat := 5

/-- `PRESCALE_MAX`: the last prescaler value of the search (R8). -/
def prescaleMax : Nat := 7

/-- `FILLER`: what an exhausted slave sends (R8). -/
def filler : Byte := 0xFF#8

/-- What the slots of a software queue hold that no rule has written: the contents of an unoccupied slot are
unspecified (R23, U14), so a fresh Master Context takes its five slots from here, at the state's counter. -/
opaque freeSlot : Nat → CmdWord

/-- What a baud-rate query answers where R367 gives no 32-bit number: a rate above the port's width, or a divisor of 0. The
arguments are the clock frequency and the divisor (notes/assumptions/22.md). -/
opaque unstatedRate : Nat → Nat → BitVec 32

end Config

end Sys2Proof
end

