-- ==== Sys2Proof/Syntax.lean ====
section
/-! DEFINITION. The operations of the I2C engine: one constructor of `Instr` for each row of spec/opcode_table.json
(20 host requests REQ, 6 FIFO command words CMD, 16 events EVT; spec 30_encoding.md R112, R115, R120). -/

namespace Sys2Proof

/-- Operating mode (R24). -/
inductive Mode where
  | standard
  | fast
  | fastPlus
  | highSpeed
  | ultraFast
deriving DecidableEq, Repr

/-- Transfer type of a configuration: `Interrupts` = 0, `DMA` = 1 (R29). -/
inductive TransferType where
  | interrupts
  | dma
deriving DecidableEq, Repr

/-- The six command words of R115. -/
inductive Cmd where
  | txd
  | rxn
  | stop
  | start
  | startn
  | starths
deriving DecidableEq, Repr

/-- The configuration record as the request port carries it (R113); `mode` may hold the reserved values 5 to 7, which
the init requests refuse. The callback is a reference or null. -/
structure CfgPort where
  addr          : BitVec 10
  is10bit       : Bool
  mode          : BitVec 3
  baudRate      : BitVec 32
  baudRateHS    : BitVec 32
  masterCode    : BitVec 3
  transferType  : TransferType
  dmaChannel    : BitVec 8
  callback      : Option Nat
  callbackParam : Nat
  listening     : Bool
deriving DecidableEq, Repr

/-- One constructor per row of the opcode table. Every operation names the bus it acts on: a request in header bits 7:0
(R111), a command word by the FIFO that holds it, an event by the interrupt line it arrives on (R110). -/
inductive Instr where
  -- REQ, master engine
  | minit (inst : BusIndex) (cfg : CfgPort)
  | mdeinit (inst : BusIndex)
  | msend (inst : BusIndex) (buf len : Nat) (stop : Bool)
  | msendb (inst : BusIndex) (buf len : Nat) (stop : Bool) (timeout : Nat)
  | mrecv (inst : BusIndex) (buf len : Nat) (stop : Bool)
  | mrecvb (inst : BusIndex) (buf len : Nat) (stop : Bool) (timeout : Nat)
  | mstatus (inst : BusIndex)
  | mabort (inst : BusIndex)
  | mgetbaud (inst : BusIndex)
  | msetbaud (inst : BusIndex) (mode : BitVec 3) (rate rateHS : BitVec 32)
  -- REQ, slave engine
  | sinit (inst : BusIndex) (cfg : CfgPort)
  | sdeinit (inst : BusIndex)
  | ssend (inst : BusIndex) (buf len : Nat)
  | ssendb (inst : BusIndex) (buf len timeout : Nat)
  | srecv (inst : BusIndex) (buf len : Nat)
  | srecvb (inst : BusIndex) (buf len timeout : Nat)
  | sstatus (inst : BusIndex)
  | sabort (inst : BusIndex)
  | ssettx (inst : BusIndex) (buf len : Nat)
  | ssetrx (inst : BusIndex) (buf len : Nat)
  -- CMD
  | txd (inst : BusIndex) (data : Byte)
  | rxn (inst : BusIndex) (data : Byte)
  | stop (inst : BusIndex)
  | start (inst : BusIndex) (data : Byte)
  | startn (inst : BusIndex) (data : Byte)
  | starths (inst : BusIndex) (data : Byte)
  -- EVT, master
  | txrdy (inst : BusIndex)
  | rxrdy (inst : BusIndex)
  | nack (inst : BusIndex)
  | arblost (inst : BusIndex)
  | fifoerr (inst : BusIndex)
  | pinlow (inst : BusIndex)
  -- EVT, slave
  | addrvalid (inst : BusIndex)
  | txdata (inst : BusIndex)
  | rxdata (inst : BusIndex)
  | rstart (inst : BusIndex)
  | evtStop (inst : BusIndex)
  | biterr (inst : BusIndex)
  | sfifoerr (inst : BusIndex)
  -- EVT, DMA and timer
  | dmaok (inst : BusIndex)
  | dmaerr (inst : BusIndex)
  | wtimeout (inst : BusIndex)
deriving DecidableEq, Repr

/-- The bus an operation acts on. -/
def Instr.bus : Instr → BusIndex
  | .minit k _ | .mdeinit k | .msend k _ _ _ | .msendb k _ _ _ _ | .mrecv k _ _ _ | .mrecvb k _ _ _ _
  | .mstatus k | .mabort k | .mgetbaud k | .msetbaud k _ _ _ | .sinit k _ | .sdeinit k | .ssend k _ _
  | .ssendb k _ _ _ | .srecv k _ _ | .srecvb k _ _ _ | .sstatus k | .sabort k | .ssettx k _ _ | .ssetrx k _ _
  | .txd k _ | .rxn k _ | .stop k | .start k _ | .startn k _ | .starths k _ | .txrdy k | .rxrdy k | .nack k
  | .arblost k | .fifoerr k | .pinlow k | .addrvalid k | .txdata k | .rxdata k | .rstart k | .evtStop k
  | .biterr k | .sfifoerr k | .dmaok k | .dmaerr k | .wtimeout k => k

end Sys2Proof
end

