-- ==== Sys2Proof/WellFormed.lean ====
section
/-! DEFINITION. Which instructions the ports can carry: the bus index names an existing instance and every operand fits
the width of its port (spec 30_encoding.md R111 to R113, 00_scope.md R9). What a host must not ask for (a zero length, a
reserved mode) fits the ports; the meanings refuse it. -/

namespace Sys2Proof

/-- The configuration record fits its ports: `callbackParam` is `ADDR_W` bits wide (R113). -/
abbrev CfgPort.fits (p : Params) (c : CfgPort) : Prop := c.callbackParam < 2 ^ p.addrW

/-- `buf` is `ADDR_W` bits and `len` is `SIZE_W` bits wide (R112). -/
abbrev bufferFits (p : Params) (buf len : Nat) : Prop := buf < 2 ^ p.addrW ∧ len < 2 ^ p.sizeW

/-- The operands of an instruction fit their ports (R112, R113). -/
def Instr.operandsFit (p : Params) : Instr → Bool
  | .minit _ c | .sinit _ c => decide (c.fits p)
  | .msend _ b l _ | .mrecv _ b l _ | .ssend _ b l | .srecv _ b l | .ssettx _ b l | .ssetrx _ b l =>
    decide (bufferFits p b l)
  | .msendb _ b l _ t | .mrecvb _ b l _ t | .ssendb _ b l t | .srecvb _ b l t =>
    decide (bufferFits p b l ∧ t < 2 ^ p.timeoutW)
  | .mdeinit _ | .mstatus _ | .mabort _ | .mgetbaud _ | .msetbaud _ _ _ _ | .sdeinit _ | .sstatus _ | .sabort _
  | .txd _ _ | .rxn _ _ | .stop _ | .start _ _ | .startn _ _ | .starths _ _ | .txrdy _ | .rxrdy _ | .nack _
  | .arblost _ | .fifoerr _ | .pinlow _ | .addrvalid _ | .txdata _ | .rxdata _ | .rstart _ | .evtStop _ | .biterr _
  | .sfifoerr _ | .dmaok _ | .dmaerr _ | .wtimeout _ => true

/-- A well-formed instruction: its bus exists (R111) and its operands fit their ports. -/
def Instr.wellFormed (p : Params) (i : Instr) : Bool :=
  decide (i.bus.toNat < p.numInst) && i.operandsFit p

end Sys2Proof
end

