-- ==== Sys2Proof/Decode.lean ====
section
/-! DEFINITION. The decoder, total on every word of the three encoded spaces, and the encoder written from the same
tables (spec 30_encoding.md R110 to R120; spec/opcode_table.json). A word is decoded in the space of the port it arrives
on (R110): no word carries a space tag. -/

namespace Sys2Proof

/-- The operand ports of the request port, all of them, as the host drives them beside the header (R110, R112). A value
wider than its port is cut to the port's width by the decoder. -/
structure Ports where
  buf     : Nat
  len     : Nat
  stop    : Bool
  timeout : Nat
  mode    : BitVec 3
  rate    : BitVec 32
  rateHS  : BitVec 32
  cfg     : CfgPort
deriving DecidableEq, Repr

/-- A configuration port with every bit 0. -/
def CfgPort.zero : CfgPort :=
  { addr := 0#10, is10bit := false, mode := 0#3, baudRate := 0#32, baudRateHS := 0#32, masterCode := 0#3,
    transferType := .interrupts, dmaChannel := 0#8, callback := none, callbackParam := 0, listening := false }

/-- Operand ports with every bit 0. -/
def Ports.zero : Ports :=
  { buf := 0, len := 0, stop := false, timeout := 0, mode := 0#3, rate := 0#32, rateHS := 0#32, cfg := .zero }

/-- A word at a port: a request header with its operand ports, a command word of a bus's FIFO, an event code on a bus's
interrupt line (R110). -/
inductive PortWord where
  | req (header : ReqWord) (ports : Ports)
  | cmd (inst : BusIndex) (w : CmdWord)
  | evt (inst : BusIndex) (code : EvtCode)
deriving DecidableEq, Repr

/-- Why a word is no instruction (R111, R121). -/
inductive DecodeError where
  | reservedRequest
  | reservedCommand
  | reservedEvent
deriving DecidableEq, Repr

/-- `opcode = header[15:8]` (R111). -/
def reqOpcode (h : ReqWord) : BitVec 8 := h.extractLsb' 8 8

/-- `inst = header[7:0]` (R111). -/
def reqInst (h : ReqWord) : BusIndex := h.extractLsb' 0 8

/-- `cmd = w[10:8]` (R114). -/
def cmdField (w : CmdWord) : BitVec 3 := w.extractLsb' 8 3

/-- `data = w[7:0]` (R114). -/
def dataField (w : CmdWord) : Byte := w.extractLsb' 0 8

/-- A value on a port of `width` bits. -/
def onPort (width v : Nat) : Nat := v % 2 ^ width

/-- The configuration record cut to its ports (R113). -/
def cfgOnPort (p : Params) (c : CfgPort) : CfgPort := { c with callbackParam := onPort p.addrW c.callbackParam }

/-- The REQ opcode map of R112; a header with a reserved opcode (bits 15:13 non-zero included) or an instance out of
range is reserved (R111). -/
def decodeReq (p : Params) (h : ReqWord) (o : Ports) : Except DecodeError Instr :=
  let k := reqInst h
  let buf := onPort p.addrW o.buf
  let len := onPort p.sizeW o.len
  let t := onPort p.timeoutW o.timeout
  if p.numInst ≤ k.toNat then .error .reservedRequest
  else match (reqOpcode h).toNat with
    | 0x01 => .ok (.minit k (cfgOnPort p o.cfg))
    | 0x02 => .ok (.mdeinit k)
    | 0x03 => .ok (.msend k buf len o.stop)
    | 0x04 => .ok (.msendb k buf len o.stop t)
    | 0x05 => .ok (.mrecv k buf len o.stop)
    | 0x06 => .ok (.mrecvb k buf len o.stop t)
    | 0x07 => .ok (.mstatus k)
    | 0x08 => .ok (.mabort k)
    | 0x09 => .ok (.mgetbaud k)
    | 0x0A => .ok (.msetbaud k o.mode o.rate o.rateHS)
    | 0x11 => .ok (.sinit k (cfgOnPort p o.cfg))
    | 0x12 => .ok (.sdeinit k)
    | 0x13 => .ok (.ssend k buf len)
    | 0x14 => .ok (.ssendb k buf len t)
    | 0x15 => .ok (.srecv k buf len)
    | 0x16 => .ok (.srecvb k buf len t)
    | 0x17 => .ok (.sstatus k)
    | 0x18 => .ok (.sabort k)
    | 0x19 => .ok (.ssettx k buf len)
    | 0x1A => .ok (.ssetrx k buf len)
    | _ => .error .reservedRequest

/-- The CMD opcode map of R115; codes 3 and 7 are reserved (R121). The data of `STOP` is ignored. -/
def decodeCmd (k : BusIndex) (w : CmdWord) : Except DecodeError Instr :=
  let d := dataField w
  match (cmdField w).toNat with
  | 0 => .ok (.txd k d)
  | 1 => .ok (.rxn k d)
  | 2 => .ok (.stop k)
  | 4 => .ok (.start k d)
  | 5 => .ok (.startn k d)
  | 6 => .ok (.starths k d)
  | _ => .error .reservedCommand

/-- The EVT code map of R120; every other code is reserved and never delivered. -/
def decodeEvt (k : BusIndex) (c : EvtCode) : Except DecodeError Instr :=
  match c.toNat with
  | 0x01 => .ok (.txrdy k)
  | 0x02 => .ok (.rxrdy k)
  | 0x03 => .ok (.nack k)
  | 0x04 => .ok (.arblost k)
  | 0x05 => .ok (.fifoerr k)
  | 0x06 => .ok (.pinlow k)
  | 0x11 => .ok (.addrvalid k)
  | 0x12 => .ok (.txdata k)
  | 0x13 => .ok (.rxdata k)
  | 0x14 => .ok (.rstart k)
  | 0x15 => .ok (.evtStop k)
  | 0x16 => .ok (.biterr k)
  | 0x17 => .ok (.sfifoerr k)
  | 0x21 => .ok (.dmaok k)
  | 0x22 => .ok (.dmaerr k)
  | 0x31 => .ok (.wtimeout k)
  | _ => .error .reservedEvent

/-- A word is decoded in the space of its port (R110). -/
def decode (p : Params) : PortWord → Except DecodeError Instr
  | .req h o => decodeReq p h o
  | .cmd k w => decodeCmd k w
  | .evt k c => decodeEvt k c

/-! ## The encoder -/

/-- `cmd` codes of R115. -/
def Cmd.code : Cmd → BitVec 3
  | .txd => 0#3
  | .rxn => 1#3
  | .stop => 2#3
  | .start => 4#3
  | .startn => 5#3
  | .starths => 6#3

/-- The command word `w[10:8] = cmd`, `w[7:0] = data` (R114). -/
def cmdWord (c : Cmd) (d : Byte) : CmdWord := c.code ++ d

/-- The header of a request: opcode in bits 15:8, instance in bits 7:0 (R111). -/
def reqHeader (opcode : BitVec 8) (k : BusIndex) : ReqWord := opcode ++ k

/-- The word of an instruction, at its port; operand ports it does not use are 0 (R112, R115, R120). -/
def encode : Instr → PortWord
  | .minit k c => .req (reqHeader 0x01#8 k) { Ports.zero with cfg := c }
  | .mdeinit k => .req (reqHeader 0x02#8 k) Ports.zero
  | .msend k b l s => .req (reqHeader 0x03#8 k) { Ports.zero with buf := b, len := l, stop := s }
  | .msendb k b l s t => .req (reqHeader 0x04#8 k) { Ports.zero with buf := b, len := l, stop := s, timeout := t }
  | .mrecv k b l s => .req (reqHeader 0x05#8 k) { Ports.zero with buf := b, len := l, stop := s }
  | .mrecvb k b l s t => .req (reqHeader 0x06#8 k) { Ports.zero with buf := b, len := l, stop := s, timeout := t }
  | .mstatus k => .req (reqHeader 0x07#8 k) Ports.zero
  | .mabort k => .req (reqHeader 0x08#8 k) Ports.zero
  | .mgetbaud k => .req (reqHeader 0x09#8 k) Ports.zero
  | .msetbaud k m r h => .req (reqHeader 0x0A#8 k) { Ports.zero with mode := m, rate := r, rateHS := h }
  | .sinit k c => .req (reqHeader 0x11#8 k) { Ports.zero with cfg := c }
  | .sdeinit k => .req (reqHeader 0x12#8 k) Ports.zero
  | .ssend k b l => .req (reqHeader 0x13#8 k) { Ports.zero with buf := b, len := l }
  | .ssendb k b l t => .req (reqHeader 0x14#8 k) { Ports.zero with buf := b, len := l, timeout := t }
  | .srecv k b l => .req (reqHeader 0x15#8 k) { Ports.zero with buf := b, len := l }
  | .srecvb k b l t => .req (reqHeader 0x16#8 k) { Ports.zero with buf := b, len := l, timeout := t }
  | .sstatus k => .req (reqHeader 0x17#8 k) Ports.zero
  | .sabort k => .req (reqHeader 0x18#8 k) Ports.zero
  | .ssettx k b l => .req (reqHeader 0x19#8 k) { Ports.zero with buf := b, len := l }
  | .ssetrx k b l => .req (reqHeader 0x1A#8 k) { Ports.zero with buf := b, len := l }
  | .txd k d => .cmd k (cmdWord .txd d)
  | .rxn k d => .cmd k (cmdWord .rxn d)
  | .stop k => .cmd k (cmdWord .stop 0#8)
  | .start k d => .cmd k (cmdWord .start d)
  | .startn k d => .cmd k (cmdWord .startn d)
  | .starths k d => .cmd k (cmdWord .starths d)
  | .txrdy k => .evt k 0x01#8
  | .rxrdy k => .evt k 0x02#8
  | .nack k => .evt k 0x03#8
  | .arblost k => .evt k 0x04#8
  | .fifoerr k => .evt k 0x05#8
  | .pinlow k => .evt k 0x06#8
  | .addrvalid k => .evt k 0x11#8
  | .txdata k => .evt k 0x12#8
  | .rxdata k => .evt k 0x13#8
  | .rstart k => .evt k 0x14#8
  | .evtStop k => .evt k 0x15#8
  | .biterr k => .evt k 0x16#8
  | .sfifoerr k => .evt k 0x17#8
  | .dmaok k => .evt k 0x21#8
  | .dmaerr k => .evt k 0x22#8
  | .wtimeout k => .evt k 0x31#8

/-! ## The table's view of a word -/

/-- The port word that a table row's bits stand for, on bus 0 (notes/assumptions/20.md). The table's three widths name
the three spaces: 8 bits EVT, 11 bits CMD, 16 bits REQ. A CMD word asked about in two whole bytes cannot be told from a
REQ header by its width: it is read as a header where that is a request, and as a command word otherwise. -/
def tablePort (nbits w : Nat) : PortWord :=
  if nbits ≤ 8 then .evt 0#8 (BitVec.ofNat 8 w)
  else if nbits ≤ 11 then .cmd 0#8 (BitVec.ofNat 11 w)
  else match decodeReq Params.default (BitVec.ofNat 16 w) Ports.zero with
    | .ok _ => .req (BitVec.ofNat 16 w) Ports.zero
    | .error _ => if w < 2 ^ 11 then .cmd 0#8 (BitVec.ofNat 11 w) else .req (BitVec.ofNat 16 w) Ports.zero

/-- The instruction the decoder reads from a row's bits, with every operand port 0. -/
def decodeTableWord (nbits w : Nat) : Option Instr :=
  match decode Params.default (tablePort nbits w) with
  | .ok i => some i
  | .error _ => none

end Sys2Proof
end

