-- ==== Sys2Proof/Machine/State.lean ====
section
/-! DEFINITION. The state of the I2C engine as plain data (spec 10_state.md): per bus instance the role with its
context, the hardware-side registers, the DMA channel, the host's wait record and the observable traces; beside them the
application memory and the environment's inputs. The machine after reset; the reasons a step can stop. -/

namespace Sys2Proof.Machine

/-! ## Small enumerations -/

/-- Status codes (60_exceptions.md R380); the numbers are `Status.code` in Machine/Flags.lean. -/
inductive Status where
  | success
  | error
  | busy
  | timeout
  | unsupported
  | receivedNack
  | txUnderrun
  | rxOverrun
  | arbitrationLost
  | aborted
  | busBusy
  | lineLowTimeout
  | dmaTxFailure
  | dmaRxFailure
deriving DecidableEq, Repr

/-- Transfer direction intent (R25). -/
inductive Dir where
  | none
  | send
  | receive
deriving DecidableEq, Repr

/-- The sequencing register of an engine (R28, R34). -/
inductive Phase where
  | idle
  | addressing
  | transferring
  | completingSuccess
  | completingError
deriving DecidableEq, Repr

/-- Callback events (30_encoding.md R122). -/
inductive CbEvent where
  | endTransfer
  | txRequested
  | rxRequested
  | txEmpty
  | rxFull
  | stopEvent
  | errorEvent
deriving DecidableEq, Repr

/-- The acknowledge of a transmitted byte (R43). -/
inductive AckBit where
  | ack
  | nack
deriving DecidableEq, Repr

/-- Symbols of the wire trace (R43). -/
inductive WireSym where
  /-- `S`: START. -/
  | s
  /-- `Sr`: repeated START. -/
  | sr
  /-- `Shs`: START, high-speed variant. -/
  | shs
  /-- `Srhs`: repeated START, high-speed variant. -/
  | srhs
  /-- `B(b, a)`: byte transmitted. -/
  | b (byte : Byte) (a : AckBit)
  /-- `R(b)`: byte received. -/
  | r (byte : Byte)
  /-- `P`: STOP from a STOP command. -/
  | p
  /-- `Pauto`: STOP issued by the hardware on its own. -/
  | pauto
  /-- `Lost`: the bus was lost to another master. -/
  | lost
  /-- `Low`: the line was held low. -/
  | low
deriving DecidableEq, Repr

/-- The engine a host waits for (R47). -/
inductive Engine where
  | m
  | s
deriving DecidableEq, Repr

/-- The stage of a blocking wait (R47). -/
inductive Stage where
  | first
  | second
deriving DecidableEq, Repr

/-- Who issued a request: the foreground (HOST) or a user callback inside a handler (R389). -/
inductive Origin where
  | foreground
  | callback
deriving DecidableEq, Repr

/-! ## Contexts -/

/-- A checked configuration record (R113): `mode` is one of the five modes. -/
structure Cfg where
  addr          : BitVec 10
  is10bit       : Bool
  mode          : Mode
  baudRate      : BitVec 32
  baudRateHS    : BitVec 32
  masterCode    : BitVec 3
  transferType  : TransferType
  dmaChannel    : BitVec 8
  callback      : Option Nat
  callbackParam : Nat
  listening     : Bool
deriving DecidableEq, Repr

/-- The Master Context (R21 to R29). A buffer pointer is `none` for null. The queue indices count modulo 10, the slot of
an index is the index modulo 5 (R23). -/
structure MCtx where
  addr             : BitVec 10
  is10bit          : Bool
  mode             : Mode
  baudRate         : BitVec 32
  baudRateHS       : BitVec 32
  masterCode       : BitVec 3
  hsInProgress     : Bool
  txBuff           : Option Nat
  rxBuff           : Option Nat
  txSize           : Nat
  rxSize           : Nat
  swq              : Vector CmdWord 5
  swqWr            : Fin 10
  swqRd            : Fin 10
  dir              : Dir
  sendStop         : Bool
  blocking         : Bool
  status           : Status
  abortedByTimeout : Bool
  sem              : Bool
  idle             : Bool
  phase            : Phase
  transferType     : TransferType
  dmaChannel       : BitVec 8
  callback         : Option Nat
  callbackParam    : Nat
  initCfg          : Cfg
deriving DecidableEq, Repr

/-- The Slave Context (R30 to R35). -/
structure SCtx where
  listening            : Bool
  addr                 : BitVec 10
  is10bit              : Bool
  mode                 : Mode
  txBuff               : Option Nat
  rxBuff               : Option Nat
  txSize               : Nat
  rxSize               : Nat
  repeatedStarts       : Nat
  txUnderrunWarning    : Bool
  isTransferInProgress : Bool
  phase                : Phase
  status               : Status
  blocking             : Bool
  sem                  : Bool
  transferType         : TransferType
  dmaChannel           : BitVec 8
  callback             : Option Nat
  callbackParam        : Nat
deriving DecidableEq, Repr

/-- The role register in the tagged form of R20: a context exists exactly while its role is active. -/
inductive Role where
  | unowned
  | master (m : MCtx)
  | slave (c : SCtx)
deriving DecidableEq, Repr

/-! ## Hardware-side registers -/

/-- The six master sources as a set of bits: the contents of `HW.mie`, and of `HW.mef` seen whole (R39, R40). The byte
with its bit positions is `MSources.toByte` in Machine/Flags.lean. -/
structure MSources where
  txrdy   : Bool
  rxrdy   : Bool
  nack    : Bool
  arblost : Bool
  fifoerr : Bool
  pinlow  : Bool
deriving DecidableEq, Repr

/-- The four latched bits of `HW.mef` (R40); its bits 1 and 2 are levels, not storage. -/
structure MLatched where
  nack    : Bool
  arblost : Bool
  fifoerr : Bool
  pinlow  : Bool
deriving DecidableEq, Repr

/-- The seven slave sources: the contents of `HW.sie` and of `HW.sef` (R44). -/
structure SSources where
  addrvalid : Bool
  txdata    : Bool
  rxdata    : Bool
  rstart    : Bool
  stop      : Bool
  biterr    : Bool
  sfifoerr  : Bool
deriving DecidableEq, Repr

/-- One set of baud-rate fields (R41). -/
structure Baud where
  prescale : Nat
  clkLo    : Nat
  clkHi    : Nat
  setHold  : Nat
  dataVd   : Nat
deriving DecidableEq, Repr

/-- The hardware-side registers of one bus (R36 to R45). Queues are written head first. `fIn` is the model's own: the
input clock frequency sampled at the last `BaudApply`, constant until the next one (46_baud.md R360). -/
structure HW where
  txf     : List CmdWord
  rxf     : List Byte
  rxw     : Nat
  mie     : MSources
  mef     : MLatched
  baud    : Baud
  hs      : Baud
  fIn     : Nat
  busOpen : Bool
  rxLeft  : Nat
  men     : Bool
  wire    : List WireSym
  sen     : Bool
  sie     : SSources
  sef     : SSources
  saddr   : BitVec 11
  srdr    : Byte
  stdr    : Byte
  stx     : List Byte
  irqEn   : Bool
deriving DecidableEq, Repr

/-! ## DMA and host -/

/-- Direction of a DMA channel (R46). -/
inductive DmaDir where
  | memToPeriph
  | periphToMem
deriving DecidableEq, Repr

/-- The data register a DMA channel serves (R46, R80). -/
inductive DmaReg where
  | mtx
  | mrx
  | stx
  | srx
deriving DecidableEq, Repr

/-- The DMA channel (R46). -/
inductive DmaCh where
  | stopped
  | running (dir : DmaDir) (reg : DmaReg) (ptr count : Nat)
deriving DecidableEq, Repr

/-- The host's wait record (R47). -/
structure Wait where
  engine  : Engine
  timeout : Nat
  stage   : Stage
deriving DecidableEq, Repr

/-- What a completed request answered on the request port: the status, and the results of the status and baud-rate
queries (R11 `return`, R112). -/
structure Reply where
  origin         : Origin
  status         : Status
  bytesRemaining : Option Nat
  baud           : Option (Mode × BitVec 32 × BitVec 32)
deriving DecidableEq, Repr

/-- One bus instance (R20). `slaveCapable` and `base` are platform parameters of the instance (R9, R96), never written;
`replies` is the model's own record of what the request port answered, oldest first. -/
structure Inst where
  role         : Role
  hw           : HW
  dma          : DmaCh
  hostw        : Option Wait
  cbTrace      : List (CbEvent × Nat)
  replies      : List Reply
  slaveCapable : Bool
  base         : Nat
deriving DecidableEq, Repr

/-! ## The environment's inputs -/

/-- The bus oracle's answer to a transmitted byte (41_master_commands.md R206). -/
inductive TxAnswer where
  | ack
  | nack
  | arbLost
  | lineLow
deriving DecidableEq, Repr

/-- The bus oracle's answer when a byte is to be received (R206). -/
inductive RxAnswer where
  | byte (b : Byte)
  | lineLow
deriving DecidableEq, Repr

/-- The requests a user callback may issue (42_master_events.md R231, 44_slave_events.md R302). -/
inductive CbReq where
  | msend (buf len : Nat) (stop : Bool)
  | mrecv (buf len : Nat) (stop : Bool)
  | mstatus
  | mgetbaud
  | msetbaud (mode : BitVec 3) (rate rateHS : BitVec 32)
  | ssettx (buf len : Nat)
  | ssetrx (buf len : Nat)
  | sstatus
deriving DecidableEq, Repr

/-- The free inputs of one step (00_scope.md R7): the bus oracle's answers, the bus-idle sample, the input clock
frequency, the requests the user callback issues if it is invoked. R360 admits a positive frequency only; that 0 is taken
too is the model's choice (DESIGN CHOICE, notes/assumptions/36.md). -/
structure Input where
  tx       : TxAnswer
  rx       : RxAnswer
  busIdles : Bool
  fIn      : Nat
  cb       : List CbReq
deriving DecidableEq, Repr

/-- What the slave bus side reports (44_slave_events.md R300). -/
inductive BussAct where
  | addrMatch (rw : Bool)
  | byteIn (b : Byte)
  | byteReq
  | repStart
  | stop
  | bitErr
  | fifoErr
deriving DecidableEq, Repr

/-- The agent that is offered the next step, with what the environment chooses for it (00_scope.md R6, 20_memory.md
R89): the host with a request, the host whose semaphore may be taken, the master bus side, the slave bus side, the
interrupt context, the DMA channel (a byte, a completion, a failure), the timer; `app` is the application storing a byte
of its own memory (R92, R446). -/
inductive Agent where
  | request (header : ReqWord) (ports : Ports)
  | resume (inst : BusIndex)
  | busm (inst : BusIndex)
  | buss (inst : BusIndex) (act : BussAct)
  | isr (inst : BusIndex)
  | dmaMove (inst : BusIndex)
  | dmaOk (inst : BusIndex)
  | dmaErr (inst : BusIndex)
  | timer (inst : BusIndex)
  | app (addr : Nat) (b : Byte)
deriving DecidableEq, Repr

/-- One turn of the interleaving: an agent and the free inputs of its step. -/
structure Turn where
  agent : Agent
  inp   : Input
deriving DecidableEq, Repr

/-! ## Reasons a step stops -/

/-- The model's faults. None is a behaviour of the hardware (60_exceptions.md R382). -/
inductive Fault where
  /-- Raised by `MDEINIT` and `SDEINIT` with a transfer in flight: the source's assertion (R151, R271). Safe: the source
  gives a failed assertion no effect. -/
  | deinitWhileBusy
  /-- Raised by a push onto a full software queue (R191). Safe: the spec asks for the fault and says it is unreachable. -/
  | queueOverflow
  /-- Raised by a push onto a full or a pop of an empty hardware FIFO (R87). Safe: the spec asks for the fault and says it
  is unreachable. -/
  | fifoMisuse
  /-- Raised by the master bus side popping a command word with code 3 or 7 (R121, R200). Safe: the spec asks for the
  fault and says it is unreachable. -/
  | reservedCommand
  /-- Raised by a read of a context field while that context does not exist (R50, U12). Safe: the spec asks for it. -/
  | contextAbsent
  /-- Raised by an access to an address outside the `ADDR_W`-bit space (R81). Safe: there is no such byte. -/
  | noSuchAddress
  /-- Raised by an access through a null buffer pointer with a count above 0 (notes/assumptions/6.md). Safe: the spec's
  rules never make one. -/
  | nullBuffer
deriving DecidableEq, Repr

/-- The model's refusals: inputs the spec gives no meaning (60_exceptions.md R382, R407). -/
inductive Refusal where
  /-- Raised by `exec` for an instruction that has no meaning yet. Safe. -/
  | notModelled (mnemonic : String)
  /-- Raised by a request for an instance in another role or in none (R161, R272, U1). Safe. -/
  | wrongRole
  /-- Raised by a request for an instance whose host is suspended (R161, R272, U2). Safe. -/
  | hostSuspended
  /-- Raised by `MINIT` and `SINIT` of an instance that has a role (R150, R270, U3). Safe. -/
  | initOnOwnedInstance
  /-- Raised by a malformed configuration (R113, R160, U4). Safe. -/
  | badConfig
  /-- Raised by a length or a buffer no transfer may have (R152, R281, R279, U5). Safe. -/
  | badLength
  /-- Raised by `SINIT` of an instance without slave capability (R270, U6). Safe. -/
  | noSlaveCapability
  /-- Raised by a reserved request header (R111, U7). Safe. -/
  | reservedRequest
  /-- Raised by the decoding of an event code outside the map, which no agent delivers (R120, R121, U31). Safe. -/
  | reservedEvent
  /-- Raised by an event handler run while its source is not deliverable (R383): the spec enables no such step, and the
  dispatcher never takes one. Safe. -/
  | notEnabled
deriving DecidableEq, Repr

/-- What a meaning answers. -/
abbrev Res (α : Type) := Host.Outcome α Fault Refusal

/-! ## The machine -/

/-- The whole machine. `par` is the implementation's parameters, never written; `insts` the bus instances by index;
`mem` the application memory (20_memory.md R80) in the canonical form of `Memory.wf` (Machine/Ops.lean); `turns` the
environment's schedule, first turn first, and `inp` the free inputs of the step in progress; `freeCtr` counts the
unspecified values taken so far. -/
structure State where
  par     : Params
  insts   : List Inst
  mem     : List Host.Cell
  turns   : List Turn
  inp     : Input
  freeCtr : Nat
deriving DecidableEq, Repr

/-- No master source (R39). -/
def MSources.none : MSources := ⟨false, false, false, false, false, false⟩

/-- No latched master flag (R40). -/
def MLatched.none : MLatched := ⟨false, false, false, false⟩

/-- No slave source (R44). -/
def SSources.none : SSources := ⟨false, false, false, false, false, false, false⟩

/-- All baud-rate fields 0 (R50, R162). -/
def Baud.zero : Baud := ⟨0, 0, 0, 0, 0⟩

/-- The hardware-side registers after reset (R50). R50 leaves `saddr`, `srdr` and `stdr` unspecified: 0 here
(notes/assumptions/4.md). `fIn` is the model's own (notes/assumptions/12.md). -/
def HW.reset : HW where
  txf := []
  rxf := []
  rxw := 0
  mie := .none
  mef := .none
  baud := .zero
  hs := .zero
  fIn := 0
  busOpen := false
  rxLeft := 0
  men := false
  wire := []
  sen := false
  sie := .none
  sef := .none
  saddr := 0#11
  srdr := 0#8
  stdr := 0#8
  stx := []
  irqEn := false

/-- A bus instance after reset (R50): no role, so no context; channel stopped; host not waiting; traces empty. -/
def Inst.reset : Inst where
  role := .unowned
  hw := .reset
  dma := .stopped
  hostw := none
  cbTrace := []
  replies := []
  slaveCapable := true
  base := 0

/-- The inputs before any step; the model's own field, no rule reads it before a turn has set it. -/
def Input.quiet : Input where
  tx := .ack
  rx := .lineLow
  busIdles := true
  fIn := 0
  cb := []

/-- The machine right after reset (R50, R440) with the default parameters of R9: every instance in its reset state,
memory with nothing listed, no turn scheduled. -/
def State.reset : State where
  par := .default
  insts := List.replicate Params.default.numInst .reset
  mem := []
  turns := []
  inp := .quiet
  freeCtr := 0

end Sys2Proof.Machine
end

