-- ==== Sys2Proof/Machine/Flags.lean ====
section
/-! DEFINITION. Codes and flags: the numbers of statuses, modes, phases and callback events; the enable and flag registers
with their bit positions; which sources are pending and deliverable, in which order they are served; when the master bus
side halts (spec 10_state.md R20 to R49, 60_exceptions.md R380 to R385). -/

namespace Sys2Proof.Machine

/-! ## Code numbers -/

/-- The number of a status (R380). -/
def Status.code : Status → BitVec 4
  | .success => 0#4
  | .error => 1#4
  | .busy => 2#4
  | .timeout => 3#4
  | .unsupported => 4#4
  | .receivedNack => 5#4
  | .txUnderrun => 6#4
  | .rxOverrun => 7#4
  | .arbitrationLost => 8#4
  | .aborted => 9#4
  | .busBusy => 10#4
  | .lineLowTimeout => 11#4
  | .dmaTxFailure => 12#4
  | .dmaRxFailure => 13#4

/-- The number of a mode (R24). -/
def modeCode : Mode → BitVec 3
  | .standard => 0#3
  | .fast => 1#3
  | .fastPlus => 2#3
  | .highSpeed => 3#3
  | .ultraFast => 4#3

/-- The number of a direction (R25). -/
def Dir.code : Dir → BitVec 2
  | .none => 0#2
  | .send => 1#2
  | .receive => 2#2

/-- The number of a phase (R28). -/
def Phase.code : Phase → BitVec 3
  | .idle => 0#3
  | .addressing => 1#3
  | .transferring => 2#3
  | .completingSuccess => 3#3
  | .completingError => 4#3

/-- The number of a role (R20). -/
def Role.code : Role → BitVec 2
  | .unowned => 0#2
  | .master _ => 1#2
  | .slave _ => 2#2

/-- The number of a callback event (R122). -/
def CbEvent.code : CbEvent → Nat
  | .endTransfer => 0
  | .txRequested => 1
  | .rxRequested => 2
  | .txEmpty => 3
  | .rxFull => 4
  | .stopEvent => 5
  | .errorEvent => 6

/-! ## Enable and flag registers -/

/-- `bit` at position `k` of a byte. -/
def bitAt (k : Nat) (bit : Bool) : Byte := if bit then 1#8 <<< k else 0#8

/-- The register byte of the master sources: bits 1 to 6, bits 0 and 7 read 0 (R39). -/
def MSources.toByte (f : MSources) : Byte :=
  bitAt 1 f.txrdy ||| bitAt 2 f.rxrdy ||| bitAt 3 f.nack ||| bitAt 4 f.arblost ||| bitAt 5 f.fifoerr
    ||| bitAt 6 f.pinlow

/-- The register byte of the slave sources: bits 1 to 7, bit 0 reads 0 (R44). -/
def SSources.toByte (f : SSources) : Byte :=
  bitAt 1 f.addrvalid ||| bitAt 2 f.txdata ||| bitAt 3 f.rxdata ||| bitAt 4 f.rstart ||| bitAt 5 f.stop
    ||| bitAt 6 f.biterr ||| bitAt 7 f.sfifoerr

/-- The master error sources `{NACK, ARBLOST, FIFOERR, PINLOW}`, with the two data sources as given (R153, R155). -/
def mieErrors (txrdy rxrdy : Bool) : MSources :=
  { txrdy, rxrdy, nack := true, arblost := true, fifoerr := true, pinlow := true }

/-- The five armed slave sources `{ADDRVALID, RSTART, STOP, BITERR, SFIFOERR}` (R270, R281). -/
def sieArmed : SSources :=
  { addrvalid := true, txdata := false, rxdata := false, rstart := true, stop := true, biterr := true,
    sfifoerr := true }

/-- `HW.mef` seen whole: the two levels beside the four latched bits (R40). -/
def mefOf (h : HW) : MSources :=
  { txrdy := h.txf.isEmpty, rxrdy := decide (h.rxw < h.rxf.length), nack := h.mef.nack, arblost := h.mef.arblost,
    fifoerr := h.mef.fifoerr, pinlow := h.mef.pinlow }

/-- Bits set in both. -/
def MSources.meet (a b : MSources) : MSources :=
  { txrdy := a.txrdy && b.txrdy, rxrdy := a.rxrdy && b.rxrdy, nack := a.nack && b.nack,
    arblost := a.arblost && b.arblost, fifoerr := a.fifoerr && b.fifoerr, pinlow := a.pinlow && b.pinlow }

/-- Bits set in both. -/
def SSources.meet (a b : SSources) : SSources :=
  { addrvalid := a.addrvalid && b.addrvalid, txdata := a.txdata && b.txdata, rxdata := a.rxdata && b.rxdata,
    rstart := a.rstart && b.rstart, stop := a.stop && b.stop, biterr := a.biterr && b.biterr,
    sfifoerr := a.sfifoerr && b.sfifoerr }

/-- The deliverable master sources: pending, enabled, the interrupt vector enabled, the role Master (R383, R384). -/
def deliverableM (x : Inst) : MSources :=
  match x.role with
  | .master _ => if x.hw.irqEn then (mefOf x.hw).meet x.hw.mie else .none
  | _ => .none

/-- The deliverable slave sources (R383, R384). -/
def deliverableS (x : Inst) : SSources :=
  match x.role with
  | .slave _ => if x.hw.irqEn then x.hw.sef.meet x.hw.sie else .none
  | _ => .none

/-- `DMAOK` is enabled: the channel runs with count 0 and the vector is enabled (R337), a role is active (R383). -/
def dmaokEnabled (x : Inst) : Bool :=
  match x.role, x.dma with
  | .unowned, _ => false
  | _, .running _ _ _ 0 => x.hw.irqEn
  | _, _ => false

/-- `DMAERR` is enabled: the channel runs, with any count, and the vector is enabled (R337). -/
def dmaerrEnabled (x : Inst) : Bool :=
  match x.role, x.dma with
  | .unowned, _ => false
  | _, .running _ _ _ _ => x.hw.irqEn
  | _, _ => false

/-- `WTIMEOUT` is enabled: the host waits on the active context and its semaphore is not posted (R164, R168, R282). The
slave has no second stage (R282). -/
def wtimeoutEnabled (x : Inst) : Bool :=
  match x.role, x.hostw with
  | .master m, some ⟨.m, _, _⟩ => !m.sem
  | .slave c, some ⟨.s, _, .first⟩ => !c.sem
  | _, _ => false

/-- The first deliverable master source in the order `FIFOERR, ARBLOST, NACK, PINLOW, RXRDY, TXRDY`, by its event code
(R385, R120). -/
def masterFirst (d : MSources) : Option EvtCode :=
  if d.fifoerr then some 0x05#8
  else if d.arblost then some 0x04#8
  else if d.nack then some 0x03#8
  else if d.pinlow then some 0x06#8
  else if d.rxrdy then some 0x02#8
  else if d.txrdy then some 0x01#8
  else none

/-- The first deliverable slave source in the order `BITERR, SFIFOERR, ADDRVALID, RXDATA, TXDATA, RSTART, EVT.STOP`, by
its event code (R385, R120). -/
def slaveFirst (d : SSources) : Option EvtCode :=
  if d.biterr then some 0x16#8
  else if d.sfifoerr then some 0x17#8
  else if d.addrvalid then some 0x11#8
  else if d.rxdata then some 0x13#8
  else if d.txdata then some 0x12#8
  else if d.rstart then some 0x14#8
  else if d.stop then some 0x15#8
  else none

/-- The event the interrupt context serves next: with role Master only master sources are examined, with role Slave only
slave sources, with no role none (R384, R385). -/
def dispatchFirst (x : Inst) : Option EvtCode :=
  match x.role with
  | .unowned => none
  | .master _ => masterFirst (deliverableM x)
  | .slave _ => slaveFirst (deliverableS x)

/-- The mode of the Master Context is ultra-fast. -/
def ultraFast (x : Inst) : Bool :=
  match x.role with
  | .master m => m.mode == .ultraFast
  | _ => false

/-- The master bus side is halted: a latched `ARBLOST`, `FIFOERR` or `PINLOW`, or a latched `NACK` outside ultra-fast
mode (R42). Without a Master Context there is no mode to read and a latched `NACK` halts. -/
def busHalted (x : Inst) : Bool :=
  x.hw.mef.arblost || x.hw.mef.fifoerr || x.hw.mef.pinlow || (x.hw.mef.nack && !ultraFast x)

end Sys2Proof.Machine
end

