-- ==== Sys2Proof/Machine/Operands.lean ====
section
/-! DEFINITION. Operand forms: modes and configuration records read from their ports, address and master-code bytes, the
receive count, buffer bounds (spec 30_encoding.md R113, R116 to R119; 20_memory.md R82). -/

namespace Sys2Proof.Machine

/-- The mode a 3-bit value names; 5 to 7 are reserved (R24, R113). -/
def modeOfBits (b : BitVec 3) : Option Mode :=
  match b.toNat with
  | 0 => some .standard
  | 1 => some .fast
  | 2 => some .fastPlus
  | 3 => some .highSpeed
  | 4 => some .ultraFast
  | _ => none

/-- A well-formed configuration record: a mode that exists, and `addr[9:7] = 0` with 7-bit addressing (R113). -/
def checkCfg (c : CfgPort) : Option Cfg :=
  match modeOfBits c.mode with
  | none => none
  | some mode =>
    if !c.is10bit && c.addr.extractLsb' 7 3 != 0#3 then none
    else some
      { addr := c.addr, is10bit := c.is10bit, mode, baudRate := c.baudRate, baudRateHS := c.baudRateHS,
        masterCode := c.masterCode, transferType := c.transferType, dmaChannel := c.dmaChannel,
        callback := c.callback, callbackParam := c.callbackParam, listening := c.listening }

/-- The read/write bit as a byte: 0 for a send, 1 for a receive (R116). -/
def rwByte (rw : Bool) : Byte := if rw then 1#8 else 0#8

/-- `AddrByte7(addr, rw) = (addr[6:0] << 1) | rw` (R116). -/
def addrByte7 (addr : BitVec 10) (rw : Bool) : Byte := ((addr.extractLsb' 0 7).setWidth 8 <<< 1) ||| rwByte rw

/-- `AddrByte10a(addr, rw) = 0xF0 | (addr[9:8] << 1) | rw` (R118). -/
def addrByte10a (addr : BitVec 10) (rw : Bool) : Byte :=
  0xF0#8 ||| ((addr.extractLsb' 8 2).setWidth 8 <<< 1) ||| rwByte rw

/-- `AddrByte10b(addr) = addr[7:0]` (R118). -/
def addrByte10b (addr : BitVec 10) : Byte := addr.extractLsb' 0 8

/-- `MasterCodeByte(code) = 0x08 | code[2:0]` (R119). -/
def masterCodeByte (code : BitVec 3) : Byte := 0x08#8 ||| code.setWidth 8

/-- The data of `RXN` for a receive of `len` bytes: `len - 1` in 8 bits (R117). -/
def rxnData (len : Nat) : Byte := BitVec.ofNat 8 (len - 1)

/-- How many bytes `RXN data` receives (R117, R202). -/
def rxnCount (d : Byte) : Nat := d.toNat + 1

/-- `buf + len > 2^ADDR_W`: the buffer would wrap past the top of the address space (R82). -/
def bufferWraps (p : Params) (buf len : Nat) : Bool := decide (2 ^ p.addrW < buf + len)

/-- A buffer pointer advances modulo `2^ADDR_W` (R82). -/
def ptrNext (p : Params) (ptr : Nat) : Nat := (ptr + 1) % 2 ^ p.addrW

/-- The received address register for a match with direction `rw`: `(S.addr << 1) or rw` (R300, R44). -/
def saddrOf (addr : BitVec 10) (rw : Bool) : BitVec 11 :=
  (addr.setWidth 11 <<< 1) ||| (if rw then 1#11 else 0#11)

/-- The low bit of the received address: 1 is read intent, the slave transmits (R303). -/
def readIntent (a : BitVec 11) : Bool := a.getLsbD 0

end Sys2Proof.Machine
end

