-- ==== Sys2Proof/Machine/Ops.lean ====
section
/-! DEFINITION. The named operations: sequencing of answers, application memory, the two hardware FIFOs, the software
command queue, the offer of a command, the DMA channel, replies, and how an operation reaches the registers of one bus
(spec 20_memory.md; 41_master_commands.md R190, R191; 45_dma.md R330, R331). -/

namespace Sys2Proof.Machine

/-- Go on with the next value, or stop where the first part stopped. -/
def andThen {α β : Type} (r : Res α) (f : α → Res β) : Res β :=
  match r with
  | .next a => f a
  | .fault e => .fault e
  | .refused e => .refused e

/-! ## Application memory (R80, R81) -/

/-- Application memory: cells with rising addresses, none equal to what an unlisted address reads as. -/
abbrev Memory := List Host.Cell

/-- What a byte that nothing has written reads as (notes/assumptions/5.md). -/
def Memory.unwritten : Byte := 0#8

/-- The canonical form: addresses strictly rising, no cell that says what an unlisted address says. -/
def Memory.wf : Memory → Bool
  | [] => true
  | (a, b) :: rest => b != Memory.unwritten && rest.all (fun c => decide (a < c.1)) && Memory.wf rest

/-- The byte at an address. -/
def Memory.read : Memory → Nat → Byte
  | [], _ => Memory.unwritten
  | (a, b) :: rest, k => if k = a then b else Memory.read rest k

/-- A cell for `b` at `k` in front of `rest`, or none where `b` is what an unlisted address reads as. -/
def Memory.put (k : Nat) (b : Byte) (rest : Memory) : Memory :=
  if b = Memory.unwritten then rest else (k, b) :: rest

/-- The memory with `b` at `k`, in canonical form. -/
def Memory.write : Memory → Nat → Byte → Memory
  | [], k, b => Memory.put k b []
  | (a, c) :: rest, k, b =>
    if k < a then Memory.put k b ((a, c) :: rest)
    else if k = a then Memory.put k b rest
    else (a, c) :: Memory.write rest k b

/-- `MemRead(addr, 1)` (R11, R85). -/
def memRead (p : Params) (m : Memory) (addr : Nat) : Res Byte :=
  if addr < 2 ^ p.addrW then .next (m.read addr) else .fault .noSuchAddress

/-- `MemWrite(addr, 1, v)` (R11, R85). -/
def memWrite (p : Params) (m : Memory) (addr : Nat) (v : Byte) : Res Memory :=
  if addr < 2 ^ p.addrW then .next (m.write addr v) else .fault .noSuchAddress

/-- The address a buffer pointer holds. -/
def bufAddr (b : Option Nat) : Res Nat :=
  match b with
  | some a => .next a
  | none => .fault .nullBuffer

/-! ## The registers of one bus, with one context in view -/

/-- What the rules of one engine work on: the context `ctx` of the active role, the registers of its bus, the memory, the
inputs and parameters. -/
structure Node (C : Type) where
  par     : Params
  inp     : Input
  mem     : Memory
  ctx     : C
  hw      : HW
  dma     : DmaCh
  hostw   : Option Wait
  cbTrace : List (CbEvent × Nat)
  replies : List Reply
deriving DecidableEq, Repr

/-- The master engine's view. -/
abbrev MNode := Node MCtx

/-- The slave engine's view. -/
abbrev SNode := Node SCtx

/-- The view of an instance with a context. -/
def Node.of {C : Type} (s : State) (x : Inst) (c : C) : Node C :=
  { par := s.par, inp := s.inp, mem := s.mem, ctx := c, hw := x.hw, dma := x.dma, hostw := x.hostw,
    cbTrace := x.cbTrace, replies := x.replies }

/-- The instance a view stands for, with its role. -/
def Node.inst {C : Type} (n : Node C) (role : Role) (x : Inst) : Inst :=
  { x with role, hw := n.hw, dma := n.dma, hostw := n.hostw, cbTrace := n.cbTrace, replies := n.replies }

/-- The instance of a bus index. -/
def State.inst? (s : State) (k : BusIndex) : Option Inst := s.insts[k.toNat]?

/-- The state with an instance replaced. -/
def State.setInst (s : State) (k : BusIndex) (x : Inst) : State := { s with insts := s.insts.set k.toNat x }

/-- The state after a view's work: memory and the instance are written back, nothing else. -/
def State.putNode {C : Type} (s : State) (k : BusIndex) (x : Inst) (role : Role) (n : Node C) : State :=
  { s with mem := n.mem, insts := s.insts.set k.toNat (n.inst role x) }

/-- A rule that needs the instance only; a bus index with no instance is reserved (R111). -/
def onInst (k : BusIndex) (s : State) (f : Inst → Res State) : Res State :=
  match s.inst? k with
  | none => .refused .reservedRequest
  | some x => f x

/-- A host request to the master engine: the first test of `MPre` (R161). -/
def onMaster (k : BusIndex) (s : State) (f : MNode → Res MNode) : Res State :=
  onInst k s fun x =>
    match x.role with
    | .master m => andThen (f (Node.of s x m)) fun n => .next (s.putNode k x (.master n.ctx) n)
    | _ => .refused .wrongRole

/-- A host request to the slave engine: the first test of `SPre` (R272). -/
def onSlave (k : BusIndex) (s : State) (f : SNode → Res SNode) : Res State :=
  onInst k s fun x =>
    match x.role with
    | .slave c => andThen (f (Node.of s x c)) fun n => .next (s.putNode k x (.slave n.ctx) n)
    | _ => .refused .wrongRole

/-- Taking an event (R383, R384, R386): the handler of the source runs as one step iff the source is deliverable. Nothing
is saved and nothing restored; the return from the handler is the end of the step (R386). -/
def takeMasterEvent (src : MSources → Bool) (k : BusIndex) (s : State) (f : MNode → Res MNode) : Res State :=
  onInst k s fun x =>
    match x.role with
    | .master m =>
      if src (deliverableM x) then andThen (f (Node.of s x m)) fun n => .next (s.putNode k x (.master n.ctx) n)
      else .refused .notEnabled
    | _ => .refused .notEnabled

/-- Taking a slave event (R383, R384, R386). -/
def takeSlaveEvent (src : SSources → Bool) (k : BusIndex) (s : State) (f : SNode → Res SNode) : Res State :=
  onInst k s fun x =>
    match x.role with
    | .slave c =>
      if src (deliverableS x) then andThen (f (Node.of s x c)) fun n => .next (s.putNode k x (.slave n.ctx) n)
      else .refused .notEnabled
    | _ => .refused .notEnabled

/-! ## Host interface -/

/-- `return Status` with no further result (R11). -/
def reply {C : Type} (o : Origin) (st : Status) (n : Node C) : Node C :=
  { n with replies := n.replies ++ [⟨o, st, none, none⟩] }

/-- The answer of a status query: the status and `bytesRemaining` (R157, R277). -/
def replyBytes {C : Type} (o : Origin) (st : Status) (bytes : Nat) (n : Node C) : Node C :=
  { n with replies := n.replies ++ [⟨o, st, some bytes, none⟩] }

/-- The answer of a baud-rate query (R159). -/
def replyBaud {C : Type} (o : Origin) (st : Status) (m : Mode) (rate rateHS : BitVec 32) (n : Node C) : Node C :=
  { n with replies := n.replies ++ [⟨o, st, none, some (m, rate, rateHS)⟩] }

/-- A request either completes at once or leaves the host suspended with its timeout (R154, R274). -/
def completeOrWait {C : Type} (o : Origin) (e : Engine) (timeout : Option Nat) (n : Node C) : Node C :=
  match timeout with
  | none => reply o .success n
  | some t => { n with hostw := some ⟨e, t, .first⟩ }

/-- The second test of `MPre` and `SPre`: the host is suspended, and the request is not one a callback may issue all the
same (R161, R272). -/
def suspended {C : Type} (o : Origin) (exempt : Bool) (n : Node C) : Bool :=
  n.hostw.isSome && !(exempt && o == .callback)

/-! ## The hardware FIFOs (R86, R87) -/

/-- `PushTXF(w)` (R190). -/
def pushTxf {C : Type} (w : CmdWord) (n : Node C) : Res (Node C) :=
  if n.hw.txf.length < n.par.txDepth then .next { n with hw := { n.hw with txf := n.hw.txf ++ [w] } }
  else .fault .fifoMisuse

/-- `PopRXF()`: the head of the receive FIFO and the rest (R86). -/
def popRxf {C : Type} (n : Node C) : Res (Byte × Node C) :=
  match n.hw.rxf with
  | [] => .fault .fifoMisuse
  | b :: rest => .next (b, { n with hw := { n.hw with rxf := rest } })

/-! ## The software command queue (R23, R191) -/

/-- `SwqEmpty()`. -/
def swqEmpty (m : MCtx) : Bool := m.swqWr == m.swqRd

/-- `SwqCount() = (M.swqWr - M.swqRd) mod 10`. -/
def swqCount (m : MCtx) : Nat := (m.swqWr - m.swqRd).val

/-- The slot an index addresses: the index modulo 5. -/
def swqSlot (i : Fin 10) : Fin 5 := ⟨i.val % 5, Nat.mod_lt _ (by decide)⟩

/-- `SwqPush(w)`. -/
def swqPush (w : CmdWord) (n : MNode) : Res MNode :=
  if swqCount n.ctx = Config.swqCap then .fault .queueOverflow
  else .next { n with ctx := { n.ctx with swq := n.ctx.swq.set (swqSlot n.ctx.swqWr).val w (swqSlot n.ctx.swqWr).isLt,
                                          swqWr := n.ctx.swqWr + 1 } }

/-- The word `SwqPop()` returns. -/
def swqHead (m : MCtx) : CmdWord := m.swq[(swqSlot m.swqRd).val]

/-- The context after `SwqPop()`: both indices are zeroed when the queue drains to empty. -/
def swqDrop (m : MCtx) : MCtx :=
  if m.swqWr = m.swqRd + 1 then { m with swqWr := 0, swqRd := 0 } else { m with swqRd := m.swqRd + 1 }

/-- The entries of the queue, oldest first: what the indices stand for. -/
def swqEntries (m : MCtx) : List CmdWord :=
  (List.range (swqCount m)).map fun j => m.swq[(swqSlot (m.swqRd + Fin.ofNat 10 j)).val]

/-- `Offer(cmd, data)`: to the transmit FIFO when the queue is empty and there is room, else to the queue (R190). -/
def offer (c : Cmd) (d : Byte) (n : MNode) : Res MNode :=
  if swqEmpty n.ctx && decide (n.hw.txf.length < n.par.txDepth) then pushTxf (cmdWord c d) n
  else swqPush (cmdWord c d) n

/-- `PushTXF(SwqPop())` while the queue is not empty and the FIFO has room; at most `fuel` words (R193). -/
def drainLoop : Nat → MNode → Res MNode
  | 0, n => .next n
  | fuel + 1, n =>
    if !swqEmpty n.ctx && decide (n.hw.txf.length < n.par.txDepth) then
      andThen (pushTxf (swqHead n.ctx) { n with ctx := swqDrop n.ctx }) (drainLoop fuel)
    else .next n

/-- `DrainQueue()` (R193). -/
def drainQueue (n : MNode) : Res MNode :=
  andThen (drainLoop (swqCount n.ctx) n) fun n =>
    if swqEmpty n.ctx && n.ctx.phase == .addressing then
      .next { n with ctx := { n.ctx with phase := .transferring } }
    else .next n

/-- `ResetFIFOs()` (R88). -/
def resetFifos (n : MNode) : MNode :=
  { n with hw := { n.hw with txf := [], rxf := [], rxLeft := 0 }, ctx := { n.ctx with swqWr := 0, swqRd := 0 } }

/-! ## The DMA channel (R330, R331) -/

/-- `DmaArm(dir, reg, ptr, count)`: a running descriptor is replaced. -/
def dmaArm {C : Type} (dir : DmaDir) (reg : DmaReg) (ptr count : Nat) (n : Node C) : Node C :=
  { n with dma := .running dir reg ptr count }

/-- `DmaStop()`. -/
def dmaStop {C : Type} (n : Node C) : Node C := { n with dma := .stopped }

/-- The channel's remaining count while it runs (R157, R277). -/
def dmaCount : DmaCh → Option Nat
  | .running _ _ _ c => some c
  | .stopped => none

/-- `bytesRemaining`: the channel's count in DMA mode while it runs, else `txSize + rxSize`, in `SIZE_W` bits (R157,
R277). -/
def bytesRemaining (p : Params) (t : TransferType) (d : DmaCh) (txSize rxSize : Nat) : Nat :=
  match t, dmaCount d with
  | .dma, some c => c % 2 ^ p.sizeW
  | _, _ => (txSize + rxSize) % 2 ^ p.sizeW

/-! ## Reset of the hardware by init (R162) -/

/-- The registers `HwReset` writes; the histories, the slave data registers and the interrupt vector's enable are left. -/
def hwReset (h : HW) : HW :=
  { h with txf := [], rxf := [], rxw := 0, mie := .none, mef := .none, sie := .none, sef := .none, baud := .zero,
           hs := .zero, busOpen := false, rxLeft := 0, men := false, sen := false }

end Sys2Proof.Machine
end

