-- ==== Sys2Proof/Machine/BusCommands.lean ====
section
/-! DEFINITION. The meanings of the six FIFO command words as the master bus side executes them once the word has been
popped (spec 41_master_commands.md R200 to R209), and the arbitration-loss detector (R207). -/

namespace Sys2Proof.Machine

/-- A symbol is appended to the wire trace. -/
def putWire (w : WireSym) (h : HW) : HW := { h with wire := h.wire ++ [w] }

/-- `RaiseNack()` (R204): the flag; outside ultra-fast mode the hardware issues a STOP on its own. -/
def raiseNack (x : Inst) : Res Inst :=
  match x.role with
  | .master m =>
    let h := { x.hw with mef := { x.hw.mef with nack := true } }
    .next { x with hw := if m.mode = .ultraFast then h else { putWire .pauto h with busOpen := false } }
  | _ => .fault .contextAbsent

/-- The arbitration-loss detector's effect (R207): the bus is lost and released, nothing more. -/
def arbitrationLost (x : Inst) : Inst :=
  { x with hw := { putWire .lost x.hw with mef := { x.hw.mef with arblost := true }, busOpen := false } }

/-- The line was held low under a byte (R204, R205). -/
def lineHeldLow (x : Inst) : Inst :=
  { x with hw := { putWire .low x.hw with mef := { x.hw.mef with pinlow := true }, busOpen := false } }

/-- `TransmitByte(b, expectNack)` with the oracle's answer (R204, R206). -/
def transmitByte (b : Byte) (expectNack : Bool) (ans : TxAnswer) (x : Inst) : Res Inst :=
  match ans with
  | .ack =>
    let x := { x with hw := putWire (.b b .ack) x.hw }
    if expectNack then raiseNack x else .next x
  | .nack =>
    let x := { x with hw := putWire (.b b .nack) x.hw }
    if expectNack then .next x else raiseNack x
  | .arbLost => .next (arbitrationLost x)
  | .lineLow => .next (lineHeldLow x)

/-- The START symbol, repeated when the bus is open, and the open bus (R204). -/
def startSymbol (fresh repeated : WireSym) (x : Inst) : Inst :=
  { x with hw := { putWire (if x.hw.busOpen then repeated else fresh) x.hw with busOpen := true } }

/-- The FIFO operational error: data or a receive without a START (R201, R202). -/
def fifoError (x : Inst) : Inst := { x with hw := { x.hw with mef := { x.hw.mef with fifoerr := true } } }

/-- A command word at work on one bus. -/
def onBus (k : BusIndex) (s : State) (f : Inst → Res Inst) : Res State :=
  onInst k s fun x => andThen (f x) fun x => .next (s.setInst k x)

/-- `TXD data` (R201). -/
def execTxd (inst : BusIndex) (data : Byte) (s : State) : Res State :=
  onBus inst s fun x =>
    if x.hw.busOpen then transmitByte data false s.inp.tx x else .next (fifoError x)

/-- `RXN data` (R202). -/
def execRxn (inst : BusIndex) (data : Byte) (s : State) : Res State :=
  onBus inst s fun x =>
    if x.hw.busOpen then .next { x with hw := { x.hw with rxLeft := rxnCount data } } else .next (fifoError x)

/-- `STOP` (R203): nothing on a bus this master does not hold. -/
def execStop (inst : BusIndex) (s : State) : Res State :=
  onBus inst s fun x =>
    if x.hw.busOpen then .next { x with hw := { putWire .p x.hw with busOpen := false } } else .next x

/-- `START data` (R204). -/
def execStart (inst : BusIndex) (data : Byte) (s : State) : Res State :=
  onBus inst s fun x => transmitByte data false s.inp.tx (startSymbol .s .sr x)

/-- `STARTN data` (R208): a master code, expecting a NACK by design. -/
def execStartn (inst : BusIndex) (data : Byte) (s : State) : Res State :=
  onBus inst s fun x => transmitByte data true s.inp.tx (startSymbol .s .sr x)

/-- `STARTHS data` (R209): the high-speed START variant. -/
def execStarths (inst : BusIndex) (data : Byte) (s : State) : Res State :=
  onBus inst s fun x => transmitByte data false s.inp.tx (startSymbol .shs .srhs x)

end Sys2Proof.Machine
end

