-- ==== Sys2Proof/Machine/Baud.lean ====
section
/-! DEFINITION. The baud-rate computation (spec 46_baud.md R360 to R367), on unbounded naturals with truncating
division. -/

namespace Sys2Proof.Machine

/-- `clamp(v, lo, hi) = max(lo, min(v, hi))` (R10). -/
def clamp (v lo hi : Nat) : Nat := max lo (min v hi)

/-- `d(p) = rate * 2^p` (R361). -/
def baudDivisor (rate p : Nat) : Nat := rate * 2 ^ p

/-- `clkTotal(p) = (f_in + d(p) div 2) div d(p)` (R361). -/
def clkTotal (fIn rate p : Nat) : Nat := (fIn + baudDivisor rate p / 2) / baudDivisor rate p

/-- `LIMIT` (R361). -/
def baudLimit (par : Params) : Nat := par.clkHiMax + par.clkLoMax + par.periodOverhead

/-- The smallest prescaler from `p` upwards whose total fits, looking at `fuel` values before the last; the last if there
is none. -/
def prescalerFrom (par : Params) (fIn rate : Nat) : Nat → Nat → Nat
  | 0, p => p
  | fuel + 1, p =>
    if clkTotal fIn rate p ≤ baudLimit par then p else prescalerFrom par fIn rate fuel (p + 1)

/-- `p*`: the smallest value in 0..7 that fits, 7 if there is none (R361). -/
def prescalerOf (par : Params) (fIn rate : Nat) : Nat := prescalerFrom par fIn rate Config.prescaleMax 0

/-- The setup/hold delay of a high period (R363). -/
def setHoldOf (par : Params) (clkHi : Nat) : Nat :=
  clamp (clkHi * par.setHoldNum / par.setHoldDen) par.setHoldMin par.setHoldMax

/-- The data-valid delay of a high period (R363). -/
def dataVdOf (par : Params) (clkHi : Nat) : Nat :=
  clamp (clkHi * par.dataVdNum / par.dataVdDen) par.dataVdMin par.dataVdMax

/-- The fields with given prescaler and half-periods; the delays follow from the high period (R363). -/
def baudFields (par : Params) (prescale clkHi clkLo : Nat) : Baud :=
  { prescale, clkLo, clkHi, setHold := setHoldOf par clkHi, dataVd := dataVdOf par clkHi }

/-- The half-periods of a period of `t` cycles, the odd cycle to the high one (R362). -/
def baudOfPeriod (par : Params) (prescale t : Nat) : Baud :=
  baudFields par prescale (clamp ((t + 1) / 2) par.clkHiMin par.clkHiMax)
    (clamp (t - (t + 1) / 2) par.clkLoMin par.clkLoMax)

/-- `BaudCalc(f_in, rate)` (R361 to R363); rate 0 is the maximum divide-down (R364). Where no prescaler fits and R364's last
sentence does not follow from R361 and R362, these two are followed: the model's choice (DESIGN CHOICE,
notes/assumptions/37.md). -/
def baudCalc (par : Params) (fIn rate : Nat) : Baud :=
  if rate = 0 then baudFields par Config.prescaleMax par.clkHiMax par.clkLoMax
  else
    let p := prescalerOf par fIn rate
    baudOfPeriod par p (clkTotal fIn rate p - par.periodOverhead)

/-- `BaudApply(mode, rate, rateHS)` (R365): the high-speed set is written in high-speed mode only. The clock frequency of
the computation is kept for the queries until the next one (R360). -/
def baudApply (par : Params) (fIn : Nat) (mode : Mode) (rate rateHS : BitVec 32) (h : HW) : HW :=
  { h with fIn, baud := baudCalc par fIn rate.toNat,
           hs := if mode = .highSpeed then baudCalc par fIn rateHS.toNat else h.hs }

/-- The divisor of `ActualRate`: `2^p * (lo + hi + PERIOD_OVERHEAD)` (R367). -/
def rateDivisor (par : Params) (b : Baud) : Nat := 2 ^ b.prescale * (b.clkLo + b.clkHi + par.periodOverhead)

/-- `ActualRate(p, lo, hi) = f_in div (2^p * (lo + hi + PERIOD_OVERHEAD))` (R367). -/
def actualRate (par : Params) (fIn : Nat) (b : Baud) : Nat := fIn / rateDivisor par b

/-- `ActualRate` on its 32-bit result port (R112, R367); where it is no 32-bit number the answer is not stated
(notes/assumptions/22.md). -/
def rateOnPort (par : Params) (fIn : Nat) (b : Baud) : BitVec 32 :=
  if 0 < rateDivisor par b ∧ actualRate par fIn b < 2 ^ 32 then BitVec.ofNat 32 (actualRate par fIn b)
  else Config.unstatedRate fIn (rateDivisor par b)

end Sys2Proof.Machine
end

