-- ==== Sys2Proof/Machine/MasterEngine.lean ====
section
/-! DEFINITION. The master engine's routines: the address phase, the FIFO fill and drain, acceptance of a transfer, the
requests as the foreground and a callback issue them, the end of a transfer and its notification (spec
40_master_requests.md R152 to R161; 41_master_commands.md R194, R195; 42_master_events.md R230 to R236). -/

namespace Sys2Proof.Machine

/-! ## The address phase (R194, R195) -/

/-- `ST`: the start command of the mode (R194). -/
def startCmd (m : Mode) : Cmd := if m = .highSpeed then .starths else .start

/-- The master code in front of a high-speed burst (R195). -/
def masterCodePhase (n : MNode) : Res MNode :=
  if n.ctx.mode = .highSpeed ∧ n.ctx.hsInProgress = false then
    andThen (offer .startn (masterCodeByte n.ctx.masterCode) n) fun n =>
      .next { n with ctx := { n.ctx with hsInProgress := true } }
  else .next n

/-- `AddressPhase(dir)` (R194). -/
def addressPhase (dir : Dir) (n : MNode) : Res MNode :=
  andThen (masterCodePhase n) fun n =>
    let st := startCmd n.ctx.mode
    let a := n.ctx.addr
    if !n.ctx.is10bit then offer st (addrByte7 a (dir == .receive)) n
    else
      andThen (offer st (addrByte10a a false) n) fun n =>
      andThen (offer .txd (addrByte10b a) n) fun n =>
        if dir = .receive then offer st (addrByte10a a true) n else .next n

/-! ## The FIFO fill and drain sequencer (R233, R234) -/

/-- One byte of the send buffer becomes a `TXD` word in the FIFO. -/
def fillOne (n : MNode) : Res MNode :=
  andThen (bufAddr n.ctx.txBuff) fun a =>
  andThen (memRead n.par n.mem a) fun b =>
  andThen (pushTxf (cmdWord .txd b) n) fun n =>
    .next { n with ctx := { n.ctx with txBuff := some (ptrNext n.par a), txSize := n.ctx.txSize - 1 } }

/-- The loop of `FillTx`, at most `fuel` bytes. -/
def fillLoop : Nat → MNode → Res MNode
  | 0, n => .next n
  | fuel + 1, n =>
    if 0 < n.ctx.txSize ∧ n.hw.txf.length < n.par.txDepth then andThen (fillOne n) (fillLoop fuel) else .next n

/-- `FillTx()`: fill the FIFO while bytes and room are left (R233). -/
def fillTx (n : MNode) : Res MNode := fillLoop (n.par.txDepth - n.hw.txf.length) n

/-- One byte of the receive FIFO is stored in the receive buffer. -/
def drainOne (n : MNode) : Res MNode :=
  andThen (popRxf n) fun r =>
  andThen (bufAddr r.2.ctx.rxBuff) fun a =>
  andThen (memWrite r.2.par r.2.mem a r.1) fun m =>
    .next { r.2 with mem := m, ctx := { r.2.ctx with rxBuff := some (ptrNext r.2.par a), rxSize := r.2.ctx.rxSize - 1 } }

/-- The drain loop of `RXRDY`: while there are bytes and room, at most `fuel` bytes (R234). -/
def rxLoop : Nat → MNode → Res MNode
  | 0, n => .next n
  | fuel + 1, n =>
    if 0 < n.hw.rxf.length ∧ 0 < n.ctx.rxSize then andThen (drainOne n) (rxLoop fuel) else .next n

/-- The copy loop of the late success: until the count is 0 (R166). -/
def lateLoop : Nat → MNode → Res MNode
  | 0, n => .next n
  | fuel + 1, n => andThen (drainOne n) (lateLoop fuel)

/-! ## Acceptance (R152) -/

/-- What the acceptance tests decide about a transfer request. -/
inductive Verdict where
  | answer (st : Status)
  | refuse (r : Refusal)
  | accept
deriving DecidableEq, Repr

/-- The acceptance tests of `MAccept` behind `MPre`, in their order: `Busy`, `Unsupported`, the operands (R152). -/
def mVerdict (p : Params) (m : MCtx) (dir : Dir) (buf len : Nat) : Verdict :=
  if !m.idle then .answer .busy
  else if dir = .receive ∧ m.mode = .ultraFast then .answer .unsupported
  else if len = 0 ∨ (dir = .receive ∧ Config.rxMax < len) ∨ bufferWraps p buf len then .refuse .badLength
  else .accept

/-- The writes of an accepted transfer (R152). -/
def mAccepted (dir : Dir) (buf len : Nat) (stop blocking : Bool) (n : MNode) : MNode :=
  { n with
    hw := { n.hw with mef := .none }
    ctx := { n.ctx with
      dir, sendStop := stop, blocking, abortedByTimeout := false, status := .busy, idle := false,
      phase := .addressing
      sem := if blocking then false else n.ctx.sem
      txBuff := if dir = .send then some buf else n.ctx.txBuff
      txSize := if dir = .send then len else n.ctx.txSize
      rxBuff := if dir = .send then n.ctx.rxBuff else some buf
      rxSize := if dir = .send then n.ctx.rxSize else len } }

/-- `if SwqEmpty(): M.phase <- Transferring` behind the address phase (R153, R155). -/
def enterTransferring (n : MNode) : MNode :=
  if swqEmpty n.ctx then { n with ctx := { n.ctx with phase := .transferring } } else n

/-- `HW.mie <- f`. -/
def setMie (f : MSources) (n : MNode) : MNode := { n with hw := { n.hw with mie := f } }

/-- The start of an accepted send (R153). -/
def sendStart (buf len : Nat) (n : MNode) : Res MNode :=
  andThen (addressPhase .send n) fun n =>
    let n := enterTransferring n
    match n.ctx.transferType with
    | .interrupts =>
      andThen (if swqEmpty n.ctx then fillTx n else .next n) fun n => .next (setMie (mieErrors true false) n)
    | .dma => .next (setMie (mieErrors (!swqEmpty n.ctx) false) (dmaArm .memToPeriph .mtx buf len n))

/-- The receive watermark at acceptance (R155). -/
def initialRxw (p : Params) (t : TransferType) (len : Nat) : Nat :=
  match t with
  | .dma => 0
  | .interrupts => min p.rxDepth len - 1

/-- The start of an accepted receive (R155). -/
def recvStart (buf len : Nat) (n : MNode) : Res MNode :=
  let n := { n with hw := { n.hw with rxw := initialRxw n.par n.ctx.transferType len } }
  andThen (addressPhase .receive n) fun n =>
  andThen (offer .rxn (rxnData len) n) fun n =>
    let n := enterTransferring n
    match n.ctx.transferType with
    | .interrupts => .next (setMie (mieErrors (!swqEmpty n.ctx) true) n)
    | .dma => .next (setMie (mieErrors (!swqEmpty n.ctx) false) (dmaArm .periphToMem .mrx buf len n))

/-- A master transfer request behind the role test: the host-suspended test, the acceptance tests, the start; a timeout
makes it blocking (R152 to R156, R161). -/
def mTransfer (start : Nat → Nat → MNode → Res MNode) (dir : Dir) (o : Origin) (buf len : Nat) (stop : Bool)
    (timeout : Option Nat) (n : MNode) : Res MNode :=
  if suspended o false n then .refused .hostSuspended
  else match mVerdict n.par n.ctx dir buf len with
    | .answer st => .next (reply o st n)
    | .refuse r => .refused r
    | .accept =>
      andThen (start buf len (mAccepted dir buf len stop timeout.isSome n)) fun n =>
        .next (completeOrWait o .m timeout n)

/-- `MSEND` and `MSENDB` behind the role test (R153, R154). -/
def mSend (o : Origin) (buf len : Nat) (stop : Bool) (timeout : Option Nat) (n : MNode) : Res MNode :=
  mTransfer sendStart .send o buf len stop timeout n

/-- `MRECV` and `MRECVB` behind the role test (R155, R156). -/
def mRecv (o : Origin) (buf len : Nat) (stop : Bool) (timeout : Option Nat) (n : MNode) : Res MNode :=
  mTransfer recvStart .receive o buf len stop timeout n

/-- `MSTATUS` behind the role test (R157); read-only, so a callback skips the host-suspended test (R161). -/
def mStatus (o : Origin) (n : MNode) : Res MNode :=
  if suspended o true n then .refused .hostSuspended
  else .next (replyBytes o n.ctx.status
    (bytesRemaining n.par n.ctx.transferType n.dma n.ctx.txSize n.ctx.rxSize) n)

/-- `MGETBAUD` behind the role test (R159); read-only, as `MSTATUS`. -/
def mGetBaud (o : Origin) (n : MNode) : Res MNode :=
  if suspended o true n then .refused .hostSuspended
  else .next (replyBaud o .success n.ctx.mode
    (rateOnPort n.par n.hw.fIn n.hw.baud)
    (if n.ctx.mode = .highSpeed then rateOnPort n.par n.hw.fIn n.hw.hs else 0#32) n)

/-- The writes of `MSETBAUD` (R160). -/
def mBaudSet (mode : Mode) (rate rateHS : BitVec 32) (n : MNode) : MNode :=
  let m := { n.ctx with mode, baudRate := rate
                        baudRateHS := if mode = .highSpeed then rateHS else n.ctx.baudRateHS }
  { n with ctx := m, hw := baudApply n.par n.inp.fIn mode m.baudRate m.baudRateHS n.hw }

/-- `MSETBAUD` behind the role test (R160). -/
def mSetBaud (o : Origin) (modeBits : BitVec 3) (rate rateHS : BitVec 32) (n : MNode) : Res MNode :=
  if suspended o false n then .refused .hostSuspended
  else match modeOfBits modeBits with
    | none => .refused .badConfig
    | some mode =>
      if !n.ctx.idle then .next (reply o .busy n)
      else .next (reply o .success (mBaudSet mode rate rateHS n))

/-! ## The user callback (R231) -/

/-- One request of a master callback; a slave request is refused as from any context with role Master (R161, R272). -/
def mCallbackRequest (r : CbReq) (n : MNode) : Res MNode :=
  match r with
  | .msend buf len stop => mSend .callback (onPort n.par.addrW buf) (onPort n.par.sizeW len) stop none n
  | .mrecv buf len stop => mRecv .callback (onPort n.par.addrW buf) (onPort n.par.sizeW len) stop none n
  | .mstatus => mStatus .callback n
  | .mgetbaud => mGetBaud .callback n
  | .msetbaud mode rate rateHS => mSetBaud .callback mode rate rateHS n
  | .ssettx _ _ | .ssetrx _ _ | .sstatus => .refused .wrongRole

/-- The requests of a callback, in order (R231). -/
def mCallbackRun : List CbReq → MNode → Res MNode
  | [], n => .next n
  | r :: rs, n => andThen (mCallbackRequest r n) (mCallbackRun rs)

/-- `callback(ev)`: recorded, then run inside the step, if one is configured (R11, R231). -/
def mCallback (ev : CbEvent) (n : MNode) : Res MNode :=
  match n.ctx.callback with
  | none => .next n
  | some _ => mCallbackRun n.inp.cb { n with cbTrace := n.cbTrace ++ [(ev, n.ctx.callbackParam)] }

/-! ## End of transfer (R230, R231, R235, R236) -/

/-- `MEnd` up to the offer of `STOP`: the enables, the channel, the FIFOs (R230). -/
def mEndQuiet (reset : Bool) (n : MNode) : MNode :=
  let n := setMie .none n
  let n := if n.ctx.transferType = .dma then dmaStop n else n
  if reset then resetFifos n else n

/-- `MEnd` behind the offer of `STOP`: the buffers go back, the engine is idle (R230). -/
def mEndRelease (n : MNode) : MNode :=
  { n with ctx := { n.ctx with txBuff := none, txSize := 0, rxBuff := none, rxSize := 0, dir := .none, idle := true,
                               phase := .idle } }

/-- `MEnd(stop, reset)` (R230). -/
def mEnd (stop reset : Bool) (n : MNode) : Res MNode :=
  let n := mEndQuiet reset n
  andThen (if stop then
      andThen (offer .stop 0#8 n) fun n => .next { n with ctx := { n.ctx with hsInProgress := false } }
    else .next n) fun n => .next (mEndRelease n)

/-- `M.phase <- p`. -/
def setMPhase (p : Phase) (n : MNode) : MNode := { n with ctx := { n.ctx with phase := p } }

/-- `M.status <- st`. -/
def setMStatus (st : Status) (n : MNode) : MNode := { n with ctx := { n.ctx with status := st } }

/-- `if M.blocking = 1: M.sem <- 1`. -/
def mPost (n : MNode) : MNode := { n with ctx := { n.ctx with sem := n.ctx.blocking || n.ctx.sem } }

/-- `Notify()` (R231). -/
def mNotify (n : MNode) : Res MNode := mCallback .endTransfer (mPost n)

/-- `Finish(status, stop, reset)` (R231). -/
def mFinish (st : Status) (stop reset : Bool) (n : MNode) : Res MNode :=
  andThen (mEnd stop reset (setMPhase (if st = .success then .completingSuccess else .completingError) n)) fun n =>
    mNotify (setMStatus st n)

/-- `RxComplete()` (R235). -/
def rxComplete (n : MNode) : Res MNode :=
  let a := n.ctx.abortedByTimeout
  let stop := n.ctx.sendStop || (a && n.par.abortedRx == .forceStop)
  andThen (mEnd stop false (setMPhase .completingSuccess n)) fun n =>
    let n := mPost (setMStatus .success n)
    if a && n.par.abortedRx == .suppressCallback then .next n else mCallback .endTransfer n

/-- `ErrEnd(status, flag)`; `clear` is the clearing of the flag (R236). -/
def errEnd (st : Status) (clear : MLatched → MLatched) (n : MNode) : Res MNode :=
  andThen (mEnd false true (setMPhase .completingError n)) fun n =>
  andThen (mNotify (setMStatus st { n with ctx := { n.ctx with hsInProgress := false } })) fun n =>
    .next { n with hw := { n.hw with mef := clear n.hw.mef } }

/-- The force abort of an abort request and of a timed-out wait: FIFO reset, then STOP (R158, R164). -/
def forceAbort (st : Status) (n : MNode) : Res MNode :=
  andThen (mEnd true true (setMPhase .completingError n)) fun n => .next (setMStatus st n)

/-! ## Initialisation (R150, R168) -/

/-- The context assignments of `MINIT`; the queue's slots are what they were (R150, R23). -/
def mFreshCtx (c : Cfg) (slots : Vector CmdWord 5) : MCtx :=
  { addr := c.addr, is10bit := c.is10bit, mode := c.mode, baudRate := c.baudRate, baudRateHS := c.baudRateHS,
    masterCode := c.masterCode, hsInProgress := false, txBuff := none, rxBuff := none, txSize := 0, rxSize := 0,
    swq := slots, swqWr := 0, swqRd := 0, dir := .none, sendStop := false, blocking := false, status := .success,
    abortedByTimeout := false, sem := false, idle := true, phase := .idle, transferType := c.transferType,
    dmaChannel := c.dmaChannel, callback := c.callback, callbackParam := c.callbackParam, initCfg := c }

/-- The hardware writes of `MINIT` behind `HwReset`: the baud fields, the master logic, the interrupt vector (R150). -/
def mInitHw (par : Params) (fIn : Nat) (c : Cfg) (h : HW) : HW :=
  { baudApply par fIn c.mode c.baudRate c.baudRateHS h with men := true, irqEn := true }

/-- Five values no rule has chosen, for the slots of a new queue (R23, U14). -/
def freeSlots (ctr : Nat) : Vector CmdWord 5 := Vector.ofFn fun j => Config.freeSlot (ctr + j.val)

end Sys2Proof.Machine
end

