-- ==== Sys2Proof/Machine/MasterEvents.lean ====
section
/-! DEFINITION. The meanings of the six master events: the FIFO fill and drain sequencer's handlers and the error
recovery (spec 42_master_events.md R232 to R240). -/

namespace Sys2Proof.Machine

/-- `HW.mie[TXRDY] <- v`. -/
def setMieTxrdy (v : Bool) (n : MNode) : MNode := setMie { n.hw.mie with txrdy := v } n

/-- The `TXRDY` handler (R232). -/
def handleTxrdy (n : MNode) : Res MNode :=
  andThen (drainQueue n) fun n =>
    if !swqEmpty n.ctx then .next n
    else if n.ctx.dir = .receive then .next (setMieTxrdy false n)
    else if n.ctx.transferType = .dma ∧ n.dma ≠ .stopped then .next (setMieTxrdy false n)
    else if n.ctx.txSize = 0 ∧ n.hw.txf = [] then mFinish .success n.ctx.sendStop false n
    else fillTx n

/-- The watermark shrinks when the remaining count no longer exceeds it (R234). -/
def shrinkWatermark (n : MNode) : MNode :=
  if n.ctx.rxSize ≤ n.hw.rxw then { n with hw := { n.hw with rxw := n.ctx.rxSize - 1 } } else n

/-- The `RXRDY` handler (R234). -/
def handleRxrdy (n : MNode) : Res MNode :=
  andThen (rxLoop n.hw.rxf.length n) fun n =>
    if n.ctx.rxSize = 0 then rxComplete n else .next (shrinkWatermark n)

/-- The `NACK` handler (R237): ignored in ultra-fast mode. -/
def handleNack (n : MNode) : Res MNode :=
  if n.ctx.mode = .ultraFast then .next { n with hw := { n.hw with mef := { n.hw.mef with nack := false } } }
  else errEnd .receivedNack (fun f => { f with nack := false }) n

/-- `TXRDY` (R232). -/
def execTxrdy (inst : BusIndex) (s : State) : Res State := takeMasterEvent (·.txrdy) inst s handleTxrdy

/-- `RXRDY` (R234). -/
def execRxrdy (inst : BusIndex) (s : State) : Res State := takeMasterEvent (·.rxrdy) inst s handleRxrdy

/-- `NACK` (R237). -/
def execNack (inst : BusIndex) (s : State) : Res State := takeMasterEvent (·.nack) inst s handleNack

/-- `ARBLOST` (R238). -/
def execArblost (inst : BusIndex) (s : State) : Res State :=
  takeMasterEvent (·.arblost) inst s (errEnd .arbitrationLost fun f => { f with arblost := false })

/-- `FIFOERR` (R239). -/
def execFifoerr (inst : BusIndex) (s : State) : Res State :=
  takeMasterEvent (·.fifoerr) inst s (errEnd .error fun f => { f with fifoerr := false })

/-- `PINLOW` (R240). -/
def execPinlow (inst : BusIndex) (s : State) : Res State :=
  takeMasterEvent (·.pinlow) inst s (errEnd .lineLowTimeout fun f => { f with pinlow := false })

end Sys2Proof.Machine
end

