-- ==== Sys2Proof/Machine/SlaveEngine.lean ====
section
/-! DEFINITION. The slave engine's routines: acceptance, teardown, end of transfer, buffer supply, the user callback, the
slave data register (spec 43_slave_requests.md R277 to R284; 44_slave_events.md R301, R302, R304). -/

namespace Sys2Proof.Machine

/-- The acceptance tests of `SAccept` behind `SPre`, in their order: `Unsupported` on a listening slave, `Busy`, the
operands (R281). -/
inductive SVerdict where
  | answer (st : Status)
  | refuse (r : Refusal)
  | accept
deriving DecidableEq, Repr

/-- What `SAccept` decides about a request (R281). -/
def sVerdict (p : Params) (c : SCtx) (buf len : Nat) : SVerdict :=
  if c.listening then .answer .unsupported
  else if c.isTransferInProgress then .answer .busy
  else if len = 0 ∨ bufferWraps p buf len then .refuse .badLength
  else .accept

/-- The writes of an accepted on-demand transfer (R281). -/
def sAccepted (dir : Dir) (buf len : Nat) (blocking : Bool) (n : SNode) : SNode :=
  { n with
    hw := { n.hw with sef := .none, sen := true, sie := sieArmed }
    ctx := { n.ctx with
      txBuff := if dir = .send then some buf else n.ctx.txBuff
      txSize := if dir = .send then len else n.ctx.txSize
      rxBuff := if dir = .send then n.ctx.rxBuff else some buf
      rxSize := if dir = .send then n.ctx.rxSize else len
      isTransferInProgress := true, status := .busy, blocking, phase := .addressing
      sem := if blocking then false else n.ctx.sem } }

/-- A slave transfer request behind the role test; a timeout makes it blocking (R272 to R276, R281). -/
def sTransfer (dir : Dir) (buf len : Nat) (timeout : Option Nat) (n : SNode) : Res SNode :=
  if suspended .foreground false n then .refused .hostSuspended
  else match sVerdict n.par n.ctx buf len with
    | .answer st => .next (reply .foreground st n)
    | .refuse r => .refused r
    | .accept => .next (completeOrWait .foreground .s timeout (sAccepted dir buf len timeout.isSome n))

/-- `SSETTX` behind the role test (R279). -/
def sSetTx (o : Origin) (buf len : Nat) (n : SNode) : Res SNode :=
  if suspended o true n then .refused .hostSuspended
  else if bufferWraps n.par buf len then .refused .badLength
  else .next (reply o .success
    { n with ctx := { n.ctx with txBuff := if len = 0 then none else some buf, txSize := len } })

/-- `SSETRX` behind the role test (R280). -/
def sSetRx (o : Origin) (buf len : Nat) (n : SNode) : Res SNode :=
  if suspended o true n then .refused .hostSuspended
  else if bufferWraps n.par buf len then .refused .badLength
  else .next (reply o .success
    { n with ctx := { n.ctx with rxBuff := if len = 0 then none else some buf, rxSize := len } })

/-- `SSTATUS` behind the role test (R277). -/
def sStatus (o : Origin) (n : SNode) : Res SNode :=
  if suspended o true n then .refused .hostSuspended
  else .next (replyBytes o n.ctx.status
    (bytesRemaining n.par n.ctx.transferType n.dma n.ctx.txSize n.ctx.rxSize) n)

/-- One request of a slave callback; a master request is refused as from any context with role Slave (R272, R302). -/
def sCallbackRequest (r : CbReq) (n : SNode) : Res SNode :=
  match r with
  | .ssettx buf len => sSetTx .callback (onPort n.par.addrW buf) (onPort n.par.sizeW len) n
  | .ssetrx buf len => sSetRx .callback (onPort n.par.addrW buf) (onPort n.par.sizeW len) n
  | .sstatus => sStatus .callback n
  | .msend _ _ _ | .mrecv _ _ _ | .mstatus | .mgetbaud | .msetbaud _ _ _ => .refused .wrongRole

/-- The requests of a callback, in order (R302). -/
def sCallbackRun : List CbReq → SNode → Res SNode
  | [], n => .next n
  | r :: rs, n => andThen (sCallbackRequest r n) (sCallbackRun rs)

/-- The slave's `callback(ev)`: recorded, then run inside the step, if one is configured (R302). -/
def sCallback (ev : CbEvent) (n : SNode) : Res SNode :=
  match n.ctx.callback with
  | none => .next n
  | some _ => sCallbackRun n.inp.cb { n with cbTrace := n.cbTrace ++ [(ev, n.ctx.callbackParam)] }

/-- `STeardown()` (R284). -/
def sTeardown (n : SNode) : SNode :=
  { dmaStop n with
    hw := { n.hw with sie := .none, sen := false, sef := .none }
    ctx := { n.ctx with txBuff := none, txSize := 0, rxBuff := none, rxSize := 0, repeatedStarts := 0,
                        txUnderrunWarning := false, isTransferInProgress := false, phase := .idle } }

/-- The unsent or unfilled remainder of a running channel goes back to the slave's buffer registers (R301). -/
def sWriteBack (d : DmaCh) (c : SCtx) : SCtx :=
  match d with
  | .running _ .stx ptr count => { c with txBuff := some ptr, txSize := count }
  | .running _ .srx ptr count => { c with rxBuff := some ptr, rxSize := count }
  | _ => c

/-- The context after the common part of `SEnd`: status finalised, the channel's remainder written back, the transaction
over; the completing phases are passed through inside the routine (R301, R34). -/
def sEndCtx (d : DmaCh) (c : SCtx) : SCtx :=
  let c : SCtx := { c with phase := if c.status = .busy ∨ c.status = .success then .completingSuccess
                                    else .completingError }
  let c : SCtx := { c with status := if c.status = .busy then .success else c.status }
  { sWriteBack d c with repeatedStarts := 0, isTransferInProgress := false, phase := .idle }

/-- The part of `SEnd` common to both listening modes (R301). -/
def sEndCommon (n : SNode) : SNode :=
  { dmaStop n with ctx := sEndCtx n.dma n.ctx,
                   hw := { n.hw with sie := { n.hw.sie with txdata := false, rxdata := false } } }

/-- `SEnd()` (R301). -/
def sEnd (n : SNode) : SNode :=
  let n := sEndCommon n
  if n.ctx.listening then n
  else
    let n := sTeardown n
    { n with ctx := { n.ctx with sem := n.ctx.blocking || n.ctx.sem } }

/-- `S.status <- st`. -/
def setSStatus (st : Status) (n : SNode) : SNode := { n with ctx := { n.ctx with status := st } }

/-- `WriteSTDR(b)` (R304, R86). -/
def writeStdr {C : Type} (b : Byte) (n : Node C) : Node C :=
  { n with hw := { n.hw with stdr := b, stx := n.hw.stx ++ [b], sef := { n.hw.sef with txdata := false } } }

/-- A read of `HW.srdr` clears its flag (R86). -/
def readSrdr {C : Type} (n : Node C) : Node C :=
  { n with hw := { n.hw with sef := { n.hw.sef with rxdata := false } } }

/-- The context assignments of `SINIT` (R270). -/
def sFreshCtx (c : Cfg) : SCtx :=
  { listening := c.listening, addr := c.addr, is10bit := c.is10bit, mode := c.mode, txBuff := none, rxBuff := none,
    txSize := 0, rxSize := 0, repeatedStarts := 0, txUnderrunWarning := false, isTransferInProgress := false,
    phase := .idle, status := .success, blocking := false, sem := false, transferType := c.transferType,
    dmaChannel := c.dmaChannel, callback := c.callback, callbackParam := c.callbackParam }

end Sys2Proof.Machine
end

