-- ==== Sys2Proof/Machine/SlaveEvents.lean ====
section
/-! DEFINITION. The meanings of the seven slave events (spec 44_slave_events.md R303 to R309). -/

namespace Sys2Proof.Machine

/-- The DMA channel is armed for a slave buffer (R303). -/
def sArm (dir : DmaDir) (reg : DmaReg) (buf : Option Nat) (count : Nat) (n : SNode) : Res SNode :=
  andThen (bufAddr buf) fun ptr => .next (dmaArm dir reg ptr count n)

/-- Read intent: the slave transmits (R303). -/
def addrRead (n : SNode) : Res SNode :=
  andThen (sCallback .txRequested { n with ctx := { n.ctx with txUnderrunWarning := false } }) fun n =>
    if n.ctx.transferType = .dma ∧ 0 < n.ctx.txSize then
      sArm .memToPeriph .stx n.ctx.txBuff n.ctx.txSize n
    else .next { n with hw := { n.hw with sie := { n.hw.sie with txdata := true } } }

/-- Write intent: the slave receives (R303). -/
def addrWrite (n : SNode) : Res SNode :=
  andThen (sCallback .rxRequested n) fun n =>
    if n.ctx.transferType = .dma ∧ 0 < n.ctx.rxSize then
      sArm .periphToMem .srx n.ctx.rxBuff n.ctx.rxSize n
    else .next { n with hw := { n.hw with sie := { n.hw.sie with rxdata := true } } }

/-- The `ADDRVALID` handler (R303). -/
def handleAddrvalid (n : SNode) : Res SNode :=
  let a := n.hw.saddr
  let n := { n with
    hw := { n.hw with sef := { n.hw.sef with addrvalid := false } }
    ctx := { n.ctx with isTransferInProgress := true, status := .busy, phase := .transferring } }
  if readIntent a then addrRead n else addrWrite n

/-- A filler byte for an exhausted buffer; the second one in a row is an underrun (R304). -/
def sendFiller (n : SNode) : SNode :=
  writeStdr Config.filler { n with ctx := { n.ctx with
    status := if n.ctx.txUnderrunWarning then .txUnderrun else n.ctx.status, txUnderrunWarning := true } }

/-- The next byte of the transmit buffer (R304). -/
def sendNextByte (n : SNode) : Res SNode :=
  andThen (bufAddr n.ctx.txBuff) fun a =>
  andThen (memRead n.par n.mem a) fun b =>
    .next (writeStdr b { n with ctx := { n.ctx with
      txBuff := some (ptrNext n.par a), txSize := n.ctx.txSize - 1, txUnderrunWarning := false } })

/-- The `TXDATA` handler (R304). -/
def handleTxdata (n : SNode) : Res SNode :=
  andThen (if n.ctx.txSize = 0 then sCallback .txEmpty n else .next n) fun n =>
    if n.ctx.txSize = 0 then .next (sendFiller n) else sendNextByte n

/-- A received byte is stored in the receive buffer (R305). -/
def storeByte (b : Byte) (n : SNode) : Res SNode :=
  andThen (bufAddr n.ctx.rxBuff) fun a =>
  andThen (memWrite n.par n.mem a b) fun m =>
    .next { n with mem := m, ctx := { n.ctx with rxBuff := some (ptrNext n.par a), rxSize := n.ctx.rxSize - 1 } }

/-- The `RXDATA` handler (R305). -/
def handleRxdata (n : SNode) : Res SNode :=
  andThen (if n.ctx.rxSize = 0 then sCallback .rxFull n else .next n) fun n =>
    let b := n.hw.srdr
    let n := readSrdr n
    if n.ctx.rxSize = 0 then .next (setSStatus .rxOverrun n) else storeByte b n

/-- A true transaction boundary: the end-of-transfer routine, then the callback (R306, R307). -/
def boundary (n : SNode) : Res SNode := sCallback .stopEvent (sEnd n)

/-- The `RSTART` handler (R306): the first repeated start of a 10-bit transaction is the address continuation. -/
def handleRstart (n : SNode) : Res SNode :=
  let n := { n with
    hw := { n.hw with sef := { n.hw.sef with rstart := false } }
    ctx := { n.ctx with repeatedStarts := min (n.ctx.repeatedStarts + 1) 255 } }
  if n.ctx.is10bit ∧ n.ctx.repeatedStarts = 1 then .next n else boundary n

/-- The `STOP` handler (R307). -/
def handleStop (n : SNode) : Res SNode :=
  boundary { n with hw := { n.hw with sef := { n.hw.sef with stop := false } } }

/-- An error of the slave's bus side ends the transaction (R308, R309). -/
def slaveError (n : SNode) : Res SNode := sCallback .errorEvent (sEnd (setSStatus .error n))

/-- The `BITERR` handler (R308). -/
def handleBiterr (n : SNode) : Res SNode :=
  slaveError { n with hw := { n.hw with sef := { n.hw.sef with biterr := false } } }

/-- The `SFIFOERR` handler (R309). -/
def handleSfifoerr (n : SNode) : Res SNode :=
  slaveError { n with hw := { n.hw with sef := { n.hw.sef with sfifoerr := false } } }

/-- `ADDRVALID` (R303). -/
def execAddrvalid (inst : BusIndex) (s : State) : Res State := takeSlaveEvent (·.addrvalid) inst s handleAddrvalid

/-- `TXDATA` (R304). -/
def execTxdata (inst : BusIndex) (s : State) : Res State := takeSlaveEvent (·.txdata) inst s handleTxdata

/-- `RXDATA` (R305). -/
def execRxdata (inst : BusIndex) (s : State) : Res State := takeSlaveEvent (·.rxdata) inst s handleRxdata

/-- `RSTART` (R306). -/
def execRstart (inst : BusIndex) (s : State) : Res State := takeSlaveEvent (·.rstart) inst s handleRstart

/-- `EVT.STOP` (R307). -/
def execEvtStop (inst : BusIndex) (s : State) : Res State := takeSlaveEvent (·.stop) inst s handleStop

/-- `BITERR` (R308). -/
def execBiterr (inst : BusIndex) (s : State) : Res State := takeSlaveEvent (·.biterr) inst s handleBiterr

/-- `SFIFOERR` (R309). -/
def execSfifoerr (inst : BusIndex) (s : State) : Res State := takeSlaveEvent (·.sfifoerr) inst s handleSfifoerr

end Sys2Proof.Machine
end

