-- ==== Sys2Proof/Machine/DmaEvents.lean ====
section
/-! DEFINITION. The meanings of the two DMA completion events, each the handler of the active role (spec 45_dma.md R337 to
R341). -/

namespace Sys2Proof.Machine

/-- A completion handler runs iff its event is enabled, as the handler of the active role (R337, R384). -/
def takeDmaEvent (enabled : Inst → Bool) (k : BusIndex) (s : State) (fm : MNode → Res MNode)
    (fs : DmaReg → SNode → Res SNode) : Res State :=
  onInst k s fun x =>
    if enabled x then
      match x.role, x.dma with
      | .master m, _ => andThen (fm (Node.of s x m)) fun n => .next (s.putNode k x (.master n.ctx) n)
      | .slave c, .running _ reg _ _ =>
        andThen (fs reg (Node.of s x c)) fun n => .next (s.putNode k x (.slave n.ctx) n)
      | _, _ => .refused .notEnabled
    else .refused .notEnabled

/-- `DMAOK`, master (R338): a send re-arms `TXRDY`, a receive completes. -/
def masterDmaok (n : MNode) : Res MNode :=
  let n := dmaStop n
  if n.ctx.dir = .send then
    .next (setMieTxrdy true { n with ctx := { n.ctx with txBuff := none, txSize := 0 } })
  else rxComplete { n with ctx := { n.ctx with rxBuff := none, rxSize := 0 } }

/-- `DMAERR`, master (R339). -/
def masterDmaerr (n : MNode) : Res MNode :=
  mFinish (if n.ctx.dir = .send then .dmaTxFailure else .dmaRxFailure) true true n

/-- `DMAOK`, slave (R340): the buffer is used up and the data interrupt takes over. -/
def slaveDmaok (reg : DmaReg) (n : SNode) : Res SNode :=
  let n := dmaStop n
  if reg = .stx then
    .next { n with ctx := { n.ctx with txBuff := none, txSize := 0 },
                   hw := { n.hw with sie := { n.hw.sie with txdata := true } } }
  else
    .next { n with ctx := { n.ctx with rxBuff := none, rxSize := 0 },
                   hw := { n.hw with sie := { n.hw.sie with rxdata := true } } }

/-- `DMAERR`, slave (R341). -/
def slaveDmaerr (reg : DmaReg) (n : SNode) : Res SNode :=
  sCallback .errorEvent (sEnd (setSStatus (if reg = .stx then .dmaTxFailure else .dmaRxFailure) n))

/-- `DMAOK` (R338, R340). -/
def execDmaok (inst : BusIndex) (s : State) : Res State := takeDmaEvent dmaokEnabled inst s masterDmaok slaveDmaok

/-- `DMAERR` (R339, R341). -/
def execDmaerr (inst : BusIndex) (s : State) : Res State := takeDmaEvent dmaerrEnabled inst s masterDmaerr slaveDmaerr

end Sys2Proof.Machine
end

