-- ==== Sys2Proof/Machine/MasterRequests.lean ====
section
/-! DEFINITION. The meanings of the ten master requests (spec 40_master_requests.md R150 to R160). -/

namespace Sys2Proof.Machine

/-- `MINIT i, cfg` (R150): on `BusBusy` the hardware is left in its reset state and the role stays Unowned. -/
def execMinit (inst : BusIndex) (cfg : CfgPort) (s : State) : Res State :=
  onInst inst s fun x =>
    match x.role with
    | .unowned =>
      match checkCfg cfg with
      | none => .refused .badConfig
      | some c =>
        let x := { x with hw := hwReset x.hw, dma := .stopped }
        if s.inp.busIdles then
          .next { s.setInst inst
                    { x with role := .master (mFreshCtx c (freeSlots s.freeCtr)),
                             hw := mInitHw s.par s.inp.fIn c x.hw,
                             replies := x.replies ++ [⟨.foreground, .success, none, none⟩] } with
                  freeCtr := s.freeCtr + Config.swqCap }
        else .next (s.setInst inst { x with replies := x.replies ++ [⟨.foreground, .busBusy, none, none⟩] })
    | _ => .refused .initOnOwnedInstance

/-- `MDEINIT i` (R151): a transfer in flight fails the source's assertion. -/
def execMdeinit (inst : BusIndex) (s : State) : Res State :=
  onInst inst s fun x =>
    match x.role with
    | .master m =>
      if x.hostw.isSome then .refused .hostSuspended
      else if !m.idle then .fault .deinitWhileBusy
      else .next (s.setInst inst
        { x with role := .unowned, hw := { x.hw with irqEn := false, mie := .none, men := false },
                 replies := x.replies ++ [⟨.foreground, .success, none, none⟩] })
    | _ => .refused .wrongRole

/-- `MSEND i, buf, len, stop` (R153). -/
def execMsend (inst : BusIndex) (buf len : Nat) (stop : Bool) (s : State) : Res State :=
  onMaster inst s (mSend .foreground buf len stop none)

/-- `MSENDB i, buf, len, stop, timeout` (R154). -/
def execMsendb (inst : BusIndex) (buf len : Nat) (stop : Bool) (timeout : Nat) (s : State) : Res State :=
  onMaster inst s (mSend .foreground buf len stop (some timeout))

/-- `MRECV i, buf, len, stop` (R155). -/
def execMrecv (inst : BusIndex) (buf len : Nat) (stop : Bool) (s : State) : Res State :=
  onMaster inst s (mRecv .foreground buf len stop none)

/-- `MRECVB i, buf, len, stop, timeout` (R156). -/
def execMrecvb (inst : BusIndex) (buf len : Nat) (stop : Bool) (timeout : Nat) (s : State) : Res State :=
  onMaster inst s (mRecv .foreground buf len stop (some timeout))

/-- `MSTATUS i` (R157). -/
def execMstatus (inst : BusIndex) (s : State) : Res State := onMaster inst s (mStatus .foreground)

/-- `MABORT i` behind the role test (R158). -/
def mAbort (n : MNode) : Res MNode :=
  if suspended .foreground false n then .refused .hostSuspended
  else if n.ctx.idle then .next (reply .foreground .success n)
  else if n.ctx.dir = .receive then .next (reply .foreground .unsupported n)
  else andThen (forceAbort .aborted n) fun n => .next (reply .foreground .success n)

/-- `MABORT i` (R158). -/
def execMabort (inst : BusIndex) (s : State) : Res State := onMaster inst s mAbort

/-- `MGETBAUD i` (R159). -/
def execMgetbaud (inst : BusIndex) (s : State) : Res State := onMaster inst s (mGetBaud .foreground)

/-- `MSETBAUD i, mode, rate, rateHS` (R160). -/
def execMsetbaud (inst : BusIndex) (mode : BitVec 3) (rate rateHS : BitVec 32) (s : State) : Res State :=
  onMaster inst s (mSetBaud .foreground mode rate rateHS)

end Sys2Proof.Machine
end

