-- ==== Sys2Proof/Machine/SlaveRequests.lean ====
section
/-! DEFINITION. The meanings of the ten slave requests (spec 43_slave_requests.md R270 to R280). -/

namespace Sys2Proof.Machine

/-- The hardware writes of `SINIT` behind `HwReset`: the interrupt vector, and the armed sources when listening (R270). -/
def sInitHw (listening : Bool) (h : HW) : HW :=
  if listening then { h with irqEn := true, sen := true, sie := sieArmed } else { h with irqEn := true }

/-- `SINIT i, cfg` (R270). -/
def execSinit (inst : BusIndex) (cfg : CfgPort) (s : State) : Res State :=
  onInst inst s fun x =>
    match x.role with
    | .unowned =>
      match checkCfg cfg with
      | none => .refused .badConfig
      | some c =>
        if x.slaveCapable then
          .next (s.setInst inst
            { x with role := .slave (sFreshCtx c), hw := sInitHw c.listening (hwReset x.hw), dma := .stopped,
                     replies := x.replies ++ [⟨.foreground, .success, none, none⟩] })
        else .refused .noSlaveCapability
    | _ => .refused .initOnOwnedInstance

/-- `SDEINIT i` (R271): a transfer in flight fails the source's assertion. -/
def execSdeinit (inst : BusIndex) (s : State) : Res State :=
  onInst inst s fun x =>
    match x.role with
    | .slave c =>
      if x.hostw.isSome then .refused .hostSuspended
      else if c.isTransferInProgress then .fault .deinitWhileBusy
      else .next (s.setInst inst
        { x with role := .unowned, hw := { x.hw with irqEn := false, sie := .none, sen := false },
                 replies := x.replies ++ [⟨.foreground, .success, none, none⟩] })
    | _ => .refused .wrongRole

/-- `SSEND i, buf, len` (R273). -/
def execSsend (inst : BusIndex) (buf len : Nat) (s : State) : Res State :=
  onSlave inst s (sTransfer .send buf len none)

/-- `SSENDB i, buf, len, timeout` (R274). -/
def execSsendb (inst : BusIndex) (buf len timeout : Nat) (s : State) : Res State :=
  onSlave inst s (sTransfer .send buf len (some timeout))

/-- `SRECV i, buf, len` (R275). -/
def execSrecv (inst : BusIndex) (buf len : Nat) (s : State) : Res State :=
  onSlave inst s (sTransfer .receive buf len none)

/-- `SRECVB i, buf, len, timeout` (R276). -/
def execSrecvb (inst : BusIndex) (buf len timeout : Nat) (s : State) : Res State :=
  onSlave inst s (sTransfer .receive buf len (some timeout))

/-- `SSTATUS i` (R277). -/
def execSstatus (inst : BusIndex) (s : State) : Res State := onSlave inst s (sStatus .foreground)

/-- `SABORT i` behind the role test (R278). -/
def sAbort (n : SNode) : Res SNode :=
  if suspended .foreground false n then .refused .hostSuspended
  else if !n.ctx.isTransferInProgress then .next (reply .foreground .success n)
  else if n.ctx.listening then .next (reply .foreground .success n)
  else .next (reply .foreground .success (setSStatus .aborted (sTeardown n)))

/-- `SABORT i` (R278). -/
def execSabort (inst : BusIndex) (s : State) : Res State := onSlave inst s sAbort

/-- `SSETTX i, buf, len` (R279). -/
def execSsettx (inst : BusIndex) (buf len : Nat) (s : State) : Res State :=
  onSlave inst s (sSetTx .foreground buf len)

/-- `SSETRX i, buf, len` (R280). -/
def execSsetrx (inst : BusIndex) (buf len : Nat) (s : State) : Res State :=
  onSlave inst s (sSetRx .foreground buf len)

end Sys2Proof.Machine
end

