-- ==== Sys2Proof/Machine/TimeoutEvents.lean ====
section
/-! DEFINITION. The meaning of `WTIMEOUT`: the recovery of a blocking wait that exceeds its timeout (spec
40_master_requests.md R164 to R168; 43_slave_requests.md R282). -/

namespace Sys2Proof.Machine

/-- The suspended host resumes with a status (R11, R163). -/
def resumeHost {C : Type} (st : Status) (n : Node C) : Node C := reply .foreground st { n with hostw := none }

/-- The force abort of the address and transmit phase (R164). -/
def timeoutAbort (n : MNode) : Res MNode :=
  andThen (forceAbort .timeout n) fun n =>
    .next (resumeHost .timeout { n with ctx := { n.ctx with blocking := false } })

/-- The late success of a receive whose bytes are all in the FIFO (R166). -/
def lateSuccess (n : MNode) : Res MNode :=
  andThen (lateLoop n.ctx.rxSize n) fun n =>
  andThen (rxComplete { n with ctx := { n.ctx with blocking := false } }) fun n =>
    .next (resumeHost .success { n with ctx := { n.ctx with abortedByTimeout := false } })

/-- The watermark is narrowed and a second wait begins, with the same timeout (R167). -/
def narrowAndWait (t : Nat) (n : MNode) : MNode :=
  { n with hw := { n.hw with rxw := 0 }, hostw := some ⟨.m, t, .second⟩ }

/-- The first expiry (R164 to R167). -/
def masterTimeoutFirst (t : Nat) (n : MNode) : Res MNode :=
  if n.ctx.dir = .send ∨ n.ctx.phase = .addressing ∨ n.ctx.transferType = .dma then timeoutAbort n
  else
    let n := { n with ctx := { n.ctx with abortedByTimeout := true } }
    if n.ctx.rxSize ≤ n.hw.rxf.length then lateSuccess n else .next (narrowAndWait t n)

/-- The second expiry: the hard timeout re-initialises the instance from the configuration of its init (R168). -/
def masterTimeoutSecond (n : MNode) : MNode :=
  let c := n.ctx.initCfg
  resumeHost .timeout
    { dmaStop n with ctx := { mFreshCtx c n.ctx.swq with status := .timeout },
                     hw := mInitHw n.par n.inp.fIn c (hwReset n.hw) }

/-- `WTIMEOUT` for the master (R164 to R168). -/
def masterTimeout (w : Wait) (n : MNode) : Res MNode :=
  match w.stage with
  | .first => masterTimeoutFirst w.timeout n
  | .second => .next (masterTimeoutSecond n)

/-- `WTIMEOUT` for the slave (R282). -/
def slaveTimeout (n : SNode) : SNode :=
  let n := setSStatus .timeout (sTeardown n)
  resumeHost .timeout { n with ctx := { n.ctx with blocking := false } }

/-- `WTIMEOUT` (R164, R168, R282). -/
def execWtimeout (inst : BusIndex) (s : State) : Res State :=
  onInst inst s fun x =>
    if wtimeoutEnabled x then
      match x.role, x.hostw with
      | .master m, some w =>
        andThen (masterTimeout w (Node.of s x m)) fun n => .next (s.putNode inst x (.master n.ctx) n)
      | .slave c, some _ =>
        let n := slaveTimeout (Node.of s x c)
        .next (s.putNode inst x (.slave n.ctx) n)
      | _, _ => .refused .notEnabled
    else .refused .notEnabled

end Sys2Proof.Machine
end

