-- ==== Sys2Proof/Machine/Dispatch.lean ====
section
/-! DEFINITION. One arm for each instruction. -/

namespace Sys2Proof.Machine

def exec (i : Instr) (s : State) : Host.Outcome State Fault Refusal :=
  match i with
  | .minit inst cfg => Sys2Proof.Machine.execMinit inst cfg s
  | .mdeinit inst => Sys2Proof.Machine.execMdeinit inst s
  | .msend inst buf len stop => Sys2Proof.Machine.execMsend inst buf len stop s
  | .msendb inst buf len stop timeout => Sys2Proof.Machine.execMsendb inst buf len stop timeout s
  | .mrecv inst buf len stop => Sys2Proof.Machine.execMrecv inst buf len stop s
  | .mrecvb inst buf len stop timeout => Sys2Proof.Machine.execMrecvb inst buf len stop timeout s
  | .mstatus inst => Sys2Proof.Machine.execMstatus inst s
  | .mabort inst => Sys2Proof.Machine.execMabort inst s
  | .mgetbaud inst => Sys2Proof.Machine.execMgetbaud inst s
  | .msetbaud inst mode rate rateHS => Sys2Proof.Machine.execMsetbaud inst mode rate rateHS s
  | .sinit inst cfg => Sys2Proof.Machine.execSinit inst cfg s
  | .sdeinit inst => Sys2Proof.Machine.execSdeinit inst s
  | .ssend inst buf len => Sys2Proof.Machine.execSsend inst buf len s
  | .ssendb inst buf len timeout => Sys2Proof.Machine.execSsendb inst buf len timeout s
  | .srecv inst buf len => Sys2Proof.Machine.execSrecv inst buf len s
  | .srecvb inst buf len timeout => Sys2Proof.Machine.execSrecvb inst buf len timeout s
  | .sstatus inst => Sys2Proof.Machine.execSstatus inst s
  | .sabort inst => Sys2Proof.Machine.execSabort inst s
  | .ssettx inst buf len => Sys2Proof.Machine.execSsettx inst buf len s
  | .ssetrx inst buf len => Sys2Proof.Machine.execSsetrx inst buf len s
  | .txd inst data => Sys2Proof.Machine.execTxd inst data s
  | .rxn inst data => Sys2Proof.Machine.execRxn inst data s
  | .stop inst => Sys2Proof.Machine.execStop inst s
  | .start inst data => Sys2Proof.Machine.execStart inst data s
  | .startn inst data => Sys2Proof.Machine.execStartn inst data s
  | .starths inst data => Sys2Proof.Machine.execStarths inst data s
  | .txrdy inst => Sys2Proof.Machine.execTxrdy inst s
  | .rxrdy inst => Sys2Proof.Machine.execRxrdy inst s
  | .nack inst => Sys2Proof.Machine.execNack inst s
  | .arblost inst => Sys2Proof.Machine.execArblost inst s
  | .fifoerr inst => Sys2Proof.Machine.execFifoerr inst s
  | .pinlow inst => Sys2Proof.Machine.execPinlow inst s
  | .addrvalid inst => Sys2Proof.Machine.execAddrvalid inst s
  | .txdata inst => Sys2Proof.Machine.execTxdata inst s
  | .rxdata inst => Sys2Proof.Machine.execRxdata inst s
  | .rstart inst => Sys2Proof.Machine.execRstart inst s
  | .evtStop inst => Sys2Proof.Machine.execEvtStop inst s
  | .biterr inst => Sys2Proof.Machine.execBiterr inst s
  | .sfifoerr inst => Sys2Proof.Machine.execSfifoerr inst s
  | .dmaok inst => Sys2Proof.Machine.execDmaok inst s
  | .dmaerr inst => Sys2Proof.Machine.execDmaerr inst s
  | .wtimeout inst => Sys2Proof.Machine.execWtimeout inst s

end Sys2Proof.Machine
end

