-- ==== Sys2Proof/Machine/Agents.lean ====
section
/-! DEFINITION. The steps that are no words of an encoded space: the host taking its semaphore (spec
40_master_requests.md R163, 43_slave_requests.md R283), the master bus side receiving a byte (41_master_commands.md R205),
the slave bus side raising a flag (44_slave_events.md R300), the DMA channel moving a byte (45_dma.md R332 to R336), the
application storing a byte. A step that is not enabled is not taken (R206). -/

namespace Sys2Proof.Machine

/-- The suspended host takes its semaphore and its request returns the status register (R163, R283). -/
def resumeStep (x : Inst) : Option Inst :=
  match x.role, x.hostw with
  | .master m, some ⟨.m, _, _⟩ =>
    if m.sem then
      some { x with role := .master { m with sem := false, blocking := false, abortedByTimeout := false },
                    hostw := none, replies := x.replies ++ [⟨.foreground, m.status, none, none⟩] }
    else none
  | .slave c, some ⟨.s, _, .first⟩ =>
    if c.sem then
      some { x with role := .slave { c with sem := false, blocking := false },
                    hostw := none, replies := x.replies ++ [⟨.foreground, c.status, none, none⟩] }
    else none
  | _, _ => none

/-- The receive step is enabled: bytes are expected and the receive FIFO has room; a full FIFO stalls reception (R205). -/
def receiveEnabled (p : Params) (x : Inst) : Bool :=
  x.hw.men && !busHalted x && decide (0 < x.hw.rxLeft) && decide (x.hw.rxf.length < p.rxDepth)

/-- The receive step with the oracle's answer (R205). -/
def receiveStep (ans : RxAnswer) (x : Inst) : Inst :=
  match ans with
  | .byte b => { x with hw := { putWire (.r b) x.hw with rxf := x.hw.rxf ++ [b], rxLeft := x.hw.rxLeft - 1 } }
  | .lineLow =>
    let y := lineHeldLow x
    { y with hw := { y.hw with rxLeft := 0 } }

/-- The command step is enabled (R200). -/
def commandEnabled (x : Inst) : Bool := x.hw.men && !busHalted x && x.hw.rxLeft == 0

/-- The enabling condition of a step of the slave bus side (R300). -/
def bussEnabled (act : BussAct) (f : SSources) : Bool :=
  match act with
  | .addrMatch _ => f == .none
  | .byteIn _ => !f.addrvalid && !f.rxdata && !f.rstart && !f.stop
  | .byteReq => !f.addrvalid && !f.txdata && !f.rstart && !f.stop
  | .repStart | .stop => !f.addrvalid && !f.rstart && !f.stop
  | .bitErr => !f.biterr
  | .fifoErr => !f.sfifoerr

/-- The effect of a step of the slave bus side on the registers (R300). -/
def bussEffect (act : BussAct) (c : SCtx) (h : HW) : HW :=
  match act with
  | .addrMatch rw => { h with saddr := saddrOf c.addr rw, sef := { h.sef with addrvalid := true } }
  | .byteIn b => { h with srdr := b, sef := { h.sef with rxdata := true } }
  | .byteReq => { h with sef := { h.sef with txdata := true } }
  | .repStart => { h with sef := { h.sef with rstart := true } }
  | .stop => { h with sef := { h.sef with stop := true } }
  | .bitErr => { h with sef := { h.sef with biterr := true } }
  | .fifoErr => { h with sef := { h.sef with sfifoerr := true } }

/-- A step of the slave bus side, taken only while the role is Slave and the slave logic is enabled (R300). -/
def bussStep (act : BussAct) (x : Inst) : Option Inst :=
  match x.role with
  | .slave c =>
    if x.hw.sen && bussEnabled act x.hw.sef then some { x with hw := bussEffect act c x.hw } else none
  | _ => none

/-- The handshake arbiter: whether the channel's next byte is granted (R332). For `MTX` with no Master Context there is no
`M.idle` and no queue to read: not granted, the model's choice (DESIGN CHOICE, notes/assumptions/35.md). -/
def dmaGranted (p : Params) (x : Inst) : Bool :=
  match x.dma with
  | .stopped => false
  | .running _ reg _ count =>
    count != 0 &&
    match reg with
    | .mtx =>
      match x.role with
      | .master m => swqEmpty m && decide (x.hw.txf.length < p.txDepth) && !m.idle
      | _ => false
    | .mrx => decide (x.hw.rxw < x.hw.rxf.length)
    | .stx => x.hw.sef.txdata
    | .srx => x.hw.sef.rxdata

/-- The byte of a granted move, by the data register (R334 to R336). -/
def dmaByte (reg : DmaReg) (ptr : Nat) (n : Node Unit) : Res (Node Unit) :=
  match reg with
  | .mtx => andThen (memRead n.par n.mem ptr) fun b => pushTxf (cmdWord .txd b) n
  | .mrx =>
    andThen (popRxf n) fun r =>
    andThen (memWrite r.2.par r.2.mem ptr r.1) fun m => .next { r.2 with mem := m }
  | .stx => andThen (memRead n.par n.mem ptr) fun b => .next (writeStdr b n)
  | .srx => andThen (memWrite n.par n.mem ptr n.hw.srdr) fun m => .next { readSrdr n with mem := m }

/-- A granted move: the byte, then pointer and count advance (R334 to R336). -/
def dmaMove (n : Node Unit) : Res (Node Unit) :=
  match n.dma with
  | .stopped => .next n
  | .running dir reg ptr count =>
    andThen (dmaByte reg ptr n) fun n => .next { n with dma := .running dir reg (ptrNext n.par ptr) (count - 1) }

/-- An agent's own step on one instance; where it is not enabled the turn passes with nothing done. -/
def ownStep (k : BusIndex) (s : State) (f : Inst → Option Inst) : State :=
  match s.inst? k with
  | none => s
  | some x =>
    match f x with
    | none => s
    | some y => s.setInst k y

/-- The DMA channel's turn (R332 to R336). -/
def dmaTurn (k : BusIndex) (s : State) : Res State :=
  match s.inst? k with
  | none => .next s
  | some x =>
    if dmaGranted s.par x then
      andThen (dmaMove (Node.of s x ())) fun n => .next (s.putNode k x x.role n)
    else .next s

/-- The application stores a byte of its own memory (R92, R446). -/
def appStore (addr : Nat) (b : Byte) (s : State) : Res State :=
  andThen (memWrite s.par s.mem addr b) fun m => .next { s with mem := m }

end Sys2Proof.Machine
end

