-- ==== Sys2Proof/Machine/Fetch.lean ====
section
/-! DEFINITION. What an agent's turn comes to: a word at a port, which is then decoded and executed, or a step of the
agent's own; and how a word is put where the next step fetches it (spec 20_memory.md R89, R94; 41_master_commands.md R200;
60_exceptions.md R383 to R385). -/

namespace Sys2Proof.Machine

/-- What a turn comes to. -/
inductive Fetched where
  /-- A word at a port, with the state behind the fetch. -/
  | word (w : PortWord) (s : State)
  /-- The outcome of a step that is no word. -/
  | own (r : Res State)
deriving Repr

/-- The master bus side's turn: the receive step while bytes are expected, else the head of the transmit FIFO is popped
(R200, R205). -/
def busFetch (k : BusIndex) (s : State) : Fetched :=
  match s.inst? k with
  | none => .own (.next s)
  | some x =>
    if receiveEnabled s.par x then .own (.next (s.setInst k (receiveStep s.inp.rx x)))
    else if commandEnabled x then
      match x.hw.txf with
      | [] => .own (.next s)
      | w :: rest => .word (.cmd k w) (s.setInst k { x with hw := { x.hw with txf := rest } })
    else .own (.next s)

/-- An event code on the interrupt line of a bus, if it is due there; else the turn passes. -/
def eventFetch (k : BusIndex) (s : State) (due : Inst → Option EvtCode) : Fetched :=
  match s.inst? k with
  | none => .own (.next s)
  | some x =>
    match due x with
    | none => .own (.next s)
    | some c => .word (.evt k c) s

/-- What an agent's turn comes to: the interrupt context serves the first deliverable source (R385); the DMA completions
and the timer's expiry are steps of other agents, delivered as their events (R337, R383). -/
def fetch (a : Agent) (s : State) : Fetched :=
  match a with
  | .request h o => .word (.req h o) s
  | .resume k => .own (.next (ownStep k s resumeStep))
  | .busm k => busFetch k s
  | .buss k act => .own (.next (ownStep k s (bussStep act)))
  | .isr k => eventFetch k s dispatchFirst
  | .dmaMove k => .own (dmaTurn k s)
  | .dmaOk k => eventFetch k s fun x => if dmaokEnabled x then some 0x21#8 else none
  | .dmaErr k => eventFetch k s fun x => if dmaerrEnabled x then some 0x22#8 else none
  | .timer k => eventFetch k s fun x => if wtimeoutEnabled x then some 0x31#8 else none
  | .app addr b => .own (appStore addr b s)

/-- What a word that is no instruction comes to (R111, R121). -/
def decodeStop (e : DecodeError) : Res State :=
  match e with
  | .reservedRequest => .refused .reservedRequest
  | .reservedCommand => .fault .reservedCommand
  | .reservedEvent => .refused .reservedEvent

/-- A turn taken off the schedule, its inputs in force. -/
def beginTurn (t : Turn) (rest : List Turn) (s : State) : State := { s with turns := rest, inp := t.inp }

/-! ## A word put where the next step fetches it (notes/assumptions/21.md) -/

/-- The inputs of a placed turn: a byte is answered as the command expects it, the bus idles, a 48 MHz clock, a callback
that issues nothing. -/
def placedInput (tx : TxAnswer) : Input :=
  { tx, rx := .byte 0#8, busIdles := true, fIn := 48000000, cb := [] }

/-- A turn put in front of the schedule. -/
def schedule (a : Agent) (tx : TxAnswer) (s : State) : State :=
  { s with turns := { agent := a, inp := placedInput tx } :: s.turns }

/-- An instance changed, if it exists. -/
def adjust (k : BusIndex) (f : Inst → Inst) (s : State) : State := ownStep k s fun x => some (f x)

/-- A configuration with every field 0. -/
def Cfg.zero : Cfg :=
  { addr := 0#10, is10bit := false, mode := .standard, baudRate := 0#32, baudRateHS := 0#32, masterCode := 0#3,
    transferType := .interrupts, dmaChannel := 0#8, callback := none, callbackParam := 0, listening := false }

/-- The role Master, with a fresh context where there is none. -/
def asMaster (r : Role) : Role :=
  match r with
  | .master m => .master m
  | _ => .master (mFreshCtx Cfg.zero (Vector.replicate 5 0#11))

/-- The role Slave, with a fresh context where there is none. -/
def asSlave (r : Role) : Role :=
  match r with
  | .slave c => .slave c
  | _ => .slave (sFreshCtx Cfg.zero)

/-- Some role. -/
def asOwned (r : Role) : Role :=
  match r with
  | .unowned => asMaster r
  | _ => r

/-- The transmit FIFO with a word at its head, on a bus side that is enabled and not halted (R200). -/
def busReady (w : CmdWord) (x : Inst) : Inst :=
  { x with hw := { x.hw with txf := w :: x.hw.txf, men := true, rxLeft := 0, mef := .none } }

/-- Exactly the master source `f` is deliverable (R383). -/
def armMaster (f : MSources) (x : Inst) : Inst :=
  { x with
    role := asMaster x.role
    hw := { x.hw with
      irqEn := true, mie := f, mef := ⟨f.nack, f.arblost, f.fifoerr, f.pinlow⟩
      txf := if f.txrdy then [] else x.hw.txf
      rxf := if f.rxrdy && x.hw.rxf.isEmpty then [0#8] else x.hw.rxf
      rxw := if f.rxrdy then 0 else x.hw.rxw } }

/-- Exactly the slave source `f` is deliverable (R383). -/
def armSlave (f : SSources) (x : Inst) : Inst :=
  { x with role := asSlave x.role, hw := { x.hw with irqEn := true, sie := f, sef := f } }

/-- A channel that has moved its last byte (R337). -/
def armDma (x : Inst) : Inst :=
  { x with role := asOwned x.role, hw := { x.hw with irqEn := true }, dma := .running .memToPeriph .mtx 0 0 }

/-- A host that waits in the first stage, its semaphore not posted (R164, R282). -/
def armTimer (x : Inst) : Inst :=
  match asOwned x.role with
  | .slave c => { x with role := .slave { c with sem := false }, hostw := some ⟨.s, 0, .first⟩ }
  | .master m => { x with role := .master { m with sem := false }, hostw := some ⟨.m, 0, .first⟩ }
  | .unowned => x

/-- The bus made ready for an event, and the agent that delivers it. -/
def placeEvent (i : Instr) (s : State) : State :=
  let k := i.bus
  match i with
  | .txrdy _ => schedule (.isr k) .ack (adjust k (armMaster { MSources.none with txrdy := true }) s)
  | .rxrdy _ => schedule (.isr k) .ack (adjust k (armMaster { MSources.none with rxrdy := true }) s)
  | .nack _ => schedule (.isr k) .ack (adjust k (armMaster { MSources.none with nack := true }) s)
  | .arblost _ => schedule (.isr k) .ack (adjust k (armMaster { MSources.none with arblost := true }) s)
  | .fifoerr _ => schedule (.isr k) .ack (adjust k (armMaster { MSources.none with fifoerr := true }) s)
  | .pinlow _ => schedule (.isr k) .ack (adjust k (armMaster { MSources.none with pinlow := true }) s)
  | .addrvalid _ => schedule (.isr k) .ack (adjust k (armSlave { SSources.none with addrvalid := true }) s)
  | .txdata _ => schedule (.isr k) .ack (adjust k (armSlave { SSources.none with txdata := true }) s)
  | .rxdata _ => schedule (.isr k) .ack (adjust k (armSlave { SSources.none with rxdata := true }) s)
  | .rstart _ => schedule (.isr k) .ack (adjust k (armSlave { SSources.none with rstart := true }) s)
  | .evtStop _ => schedule (.isr k) .ack (adjust k (armSlave { SSources.none with stop := true }) s)
  | .biterr _ => schedule (.isr k) .ack (adjust k (armSlave { SSources.none with biterr := true }) s)
  | .sfifoerr _ => schedule (.isr k) .ack (adjust k (armSlave { SSources.none with sfifoerr := true }) s)
  | .dmaok _ => schedule (.dmaOk k) .ack (adjust k armDma s)
  | .dmaerr _ => schedule (.dmaErr k) .ack (adjust k armDma s)
  | .wtimeout _ => schedule (.timer k) .ack (adjust k armTimer s)
  | _ => s

/-- The role under which the host's step with a request is one of the machine's (R441): the engine's own, none for an
init. -/
def requestRole (i : Instr) (r : Role) : Role :=
  match i with
  | .mdeinit _ | .msend _ _ _ _ | .msendb _ _ _ _ _ | .mrecv _ _ _ _ | .mrecvb _ _ _ _ _ | .mstatus _ | .mabort _
  | .mgetbaud _ | .msetbaud _ _ _ _ => asMaster r
  | .sdeinit _ | .ssend _ _ _ | .ssendb _ _ _ _ | .srecv _ _ _ | .srecvb _ _ _ _ | .sstatus _ | .sabort _
  | .ssettx _ _ _ | .ssetrx _ _ _ => asSlave r
  | _ => r

/-- The bus in the role a request header needs, if it is a request. -/
def placeRequest (h : ReqWord) (o : Ports) (s : State) : State :=
  match decodeReq s.par h o with
  | .ok i => adjust i.bus (fun x => { x with role := requestRole i x.role }) s
  | .error _ => s

/-- A word put where the next step fetches it, with all that the step takes. -/
def placeWord (w : PortWord) (s : State) : State :=
  match w with
  | .req h o => schedule (.request h o) .ack (placeRequest h o s)
  | .cmd k w =>
    schedule (.busm k) (if cmdField w == Cmd.startn.code then .nack else .ack) (adjust k (busReady w) s)
  | .evt k c =>
    match decodeEvt k c with
    | .ok i => placeEvent i s
    | .error _ => s

end Sys2Proof.Machine
end

