-- ==== Sys2Proof/Machine/Step.lean ====
section
/-! DEFINITION. One step of the machine: the next turn of the schedule is taken, the word it fetches is decoded and
executed. -/

namespace Sys2Proof.Machine

/-- A word at a port is decoded in that port's space and executed (R110). -/
def runWord (w : PortWord) (s : State) : Res State :=
  match decode s.par w with
  | .ok i => exec i s
  | .error e => decodeStop e

/-- One step. With no turn scheduled no agent moves and the state stays as it is (notes/assumptions/9.md). -/
def step (s : State) : Host.Outcome State Fault Refusal :=
  match s.turns with
  | [] => .next s
  | t :: rest =>
    match fetch t.agent (beginTurn t rest s) with
    | .word w s => runWord w s
    | .own r => r

/-- The state whose next step fetches and runs the instruction of these bits of the opcode table. -/
def State.withFetchWord (s : State) (nbits w : Nat) : State := placeWord (tablePort nbits w) s

end Sys2Proof.Machine
end

