-- ==== Sys2Proof/Safety.lean ====
section
/-! DEFINITION. What a safe run is, in the terms the claims use: the invariant of the machine's states, and the faults a
run from such a state never raises (spec 10_state.md R20 to R47; 41_master_commands.md R196; 45_dma.md R342;
60_exceptions.md R382). -/

namespace Sys2Proof.Machine

/-- A buffer pointer is null only with a count of 0 and lies in the address space; the count fits its counter (R22, R81,
R82). -/
def bufGood (p : Params) (b : Option Nat) (count : Nat) : Bool :=
  decide (count < 2 ^ p.sizeW) &&
  match b with
  | none => count == 0
  | some a => decide (a < 2 ^ p.addrW)

/-- Not one of the reserved command codes 3 and 7 (R121). -/
def cmdGood (w : CmdWord) : Bool := cmdField w != 3#3 && cmdField w != 7#3

/-- A word is `RXN` (R115). -/
def isRxn (w : CmdWord) : Bool := cmdField w == Cmd.rxn.code

/-- The bytes the `RXN` words of a command stream will still receive (R117). -/
def pendingRx : List CmdWord → Nat
  | [] => 0
  | w :: ws => (if isRxn w then rxnCount (dataField w) else 0) + pendingRx ws

/-- The words the master bus side has still to execute, in order: the transmit FIFO, then the software queue (R90). -/
def commandStream (m : MCtx) (h : HW) : List CmdWord := h.txf ++ swqEntries m

/-- The hardware-side bounds: both FIFOs within their depths, the watermark in its range, the receive count in its field
(R36 to R38, R42). -/
def hwGood (p : Params) (h : HW) : Bool :=
  decide (h.txf.length ≤ p.txDepth) && decide (h.rxf.length ≤ p.rxDepth) && decide (h.rxw < p.rxDepth) &&
  decide (h.rxLeft ≤ Config.rxMax) && h.txf.all cmdGood

/-- An instance without a role has nothing enabled and nothing running (R45, R50, R384). -/
def unownedGood (x : Inst) : Bool :=
  !x.hw.men && !x.hw.sen && !x.hw.irqEn && x.hw.mie == .none && x.hw.sie == .none && x.dma == .stopped &&
  x.hostw == none

/-- An idle master engine: the buffers are back, no source is enabled, the channel is stopped, the queue is empty, no byte
is expected (R22, R39, R241, R342). -/
def masterIdleGood (m : MCtx) (x : Inst) : Bool :=
  m.phase == .idle && m.txBuff == none && m.rxBuff == none && m.txSize == 0 && m.rxSize == 0 && m.dir == .none &&
  x.hw.mie == .none && x.dma == .stopped && swqEmpty m && x.hw.rxf == [] && x.hw.rxLeft == 0 &&
  pendingRx x.hw.txf == 0

/-- The channel of a send in flight: none in interrupt mode; in DMA mode it serves `MTX`, or it is done and nothing is
left in the context's count (R153, R338, R342). -/
def sendDmaGood (p : Params) (m : MCtx) (d : DmaCh) : Bool :=
  match m.transferType, d with
  | .interrupts, .stopped => true
  | .dma, .stopped => m.txSize == 0
  | .dma, .running .memToPeriph .mtx ptr count => bufGood p (some ptr) count
  | _, _ => false

/-- The count of bytes a receive in flight still has to store, in interrupt mode the context's, in DMA mode the channel's;
none if the channel is not the one the mode asks for (R155, R157, R342). -/
def recvRemaining (p : Params) (m : MCtx) (d : DmaCh) : Option Nat :=
  match m.transferType, d with
  | .interrupts, .stopped => if 0 < m.rxSize then some m.rxSize else none
  | .dma, .running .periphToMem .mrx ptr count => if bufGood p (some ptr) count then some count else none
  | _, _ => none

/-- A receive in flight: what is in the receive FIFO, expected on the wire and asked for by words not yet executed does
not exceed what the buffer has still to take, and `RXN` is the last word of the stream (R155, R90). -/
def recvGood (p : Params) (m : MCtx) (x : Inst) : Bool :=
  match recvRemaining p m x.dma with
  | none => false
  | some left =>
    decide (x.hw.rxf.length + x.hw.rxLeft + pendingRx (commandStream m x.hw) ≤ left) &&
    (match (commandStream m x.hw).getLast? with
     | none => true
     | some w => isRxn w)

/-- A master transfer in flight (R22, R25, R28, R152 to R155). -/
def masterBusyGood (p : Params) (m : MCtx) (x : Inst) : Bool :=
  m.phase == (if swqEmpty m then .transferring else .addressing) && m.status == .busy &&
  (swqEntries m).all cmdGood &&
  match m.dir with
  | .none => false
  | .send =>
    m.rxSize == 0 && m.rxBuff == none && x.hw.rxf == [] && x.hw.rxLeft == 0 &&
    pendingRx (commandStream m x.hw) == 0 && !x.hw.mie.rxrdy && sendDmaGood p m x.dma
  | .receive =>
    m.txSize == 0 && m.txBuff == none && (!x.hw.mie.rxrdy || m.transferType == .interrupts) && recvGood p m x

/-- The host waits on the master engine only while the transfer is in flight or its end has been posted (R26, R47). -/
def masterWaitGood (m : MCtx) (w : Option Wait) : Bool :=
  match w with
  | none => true
  | some w => w.engine == .m && m.blocking && (m.sem || !m.idle)

/-- An instance with role Master. -/
def masterGood (p : Params) (m : MCtx) (x : Inst) : Bool :=
  x.hw.men && x.hw.irqEn && !x.hw.sen && x.hw.sie == .none && decide (swqCount m ≤ Config.swqCap) &&
  (m.txSize == 0 || m.rxSize == 0) && decide (m.rxSize ≤ Config.rxMax) &&
  bufGood p m.txBuff m.txSize && bufGood p m.rxBuff m.rxSize && masterWaitGood m x.hostw &&
  if m.idle then masterIdleGood m x else masterBusyGood p m x

/-- The channel of a slave: stopped, or serving a slave data register in a transaction of a DMA slave (R342). -/
def slaveDmaGood (p : Params) (c : SCtx) (d : DmaCh) : Bool :=
  match d with
  | .stopped => true
  | .running .memToPeriph .stx ptr count | .running .periphToMem .srx ptr count =>
    c.transferType == .dma && c.isTransferInProgress && bufGood p (some ptr) count
  | _ => false

/-- The host waits on an on-demand slave only while the transfer is in flight or its end has been posted (R47, R283). -/
def slaveWaitGood (c : SCtx) (w : Option Wait) : Bool :=
  match w with
  | none => true
  | some w => w.engine == .s && w.stage == .first && c.blocking && !c.listening && (c.sem || c.isTransferInProgress)

/-- The five armed sources are enabled (R270, R281). -/
def armed (f : SSources) : Bool := f.addrvalid && f.rstart && f.stop && f.biterr && f.sfifoerr

/-- An instance with role Slave. -/
def slaveGood (p : Params) (c : SCtx) (x : Inst) : Bool :=
  !x.hw.men && x.hw.irqEn && x.hw.mie == .none &&
  (if c.isTransferInProgress then c.phase == .addressing || c.phase == .transferring else c.phase == .idle) &&
  decide (c.repeatedStarts ≤ 255) && bufGood p c.txBuff c.txSize && bufGood p c.rxBuff c.rxSize &&
  slaveDmaGood p c x.dma && slaveWaitGood c x.hostw &&
  if c.listening || c.isTransferInProgress then x.hw.sen && armed x.hw.sie
  else !x.hw.sen && x.hw.sie == .none && x.hw.sef == .none

/-- The invariant of one instance. -/
def Inst.good (p : Params) (x : Inst) : Bool :=
  hwGood p x.hw &&
  match x.role with
  | .unowned => unownedGood x
  | .master m => masterGood p m x
  | .slave c => slaveGood p c x

/-- The invariant of the machine: parameters within R9's constraints, one instance per index, the memory in canonical
form, every instance good. -/
abbrev State.good (s : State) : Prop :=
  s.par.wf ∧ s.insts.length = s.par.numInst ∧ Memory.wf s.mem = true ∧ s.insts.all (Inst.good s.par) = true

/-- A fault that a run of the machine can come to: the host's own broken assertion, and the application's store outside
its memory. The others are the spec's unreachable ones (R196, R382). -/
def hostFault : Fault → Bool
  | .deinitWhileBusy | .noSuchAddress => true
  | .queueOverflow | .fifoMisuse | .reservedCommand | .contextAbsent | .nullBuffer => false

end Sys2Proof.Machine
end

