-- ==== Sys2Proof/Certificates/Slice0/Obligations.lean ====
section
/-! DEFINITION. The statements for the provers. The vocabulary below is written from the spec's rules, beside the model and
not through its meanings: what a statement says an instruction does is written out here. -/

namespace Sys2Proof.Claims

open Sys2Proof.Machine

/-! ## Which bus, which role -/

/-- Bus `k` exists and has the registers `x`. -/
abbrev busAt (s : State) (k : BusIndex) (x : Inst) : Prop := s.inst? k = some x

/-- Bus `k` has the role Master with the context `m`. -/
abbrev masterAt (s : State) (k : BusIndex) (x : Inst) (m : MCtx) : Prop := busAt s k x ∧ x.role = .master m

/-- Bus `k` has the role Slave with the context `c`. -/
abbrev slaveAt (s : State) (k : BusIndex) (x : Inst) (c : SCtx) : Prop := busAt s k x ∧ x.role = .slave c

/-- The byte of application memory at an address. -/
abbrev byteAt (s : State) (a : Nat) : Byte := Memory.read s.mem a

/-- The request completes with a status and changes nothing else on its bus; the record of answers is the model's own
(notes/assumptions/14.md). -/
def answered (x : Inst) (st : Status) : Inst := { x with replies := x.replies ++ [⟨.foreground, st, none, none⟩] }

/-- The master requests but the init (R161). -/
def isMasterRequest : Instr → Bool
  | .mdeinit _ | .msend _ _ _ _ | .msendb _ _ _ _ _ | .mrecv _ _ _ _ | .mrecvb _ _ _ _ _ | .mstatus _ | .mabort _
  | .mgetbaud _ | .msetbaud _ _ _ _ => true
  | _ => false

/-- The slave requests but the init (R272). -/
def isSlaveRequest : Instr → Bool
  | .sdeinit _ | .ssend _ _ _ | .ssendb _ _ _ _ | .srecv _ _ _ | .srecvb _ _ _ _ | .sstatus _ | .sabort _
  | .ssettx _ _ _ | .ssetrx _ _ _ => true
  | _ => false

/-- `MSEND`, or `MSENDB` with a timeout. -/
def msendOf (k : BusIndex) (buf len : Nat) (stop : Bool) : Option Nat → Instr
  | none => .msend k buf len stop
  | some t => .msendb k buf len stop t

/-- `MRECV`, or `MRECVB` with a timeout. -/
def mrecvOf (k : BusIndex) (buf len : Nat) (stop : Bool) : Option Nat → Instr
  | none => .mrecv k buf len stop
  | some t => .mrecvb k buf len stop t

/-- `SSEND`, or `SSENDB` with a timeout. -/
def ssendOf (k : BusIndex) (buf len : Nat) : Option Nat → Instr
  | none => .ssend k buf len
  | some t => .ssendb k buf len t

/-- `SRECV`, or `SRECVB` with a timeout. -/
def srecvOf (k : BusIndex) (buf len : Nat) : Option Nat → Instr
  | none => .srecv k buf len
  | some t => .srecvb k buf len t

/-- A blocking request leaves the host waiting in the first stage; any other answers `Success` at once. -/
def hostBehind (e : Engine) (timeout : Option Nat) (x : Inst) : Inst :=
  match timeout with
  | none => answered x .success
  | some t => { x with hostw := some ⟨e, t, .first⟩ }

/-! ## Configurations -/

/-- The number a mode has on the port (R24). -/
def modeBits : Mode → BitVec 3
  | .standard => 0#3
  | .fast => 1#3
  | .fastPlus => 2#3
  | .highSpeed => 3#3
  | .ultraFast => 4#3

/-- A configuration record as the port carries it (R113). -/
def portOf (c : Cfg) : CfgPort :=
  { addr := c.addr, is10bit := c.is10bit, mode := modeBits c.mode, baudRate := c.baudRate, baudRateHS := c.baudRateHS,
    masterCode := c.masterCode, transferType := c.transferType, dmaChannel := c.dmaChannel, callback := c.callback,
    callbackParam := c.callbackParam, listening := c.listening }

/-- The address fits the addressing mode: with 7-bit addressing bits 9:7 are 0 (R113). -/
abbrev addrFits (addr : BitVec 10) (is10bit : Bool) : Prop := is10bit = true ∨ addr.toNat < 128

/-- The registers behind `HwReset`: the histories, the slave data registers and `HW.irqEn` are kept (R162). -/
def resetHw (h : HW) : HW :=
  { txf := [], rxf := [], rxw := 0, mie := ⟨false, false, false, false, false, false⟩,
    mef := ⟨false, false, false, false⟩, baud := ⟨0, 0, 0, 0, 0⟩, hs := ⟨0, 0, 0, 0, 0⟩, fIn := h.fIn, busOpen := false,
    rxLeft := 0, men := false, wire := h.wire, sen := false,
    sie := ⟨false, false, false, false, false, false, false⟩, sef := ⟨false, false, false, false, false, false, false⟩,
    saddr := h.saddr, srdr := h.srdr, stdr := h.stdr, stx := h.stx, irqEn := h.irqEn }

/-- The registers behind a `BaudApply` (R365): the high-speed set in high-speed mode only. That the clock frequency is kept
is the model's choice (notes/assumptions/12.md). -/
def baudApplied (p : Params) (fIn : Nat) (mode : Mode) (rate rateHS : BitVec 32) (h : HW) : HW :=
  { h with fIn := fIn, baud := baudCalc p fIn rate.toNat,
           hs := if mode = .highSpeed then baudCalc p fIn rateHS.toNat else h.hs }

/-- The Master Context of a configuration, with any queue slots (R150). -/
def freshMaster (c : Cfg) (st : Status) (slots : Vector CmdWord 5) : MCtx :=
  { addr := c.addr, is10bit := c.is10bit, mode := c.mode, baudRate := c.baudRate, baudRateHS := c.baudRateHS,
    masterCode := c.masterCode, hsInProgress := false, txBuff := none, rxBuff := none, txSize := 0, rxSize := 0,
    swq := slots, swqWr := 0, swqRd := 0, dir := .none, sendStop := false, blocking := false, status := st,
    abortedByTimeout := false, sem := false, idle := true, phase := .idle, transferType := c.transferType,
    dmaChannel := c.dmaChannel, callback := c.callback, callbackParam := c.callbackParam, initCfg := c }

/-- The Slave Context of a configuration (R270). -/
def freshSlave (c : Cfg) : SCtx :=
  { listening := c.listening, addr := c.addr, is10bit := c.is10bit, mode := c.mode, txBuff := none, rxBuff := none,
    txSize := 0, rxSize := 0, repeatedStarts := 0, txUnderrunWarning := false, isTransferInProgress := false,
    phase := .idle, status := .success, blocking := false, sem := false, transferType := c.transferType,
    dmaChannel := c.dmaChannel, callback := c.callback, callbackParam := c.callbackParam }

/-! ## Command words (R114 to R119) -/

/-- `START data` or, in high-speed mode, `STARTHS data`. -/
def startWord (mode : Mode) (data : BitVec 11) : CmdWord := (if mode = .highSpeed then 0x600#11 else 0x400#11) ||| data

/-- The words of the address phase, `rw` 0 for a send and 1 for a receive, in the order they are offered (R194, R195). -/
def addressWords (m : MCtx) (receive : Bool) : List CmdWord :=
  (if m.mode = .highSpeed ∧ m.hsInProgress = false then [0x508#11 ||| m.masterCode.setWidth 11] else []) ++
  (if m.is10bit = false then
    [startWord m.mode (((m.addr.setWidth 11 &&& 0x7F#11) <<< 1) ||| (if receive then 1#11 else 0#11))]
  else
    [startWord m.mode (0xF0#11 ||| ((m.addr.setWidth 11 >>> 8) <<< 1)), m.addr.setWidth 11 &&& 0xFF#11] ++
    (if receive then [startWord m.mode (0xF1#11 ||| ((m.addr.setWidth 11 >>> 8) <<< 1))] else []))

/-- `RXN` for `len` bytes (R117). -/
def rxnWord (len : Nat) : CmdWord := 0x100#11 ||| BitVec.ofNat 11 (len - 1)

/-- The `TXD` words of `count` bytes of memory from `a` on (R83, R233). -/
def txdWords (mem : Memory) (a count : Nat) : List CmdWord :=
  (List.range count).map fun j => (mem.read (a + j)).setWidth 11

/-- The `STOP` word (R115). -/
def stopWord : CmdWord := 0x200#11

/-- The contexts that differ from `m` in the software queue only, which holds `q` (R23). -/
def withQueue (m m' : MCtx) (q : List CmdWord) : Prop :=
  (∃ slots wr rd, m' = { m with swq := slots, swqWr := wr, swqRd := rd }) ∧ swqEntries m' = q

/-! ## Ends of transfers -/

/-- The enables of the four master errors, with the two data sources as given (R153, R155). -/
def errorsEnabled (txrdy rxrdy : Bool) : MSources := ⟨txrdy, rxrdy, true, true, true, true⟩

/-- No master source enabled. -/
def noMasterSource : MSources := ⟨false, false, false, false, false, false⟩

/-- No slave source. -/
def noSlaveSource : SSources := ⟨false, false, false, false, false, false, false⟩

/-- `ADDRVALID, RSTART, STOP, BITERR, SFIFOERR` (R270, R281). -/
def armedSources : SSources := ⟨true, false, false, true, true, true, true⟩

/-- The Master Context behind `MEnd`, with a status (R230). -/
def endedCtx (st : Status) (m : MCtx) : MCtx :=
  { m with txBuff := none, txSize := 0, rxBuff := none, rxSize := 0, dir := .none, idle := true, phase := .idle,
           status := st }

/-- The channel behind `MEnd`: stopped in DMA mode (R230). -/
def endedDma (m : MCtx) (d : DmaCh) : DmaCh := if m.transferType = .dma then .stopped else d

/-- The callback trace behind one invocation (R11, R52). -/
def traced (cb : Option Nat) (ev : CbEvent) (param : Nat) (tr : List (CbEvent × Nat)) : List (CbEvent × Nat) :=
  if cb.isSome then tr ++ [(ev, param)] else tr

/-- An instance behind a force abort: FIFOs and queue reset, then `STOP` offered, no notification (R158, R164). -/
def forceAborted (st : Status) (m : MCtx) (x : Inst) : Inst :=
  { x with
    role := .master { endedCtx st m with swqWr := 0, swqRd := 0, hsInProgress := false }
    hw := { x.hw with mie := noMasterSource, txf := [stopWord], rxf := [], rxLeft := 0 }
    dma := endedDma m x.dma }

/-- An instance behind `Notify` with a callback that issues nothing (R231). -/
def notified (m : MCtx) (x : Inst) : Inst :=
  { x with
    role := .master { m with sem := m.blocking || m.sem }
    cbTrace := traced m.callback .endTransfer m.callbackParam x.cbTrace }

/-- An instance behind `ErrEnd`, `mef` being the flags left (R236). -/
def errorEnded (st : Status) (mef : MLatched) (m : MCtx) (x : Inst) : Inst :=
  notified { endedCtx st m with swqWr := 0, swqRd := 0, hsInProgress := false }
    { x with
      hw := { x.hw with mie := noMasterSource, txf := [], rxf := [], rxLeft := 0, mef := mef }
      dma := endedDma m x.dma }

/-- An instance behind a completion on an empty queue with room in the transmit FIFO: `MEnd(stop, 0)` and `Success`
(R230, R231). -/
def succeeded (stop : Bool) (m : MCtx) (x : Inst) : Inst :=
  { x with
    role := .master { endedCtx .success m with hsInProgress := m.hsInProgress && !stop }
    hw := { x.hw with mie := noMasterSource, txf := x.hw.txf ++ (if stop then [stopWord] else []) }
    dma := endedDma m x.dma }

/-- An instance behind `RxComplete` (R235): a stop if the transfer asked for one or the parameter forces it, the semaphore,
the callback unless the parameter suppresses it. -/
def receiveCompleted (p : Params) (m : MCtx) (x : Inst) : Inst :=
  let y := succeeded (m.sendStop || (m.abortedByTimeout && p.abortedRx == .forceStop)) m x
  match y.role with
  | .master e =>
    { y with
      role := .master { e with sem := m.blocking || m.sem }
      cbTrace := if m.abortedByTimeout = true ∧ p.abortedRx = .suppressCallback then y.cbTrace
                 else traced m.callback .endTransfer m.callbackParam y.cbTrace }
  | _ => y

/-- The Slave Context behind `STeardown` (R284). -/
def tornDownCtx (c : SCtx) : SCtx :=
  { c with txBuff := none, txSize := 0, rxBuff := none, rxSize := 0, repeatedStarts := 0, txUnderrunWarning := false,
           isTransferInProgress := false, phase := .idle }

/-- The registers behind `STeardown` (R284). -/
def tornDownHw (h : HW) : HW := { h with sie := noSlaveSource, sen := false, sef := noSlaveSource }

/-- An instance behind `SEnd` (R301): the status is finalised, the channel's remainder goes back to the buffer registers;
an on-demand slave is torn down and its blocking caller released. -/
def slaveEnded (c : SCtx) (x : Inst) : Inst :=
  let st := if c.status = .busy then .success else c.status
  if c.listening then
    { x with
      role := .slave { c with
        status := st, repeatedStarts := 0, isTransferInProgress := false, phase := .idle
        txBuff := match x.dma with | .running _ .stx p _ => some p | _ => c.txBuff
        txSize := match x.dma with | .running _ .stx _ n => n | _ => c.txSize
        rxBuff := match x.dma with | .running _ .srx p _ => some p | _ => c.rxBuff
        rxSize := match x.dma with | .running _ .srx _ n => n | _ => c.rxSize }
      hw := { x.hw with sie := { x.hw.sie with txdata := false, rxdata := false } }
      dma := .stopped }
  else
    { x with
      role := .slave { tornDownCtx c with status := st, sem := c.blocking || c.sem }
      hw := tornDownHw x.hw
      dma := .stopped }

/-- An instance behind `SEnd` and a callback that issues nothing (R306 to R309, R341). -/
def slaveBoundary (ev : CbEvent) (c : SCtx) (x : Inst) : Inst :=
  { slaveEnded c x with cbTrace := traced c.callback ev c.callbackParam x.cbTrace }

/-! ## The wire -/

/-- The registers behind `TransmitByte` (R204): the symbols, the flag, and outside ultra-fast mode the hardware's own STOP
behind an unexpected answer. -/
def byteSent (mode : Mode) (b : Byte) (expectNack : Bool) (ans : TxAnswer) (h : HW) : HW :=
  let unexpected (a : AckBit) : HW :=
    if mode = .ultraFast then { h with wire := h.wire ++ [.b b a], mef := { h.mef with nack := true } }
    else { h with wire := h.wire ++ [.b b a, .pauto], mef := { h.mef with nack := true }, busOpen := false }
  match ans, expectNack with
  | .ack, false => { h with wire := h.wire ++ [.b b .ack] }
  | .nack, true => { h with wire := h.wire ++ [.b b .nack] }
  | .ack, true => unexpected .ack
  | .nack, false => unexpected .nack
  | .arbLost, _ => { h with wire := h.wire ++ [.lost], mef := { h.mef with arblost := true }, busOpen := false }
  | .lineLow, _ => { h with wire := h.wire ++ [.low], mef := { h.mef with pinlow := true }, busOpen := false }

/-- The registers behind the START symbol, repeated on an open bus (R204). -/
def startSent (fresh repeated : WireSym) (h : HW) : HW :=
  { h with wire := h.wire ++ [if h.busOpen then repeated else fresh], busOpen := true }

/-- The master bus side is halted (R42). -/
abbrev halted (h : HW) (mode : Mode) : Prop :=
  h.mef.arblost = true ∨ h.mef.fifoerr = true ∨ h.mef.pinlow = true ∨ (h.mef.nack = true ∧ mode ≠ .ultraFast)

/-! ## Events -/

/-- Whether an event is enabled on a bus (R383, R337, R164, R168, R282); nothing for a word that is no event. -/
def eventEnabled (i : Instr) (x : Inst) : Option Bool :=
  let h := x.hw
  let master (pending : Bool) : Option Bool :=
    match x.role with
    | .master _ => some (h.irqEn && pending)
    | _ => some false
  let slave (pending : Bool) : Option Bool :=
    match x.role with
    | .slave _ => some (h.irqEn && pending)
    | _ => some false
  match i with
  | .txrdy _ => master (h.mie.txrdy && h.txf.length == 0)
  | .rxrdy _ => master (h.mie.rxrdy && decide (h.rxw < h.rxf.length))
  | .nack _ => master (h.mie.nack && h.mef.nack)
  | .arblost _ => master (h.mie.arblost && h.mef.arblost)
  | .fifoerr _ => master (h.mie.fifoerr && h.mef.fifoerr)
  | .pinlow _ => master (h.mie.pinlow && h.mef.pinlow)
  | .addrvalid _ => slave (h.sie.addrvalid && h.sef.addrvalid)
  | .txdata _ => slave (h.sie.txdata && h.sef.txdata)
  | .rxdata _ => slave (h.sie.rxdata && h.sef.rxdata)
  | .rstart _ => slave (h.sie.rstart && h.sef.rstart)
  | .evtStop _ => slave (h.sie.stop && h.sef.stop)
  | .biterr _ => slave (h.sie.biterr && h.sef.biterr)
  | .sfifoerr _ => slave (h.sie.sfifoerr && h.sef.sfifoerr)
  | .dmaok _ =>
    match x.role, x.dma with
    | .unowned, _ | _, .stopped => some false
    | _, .running _ _ _ n => some (h.irqEn && n == 0)
  | .dmaerr _ =>
    match x.role, x.dma with
    | .unowned, _ | _, .stopped => some false
    | _, .running _ _ _ _ => some h.irqEn
  | .wtimeout _ =>
    match x.role, x.hostw with
    | .master m, some w => some (w.engine == .m && !m.sem)
    | .slave c, some w => some (w.engine == .s && w.stage == .first && !c.sem)
    | _, _ => some false
  | _ => none

/-! ## Whole machine -/

/-- A state with one turn in front of its schedule. -/
def turn (s : State) (t : Turn) : State := { s with turns := t :: s.turns }

/-- The state a turn's step works on: the turn taken, its inputs in force. -/
def during (s : State) (t : Turn) : State := { s with inp := t.inp }

/-- The bus an agent's turn is about, if it is about one (R6). -/
def agentBus : Agent → Option BusIndex
  | .request h _ => some (h.extractLsb' 0 8)
  | .resume k | .busm k | .buss k _ | .isr k | .dmaMove k | .dmaOk k | .dmaErr k | .timer k => some k
  | .app _ _ => none

/-- The instruction may store to application memory: the two receive events, and the timeout's late success (R80, R166). -/
def mayStore : Instr → Bool
  | .rxrdy _ | .rxdata _ | .wtimeout _ => true
  | _ => false

/-- The agent is the host with a request whose opcode is `a` or `b`, for bus `k`. -/
def asks (t : Turn) (k : BusIndex) (a b : Nat) : Prop :=
  ∃ h o, t.agent = .request h o ∧ h.extractLsb' 0 8 = k ∧
    ((h.extractLsb' 8 8).toNat = a ∨ (h.extractLsb' 8 8).toNat = b)

/-- A transfer of bus `k` is in flight (R27, R34). -/
def inFlight (s : State) (k : BusIndex) : Prop :=
  (∃ x m, masterAt s k x m ∧ m.idle = false) ∨ (∃ x c, slaveAt s k x c ∧ c.isTransferInProgress = true)

/-- The operand ports that a request with header `h` uses, cut to their widths; the others 0 (R112, R113). -/
def portsUsed (p : Params) (h : ReqWord) (o : Ports) : Ports :=
  let op := (h.extractLsb' 8 8).toNat
  let buffer := op ∈ [0x03, 0x04, 0x05, 0x06, 0x13, 0x14, 0x15, 0x16, 0x19, 0x1A]
  { buf := if buffer then o.buf % 2 ^ p.addrW else 0
    len := if buffer then o.len % 2 ^ p.sizeW else 0
    stop := if op ∈ [0x03, 0x04, 0x05, 0x06] then o.stop else false
    timeout := if op ∈ [0x04, 0x06, 0x14, 0x16] then o.timeout % 2 ^ p.timeoutW else 0
    mode := if op = 0x0A then o.mode else 0#3
    rate := if op = 0x0A then o.rate else 0#32
    rateHS := if op = 0x0A then o.rateHS else 0#32
    cfg := if op = 0x01 ∨ op = 0x11 then { o.cfg with callbackParam := o.cfg.callbackParam % 2 ^ p.addrW } else .zero }

/-! ## Requests of a callback -/

/-- The foreground's form of a request that a callback issues, its operands cut to their ports (R112, R231, R302). -/
def foregroundOf (p : Params) (k : BusIndex) : CbReq → Instr
  | .msend buf len stop => .msend k (buf % 2 ^ p.addrW) (len % 2 ^ p.sizeW) stop
  | .mrecv buf len stop => .mrecv k (buf % 2 ^ p.addrW) (len % 2 ^ p.sizeW) stop
  | .mstatus => .mstatus k
  | .mgetbaud => .mgetbaud k
  | .msetbaud mode rate rateHS => .msetbaud k mode rate rateHS
  | .ssettx buf len => .ssettx k (buf % 2 ^ p.addrW) (len % 2 ^ p.sizeW)
  | .ssetrx buf len => .ssetrx k (buf % 2 ^ p.addrW) (len % 2 ^ p.sizeW)
  | .sstatus => .sstatus k

/-- The requests that skip the test for a suspended host when a callback issues them (R161, R272). -/
def skipsWaitTest : CbReq → Bool
  | .mstatus | .mgetbaud | .ssettx _ _ | .ssetrx _ _ | .sstatus => true
  | .msend _ _ _ | .mrecv _ _ _ | .msetbaud _ _ _ => false

/-- A callback's requests, in order: each does what the foreground's form does, one that skips the test for a suspended
host as if the host were not waiting; its answer goes to the callback; a refusal or a fault ends the whole (R231, R302). -/
def callbackRuns (k : BusIndex) : List CbReq → State → Res State
  | [], s => .next s
  | r :: rs, s =>
    match s.inst? k with
    | none => .next s
    | some x =>
      let asked := if skipsWaitTest r then s.setInst k { x with hostw := none } else s
      match exec (foregroundOf s.par k r) asked with
      | .next s' =>
        match s'.inst? k with
        | none => .next s'
        | some y =>
          let answers := (y.replies.drop x.replies.length).map fun a => { a with origin := .callback }
          callbackRuns k rs (s'.setInst k { y with hostw := x.hostw, replies := x.replies ++ answers })
      | .fault e => .fault e
      | .refused e => .refused e

/-- The events whose handler invokes the callback last, if at all (R231, R235, R236, R306 to R309, R338 to R341). -/
def endsWithCallback : Instr → Bool
  | .txrdy _ | .rxrdy _ | .nack _ | .arblost _ | .fifoerr _ | .pinlow _ | .rstart _ | .evtStop _ | .biterr _
  | .sfifoerr _ | .dmaok _ | .dmaerr _ => true
  | _ => false

end Sys2Proof.Claims

section

open Sys2Proof Sys2Proof.Machine Sys2Proof.Claims

/-! ## Encoding -/

/-- Words written out from the tables of R112, R115 and R120, with the instruction each stands for. -/
def Obligations.WrittenWordsDecode : Prop :=
  decodeReq Params.default 0x0300#16 { Ports.zero with buf := 0x1000, len := 2, stop := true } =
    .ok (.msend 0#8 0x1000 2 true) ∧
  decodeReq Params.default 0x1900#16 { Ports.zero with buf := 0x3100, len := 2 } = .ok (.ssettx 0#8 0x3100 2) ∧
  decodeReq { Params.default with numInst := 2 } 0x0701#16 Ports.zero = .ok (.mstatus 1#8) ∧
  decodeCmd 0#8 0x480#11 = .ok (.start 0#8 0x80#8) ∧ decodeCmd 0#8 0x1FF#11 = .ok (.rxn 0#8 255#8) ∧
  decodeCmd 0#8 0x50B#11 = .ok (.startn 0#8 0x0B#8) ∧ decodeCmd 0#8 0x6F4#11 = .ok (.starths 0#8 0xF4#8) ∧
  decodeCmd 0#8 0x010#11 = .ok (.txd 0#8 0x10#8) ∧ decodeCmd 0#8 0x200#11 = .ok (.stop 0#8) ∧
  decodeEvt 0#8 0x02#8 = .ok (.rxrdy 0#8) ∧ decodeEvt 0#8 0x15#8 = .ok (.evtStop 0#8) ∧
  decodeEvt 0#8 0x22#8 = .ok (.dmaerr 0#8) ∧ decodeEvt 0#8 0x31#8 = .ok (.wtimeout 0#8)

/-- No bit of an encoding is dropped: every well-formed instruction, with every operand at every value its port carries,
is read back from its word (R111 to R115, R120). -/
def Obligations.DecodeOfEncode : Prop :=
  ∀ (p : Params) (i : Instr), i.wellFormed p = true → decode p (encode i) = .ok i

/-- Each word has one meaning: a word that decodes is the encoding of what it decodes to. Every operand port that a request
uses is carried, cut to its width; the ports it does not use and the data of `STOP` are ignored and encoded as 0 (R111 to
R115, R120). And a request that decodes is well-formed. -/
def Obligations.EncodeOfDecode : Prop :=
  (∀ p h o i, decodeReq p h o = .ok i → i.wellFormed p = true ∧ encode i = .req h (portsUsed p h o)) ∧
  (∀ k w i, decodeCmd k w = .ok i →
    encode i = .cmd k w ∨ (i = .stop k ∧ w.extractLsb' 8 3 = 2#3 ∧ encode i = .cmd k 0x200#11)) ∧
  (∀ k c i, decodeEvt k c = .ok i → encode i = .evt k c)

/-- Reserved encodings: a request header with bits 15:13 set, an instance out of range or an operation outside the map is
refused; a command word with code 3 or 7 that reaches the bus side is the fault `ReservedCommand`, and no other is; event
codes outside the map do not decode (R111, R121). -/
def Obligations.ReservedEncodings : Prop :=
  (∀ p h o, decodeReq p h o = .error .reservedRequest ↔
    h.extractLsb' 13 3 ≠ 0#3 ∨ p.numInst ≤ (h.extractLsb' 0 8).toNat ∨ (h.extractLsb' 8 4).toNat = 0 ∨
      10 < (h.extractLsb' 8 4).toNat) ∧
  (∀ s h o inp, decodeReq s.par h o = .error .reservedRequest →
    step (turn s ⟨.request h o, inp⟩) = .refused .reservedRequest) ∧
  (∀ k w, decodeCmd k w = .error .reservedCommand ↔ w.extractLsb' 8 3 = 3#3 ∨ w.extractLsb' 8 3 = 7#3) ∧
  (∀ s k inp x m w rest, masterAt s k x m → x.hw.txf = w :: rest → x.hw.men = true → ¬ halted x.hw m.mode →
    x.hw.rxLeft = 0 → (w.extractLsb' 8 3 = 3#3 ∨ w.extractLsb' 8 3 = 7#3) →
    step (turn s ⟨.busm k, inp⟩) = .fault .reservedCommand) ∧
  (∀ k c, decodeEvt k c = .error .reservedEvent ↔
    ¬ ((1 ≤ c.toNat ∧ c.toNat ≤ 6) ∨ (0x11 ≤ c.toNat ∧ c.toNat ≤ 0x17) ∨ c.toNat = 0x21 ∨ c.toNat = 0x22 ∨
        c.toNat = 0x31))

/-! ## The step -/

/-- A step runs the decoded instruction: the host's request word; the head word of the transmit FIFO, popped, on an
enabled bus side that expects no byte; the event an interrupt, the channel or the timer delivers. Around `exec` the step
takes the turn off the schedule and puts its inputs in force, and nothing else (R89, R110, R200). -/
def Obligations.StepRunsFetchedInstruction : Prop :=
  (∀ s h o inp i, decodeReq s.par h o = .ok i → step (turn s ⟨.request h o, inp⟩) = exec i (during s ⟨.request h o, inp⟩)) ∧
  (∀ s k inp x m w rest i, masterAt s k x m → x.hw.txf = w :: rest → x.hw.men = true → ¬ halted x.hw m.mode →
    x.hw.rxLeft = 0 → decodeCmd k w = .ok i →
    step (turn s ⟨.busm k, inp⟩) =
      exec i ((during s ⟨.busm k, inp⟩).setInst k { x with hw := { x.hw with txf := rest } })) ∧
  (∀ s k inp x c i, busAt s k x → dispatchFirst x = some c → decodeEvt k c = .ok i →
    step (turn s ⟨.isr k, inp⟩) = exec i (during s ⟨.isr k, inp⟩)) ∧
  (∀ s k inp x, busAt s k x → dmaokEnabled x = true →
    step (turn s ⟨.dmaOk k, inp⟩) = exec (.dmaok k) (during s ⟨.dmaOk k, inp⟩)) ∧
  (∀ s k inp x, busAt s k x → dmaerrEnabled x = true →
    step (turn s ⟨.dmaErr k, inp⟩) = exec (.dmaerr k) (during s ⟨.dmaErr k, inp⟩)) ∧
  (∀ s k inp x, busAt s k x → wtimeoutEnabled x = true →
    step (turn s ⟨.timer k, inp⟩) = exec (.wtimeout k) (during s ⟨.timer k, inp⟩))

/-- The interrupt context serves, of the deliverable sources of the active role, the first in the order of R385. -/
def Obligations.InterruptPriority : Prop :=
  (∀ s k inp x m, masterAt s k x m →
    let f := x.hw.mef
    let e := x.hw.mie
    let due := [(f.fifoerr && e.fifoerr, Instr.fifoerr k), (f.arblost && e.arblost, .arblost k),
      (f.nack && e.nack, .nack k), (f.pinlow && e.pinlow, .pinlow k),
      (decide (x.hw.rxw < x.hw.rxf.length) && e.rxrdy, .rxrdy k), (x.hw.txf.isEmpty && e.txrdy, .txrdy k)]
    step (turn s ⟨.isr k, inp⟩) =
      match due.find? (fun d => x.hw.irqEn && d.1) with
      | none => .next (during s ⟨.isr k, inp⟩)
      | some d => exec d.2 (during s ⟨.isr k, inp⟩)) ∧
  (∀ s k inp x c, slaveAt s k x c →
    let f := x.hw.sef
    let e := x.hw.sie
    let due := [(f.biterr && e.biterr, Instr.biterr k), (f.sfifoerr && e.sfifoerr, .sfifoerr k),
      (f.addrvalid && e.addrvalid, .addrvalid k), (f.rxdata && e.rxdata, .rxdata k),
      (f.txdata && e.txdata, .txdata k), (f.rstart && e.rstart, .rstart k), (f.stop && e.stop, .evtStop k)]
    step (turn s ⟨.isr k, inp⟩) =
      match due.find? (fun d => x.hw.irqEn && d.1) with
      | none => .next (during s ⟨.isr k, inp⟩)
      | some d => exec d.2 (during s ⟨.isr k, inp⟩))

/-! ## Reset and roles -/

/-- The registers after reset (R50). The values of `HW.saddr`, `HW.srdr` and `HW.stdr`, which R50 leaves unspecified, are
not part of the statement. -/
def Obligations.ResetRegisters : Prop :=
  State.reset.insts.length = State.reset.par.numInst ∧
  ∀ x ∈ State.reset.insts,
    x.role = .unowned ∧ x.hw.txf = [] ∧ x.hw.rxf = [] ∧ x.hw.rxw = 0 ∧ x.hw.mie.toByte = 0#8 ∧
    x.hw.mef = ⟨false, false, false, false⟩ ∧ x.hw.sie.toByte = 0#8 ∧ x.hw.sef.toByte = 0#8 ∧
    x.hw.baud = ⟨0, 0, 0, 0, 0⟩ ∧ x.hw.hs = ⟨0, 0, 0, 0, 0⟩ ∧ x.hw.busOpen = false ∧ x.hw.rxLeft = 0 ∧
    x.hw.men = false ∧ x.hw.sen = false ∧ x.hw.irqEn = false ∧ x.hw.wire = [] ∧ x.hw.stx = [] ∧ x.cbTrace = [] ∧
    x.dma = .stopped ∧ x.hostw = none

/-- While no instance has a role, whatever the turn but an init: every request is refused, as `WrongRole` where it decodes
and its bus exists, else as reserved; and no other agent's step is refused or changes an instance, or faults but for an
application store outside its memory (R441, R161, R272; that fault is notes/assumptions/16.md). -/
def Obligations.ResetOnlyInits : Prop :=
  ∀ (s : State) (t : Turn), (∀ x ∈ s.insts, unownedGood x = true ∧ x.role = .unowned) →
    (∀ k, ¬ asks t k 0x01 0x11) →
    match t.agent with
    | .request h o =>
      step (turn s t) = .refused (if (decodeReq s.par h o).isOk && (s.inst? (h.extractLsb' 0 8)).isSome then .wrongRole
                                  else .reservedRequest)
    | .app a _ =>
      match step (turn s t) with
      | .next s' => a < 2 ^ s.par.addrW ∧ s'.insts = s.insts
      | .fault e => 2 ^ s.par.addrW ≤ a ∧ e = .noSuchAddress
      | .refused _ => False
    | _ => ∃ s', step (turn s t) = .next s' ∧ s'.insts = s.insts

/-- `MINIT` (R150, R162): refused of an owned instance and with a malformed configuration; else the hardware is reset, and
on an idle bus the context is written, the baud rate applied and the role taken. The slots of the new queue and the model's
own counter of unspecified values are not fixed. -/
def Obligations.MinitResult : Prop :=
  ∀ s k x, busAt s k x →
    (∀ cfg, x.role ≠ .unowned → exec (.minit k cfg) s = .refused .initOnOwnedInstance) ∧
    (∀ cfg, x.role = .unowned → (4 < cfg.mode.toNat ∨ ¬ addrFits cfg.addr cfg.is10bit) →
      exec (.minit k cfg) s = .refused .badConfig) ∧
    (∀ c, x.role = .unowned → addrFits c.addr c.is10bit → s.inp.busIdles = true → ∃ slots ctr,
      exec (.minit k (portOf c)) s = .next
        { s.setInst k (answered
            { x with
              role := .master (freshMaster c .success slots)
              hw := { baudApplied s.par s.inp.fIn c.mode c.baudRate c.baudRateHS (resetHw x.hw) with
                      men := true, irqEn := true }
              dma := .stopped } .success) with freeCtr := ctr }) ∧
    (∀ c, x.role = .unowned → addrFits c.addr c.is10bit → s.inp.busIdles = false →
      exec (.minit k (portOf c)) s =
        .next (s.setInst k (answered { x with hw := resetHw x.hw, dma := .stopped } .busBusy)))

/-- `SINIT` (R270): refused of an owned instance, with a malformed configuration and without the capability; else an
always-listening slave is armed at once, an on-demand one is not. -/
def Obligations.SinitResult : Prop :=
  ∀ s k x, busAt s k x →
    (∀ cfg, x.role ≠ .unowned → exec (.sinit k cfg) s = .refused .initOnOwnedInstance) ∧
    (∀ cfg, x.role = .unowned → (4 < cfg.mode.toNat ∨ ¬ addrFits cfg.addr cfg.is10bit) →
      exec (.sinit k cfg) s = .refused .badConfig) ∧
    (∀ c, x.role = .unowned → addrFits c.addr c.is10bit → x.slaveCapable = false →
      exec (.sinit k (portOf c)) s = .refused .noSlaveCapability) ∧
    (∀ c, x.role = .unowned → addrFits c.addr c.is10bit → x.slaveCapable = true →
      exec (.sinit k (portOf c)) s = .next (s.setInst k (answered
        { x with
          role := .slave (freshSlave c)
          hw := { resetHw x.hw with
                  irqEn := true, sen := c.listening,
                  sie := if c.listening then armedSources else noSlaveSource }
          dma := .stopped } .success)))

/-- `MDEINIT` and `SDEINIT`: the vector, the enables and the logic go off and the role is given up; with a transfer in
flight the source's assertion fails (R151, R271). -/
def Obligations.DeinitResult : Prop :=
  (∀ s k x m, masterAt s k x m → x.hostw = none →
    exec (.mdeinit k) s =
      if m.idle then .next (s.setInst k (answered
        { x with role := .unowned, hw := { x.hw with irqEn := false, mie := noMasterSource, men := false } } .success))
      else .fault .deinitWhileBusy) ∧
  (∀ s k x c, slaveAt s k x c → x.hostw = none →
    exec (.sdeinit k) s =
      if c.isTransferInProgress then .fault .deinitWhileBusy
      else .next (s.setInst k (answered
        { x with role := .unowned, hw := { x.hw with irqEn := false, sie := noSlaveSource, sen := false } } .success)))

/-- Every master request but the init needs the role Master, every slave request but the init the role Slave, and both a
host that is not suspended (R161, R272). -/
def Obligations.RequestsNeedTheirRole : Prop :=
  ∀ s i x, busAt s i.bus x →
    (isMasterRequest i = true → (∀ m, x.role ≠ .master m) → exec i s = .refused .wrongRole) ∧
    (isSlaveRequest i = true → (∀ c, x.role ≠ .slave c) → exec i s = .refused .wrongRole) ∧
    (isMasterRequest i = true → (∃ m, x.role = .master m) → x.hostw.isSome → exec i s = .refused .hostSuspended) ∧
    (isSlaveRequest i = true → (∃ c, x.role = .slave c) → x.hostw.isSome → exec i s = .refused .hostSuspended)

/-- A role changes from none to Master or Slave by that init and from either to none by that deinit, by no other step and
never directly; the address and addressing mode of a master change in no step but its own timer's second expiry; and the
address, addressing mode and listening flag of a slave change in no step at all (R389, R21, R30, R98). -/
def Obligations.RolesChangeByInitAndDeinit : Prop :=
  ∀ (s : State) (t : Turn) (s' : State) j x y, step (turn s t) = .next s' → busAt s j x → busAt s' j y →
    match x.role, y.role with
    | .unowned, .unowned => True
    | .unowned, .master _ => asks t j 0x01 0x01
    | .unowned, .slave _ => asks t j 0x11 0x11
    | .master _, .unowned => asks t j 0x02 0x02
    | .slave _, .unowned => asks t j 0x12 0x12
    | .master m, .master m' =>
      (m'.addr = m.addr ∧ m'.is10bit = m.is10bit) ∨
      (t.agent = .timer j ∧ ∃ w, x.hostw = some w ∧ w.stage = .second ∧ m'.addr = m.initCfg.addr ∧
        m'.is10bit = m.initCfg.is10bit)
    | .slave c, .slave c' => c'.addr = c.addr ∧ c'.is10bit = c.is10bit ∧ c'.listening = c.listening
    | .master _, .slave _ | .slave _, .master _ => False

/-! ## Master requests -/

/-- A transfer request that is turned away changes nothing but the answer: `Busy` first, then `Unsupported` for a receive
in ultra-fast mode; operands no transfer may have are refused (R152). -/
def Obligations.MasterTransfersTurnedAway : Prop :=
  ∀ s k x m buf len stop timeout, masterAt s k x m → x.hostw = none →
    (m.idle = false →
      exec (msendOf k buf len stop timeout) s = .next (s.setInst k (answered x .busy)) ∧
      exec (mrecvOf k buf len stop timeout) s = .next (s.setInst k (answered x .busy))) ∧
    (m.idle = true → m.mode = .ultraFast →
      exec (mrecvOf k buf len stop timeout) s = .next (s.setInst k (answered x .unsupported))) ∧
    (m.idle = true → (len = 0 ∨ 2 ^ s.par.addrW < buf + len) →
      exec (msendOf k buf len stop timeout) s = .refused .badLength) ∧
    (m.idle = true → m.mode ≠ .ultraFast → (len = 0 ∨ 256 < len ∨ 2 ^ s.par.addrW < buf + len) →
      exec (mrecvOf k buf len stop timeout) s = .refused .badLength)

/-- `MSEND` and `MSENDB` accepted (R153, R154, R194): the address words go to the transmit FIFO and what does not fit to
the queue; in interrupt mode, if all fitted, as many data bytes as the FIFO still takes follow in ascending order; in DMA
mode the channel is armed with the whole buffer. -/
def Obligations.MsendResult : Prop :=
  ∀ s k x m buf len stop timeout, masterAt s k x m → x.hostw = none → m.idle = true → m.swqWr = m.swqRd →
    1 ≤ len → buf + len ≤ 2 ^ s.par.addrW →
    let words := addressWords m false
    let room := s.par.txDepth - x.hw.txf.length
    let fits := decide (words.length ≤ room)
    let irq := decide (m.transferType = .interrupts)
    let moved := if fits && irq then min len (room - words.length) else 0
    ∃ m', withQueue m m' (words.drop room) ∧
      exec (msendOf k buf len stop timeout) s = .next (s.setInst k (hostBehind .m timeout
        { x with
          role := .master { m' with
            dir := .send, sendStop := stop, blocking := timeout.isSome, abortedByTimeout := false, status := .busy,
            idle := false, phase := if fits then .transferring else .addressing,
            sem := if timeout.isSome then false else m.sem,
            hsInProgress := m.hsInProgress || decide (m.mode = .highSpeed),
            txBuff := some ((buf + moved) % 2 ^ s.par.addrW), txSize := len - moved }
          hw := { x.hw with
            mef := ⟨false, false, false, false⟩, txf := x.hw.txf ++ words.take room ++ txdWords s.mem buf moved,
            mie := errorsEnabled (irq || !fits) false }
          dma := if irq then x.dma else .running .memToPeriph .mtx buf len }))

/-- `MRECV` and `MRECVB` accepted (R155, R156, R194): the address words and `RXN` go to the transmit FIFO and what does
not fit to the queue; the watermark is 0 in DMA mode, else the largest at which the first batch still interrupts. -/
def Obligations.MrecvResult : Prop :=
  ∀ s k x m buf len stop timeout, masterAt s k x m → x.hostw = none → m.idle = true → m.swqWr = m.swqRd →
    m.mode ≠ .ultraFast → 1 ≤ len → len ≤ 256 → buf + len ≤ 2 ^ s.par.addrW →
    let words := addressWords m true ++ [rxnWord len]
    let room := s.par.txDepth - x.hw.txf.length
    let fits := decide (words.length ≤ room)
    let irq := decide (m.transferType = .interrupts)
    ∃ m', withQueue m m' (words.drop room) ∧
      exec (mrecvOf k buf len stop timeout) s = .next (s.setInst k (hostBehind .m timeout
        { x with
          role := .master { m' with
            dir := .receive, sendStop := stop, blocking := timeout.isSome, abortedByTimeout := false, status := .busy,
            idle := false, phase := if fits then .transferring else .addressing,
            sem := if timeout.isSome then false else m.sem,
            hsInProgress := m.hsInProgress || decide (m.mode = .highSpeed),
            rxBuff := some buf, rxSize := len }
          hw := { x.hw with
            mef := ⟨false, false, false, false⟩, txf := x.hw.txf ++ words.take room,
            rxw := if irq then min s.par.rxDepth len - 1 else 0, mie := errorsEnabled (!fits) irq }
          dma := if irq then x.dma else .running .periphToMem .mrx buf len }))

/-- `MSTATUS` and `SSTATUS` (R157, R277): the status register, and in `SIZE_W` bits the running channel's count in DMA
mode, else the two counters; nothing else changes. That the sum is taken modulo `2^SIZE_W` is the model's reading of R10
(notes/assumptions/18.md). -/
def Obligations.StatusQueries : Prop :=
  (∀ s k x m, masterAt s k x m → x.hostw = none →
    exec (.mstatus k) s = .next (s.setInst k { x with replies := x.replies ++ [⟨.foreground, m.status,
      some ((match m.transferType, x.dma with
             | .dma, .running _ _ _ c => c
             | _, _ => m.txSize + m.rxSize) % 2 ^ s.par.sizeW), none⟩] })) ∧
  (∀ s k x c, slaveAt s k x c → x.hostw = none →
    exec (.sstatus k) s = .next (s.setInst k { x with replies := x.replies ++ [⟨.foreground, c.status,
      some ((match c.transferType, x.dma with
             | .dma, .running _ _ _ n => n
             | _, _ => c.txSize + c.rxSize) % 2 ^ s.par.sizeW), none⟩] }))

/-- `MABORT` (R158): nothing on an idle engine, `Unsupported` on a receive, else a force abort with the status `Aborted`. -/
def Obligations.MabortResult : Prop :=
  ∀ s k x m, masterAt s k x m → x.hostw = none → 1 ≤ s.par.txDepth →
    exec (.mabort k) s = .next (s.setInst k
      (if m.idle then answered x .success
       else if m.dir = .receive then answered x .unsupported
       else answered (forceAborted .aborted m x) .success))

/-- `MGETBAUD` (R159, R367): the rates the fields produce, where that is a 32-bit number; the high-speed rate in
high-speed mode only. Where it is none the rules state no answer, and the statement holds for whatever it is
(notes/assumptions/22.md). The clock frequency is the one the last `BaudApply` computed with, which the model keeps in
`HW.fIn` by its own choice (notes/assumptions/12.md). -/
def Obligations.MgetbaudResult : Prop :=
  ∀ s k x m, masterAt s k x m → x.hostw = none →
    let divisor (b : Baud) : Nat := 2 ^ b.prescale * (b.clkLo + b.clkHi + s.par.periodOverhead)
    let stated (b : Baud) (r : BitVec 32) : Prop :=
      0 < divisor b → x.hw.fIn / divisor b < 2 ^ 32 → r = BitVec.ofNat 32 (x.hw.fIn / divisor b)
    ∃ rate rateHS, stated x.hw.baud rate ∧ (m.mode = .highSpeed → stated x.hw.hs rateHS) ∧
      (m.mode ≠ .highSpeed → rateHS = 0#32) ∧
      exec (.mgetbaud k) s = .next (s.setInst k { x with replies := x.replies ++ [⟨.foreground, .success, none,
        some (m.mode, rate, rateHS)⟩] })

/-- `MSETBAUD` (R160, R365). -/
def Obligations.MsetbaudResult : Prop :=
  ∀ s k x m rate rateHS, masterAt s k x m → x.hostw = none →
    (∀ mode : BitVec 3, 4 < mode.toNat → exec (.msetbaud k mode rate rateHS) s = .refused .badConfig) ∧
    (∀ mode : Mode, exec (.msetbaud k (modeBits mode) rate rateHS) s =
      if m.idle then
        let hsRate := if mode = .highSpeed then rateHS else m.baudRateHS
        .next (s.setInst k (answered
          { x with role := .master { m with mode := mode, baudRate := rate, baudRateHS := hsRate }
                   hw := baudApplied s.par s.inp.fIn mode rate hsRate x.hw } .success))
      else .next (s.setInst k (answered x .busy)))

/-- The baud-rate computation (R361 to R363, and R364 for rate 0): the smallest prescaler of 0 to 7 whose total fits, 7 if
none does; the half-periods with the odd cycle in the high one; the delays as fractions of the high period; each clamped to
its field. Two clauses are the model's: for a rate that no prescaler fits the formulas hold, R364's last sentence or not
(notes/assumptions/37.md), and a clock frequency of 0, which R360 excludes, is computed with like any other
(notes/assumptions/36.md). -/
def Obligations.BaudFields : Prop :=
  ∀ (p : Params) (fIn rate : Nat),
    let b := baudCalc p fIn rate
    let total (q : Nat) : Nat := (fIn + rate * 2 ^ q / 2) / (rate * 2 ^ q)
    let limit := p.clkHiMax + p.clkLoMax + p.periodOverhead
    let t := total b.prescale - p.periodOverhead
    b.prescale ≤ 7 ∧
    b.setHold = max p.setHoldMin (min (b.clkHi * p.setHoldNum / p.setHoldDen) p.setHoldMax) ∧
    b.dataVd = max p.dataVdMin (min (b.clkHi * p.dataVdNum / p.dataVdDen) p.dataVdMax) ∧
    (rate = 0 → b.prescale = 7 ∧ b.clkHi = p.clkHiMax ∧ b.clkLo = p.clkLoMax) ∧
    (0 < rate →
      (∀ q, q < b.prescale → limit < total q) ∧ (total b.prescale ≤ limit ∨ b.prescale = 7) ∧
      b.clkHi = max p.clkHiMin (min ((t + 1) / 2) p.clkHiMax) ∧
      b.clkLo = max p.clkLoMin (min (t - (t + 1) / 2) p.clkLoMax))

/-! ## The command queue -/

/-- `Offer` keeps the order (R190, R191): a word goes to the FIFO only when the queue is empty and the FIFO has room, else
behind the queued words; a sixth queued word is the fault `QueueOverflow`. `SwqPop` takes the oldest. -/
def Obligations.OfferKeepsOrder : Prop :=
  (∀ (c : Cmd) (d : Byte) (n : MNode), swqCount n.ctx ≤ 5 →
    let w : CmdWord := c.code ++ d
    let direct := n.ctx.swqWr = n.ctx.swqRd ∧ n.hw.txf.length < n.par.txDepth
    (direct → offer c d n = .next { n with hw := { n.hw with txf := n.hw.txf ++ [w] } }) ∧
    (¬ direct → swqCount n.ctx < 5 →
      ∃ m', withQueue n.ctx m' (swqEntries n.ctx ++ [w]) ∧ offer c d n = .next { n with ctx := m' }) ∧
    (¬ direct → swqCount n.ctx = 5 → offer c d n = .fault .queueOverflow)) ∧
  (∀ m : MCtx, swqCount m ≤ 5 → m.swqWr ≠ m.swqRd →
    swqEntries m = swqHead m :: swqEntries (swqDrop m) ∧ withQueue m (swqDrop m) (swqEntries m).tail)

/-! ## Command words on the bus -/

/-- `TXD` (R201): a byte on an open bus; on a closed one the FIFO error and nothing on the wire. -/
def Obligations.TxdResult : Prop :=
  ∀ s k x m d, masterAt s k x m →
    exec (.txd k d) s = .next (s.setInst k { x with
      hw := if x.hw.busOpen then byteSent m.mode d false s.inp.tx x.hw
            else { x.hw with mef := { x.hw.mef with fifoerr := true } } })

/-- `RXN` (R202) and `STOP` (R203). -/
def Obligations.RxnAndStopResult : Prop :=
  ∀ s k x, busAt s k x →
    (∀ d, exec (.rxn k d) s = .next (s.setInst k { x with
      hw := if x.hw.busOpen then { x.hw with rxLeft := d.toNat + 1 }
            else { x.hw with mef := { x.hw.mef with fifoerr := true } } })) ∧
    exec (.stop k) s = .next (s.setInst k { x with
      hw := if x.hw.busOpen then { x.hw with wire := x.hw.wire ++ [.p], busOpen := false } else x.hw })

/-- `START` (R204), `STARTHS` (R209) and `STARTN` (R208): the START symbol, repeated on an open bus, then the byte; behind
`STARTN` a NACK is the normal answer. -/
def Obligations.StartResult : Prop :=
  ∀ s k x m d, masterAt s k x m →
    exec (.start k d) s = .next (s.setInst k { x with
      hw := byteSent m.mode d false s.inp.tx (startSent .s .sr x.hw) }) ∧
    exec (.starths k d) s = .next (s.setInst k { x with
      hw := byteSent m.mode d false s.inp.tx (startSent .shs .srhs x.hw) }) ∧
    exec (.startn k d) s = .next (s.setInst k { x with
      hw := byteSent m.mode d true s.inp.tx (startSent .s .sr x.hw) })

/-- The receive step (R205): a byte goes to the receive FIFO and the wire trace, or the line is low; a full FIFO, a bus
side that is halted or not enabled takes no step, and no command is popped while bytes are expected (R200). -/
def Obligations.ReceiveStep : Prop :=
  ∀ s k inp x m, masterAt s k x m → 0 < x.hw.rxLeft →
    step (turn s ⟨.busm k, inp⟩) = .next
      (if x.hw.men = false ∨ halted x.hw m.mode ∨ s.par.rxDepth ≤ x.hw.rxf.length then during s ⟨.busm k, inp⟩
       else (during s ⟨.busm k, inp⟩).setInst k { x with
        hw := match inp.rx with
          | .byte b => { x.hw with rxf := x.hw.rxf ++ [b], wire := x.hw.wire ++ [.r b], rxLeft := x.hw.rxLeft - 1 }
          | .lineLow => { x.hw with wire := x.hw.wire ++ [.low], mef := { x.hw.mef with pinlow := true },
                                    busOpen := false, rxLeft := 0 } })

/-! ## Events -/

/-- An event's handler runs only while its source is deliverable (R383, R384, R337): the flag, the enable, the vector and
the role; the channel for a completion; a waiting host with its semaphore not posted for the timeout. Else the spec enables
no step, and that `exec` then refuses `notEnabled` is the model's choice (notes/assumptions/13.md). -/
def Obligations.EventsNeedTheirSource : Prop :=
  ∀ s i x, busAt s i.bus x →
    match eventEnabled i x with
    | some false => exec i s = .refused .notEnabled
    | _ => True

/-! ## Master events -/

/-- `TXRDY` (R232, R193, R233): the queue is drained first, as far as the FIFO has room; only behind an empty queue a
receive or a running channel takes the data over, a finished send completes, or data bytes follow. `a` is where the send
buffer's pointer stands; the callback issues no request. -/
def Obligations.TxrdyResult : Prop :=
  ∀ s k x m a, masterAt s k x m → x.hw.irqEn = true → x.hw.mie.txrdy = true → x.hw.txf = [] → swqCount m ≤ 5 →
    1 ≤ s.par.txDepth → s.inp.cb = [] →
    (0 < m.txSize → m.txBuff = some a ∧ a + m.txSize ≤ 2 ^ s.par.addrW) →
    let q := swqEntries m
    let depth := s.par.txDepth
    let taken := m.dir = .receive ∨ (m.transferType = .dma ∧ x.dma ≠ .stopped)
    let phase := if m.phase = .addressing then .transferring else m.phase
    let moved := min m.txSize (depth - q.length)
    (depth < q.length → ∃ m', withQueue m m' (q.drop depth) ∧
      exec (.txrdy k) s = .next (s.setInst k { x with role := .master m', hw := { x.hw with txf := q.take depth } })) ∧
    (q.length ≤ depth → taken → ∃ m', withQueue m m' [] ∧
      exec (.txrdy k) s = .next (s.setInst k { x with
        role := .master { m' with phase := phase }
        hw := { x.hw with txf := q, mie := { x.hw.mie with txrdy := false } } })) ∧
    (q.length ≤ depth → ¬ taken → (0 < m.txSize ∨ q ≠ []) → ∃ m', withQueue m m' [] ∧
      exec (.txrdy k) s = .next (s.setInst k { x with
        role := .master { m' with
          phase := phase, txSize := m.txSize - moved,
          txBuff := if moved = 0 then m.txBuff else some ((a + moved) % 2 ^ s.par.addrW) }
        hw := { x.hw with txf := q ++ txdWords s.mem a moved } })) ∧
    (q = [] → ¬ taken → m.txSize = 0 →
      exec (.txrdy k) s = .next (s.setInst k
        (notified { endedCtx .success m with hsInProgress := m.hsInProgress && !m.sendStop }
          (succeeded m.sendStop m x))))

/-- `RXRDY` (R234, R235): the receive FIFO is drained to ascending addresses from `a` on, every other byte of memory reads
as before; the last byte completes the transfer, else the watermark shrinks to what is left. Premises about a transfer
that could complete: nothing is queued and the transmit FIFO has room for a `STOP`; the callback issues no request. -/
def Obligations.RxrdyResult : Prop :=
  ∀ s k x m a, masterAt s k x m → x.hw.irqEn = true → x.hw.mie.rxrdy = true → x.hw.rxw < x.hw.rxf.length →
    (0 < m.rxSize → m.rxBuff = some a ∧ a + m.rxSize ≤ 2 ^ s.par.addrW) → Memory.wf s.mem = true → s.inp.cb = [] →
    (m.rxSize ≤ x.hw.rxf.length → m.swqWr = m.swqRd ∧ x.hw.txf.length < s.par.txDepth) →
    let moved := min m.rxSize x.hw.rxf.length
    let left := m.rxSize - moved
    let m' := { m with rxSize := left
                       rxBuff := if moved = 0 then m.rxBuff else some ((a + moved) % 2 ^ s.par.addrW) }
    let y := { x with hw := { x.hw with rxf := x.hw.rxf.drop moved } }
    ∃ mem, Memory.wf mem = true ∧
      (∀ j, (h : j < moved) → mem.read (a + j) = x.hw.rxf[j]'(by omega)) ∧
      (∀ b, b < a ∨ a + moved ≤ b → mem.read b = byteAt s b) ∧
      exec (.rxrdy k) s = .next { s.setInst k
        (if left = 0 then receiveCompleted s.par m' y
         else { y with role := .master m'
                       hw := { y.hw with rxw := if left ≤ x.hw.rxw then left - 1 else x.hw.rxw } }) with mem := mem }

/-- The four error events (R236 to R240): the transfer ends without a STOP command, FIFOs and queue reset, enables off,
the channel stopped, the waiter released, the callback told; then the flag is cleared. `NACK` in ultra-fast mode only
clears its flag (R237). -/
def Obligations.ErrorEventsResult : Prop :=
  ∀ s k x m, masterAt s k x m → x.hw.irqEn = true → s.inp.cb = [] →
    (x.hw.mef.nack = true → x.hw.mie.nack = true →
      exec (.nack k) s = .next (s.setInst k
        (if m.mode = .ultraFast then { x with hw := { x.hw with mef := { x.hw.mef with nack := false } } }
         else errorEnded .receivedNack { x.hw.mef with nack := false } m x))) ∧
    (x.hw.mef.arblost = true → x.hw.mie.arblost = true →
      exec (.arblost k) s =
        .next (s.setInst k (errorEnded .arbitrationLost { x.hw.mef with arblost := false } m x))) ∧
    (x.hw.mef.fifoerr = true → x.hw.mie.fifoerr = true →
      exec (.fifoerr k) s = .next (s.setInst k (errorEnded .error { x.hw.mef with fifoerr := false } m x))) ∧
    (x.hw.mef.pinlow = true → x.hw.mie.pinlow = true →
      exec (.pinlow k) s = .next (s.setInst k (errorEnded .lineLowTimeout { x.hw.mef with pinlow := false } m x)))

/-- A callback may start the next transfer, unless a blocking request still waits (R231, R161): the handler that completes
a send, with a callback that issues one `MSEND`, is the handler with a silent callback followed by that request, which the
callback, not the foreground, is answered; while the host is suspended the callback's request is refused. That the refused
request refuses the whole step is the model's choice (notes/assumptions/15.md), the answer's origin its own record
(notes/assumptions/14.md). -/
def Obligations.CallbackStartsNextTransfer : Prop :=
  ∀ s k x m buf len stop, masterAt s k x m → x.hw.irqEn = true → x.hw.mie.txrdy = true → m.callback.isSome →
    m.swqWr = m.swqRd → m.dir = .send → m.txSize = 0 → x.hw.txf = [] → (m.transferType = .dma → x.dma = .stopped) →
    1 ≤ s.par.txDepth → buf < 2 ^ s.par.addrW → len < 2 ^ s.par.sizeW → s.inp.cb = [.msend buf len stop] →
    (x.hostw.isSome → exec (.txrdy k) s = .refused .hostSuspended) ∧
    (x.hostw = none → ∀ s0 s1 y, exec (.txrdy k) { s with inp := { s.inp with cb := [] } } = .next s0 →
      exec (.msend k buf len stop) s0 = .next s1 → busAt s1 k y →
      ∃ r, y.replies = r ++ [⟨.foreground, .success, none, none⟩] ∧
        exec (.txrdy k) s = .next
          { s1.setInst k { y with replies := r ++ [⟨.callback, .success, none, none⟩] } with inp := s.inp })

/-! ## Slave requests -/

/-- `SSEND`, `SSENDB`, `SRECV`, `SRECVB` (R273 to R276, R281): `Unsupported` on a listening slave, `Busy` on one with a
transfer, nothing else changing; operands no transfer may have are refused; accepted, the buffer of that direction is
taken, the slave logic is on and the five sources are armed. -/
def Obligations.SlaveTransferResult : Prop :=
  ∀ s k x c buf len timeout, slaveAt s k x c → x.hostw = none →
    let busy : SCtx := { c with
      isTransferInProgress := true, status := .busy, blocking := timeout.isSome, phase := .addressing,
      sem := if timeout.isSome then false else c.sem }
    let hw : HW := { x.hw with sef := noSlaveSource, sen := true, sie := armedSources }
    (∀ i, i = ssendOf k buf len timeout ∨ i = srecvOf k buf len timeout →
      (c.listening = true → exec i s = .next (s.setInst k (answered x .unsupported))) ∧
      (c.listening = false → c.isTransferInProgress = true → exec i s = .next (s.setInst k (answered x .busy))) ∧
      (c.listening = false → c.isTransferInProgress = false → (len = 0 ∨ 2 ^ s.par.addrW < buf + len) →
        exec i s = .refused .badLength)) ∧
    (c.listening = false → c.isTransferInProgress = false → 1 ≤ len → buf + len ≤ 2 ^ s.par.addrW →
      exec (ssendOf k buf len timeout) s = .next (s.setInst k (hostBehind .s timeout
        { x with role := .slave { busy with txBuff := some buf, txSize := len }, hw := hw })) ∧
      exec (srecvOf k buf len timeout) s = .next (s.setInst k (hostBehind .s timeout
        { x with role := .slave { busy with rxBuff := some buf, rxSize := len }, hw := hw })))

/-- `SSETTX` and `SSETRX` (R279, R280): the buffer of one direction and nothing else; a zero length withdraws it. -/
def Obligations.SlaveBufferSupply : Prop :=
  ∀ s k x c buf len, slaveAt s k x c → x.hostw = none →
    (2 ^ s.par.addrW < buf + len →
      exec (.ssettx k buf len) s = .refused .badLength ∧ exec (.ssetrx k buf len) s = .refused .badLength) ∧
    (buf + len ≤ 2 ^ s.par.addrW →
      exec (.ssettx k buf len) s = .next (s.setInst k (answered
        { x with role := .slave { c with txBuff := if len = 0 then none else some buf, txSize := len } } .success)) ∧
      exec (.ssetrx k buf len) s = .next (s.setInst k (answered
        { x with role := .slave { c with rxBuff := if len = 0 then none else some buf, rxSize := len } } .success)))

/-- `SABORT` (R278, R284): nothing without a transfer or on a listening slave; an on-demand slave is torn down. -/
def Obligations.SabortResult : Prop :=
  ∀ s k x c, slaveAt s k x c → x.hostw = none →
    exec (.sabort k) s = .next (s.setInst k (answered
      (if c.isTransferInProgress = false ∨ c.listening = true then x
       else { x with role := .slave { tornDownCtx c with status := .aborted }, hw := tornDownHw x.hw, dma := .stopped })
      .success))

/-! ## Slave bus side and events -/

/-- The slave bus side (R300): with the role Slave and the slave logic enabled each step raises its flag with its payload,
under its enabling condition; a step that is not enabled changes nothing. -/
def Obligations.SlaveBusStep : Prop :=
  (∀ s k inp x act, busAt s k x → ((∀ c, x.role ≠ .slave c) ∨ x.hw.sen = false) →
    step (turn s ⟨.buss k act, inp⟩) = .next (during s ⟨.buss k act, inp⟩)) ∧
  ∀ s k inp x c act, slaveAt s k x c → x.hw.sen = true →
    let f := x.hw.sef
    let clear := f.addrvalid = false ∧ f.rstart = false ∧ f.stop = false
    let after (h : HW) : Host.Outcome State Fault Refusal :=
      .next ((during s ⟨.buss k act, inp⟩).setInst k { x with hw := h })
    (match act with
      | .addrMatch rw => f = noSlaveSource → step (turn s ⟨.buss k act, inp⟩) =
        after { x.hw with saddr := c.addr ++ (if rw then 1#1 else 0#1), sef := { f with addrvalid := true } }
      | .byteIn b => clear → f.rxdata = false → step (turn s ⟨.buss k act, inp⟩) =
        after { x.hw with srdr := b, sef := { f with rxdata := true } }
      | .byteReq => clear → f.txdata = false → step (turn s ⟨.buss k act, inp⟩) =
        after { x.hw with sef := { f with txdata := true } }
      | .repStart => clear → step (turn s ⟨.buss k act, inp⟩) = after { x.hw with sef := { f with rstart := true } }
      | .stop => clear → step (turn s ⟨.buss k act, inp⟩) = after { x.hw with sef := { f with stop := true } }
      | .bitErr => f.biterr = false → step (turn s ⟨.buss k act, inp⟩) =
        after { x.hw with sef := { f with biterr := true } }
      | .fifoErr => f.sfifoerr = false → step (turn s ⟨.buss k act, inp⟩) =
        after { x.hw with sef := { f with sfifoerr := true } }) ∧
    ((match act with
      | .addrMatch _ => f ≠ noSlaveSource
      | .byteIn _ => ¬ clear ∨ f.rxdata = true
      | .byteReq => ¬ clear ∨ f.txdata = true
      | .repStart | .stop => ¬ clear
      | .bitErr => f.biterr = true
      | .fifoErr => f.sfifoerr = true) →
      step (turn s ⟨.buss k act, inp⟩) = .next (during s ⟨.buss k act, inp⟩))

/-- `ADDRVALID` (R303): the flag is cleared, the transaction begins, the callback runs; then the channel is armed with the
buffer of the direction in DMA mode where there is one, else the data interrupt is enabled. A callback that supplies
nothing leaves the buffer there was; one that supplies a buffer by `SSETTX` or `SSETRX` (R279, R280), the host waiting or
not, has that one used. The record of its answer is the model's own (notes/assumptions/14.md). -/
def Obligations.AddrvalidResult : Prop :=
  ∀ s k x c, slaveAt s k x c → x.hw.irqEn = true → x.hw.sef.addrvalid = true → x.hw.sie.addrvalid = true →
    let begun : SCtx := { c with isTransferInProgress := true, status := .busy, phase := .transferring }
    let cleared : Inst := { x with hw := { x.hw with sef := { x.hw.sef with addrvalid := false } } }
    let silent := s.inp.cb = [] ∨ c.callback = none
    let supplies (r : CbReq) (buf len : Nat) :=
      c.callback.isSome = true ∧ len < 2 ^ s.par.sizeW ∧ buf + len ≤ 2 ^ s.par.addrW ∧ s.inp.cb = [r]
    let answers : List Reply := x.replies ++ [⟨.callback, .success, none, none⟩]
    (x.hw.saddr.getLsbD 0 = true →
      let sending : SCtx := { begun with txUnderrunWarning := false }
      let y : Inst := { cleared with role := .slave sending
                                     cbTrace := traced c.callback .txRequested c.callbackParam x.cbTrace }
      let enabled : HW := { y.hw with sie := { y.hw.sie with txdata := true } }
      (silent → c.transferType = .dma → 0 < c.txSize → ∀ a, c.txBuff = some a →
        exec (.addrvalid k) s = .next (s.setInst k { y with dma := .running .memToPeriph .stx a c.txSize })) ∧
      (silent → c.transferType = .interrupts ∨ c.txSize = 0 →
        exec (.addrvalid k) s = .next (s.setInst k { y with hw := enabled })) ∧
      (∀ buf len, supplies (.ssettx buf len) buf len →
        let z : Inst := { y with
          role := .slave { sending with txBuff := if len = 0 then none else some buf, txSize := len }, replies := answers }
        exec (.addrvalid k) s = .next (s.setInst k
          (if c.transferType = .dma ∧ 0 < len then { z with dma := .running .memToPeriph .stx buf len }
           else { z with hw := enabled })))) ∧
    (x.hw.saddr.getLsbD 0 = false →
      let y : Inst := { cleared with role := .slave begun
                                     cbTrace := traced c.callback .rxRequested c.callbackParam x.cbTrace }
      let enabled : HW := { y.hw with sie := { y.hw.sie with rxdata := true } }
      (silent → c.transferType = .dma → 0 < c.rxSize → ∀ a, c.rxBuff = some a →
        exec (.addrvalid k) s = .next (s.setInst k { y with dma := .running .periphToMem .srx a c.rxSize })) ∧
      (silent → c.transferType = .interrupts ∨ c.rxSize = 0 →
        exec (.addrvalid k) s = .next (s.setInst k { y with hw := enabled })) ∧
      (∀ buf len, supplies (.ssetrx buf len) buf len →
        let z : Inst := { y with
          role := .slave { begun with rxBuff := if len = 0 then none else some buf, rxSize := len }, replies := answers }
        exec (.addrvalid k) s = .next (s.setInst k
          (if c.transferType = .dma ∧ 0 < len then { z with dma := .running .periphToMem .srx buf len }
           else { z with hw := enabled }))))

/-- `TXDATA` (R304): the next byte of the buffer clears the warning, and no callback is invoked; an exhausted buffer, with a
callback that supplies nothing, sends the filler 0xFF and sets the warning, and on a set warning records `TxUnderrun`. -/
def Obligations.TxdataResult : Prop :=
  ∀ s k x c, slaveAt s k x c → x.hw.irqEn = true → x.hw.sef.txdata = true → x.hw.sie.txdata = true →
    let sent (b : Byte) : HW :=
      { x.hw with stdr := b, stx := x.hw.stx ++ [b], sef := { x.hw.sef with txdata := false } }
    (c.txSize = 0 → s.inp.cb = [] ∨ c.callback = none →
      exec (.txdata k) s = .next (s.setInst k { x with
        role := .slave { c with
          txUnderrunWarning := true, status := if c.txUnderrunWarning then .txUnderrun else c.status }
        hw := sent 0xFF#8
        cbTrace := traced c.callback .txEmpty c.callbackParam x.cbTrace })) ∧
    (0 < c.txSize → ∀ a, c.txBuff = some a → a < 2 ^ s.par.addrW →
      exec (.txdata k) s = .next (s.setInst k { x with
        role := .slave { c with
          txUnderrunWarning := false, txSize := c.txSize - 1, txBuff := some ((a + 1) % 2 ^ s.par.addrW) }
        hw := sent (byteAt s a) }))

/-- `RXDATA` (R305): the byte is stored at the buffer's pointer, the only byte of memory that changes, and no callback is
invoked; without room, and with a callback that supplies nothing, it is discarded and `RxOverrun` recorded. -/
def Obligations.RxdataResult : Prop :=
  ∀ s k x c, slaveAt s k x c → x.hw.irqEn = true → x.hw.sef.rxdata = true → x.hw.sie.rxdata = true →
    let hw : HW := { x.hw with sef := { x.hw.sef with rxdata := false } }
    (c.rxSize = 0 → s.inp.cb = [] ∨ c.callback = none →
      exec (.rxdata k) s = .next (s.setInst k { x with
        role := .slave { c with status := .rxOverrun }, hw := hw
        cbTrace := traced c.callback .rxFull c.callbackParam x.cbTrace })) ∧
    (0 < c.rxSize → ∀ a, c.rxBuff = some a → a < 2 ^ s.par.addrW → Memory.wf s.mem = true →
      ∃ mem, mem.read a = x.hw.srdr ∧ (∀ b, b ≠ a → Memory.read mem b = byteAt s b) ∧
        exec (.rxdata k) s = .next { s.setInst k { x with
          role := .slave { c with rxSize := c.rxSize - 1, rxBuff := some ((a + 1) % 2 ^ s.par.addrW) }
          hw := hw } with mem := mem })

/-- A refill from inside the callback is in time (R302, R304, R305, R447), the host waiting or not (R272): the handler tests
the count again once the callback has returned. `TXDATA` sends the first byte of the buffer that `SSETTX` supplied (R279)
and clears the warning; `RXDATA` stores the received byte first in the buffer that `SSETRX` supplied (R280) and records no
`RxOverrun`. The record of the answer is the model's own (notes/assumptions/14.md). -/
def Obligations.CallbackRefillInTime : Prop :=
  ∀ s k x c buf len, slaveAt s k x c → x.hw.irqEn = true → c.callback.isSome → 1 ≤ len → len < 2 ^ s.par.sizeW →
    buf + len ≤ 2 ^ s.par.addrW →
    let next := some ((buf + 1) % 2 ^ s.par.addrW)
    let answers : List Reply := x.replies ++ [⟨.callback, .success, none, none⟩]
    (x.hw.sef.txdata = true → x.hw.sie.txdata = true → c.txSize = 0 → s.inp.cb = [.ssettx buf len] →
      exec (.txdata k) s = .next (s.setInst k { x with
        role := .slave { c with txUnderrunWarning := false, txSize := len - 1, txBuff := next }
        hw := { x.hw with stdr := byteAt s buf, stx := x.hw.stx ++ [byteAt s buf],
                          sef := { x.hw.sef with txdata := false } }
        cbTrace := x.cbTrace ++ [(.txEmpty, c.callbackParam)]
        replies := answers })) ∧
    (x.hw.sef.rxdata = true → x.hw.sie.rxdata = true → c.rxSize = 0 → s.inp.cb = [.ssetrx buf len] →
      Memory.wf s.mem = true →
      ∃ mem, Memory.read mem buf = x.hw.srdr ∧ (∀ a, a ≠ buf → Memory.read mem a = byteAt s a) ∧
        exec (.rxdata k) s = .next { s.setInst k { x with
          role := .slave { c with rxSize := len - 1, rxBuff := next }
          hw := { x.hw with sef := { x.hw.sef with rxdata := false } }
          cbTrace := x.cbTrace ++ [(.rxFull, c.callbackParam)]
          replies := answers } with mem := mem })

/-- `RSTART` and `EVT.STOP` with a callback that issues nothing (R306, R307, R301): the first repeated start of a 10-bit
transaction is the address continuation; every other one, and a stop, is a boundary. -/
def Obligations.SlaveBoundaryResult : Prop :=
  ∀ s k x c, slaveAt s k x c → x.hw.irqEn = true → s.inp.cb = [] →
    (x.hw.sef.rstart = true → x.hw.sie.rstart = true →
      let c' : SCtx := { c with repeatedStarts := min (c.repeatedStarts + 1) 255 }
      let y : Inst := { x with hw := { x.hw with sef := { x.hw.sef with rstart := false } } }
      exec (.rstart k) s = .next (s.setInst k
        (if c.is10bit = true ∧ c.repeatedStarts = 0 then { y with role := .slave c' }
         else slaveBoundary .stopEvent c' y))) ∧
    (x.hw.sef.stop = true → x.hw.sie.stop = true →
      exec (.evtStop k) s = .next (s.setInst k (slaveBoundary .stopEvent c
        { x with hw := { x.hw with sef := { x.hw.sef with stop := false } } })))

/-- `BITERR` and `SFIFOERR` with a callback that issues nothing (R308, R309, R301): the status `Error`, the
end-of-transfer routine, `ERROR_EVENT`. -/
def Obligations.SlaveErrorResult : Prop :=
  ∀ s k x c, slaveAt s k x c → x.hw.irqEn = true → s.inp.cb = [] →
    (x.hw.sef.biterr = true → x.hw.sie.biterr = true →
      exec (.biterr k) s = .next (s.setInst k (slaveBoundary .errorEvent { c with status := .error }
        { x with hw := { x.hw with sef := { x.hw.sef with biterr := false } } }))) ∧
    (x.hw.sef.sfifoerr = true → x.hw.sie.sfifoerr = true →
      exec (.sfifoerr k) s = .next (s.setInst k (slaveBoundary .errorEvent { c with status := .error }
        { x with hw := { x.hw with sef := { x.hw.sef with sfifoerr := false } } })))

/-! ## DMA -/

/-- The channel moves one byte when its register's condition holds, else nothing; a send byte is a read, a receive byte is
stored at the channel's pointer and nowhere else; pointer and count advance (R332, R334 to R336). That a channel on `MTX`
without a Master Context, which R342 excludes, is not granted is the model's choice (notes/assumptions/35.md). -/
def Obligations.DmaByteMoves : Prop :=
  ∀ s k inp x dir reg p n, busAt s k x → x.dma = .running dir reg p n → p < 2 ^ s.par.addrW →
    Memory.wf s.mem = true →
    let t : Turn := ⟨.dmaMove k, inp⟩
    let granted := 0 < n ∧
      match reg with
      | .mtx => ∃ m, x.role = .master m ∧ m.swqWr = m.swqRd ∧ x.hw.txf.length < s.par.txDepth ∧ m.idle = false
      | .mrx => x.hw.rxw < x.hw.rxf.length
      | .stx => x.hw.sef.txdata = true
      | .srx => x.hw.sef.rxdata = true
    let moved (h : HW) (mem : Memory) : Host.Outcome State Fault Refusal := .next
      { (during s t).setInst k { x with hw := h, dma := .running dir reg ((p + 1) % 2 ^ s.par.addrW) (n - 1) } with
        mem := mem }
    (¬ granted → step (turn s t) = .next (during s t)) ∧
    (granted →
      match reg with
      | .mtx => step (turn s t) =
        moved { x.hw with txf := x.hw.txf ++ [(byteAt s p).setWidth 11] } s.mem
      | .mrx => ∃ mem b rest, x.hw.rxf = b :: rest ∧ Memory.read mem p = b ∧
        (∀ a, a ≠ p → Memory.read mem a = byteAt s a) ∧ step (turn s t) = moved { x.hw with rxf := rest } mem
      | .stx => step (turn s t) =
        moved { x.hw with stdr := byteAt s p, stx := x.hw.stx ++ [byteAt s p],
                          sef := { x.hw.sef with txdata := false } } s.mem
      | .srx => ∃ mem, Memory.read mem p = x.hw.srdr ∧ (∀ a, a ≠ p → Memory.read mem a = byteAt s a) ∧
        step (turn s t) = moved { x.hw with sef := { x.hw.sef with rxdata := false } } mem)

/-- `DMAOK`, master (R338): a send re-arms `TXRDY` and goes on; a receive completes, on an empty queue with room for a
`STOP`, the callback issuing no request. -/
def Obligations.MasterDmaokResult : Prop :=
  ∀ s k x m dir reg p, masterAt s k x m → x.hw.irqEn = true → x.dma = .running dir reg p 0 →
    (m.dir = .send →
      exec (.dmaok k) s = .next (s.setInst k { x with
        role := .master { m with txBuff := none, txSize := 0 }
        hw := { x.hw with mie := { x.hw.mie with txrdy := true } }
        dma := .stopped })) ∧
    (m.dir ≠ .send → s.inp.cb = [] → m.swqWr = m.swqRd → x.hw.txf.length < s.par.txDepth →
      exec (.dmaok k) s = .next (s.setInst k
        (receiveCompleted s.par { m with rxBuff := none, rxSize := 0 } { x with dma := .stopped })))

/-- `DMAERR`, master (R339): a force abort with a status by direction, and the notification; the callback issues no
request. -/
def Obligations.MasterDmaerrResult : Prop :=
  ∀ s k x m dir reg p n, masterAt s k x m → x.hw.irqEn = true → x.dma = .running dir reg p n → s.inp.cb = [] →
    1 ≤ s.par.txDepth →
    let st := if m.dir = .send then .dmaTxFailure else .dmaRxFailure
    exec (.dmaerr k) s = .next (s.setInst k
      (notified { endedCtx st m with swqWr := 0, swqRd := 0, hsInProgress := false } (forceAborted st m x)))

/-- `DMAOK` and `DMAERR`, slave (R340, R341): a used-up buffer hands over to the data interrupt and the transaction goes on;
a failure ends it with a status by direction. The callback issues no request. -/
def Obligations.SlaveDmaResult : Prop :=
  ∀ s k x c dir reg p n, slaveAt s k x c → x.hw.irqEn = true → x.dma = .running dir reg p n →
    (n = 0 → reg = .stx →
      exec (.dmaok k) s = .next (s.setInst k { x with
        role := .slave { c with txBuff := none, txSize := 0 }
        hw := { x.hw with sie := { x.hw.sie with txdata := true } }
        dma := .stopped })) ∧
    (n = 0 → reg ≠ .stx →
      exec (.dmaok k) s = .next (s.setInst k { x with
        role := .slave { c with rxBuff := none, rxSize := 0 }
        hw := { x.hw with sie := { x.hw.sie with rxdata := true } }
        dma := .stopped })) ∧
    (s.inp.cb = [] →
      exec (.dmaerr k) s = .next (s.setInst k (slaveBoundary .errorEvent
        { c with status := if reg = .stx then .dmaTxFailure else .dmaRxFailure } x)))

/-! ## The blocking wait -/

/-- The semaphore taken (R163, R283): the suspended host resumes with the status register, in either stage for the master;
without a post its turn passes. -/
def Obligations.SemaphoreTaken : Prop :=
  (∀ s k inp x m w, masterAt s k x m → x.hostw = some w → w.engine = .m →
    step (turn s ⟨.resume k, inp⟩) = .next
      (if m.sem then (during s ⟨.resume k, inp⟩).setInst k (answered
        { x with role := .master { m with sem := false, blocking := false, abortedByTimeout := false }
                 hostw := none } m.status)
       else during s ⟨.resume k, inp⟩)) ∧
  (∀ s k inp x c t, slaveAt s k x c → x.hostw = some ⟨.s, t, .first⟩ →
    step (turn s ⟨.resume k, inp⟩) = .next
      (if c.sem then (during s ⟨.resume k, inp⟩).setInst k (answered
        { x with role := .slave { c with sem := false, blocking := false }, hostw := none } c.status)
       else during s ⟨.resume k, inp⟩))

/-- `WTIMEOUT` of a send, in the address phase, or in DMA mode (R164): a force abort; the host resumes with `Timeout`; no
post and no callback. -/
def Obligations.WtimeoutForceAborts : Prop :=
  ∀ s k x m t, masterAt s k x m → x.hostw = some ⟨.m, t, .first⟩ → m.sem = false → 1 ≤ s.par.txDepth →
    (m.dir = .send ∨ m.phase = .addressing ∨ m.transferType = .dma) →
    exec (.wtimeout k) s = .next (s.setInst k (answered
      { forceAborted .timeout { m with blocking := false } x with hostw := none } .timeout))

/-- `WTIMEOUT` of a receive in its transfer phase, first stage (R165 to R167): if the receive FIFO holds all that is
outstanding, the bytes are copied, the transfer completes, and, the callback's requests done, the host resumes with
`Success`; else the watermark is narrowed to 0 and a second wait of the same length begins. While the callback runs the
host still waits: `MSTATUS` and `MGETBAUD` are answered, any other request is refused (R161, R231); that this refuses the
whole step is the model's choice (notes/assumptions/15.md), the record of answers its own (notes/assumptions/14.md).
Premises as for `RXRDY`. -/
def Obligations.WtimeoutOfReceive : Prop :=
  ∀ s k x m a t, masterAt s k x m → x.hostw = some ⟨.m, t, .first⟩ → m.sem = false →
    m.dir ≠ .send → m.phase ≠ .addressing → m.transferType = .interrupts →
    (x.hw.rxf.length < m.rxSize →
      exec (.wtimeout k) s = .next (s.setInst k { x with
        role := .master { m with abortedByTimeout := true }
        hw := { x.hw with rxw := 0 }
        hostw := some ⟨.m, t, .second⟩ })) ∧
    (m.rxSize ≤ x.hw.rxf.length → (0 < m.rxSize → m.rxBuff = some a ∧ a + m.rxSize ≤ 2 ^ s.par.addrW) →
      Memory.wf s.mem = true → m.swqWr = m.swqRd → x.hw.txf.length < s.par.txDepth →
      let m' := { m with rxSize := 0, rxBuff := none, abortedByTimeout := true, blocking := false }
      let y := receiveCompleted s.par m' { x with hw := { x.hw with rxf := x.hw.rxf.drop m.rxSize } }
      let requests := if y.cbTrace = x.cbTrace then [] else s.inp.cb
      ∃ mem e, y.role = .master e ∧ (∀ j, (h : j < m.rxSize) → Memory.read mem (a + j) = x.hw.rxf[j]?.getD 0#8) ∧
        (∀ b, b < a ∨ a + m.rxSize ≤ b → Memory.read mem b = byteAt s b) ∧
        let resumed (z : Inst) : Inst :=
          answered { z with role := .master { e with abortedByTimeout := false }, hostw := none } .success
        (requests = [] → exec (.wtimeout k) s = .next { s.setInst k (resumed y) with mem := mem }) ∧
        match callbackRuns k requests { s.setInst k y with mem := mem } with
        | .next s' => ∃ z, masterAt s' k z e ∧ exec (.wtimeout k) s = .next (s'.setInst k (resumed z))
        | .fault f => exec (.wtimeout k) s = .fault f
        | .refused r => exec (.wtimeout k) s = .refused r)

/-- `WTIMEOUT` in the second stage (R168): the hardware is reset and the context rewritten from the configuration of its
`MINIT`, with the status `Timeout`. That the queue's slots, which R23 leaves unspecified, are kept is the model's choice
(notes/assumptions/11.md), as is that the clock frequency is kept (notes/assumptions/12.md). -/
def Obligations.WtimeoutReinitialises : Prop :=
  ∀ s k x m t, masterAt s k x m → x.hostw = some ⟨.m, t, .second⟩ → m.sem = false →
    let c := m.initCfg
    exec (.wtimeout k) s = .next (s.setInst k (answered
      { x with
        role := .master (freshMaster c .timeout m.swq)
        hw := { baudApplied s.par s.inp.fIn c.mode c.baudRate c.baudRateHS (resetHw x.hw) with
                men := true, irqEn := true }
        dma := .stopped
        hostw := none } .timeout))

/-- `WTIMEOUT` for the slave (R282): a teardown with the status `Timeout`; the host resumes; no callback. -/
def Obligations.SlaveWtimeoutResult : Prop :=
  ∀ s k x c t, slaveAt s k x c → x.hostw = some ⟨.s, t, .first⟩ → c.sem = false →
    exec (.wtimeout k) s = .next (s.setInst k (answered
      { x with
        role := .slave { tornDownCtx c with status := .timeout, blocking := false }
        hw := tornDownHw x.hw
        dma := .stopped
        hostw := none } .timeout))

/-! ## Invariants -/

/-- The state after reset meets the invariant. -/
def Obligations.ResetIsGood : Prop := State.reset.good

/-- Every step keeps the invariant, whatever the turn: the FIFOs within their depths, the queue within five words, the
buffers and counters of an idle engine returned, the bytes a receive still expects within its buffer, the channel owned by
the transfer, the host waiting only for a transfer in flight or ended, the memory in canonical form. -/
def Obligations.StepKeepsGood : Prop := ∀ s s' : State, s.good → step s = .next s' → s'.good

/-- From a state that meets the invariant no step raises one of the faults the spec calls unreachable: no queue overflow, no
FIFO misuse, no reserved command, no read of a missing context (R196, R87, R121, R50); nor the model's own null-buffer fault
(notes/assumptions/6.md). What is left is the host's: a deinit request for a bus with a transfer in flight (R382), and the
application's own store outside its memory (notes/assumptions/16.md); no access of the block leaves the address space. -/
def Obligations.GoodStepsRaiseOnlyHostFaults : Prop :=
  ∀ (s : State) (t : Turn) (e : Fault), s.good → step (turn s t) = .fault e →
    (e = .deinitWhileBusy ∧ ∃ k, asks t k 0x02 0x12 ∧ inFlight s k) ∨
    (e = .noSuchAddress ∧ ∃ a b, t.agent = .app a b ∧ 2 ^ s.par.addrW ≤ a)

/-- What the invariant says in the spec's words: one direction at a time, an idle engine's pointers null and counters 0,
idle exactly in phase Idle with no source enabled, at most five queued words, the channel owned as R342 says, a slave in
progress exactly outside phase Idle. -/
def Obligations.GoodStatesMeetTheSpecsInvariants : Prop :=
  ∀ (s : State), s.good → ∀ x ∈ s.insts,
    (∀ m, x.role = .master m →
      (m.txSize = 0 ∨ m.rxSize = 0) ∧ m.rxSize ≤ 256 ∧ (m.idle = true ↔ m.phase = .idle) ∧ swqCount m ≤ 5 ∧
      (m.idle = true → m.txBuff = none ∧ m.rxBuff = none ∧ m.txSize = 0 ∧ m.rxSize = 0 ∧
        x.hw.mie = noMasterSource ∧ x.dma = .stopped)) ∧
    (∀ c, x.role = .slave c → (c.isTransferInProgress = false ↔ c.phase = .idle)) ∧
    (∀ dir reg p n, x.dma = .running dir reg p n →
      ((reg = .mtx ∨ reg = .mrx) ∧ ∃ m, x.role = .master m ∧ m.transferType = .dma ∧ m.idle = false) ∨
      ((reg = .stx ∨ reg = .srx) ∧ ∃ c, x.role = .slave c ∧ c.transferType = .dma ∧ c.isTransferInProgress = true))

/-- Every step keeps the memory's canonical form, the parameters, the number of instances and what the platform gives each
of them, from every state. -/
def Obligations.StepKeepsMemoryForm : Prop :=
  ∀ s s' : State, Memory.wf s.mem = true → step s = .next s' →
    Memory.wf s'.mem = true ∧ s'.par = s.par ∧ s'.insts.map (fun x => (x.slaveCapable, x.base)) =
      s.insts.map (fun x => (x.slaveCapable, x.base))

/-! ## Frames over all instructions -/

/-- The frame of every instruction: it leaves the parameters, the schedule, the inputs and every other bus as they are, and
all of memory unless it is one of the three that may store. -/
def Obligations.InstructionsTouchTheirBusOnly : Prop :=
  ∀ (i : Instr) (s s' : State), exec i s = .next s' →
    s'.par = s.par ∧ s'.turns = s.turns ∧ s'.inp = s.inp ∧ s'.insts.length = s.insts.length ∧
    (∀ j, j ≠ i.bus → s'.inst? j = s.inst? j) ∧
    (mayStore i = false → ∀ a, byteAt s' a = byteAt s a)

/-- A step of one bus leaves every other bus as it is, and an application store leaves them all (R95). -/
def Obligations.OtherBusesUntouched : Prop :=
  ∀ (s : State) (t : Turn) (s' : State) (j : BusIndex), agentBus t.agent ≠ some j → step (turn s t) = .next s' →
    s'.inst? j = s.inst? j

/-- The traces are append-only: in every step the wire trace, the slave transmit trace, the callback trace and the record
of answers of every bus keep what they hold (R43, R44, R52). The record of answers is the model's own
(notes/assumptions/14.md). -/
def Obligations.TracesOnlyGrow : Prop :=
  ∀ (s s' : State) (j : BusIndex) (x y : Inst), step s = .next s' → busAt s j x → busAt s' j y →
    x.hw.wire <+: y.hw.wire ∧ x.hw.stx <+: y.hw.stx ∧ x.cbTrace <+: y.cbTrace ∧ x.replies <+: y.replies

/-! ## Requests of a callback -/

/-- The requests of a callback that ends its handler (R231, R302); the handlers that go on behind the callback,
`ADDRVALID`, `TXDATA`, `RXDATA` and the late success of `WTIMEOUT`, are not its subject (see `AddrvalidResult`,
`CallbackRefillInTime`, `WtimeoutOfReceive`). The event does what it does with a silent callback, and then, if it
invoked the callback, the requests in order, each as the foreground's would be done; `MSTATUS`, `MGETBAUD` and the
slave's three skip the test for a suspended host (R161, R272), the others are refused by it. If the handler invokes no
callback the requests are not issued, and a stop of the handler is its stop. That a refused request refuses the whole
step is the model's choice (notes/assumptions/15.md), the record of answers its own (notes/assumptions/14.md). -/
def Obligations.CallbackRunsItsRequests : Prop :=
  ∀ (s : State) (i : Instr) (x : Inst), busAt s i.bus x → endsWithCallback i = true →
    match exec i { s with inp := { s.inp with cb := [] } } with
    | .next s0 => ∀ y, busAt s0 i.bus y →
      exec i s = if y.cbTrace = x.cbTrace then .next { s0 with inp := s.inp }
                 else callbackRuns i.bus s.inp.cb { s0 with inp := s.inp }
    | .fault e => exec i s = .fault e
    | .refused e => exec i s = .refused e

/-- What a callback may do while the host is suspended, and what it may not (R161, R272, R231, R302). In the callback of a
completed send `MSTATUS` answers `Success` with nothing remaining and `MGETBAUD` the rates (R157, R159), whether or not a
blocking request waits; while one waits `MSEND`, `MRECV` and `MSETBAUD` are refused. In the callback of a slave's stop
`SSTATUS` answers, and `SSETTX` and `SSETRX` supply a buffer (R277, R279, R280), whether or not a blocking request waits.
The clock frequency, the answers' record, that a refused request refuses the whole step, the sum in `SIZE_W` bits and the
unstated rates are the model's (log entries 12, 14, 15, 18, 22 of notes/assumptions). -/
def Obligations.CallbackWhileHostWaits : Prop :=
  (∀ s k x m, masterAt s k x m → x.hw.irqEn = true → x.hw.mie.txrdy = true → m.callback.isSome → m.swqWr = m.swqRd →
    m.dir = .send → m.txSize = 0 → x.hw.txf = [] → (m.transferType = .dma → x.dma = .stopped) → 1 ≤ s.par.txDepth →
    let y := notified { endedCtx .success m with hsInProgress := m.hsInProgress && !m.sendStop }
      (succeeded m.sendStop m x)
    let divisor (b : Baud) : Nat := 2 ^ b.prescale * (b.clkLo + b.clkHi + s.par.periodOverhead)
    let stated (b : Baud) (r : BitVec 32) : Prop :=
      0 < divisor b → x.hw.fIn / divisor b < 2 ^ 32 → r = BitVec.ofNat 32 (x.hw.fIn / divisor b)
    (s.inp.cb = [.mstatus] →
      exec (.txrdy k) s = .next (s.setInst k { y with replies := y.replies ++ [⟨.callback, .success, some 0, none⟩] })) ∧
    (s.inp.cb = [.mgetbaud] → ∃ rate rateHS, stated x.hw.baud rate ∧ (m.mode = .highSpeed → stated x.hw.hs rateHS) ∧
      (m.mode ≠ .highSpeed → rateHS = 0#32) ∧
      exec (.txrdy k) s = .next (s.setInst k { y with replies := y.replies ++ [⟨.callback, .success, none,
        some (m.mode, rate, rateHS)⟩] })) ∧
    (x.hostw.isSome → ∀ r rs, s.inp.cb = r :: rs →
      ((∃ buf len stop, r = .msend buf len stop ∨ r = .mrecv buf len stop) ∨
        ∃ mode rate rateHS, r = .msetbaud mode rate rateHS) →
      exec (.txrdy k) s = .refused .hostSuspended)) ∧
  (∀ s k x c, slaveAt s k x c → x.hw.irqEn = true → x.hw.sef.stop = true → x.hw.sie.stop = true → c.callback.isSome →
    let y := slaveBoundary .stopEvent c { x with hw := { x.hw with sef := { x.hw.sef with stop := false } } }
    let answer (st : Status) (bytes : Option Nat) : List Reply := y.replies ++ [⟨.callback, st, bytes, none⟩]
    ∃ e, y.role = .slave e ∧
      (s.inp.cb = [.sstatus] → exec (.evtStop k) s = .next (s.setInst k
        { y with replies := answer e.status (some ((e.txSize + e.rxSize) % 2 ^ s.par.sizeW)) })) ∧
      (∀ buf len, len < 2 ^ s.par.sizeW → buf + len ≤ 2 ^ s.par.addrW →
        (s.inp.cb = [.ssettx buf len] → exec (.evtStop k) s = .next (s.setInst k
          { y with role := .slave { e with txBuff := if len = 0 then none else some buf, txSize := len }
                   replies := answer .success none })) ∧
        (s.inp.cb = [.ssetrx buf len] → exec (.evtStop k) s = .next (s.setInst k
          { y with role := .slave { e with rxBuff := if len = 0 then none else some buf, rxSize := len }
                   replies := answer .success none }))))

end
end

