-- ==== Sys2Proof/Laws/Encoding.lean ====
section
/-! SUPPORT. The fields of an encoded word read back: the header of a request, the command and the data of a command word
(spec 30_encoding.md R111, R114). -/

namespace Sys2Proof

/-- A header as a number. -/
theorem toNat_reqHeader (op : BitVec 8) (k : BusIndex) : (reqHeader op k).toNat = op.toNat * 256 + k.toNat := by
  have h : (reqHeader op k).toNat = op.toNat <<< 8 ||| k.toNat := BitVec.toNat_append op k
  rw [h, ← Nat.shiftLeft_add_eq_or_of_lt k.isLt, Nat.shiftLeft_eq]

/-- A command word as a number. -/
theorem toNat_cmdWord (c : Cmd) (d : Byte) : (cmdWord c d).toNat = c.code.toNat * 256 + d.toNat := by
  have h : (cmdWord c d).toNat = c.code.toNat <<< 8 ||| d.toNat := BitVec.toNat_append c.code d
  rw [h, ← Nat.shiftLeft_add_eq_or_of_lt d.isLt, Nat.shiftLeft_eq]

/-- The bus index and the three top bits of a header whose opcode keeps them zero (R111). -/
theorem header_fields {op : BitVec 8} (h : op.toNat < 32) (k : BusIndex) :
    reqInst (reqHeader op k) = k ∧ (reqHeader op k).extractLsb' 13 3 = 0#3 := by
  have hk := k.isLt
  constructor <;> apply BitVec.eq_of_toNat_eq <;>
    simp only [reqInst, BitVec.extractLsb'_toNat, toNat_reqHeader, Nat.shiftRight_eq_div_pow, BitVec.toNat_ofNat] <;>
    omega

/-- The command field of a command word is its code (R114). -/
theorem cmdField_cmdWord (c : Cmd) (d : Byte) : cmdField (cmdWord c d) = c.code := by
  have hd := d.isLt
  have hc := c.code.isLt
  apply BitVec.eq_of_toNat_eq
  simp only [cmdField, BitVec.extractLsb'_toNat, toNat_cmdWord, Nat.shiftRight_eq_div_pow]
  omega

/-- The data field of a command word is its data (R114). -/
theorem dataField_cmdWord (c : Cmd) (d : Byte) : dataField (cmdWord c d) = d := by
  have hd := d.isLt
  apply BitVec.eq_of_toNat_eq
  simp only [dataField, BitVec.extractLsb'_toNat, toNat_cmdWord, Nat.shiftRight_eq_div_pow]
  omega

end Sys2Proof
end

