-- ==== Sys2Proof/Laws/State.lean ====
section
/-! SUPPORT. What each named update of the state leaves and writes: one lemma per field per update, so that no proof
unfolds a record update; reading an instance back; the sequencing of answers. -/

namespace Sys2Proof.Machine

/-! ## Sequencing -/

@[simp] theorem andThen_next {α β : Type} (a : α) (f : α → Res β) : andThen (.next a) f = f a := rfl
@[simp] theorem andThen_fault {α β : Type} (e : Fault) (f : α → Res β) :
    andThen (.fault e : Res α) f = .fault e := rfl
@[simp] theorem andThen_refused {α β : Type} (e : Refusal) (f : α → Res β) :
    andThen (.refused e : Res α) f = .refused e := rfl

/-- A sequence answers a next value iff both parts do. -/
theorem andThen_eq_next {α β : Type} {r : Res α} {f : α → Res β} {b : β} :
    andThen r f = .next b ↔ ∃ a, r = .next a ∧ f a = .next b := by
  cases r <;> simp

/-- A sequence faults iff its first part does, or its second part does behind it. -/
theorem andThen_eq_fault {α β : Type} {r : Res α} {f : α → Res β} {e : Fault} :
    andThen r f = .fault e ↔ r = .fault e ∨ ∃ a, r = .next a ∧ f a = .fault e := by
  cases r <;> simp

/-! ## Instances -/

/-! ### `State.setInst` -/

@[simp] theorem setInst_par (s : State) (k : BusIndex) (x : Inst) :
    (s.setInst k x).par = s.par := rfl
@[simp] theorem setInst_insts (s : State) (k : BusIndex) (x : Inst) :
    (s.setInst k x).insts = s.insts.set k.toNat x := rfl
@[simp] theorem setInst_mem (s : State) (k : BusIndex) (x : Inst) :
    (s.setInst k x).mem = s.mem := rfl
@[simp] theorem setInst_turns (s : State) (k : BusIndex) (x : Inst) :
    (s.setInst k x).turns = s.turns := rfl
@[simp] theorem setInst_inp (s : State) (k : BusIndex) (x : Inst) :
    (s.setInst k x).inp = s.inp := rfl
@[simp] theorem setInst_freeCtr (s : State) (k : BusIndex) (x : Inst) :
    (s.setInst k x).freeCtr = s.freeCtr := rfl

/-! ### `State.putNode` -/

@[simp] theorem putNode_par {C : Type} (s : State) (k : BusIndex) (x : Inst) (r : Role) (n : Node C) :
    (s.putNode k x r n).par = s.par := rfl
@[simp] theorem putNode_insts {C : Type} (s : State) (k : BusIndex) (x : Inst) (r : Role) (n : Node C) :
    (s.putNode k x r n).insts = s.insts.set k.toNat (n.inst r x) := rfl
@[simp] theorem putNode_mem {C : Type} (s : State) (k : BusIndex) (x : Inst) (r : Role) (n : Node C) :
    (s.putNode k x r n).mem = n.mem := rfl
@[simp] theorem putNode_turns {C : Type} (s : State) (k : BusIndex) (x : Inst) (r : Role) (n : Node C) :
    (s.putNode k x r n).turns = s.turns := rfl
@[simp] theorem putNode_inp {C : Type} (s : State) (k : BusIndex) (x : Inst) (r : Role) (n : Node C) :
    (s.putNode k x r n).inp = s.inp := rfl
@[simp] theorem putNode_freeCtr {C : Type} (s : State) (k : BusIndex) (x : Inst) (r : Role) (n : Node C) :
    (s.putNode k x r n).freeCtr = s.freeCtr := rfl

/-! ### `beginTurn` -/

@[simp] theorem beginTurn_par (t : Turn) (rest : List Turn) (s : State) :
    (beginTurn t rest s).par = s.par := rfl
@[simp] theorem beginTurn_insts (t : Turn) (rest : List Turn) (s : State) :
    (beginTurn t rest s).insts = s.insts := rfl
@[simp] theorem beginTurn_mem (t : Turn) (rest : List Turn) (s : State) :
    (beginTurn t rest s).mem = s.mem := rfl
@[simp] theorem beginTurn_turns (t : Turn) (rest : List Turn) (s : State) :
    (beginTurn t rest s).turns = rest := rfl
@[simp] theorem beginTurn_inp (t : Turn) (rest : List Turn) (s : State) :
    (beginTurn t rest s).inp = t.inp := rfl
@[simp] theorem beginTurn_freeCtr (t : Turn) (rest : List Turn) (s : State) :
    (beginTurn t rest s).freeCtr = s.freeCtr := rfl

/-! ### `Node.of` -/

@[simp] theorem nodeOf_par {C : Type} (s : State) (x : Inst) (c : C) :
    (Node.of s x c).par = s.par := rfl
@[simp] theorem nodeOf_inp {C : Type} (s : State) (x : Inst) (c : C) :
    (Node.of s x c).inp = s.inp := rfl
@[simp] theorem nodeOf_mem {C : Type} (s : State) (x : Inst) (c : C) :
    (Node.of s x c).mem = s.mem := rfl
@[simp] theorem nodeOf_ctx {C : Type} (s : State) (x : Inst) (c : C) :
    (Node.of s x c).ctx = c := rfl
@[simp] theorem nodeOf_hw {C : Type} (s : State) (x : Inst) (c : C) :
    (Node.of s x c).hw = x.hw := rfl
@[simp] theorem nodeOf_dma {C : Type} (s : State) (x : Inst) (c : C) :
    (Node.of s x c).dma = x.dma := rfl
@[simp] theorem nodeOf_hostw {C : Type} (s : State) (x : Inst) (c : C) :
    (Node.of s x c).hostw = x.hostw := rfl
@[simp] theorem nodeOf_cbTrace {C : Type} (s : State) (x : Inst) (c : C) :
    (Node.of s x c).cbTrace = x.cbTrace := rfl
@[simp] theorem nodeOf_replies {C : Type} (s : State) (x : Inst) (c : C) :
    (Node.of s x c).replies = x.replies := rfl

/-! ### `Node.inst` -/

@[simp] theorem nodeInst_role {C : Type} (n : Node C) (r : Role) (x : Inst) :
    (n.inst r x).role = r := rfl
@[simp] theorem nodeInst_hw {C : Type} (n : Node C) (r : Role) (x : Inst) :
    (n.inst r x).hw = n.hw := rfl
@[simp] theorem nodeInst_dma {C : Type} (n : Node C) (r : Role) (x : Inst) :
    (n.inst r x).dma = n.dma := rfl
@[simp] theorem nodeInst_hostw {C : Type} (n : Node C) (r : Role) (x : Inst) :
    (n.inst r x).hostw = n.hostw := rfl
@[simp] theorem nodeInst_cbTrace {C : Type} (n : Node C) (r : Role) (x : Inst) :
    (n.inst r x).cbTrace = n.cbTrace := rfl
@[simp] theorem nodeInst_replies {C : Type} (n : Node C) (r : Role) (x : Inst) :
    (n.inst r x).replies = n.replies := rfl
@[simp] theorem nodeInst_slaveCapable {C : Type} (n : Node C) (r : Role) (x : Inst) :
    (n.inst r x).slaveCapable = x.slaveCapable := rfl
@[simp] theorem nodeInst_base {C : Type} (n : Node C) (r : Role) (x : Inst) :
    (n.inst r x).base = x.base := rfl

/-- The instance just written is read back. -/
theorem inst?_setInst_self {s : State} {k : BusIndex} {x y : Inst} (h : s.inst? k = some x) :
    (s.setInst k y).inst? k = some y := by
  obtain ⟨hk, -⟩ := List.getElem?_eq_some_iff.mp h
  simp [State.inst?, hk]

/-- The other instances are read as before. -/
theorem inst?_setInst_ne {s : State} {j k : BusIndex} {y : Inst} (h : j ≠ k) :
    (s.setInst k y).inst? j = s.inst? j := by
  have : k.toNat ≠ j.toNat := fun e => h (BitVec.eq_of_toNat_eq e.symm)
  simp [State.inst?, this]

/-- Writing back a view is writing back the memory and the instance. -/
theorem putNode_eq {C : Type} (s : State) (k : BusIndex) (x : Inst) (r : Role) (n : Node C) :
    s.putNode k x r n = { s.setInst k (n.inst r x) with mem := n.mem } := rfl

/-! ## Views -/

/-! ### `reply` -/

@[simp] theorem reply_par {C : Type} (o : Origin) (st : Status) (n : Node C) :
    (reply o st n).par = n.par := rfl
@[simp] theorem reply_inp {C : Type} (o : Origin) (st : Status) (n : Node C) :
    (reply o st n).inp = n.inp := rfl
@[simp] theorem reply_mem {C : Type} (o : Origin) (st : Status) (n : Node C) :
    (reply o st n).mem = n.mem := rfl
@[simp] theorem reply_ctx {C : Type} (o : Origin) (st : Status) (n : Node C) :
    (reply o st n).ctx = n.ctx := rfl
@[simp] theorem reply_hw {C : Type} (o : Origin) (st : Status) (n : Node C) :
    (reply o st n).hw = n.hw := rfl
@[simp] theorem reply_dma {C : Type} (o : Origin) (st : Status) (n : Node C) :
    (reply o st n).dma = n.dma := rfl
@[simp] theorem reply_hostw {C : Type} (o : Origin) (st : Status) (n : Node C) :
    (reply o st n).hostw = n.hostw := rfl
@[simp] theorem reply_cbTrace {C : Type} (o : Origin) (st : Status) (n : Node C) :
    (reply o st n).cbTrace = n.cbTrace := rfl
@[simp] theorem reply_replies {C : Type} (o : Origin) (st : Status) (n : Node C) :
    (reply o st n).replies = n.replies ++ [⟨o, st, none, none⟩] := rfl

/-! ### `replyBytes` -/

@[simp] theorem replyBytes_par {C : Type} (o : Origin) (st : Status) (b : Nat) (n : Node C) :
    (replyBytes o st b n).par = n.par := rfl
@[simp] theorem replyBytes_inp {C : Type} (o : Origin) (st : Status) (b : Nat) (n : Node C) :
    (replyBytes o st b n).inp = n.inp := rfl
@[simp] theorem replyBytes_mem {C : Type} (o : Origin) (st : Status) (b : Nat) (n : Node C) :
    (replyBytes o st b n).mem = n.mem := rfl
@[simp] theorem replyBytes_ctx {C : Type} (o : Origin) (st : Status) (b : Nat) (n : Node C) :
    (replyBytes o st b n).ctx = n.ctx := rfl
@[simp] theorem replyBytes_hw {C : Type} (o : Origin) (st : Status) (b : Nat) (n : Node C) :
    (replyBytes o st b n).hw = n.hw := rfl
@[simp] theorem replyBytes_dma {C : Type} (o : Origin) (st : Status) (b : Nat) (n : Node C) :
    (replyBytes o st b n).dma = n.dma := rfl
@[simp] theorem replyBytes_hostw {C : Type} (o : Origin) (st : Status) (b : Nat) (n : Node C) :
    (replyBytes o st b n).hostw = n.hostw := rfl
@[simp] theorem replyBytes_cbTrace {C : Type} (o : Origin) (st : Status) (b : Nat) (n : Node C) :
    (replyBytes o st b n).cbTrace = n.cbTrace := rfl
@[simp] theorem replyBytes_replies {C : Type} (o : Origin) (st : Status) (b : Nat) (n : Node C) :
    (replyBytes o st b n).replies = n.replies ++ [⟨o, st, some b, none⟩] := rfl

/-! ### `replyBaud` -/

@[simp] theorem replyBaud_par {C : Type} (o : Origin) (st : Status) (m : Mode) (r q : BitVec 32) (n : Node C) :
    (replyBaud o st m r q n).par = n.par := rfl
@[simp] theorem replyBaud_inp {C : Type} (o : Origin) (st : Status) (m : Mode) (r q : BitVec 32) (n : Node C) :
    (replyBaud o st m r q n).inp = n.inp := rfl
@[simp] theorem replyBaud_mem {C : Type} (o : Origin) (st : Status) (m : Mode) (r q : BitVec 32) (n : Node C) :
    (replyBaud o st m r q n).mem = n.mem := rfl
@[simp] theorem replyBaud_ctx {C : Type} (o : Origin) (st : Status) (m : Mode) (r q : BitVec 32) (n : Node C) :
    (replyBaud o st m r q n).ctx = n.ctx := rfl
@[simp] theorem replyBaud_hw {C : Type} (o : Origin) (st : Status) (m : Mode) (r q : BitVec 32) (n : Node C) :
    (replyBaud o st m r q n).hw = n.hw := rfl
@[simp] theorem replyBaud_dma {C : Type} (o : Origin) (st : Status) (m : Mode) (r q : BitVec 32) (n : Node C) :
    (replyBaud o st m r q n).dma = n.dma := rfl
@[simp] theorem replyBaud_hostw {C : Type} (o : Origin) (st : Status) (m : Mode) (r q : BitVec 32) (n : Node C) :
    (replyBaud o st m r q n).hostw = n.hostw := rfl
@[simp] theorem replyBaud_cbTrace {C : Type} (o : Origin) (st : Status) (m : Mode) (r q : BitVec 32) (n : Node C) :
    (replyBaud o st m r q n).cbTrace = n.cbTrace := rfl
@[simp] theorem replyBaud_replies {C : Type} (o : Origin) (st : Status) (m : Mode) (r q : BitVec 32) (n : Node C) :
    (replyBaud o st m r q n).replies = n.replies ++ [⟨o, st, none, some (m, r, q)⟩] := rfl

/-! ### `resumeHost` -/

@[simp] theorem resumeHost_par {C : Type} (st : Status) (n : Node C) :
    (resumeHost st n).par = n.par := rfl
@[simp] theorem resumeHost_inp {C : Type} (st : Status) (n : Node C) :
    (resumeHost st n).inp = n.inp := rfl
@[simp] theorem resumeHost_mem {C : Type} (st : Status) (n : Node C) :
    (resumeHost st n).mem = n.mem := rfl
@[simp] theorem resumeHost_ctx {C : Type} (st : Status) (n : Node C) :
    (resumeHost st n).ctx = n.ctx := rfl
@[simp] theorem resumeHost_hw {C : Type} (st : Status) (n : Node C) :
    (resumeHost st n).hw = n.hw := rfl
@[simp] theorem resumeHost_dma {C : Type} (st : Status) (n : Node C) :
    (resumeHost st n).dma = n.dma := rfl
@[simp] theorem resumeHost_hostw {C : Type} (st : Status) (n : Node C) :
    (resumeHost st n).hostw = none := rfl
@[simp] theorem resumeHost_cbTrace {C : Type} (st : Status) (n : Node C) :
    (resumeHost st n).cbTrace = n.cbTrace := rfl
@[simp] theorem resumeHost_replies {C : Type} (st : Status) (n : Node C) :
    (resumeHost st n).replies = n.replies ++ [⟨.foreground, st, none, none⟩] := rfl

/-! ### `dmaArm` -/

@[simp] theorem dmaArm_par {C : Type} (d : DmaDir) (g : DmaReg) (p c : Nat) (n : Node C) :
    (dmaArm d g p c n).par = n.par := rfl
@[simp] theorem dmaArm_inp {C : Type} (d : DmaDir) (g : DmaReg) (p c : Nat) (n : Node C) :
    (dmaArm d g p c n).inp = n.inp := rfl
@[simp] theorem dmaArm_mem {C : Type} (d : DmaDir) (g : DmaReg) (p c : Nat) (n : Node C) :
    (dmaArm d g p c n).mem = n.mem := rfl
@[simp] theorem dmaArm_ctx {C : Type} (d : DmaDir) (g : DmaReg) (p c : Nat) (n : Node C) :
    (dmaArm d g p c n).ctx = n.ctx := rfl
@[simp] theorem dmaArm_hw {C : Type} (d : DmaDir) (g : DmaReg) (p c : Nat) (n : Node C) :
    (dmaArm d g p c n).hw = n.hw := rfl
@[simp] theorem dmaArm_dma {C : Type} (d : DmaDir) (g : DmaReg) (p c : Nat) (n : Node C) :
    (dmaArm d g p c n).dma = .running d g p c := rfl
@[simp] theorem dmaArm_hostw {C : Type} (d : DmaDir) (g : DmaReg) (p c : Nat) (n : Node C) :
    (dmaArm d g p c n).hostw = n.hostw := rfl
@[simp] theorem dmaArm_cbTrace {C : Type} (d : DmaDir) (g : DmaReg) (p c : Nat) (n : Node C) :
    (dmaArm d g p c n).cbTrace = n.cbTrace := rfl
@[simp] theorem dmaArm_replies {C : Type} (d : DmaDir) (g : DmaReg) (p c : Nat) (n : Node C) :
    (dmaArm d g p c n).replies = n.replies := rfl

/-! ### `dmaStop` -/

@[simp] theorem dmaStop_par {C : Type} (n : Node C) :
    (dmaStop n).par = n.par := rfl
@[simp] theorem dmaStop_inp {C : Type} (n : Node C) :
    (dmaStop n).inp = n.inp := rfl
@[simp] theorem dmaStop_mem {C : Type} (n : Node C) :
    (dmaStop n).mem = n.mem := rfl
@[simp] theorem dmaStop_ctx {C : Type} (n : Node C) :
    (dmaStop n).ctx = n.ctx := rfl
@[simp] theorem dmaStop_hw {C : Type} (n : Node C) :
    (dmaStop n).hw = n.hw := rfl
@[simp] theorem dmaStop_dma {C : Type} (n : Node C) :
    (dmaStop n).dma = .stopped := rfl
@[simp] theorem dmaStop_hostw {C : Type} (n : Node C) :
    (dmaStop n).hostw = n.hostw := rfl
@[simp] theorem dmaStop_cbTrace {C : Type} (n : Node C) :
    (dmaStop n).cbTrace = n.cbTrace := rfl
@[simp] theorem dmaStop_replies {C : Type} (n : Node C) :
    (dmaStop n).replies = n.replies := rfl

/-! ### `writeStdr` -/

@[simp] theorem writeStdr_par {C : Type} (b : Byte) (n : Node C) :
    (writeStdr b n).par = n.par := rfl
@[simp] theorem writeStdr_inp {C : Type} (b : Byte) (n : Node C) :
    (writeStdr b n).inp = n.inp := rfl
@[simp] theorem writeStdr_mem {C : Type} (b : Byte) (n : Node C) :
    (writeStdr b n).mem = n.mem := rfl
@[simp] theorem writeStdr_ctx {C : Type} (b : Byte) (n : Node C) :
    (writeStdr b n).ctx = n.ctx := rfl
@[simp] theorem writeStdr_hw {C : Type} (b : Byte) (n : Node C) :
    (writeStdr b n).hw =
      { n.hw with
        stdr := b, stx := n.hw.stx ++ [b], sef := { n.hw.sef with txdata := false } } := rfl
@[simp] theorem writeStdr_dma {C : Type} (b : Byte) (n : Node C) :
    (writeStdr b n).dma = n.dma := rfl
@[simp] theorem writeStdr_hostw {C : Type} (b : Byte) (n : Node C) :
    (writeStdr b n).hostw = n.hostw := rfl
@[simp] theorem writeStdr_cbTrace {C : Type} (b : Byte) (n : Node C) :
    (writeStdr b n).cbTrace = n.cbTrace := rfl
@[simp] theorem writeStdr_replies {C : Type} (b : Byte) (n : Node C) :
    (writeStdr b n).replies = n.replies := rfl

/-! ### `readSrdr` -/

@[simp] theorem readSrdr_par {C : Type} (n : Node C) :
    (readSrdr n).par = n.par := rfl
@[simp] theorem readSrdr_inp {C : Type} (n : Node C) :
    (readSrdr n).inp = n.inp := rfl
@[simp] theorem readSrdr_mem {C : Type} (n : Node C) :
    (readSrdr n).mem = n.mem := rfl
@[simp] theorem readSrdr_ctx {C : Type} (n : Node C) :
    (readSrdr n).ctx = n.ctx := rfl
@[simp] theorem readSrdr_hw {C : Type} (n : Node C) :
    (readSrdr n).hw = { n.hw with sef := { n.hw.sef with rxdata := false } } := rfl
@[simp] theorem readSrdr_dma {C : Type} (n : Node C) :
    (readSrdr n).dma = n.dma := rfl
@[simp] theorem readSrdr_hostw {C : Type} (n : Node C) :
    (readSrdr n).hostw = n.hostw := rfl
@[simp] theorem readSrdr_cbTrace {C : Type} (n : Node C) :
    (readSrdr n).cbTrace = n.cbTrace := rfl
@[simp] theorem readSrdr_replies {C : Type} (n : Node C) :
    (readSrdr n).replies = n.replies := rfl

/-! ### `setMie` -/

@[simp] theorem setMie_par (f : MSources) (n : MNode) :
    (setMie f n).par = n.par := rfl
@[simp] theorem setMie_inp (f : MSources) (n : MNode) :
    (setMie f n).inp = n.inp := rfl
@[simp] theorem setMie_mem (f : MSources) (n : MNode) :
    (setMie f n).mem = n.mem := rfl
@[simp] theorem setMie_ctx (f : MSources) (n : MNode) :
    (setMie f n).ctx = n.ctx := rfl
@[simp] theorem setMie_hw (f : MSources) (n : MNode) :
    (setMie f n).hw = { n.hw with mie := f } := rfl
@[simp] theorem setMie_dma (f : MSources) (n : MNode) :
    (setMie f n).dma = n.dma := rfl
@[simp] theorem setMie_hostw (f : MSources) (n : MNode) :
    (setMie f n).hostw = n.hostw := rfl
@[simp] theorem setMie_cbTrace (f : MSources) (n : MNode) :
    (setMie f n).cbTrace = n.cbTrace := rfl
@[simp] theorem setMie_replies (f : MSources) (n : MNode) :
    (setMie f n).replies = n.replies := rfl

/-! ### `setMieTxrdy` -/

@[simp] theorem setMieTxrdy_par (v : Bool) (n : MNode) :
    (setMieTxrdy v n).par = n.par := rfl
@[simp] theorem setMieTxrdy_inp (v : Bool) (n : MNode) :
    (setMieTxrdy v n).inp = n.inp := rfl
@[simp] theorem setMieTxrdy_mem (v : Bool) (n : MNode) :
    (setMieTxrdy v n).mem = n.mem := rfl
@[simp] theorem setMieTxrdy_ctx (v : Bool) (n : MNode) :
    (setMieTxrdy v n).ctx = n.ctx := rfl
@[simp] theorem setMieTxrdy_hw (v : Bool) (n : MNode) :
    (setMieTxrdy v n).hw = { n.hw with mie := { n.hw.mie with txrdy := v } } := rfl
@[simp] theorem setMieTxrdy_dma (v : Bool) (n : MNode) :
    (setMieTxrdy v n).dma = n.dma := rfl
@[simp] theorem setMieTxrdy_hostw (v : Bool) (n : MNode) :
    (setMieTxrdy v n).hostw = n.hostw := rfl
@[simp] theorem setMieTxrdy_cbTrace (v : Bool) (n : MNode) :
    (setMieTxrdy v n).cbTrace = n.cbTrace := rfl
@[simp] theorem setMieTxrdy_replies (v : Bool) (n : MNode) :
    (setMieTxrdy v n).replies = n.replies := rfl

/-! ### `resetFifos` -/

@[simp] theorem resetFifos_par (n : MNode) :
    (resetFifos n).par = n.par := rfl
@[simp] theorem resetFifos_inp (n : MNode) :
    (resetFifos n).inp = n.inp := rfl
@[simp] theorem resetFifos_mem (n : MNode) :
    (resetFifos n).mem = n.mem := rfl
@[simp] theorem resetFifos_ctx (n : MNode) :
    (resetFifos n).ctx = { n.ctx with swqWr := 0, swqRd := 0 } := rfl
@[simp] theorem resetFifos_hw (n : MNode) :
    (resetFifos n).hw = { n.hw with txf := [], rxf := [], rxLeft := 0 } := rfl
@[simp] theorem resetFifos_dma (n : MNode) :
    (resetFifos n).dma = n.dma := rfl
@[simp] theorem resetFifos_hostw (n : MNode) :
    (resetFifos n).hostw = n.hostw := rfl
@[simp] theorem resetFifos_cbTrace (n : MNode) :
    (resetFifos n).cbTrace = n.cbTrace := rfl
@[simp] theorem resetFifos_replies (n : MNode) :
    (resetFifos n).replies = n.replies := rfl

/-! ### `setMPhase` -/

@[simp] theorem setMPhase_par (p : Phase) (n : MNode) :
    (setMPhase p n).par = n.par := rfl
@[simp] theorem setMPhase_inp (p : Phase) (n : MNode) :
    (setMPhase p n).inp = n.inp := rfl
@[simp] theorem setMPhase_mem (p : Phase) (n : MNode) :
    (setMPhase p n).mem = n.mem := rfl
@[simp] theorem setMPhase_ctx (p : Phase) (n : MNode) :
    (setMPhase p n).ctx = { n.ctx with phase := p } := rfl
@[simp] theorem setMPhase_hw (p : Phase) (n : MNode) :
    (setMPhase p n).hw = n.hw := rfl
@[simp] theorem setMPhase_dma (p : Phase) (n : MNode) :
    (setMPhase p n).dma = n.dma := rfl
@[simp] theorem setMPhase_hostw (p : Phase) (n : MNode) :
    (setMPhase p n).hostw = n.hostw := rfl
@[simp] theorem setMPhase_cbTrace (p : Phase) (n : MNode) :
    (setMPhase p n).cbTrace = n.cbTrace := rfl
@[simp] theorem setMPhase_replies (p : Phase) (n : MNode) :
    (setMPhase p n).replies = n.replies := rfl

/-! ### `setMStatus` -/

@[simp] theorem setMStatus_par (st : Status) (n : MNode) :
    (setMStatus st n).par = n.par := rfl
@[simp] theorem setMStatus_inp (st : Status) (n : MNode) :
    (setMStatus st n).inp = n.inp := rfl
@[simp] theorem setMStatus_mem (st : Status) (n : MNode) :
    (setMStatus st n).mem = n.mem := rfl
@[simp] theorem setMStatus_ctx (st : Status) (n : MNode) :
    (setMStatus st n).ctx = { n.ctx with status := st } := rfl
@[simp] theorem setMStatus_hw (st : Status) (n : MNode) :
    (setMStatus st n).hw = n.hw := rfl
@[simp] theorem setMStatus_dma (st : Status) (n : MNode) :
    (setMStatus st n).dma = n.dma := rfl
@[simp] theorem setMStatus_hostw (st : Status) (n : MNode) :
    (setMStatus st n).hostw = n.hostw := rfl
@[simp] theorem setMStatus_cbTrace (st : Status) (n : MNode) :
    (setMStatus st n).cbTrace = n.cbTrace := rfl
@[simp] theorem setMStatus_replies (st : Status) (n : MNode) :
    (setMStatus st n).replies = n.replies := rfl

/-! ### `mPost` -/

@[simp] theorem mPost_par (n : MNode) :
    (mPost n).par = n.par := rfl
@[simp] theorem mPost_inp (n : MNode) :
    (mPost n).inp = n.inp := rfl
@[simp] theorem mPost_mem (n : MNode) :
    (mPost n).mem = n.mem := rfl
@[simp] theorem mPost_ctx (n : MNode) :
    (mPost n).ctx = { n.ctx with sem := n.ctx.blocking || n.ctx.sem } := rfl
@[simp] theorem mPost_hw (n : MNode) :
    (mPost n).hw = n.hw := rfl
@[simp] theorem mPost_dma (n : MNode) :
    (mPost n).dma = n.dma := rfl
@[simp] theorem mPost_hostw (n : MNode) :
    (mPost n).hostw = n.hostw := rfl
@[simp] theorem mPost_cbTrace (n : MNode) :
    (mPost n).cbTrace = n.cbTrace := rfl
@[simp] theorem mPost_replies (n : MNode) :
    (mPost n).replies = n.replies := rfl

/-! ### `mEndRelease` -/

@[simp] theorem mEndRelease_par (n : MNode) :
    (mEndRelease n).par = n.par := rfl
@[simp] theorem mEndRelease_inp (n : MNode) :
    (mEndRelease n).inp = n.inp := rfl
@[simp] theorem mEndRelease_mem (n : MNode) :
    (mEndRelease n).mem = n.mem := rfl
@[simp] theorem mEndRelease_ctx (n : MNode) :
    (mEndRelease n).ctx =
      { n.ctx with
        txBuff := none, txSize := 0, rxBuff := none, rxSize := 0, dir := .none, idle := true,
        phase := .idle } := rfl
@[simp] theorem mEndRelease_hw (n : MNode) :
    (mEndRelease n).hw = n.hw := rfl
@[simp] theorem mEndRelease_dma (n : MNode) :
    (mEndRelease n).dma = n.dma := rfl
@[simp] theorem mEndRelease_hostw (n : MNode) :
    (mEndRelease n).hostw = n.hostw := rfl
@[simp] theorem mEndRelease_cbTrace (n : MNode) :
    (mEndRelease n).cbTrace = n.cbTrace := rfl
@[simp] theorem mEndRelease_replies (n : MNode) :
    (mEndRelease n).replies = n.replies := rfl

/-! ### `setSStatus` -/

@[simp] theorem setSStatus_par (st : Status) (n : SNode) :
    (setSStatus st n).par = n.par := rfl
@[simp] theorem setSStatus_inp (st : Status) (n : SNode) :
    (setSStatus st n).inp = n.inp := rfl
@[simp] theorem setSStatus_mem (st : Status) (n : SNode) :
    (setSStatus st n).mem = n.mem := rfl
@[simp] theorem setSStatus_ctx (st : Status) (n : SNode) :
    (setSStatus st n).ctx = { n.ctx with status := st } := rfl
@[simp] theorem setSStatus_hw (st : Status) (n : SNode) :
    (setSStatus st n).hw = n.hw := rfl
@[simp] theorem setSStatus_dma (st : Status) (n : SNode) :
    (setSStatus st n).dma = n.dma := rfl
@[simp] theorem setSStatus_hostw (st : Status) (n : SNode) :
    (setSStatus st n).hostw = n.hostw := rfl
@[simp] theorem setSStatus_cbTrace (st : Status) (n : SNode) :
    (setSStatus st n).cbTrace = n.cbTrace := rfl
@[simp] theorem setSStatus_replies (st : Status) (n : SNode) :
    (setSStatus st n).replies = n.replies := rfl

/-! ### `sTeardown` -/

@[simp] theorem sTeardown_par (n : SNode) :
    (sTeardown n).par = n.par := rfl
@[simp] theorem sTeardown_inp (n : SNode) :
    (sTeardown n).inp = n.inp := rfl
@[simp] theorem sTeardown_mem (n : SNode) :
    (sTeardown n).mem = n.mem := rfl
@[simp] theorem sTeardown_ctx (n : SNode) :
    (sTeardown n).ctx =
      { n.ctx with
        txBuff := none, txSize := 0, rxBuff := none, rxSize := 0, repeatedStarts := 0, txUnderrunWarning := false,
        isTransferInProgress := false, phase := .idle } := rfl
@[simp] theorem sTeardown_hw (n : SNode) :
    (sTeardown n).hw = { n.hw with sie := .none, sen := false, sef := .none } := rfl
@[simp] theorem sTeardown_dma (n : SNode) :
    (sTeardown n).dma = .stopped := rfl
@[simp] theorem sTeardown_hostw (n : SNode) :
    (sTeardown n).hostw = n.hostw := rfl
@[simp] theorem sTeardown_cbTrace (n : SNode) :
    (sTeardown n).cbTrace = n.cbTrace := rfl
@[simp] theorem sTeardown_replies (n : SNode) :
    (sTeardown n).replies = n.replies := rfl

/-! ### `sEndCommon` -/

@[simp] theorem sEndCommon_par (n : SNode) :
    (sEndCommon n).par = n.par := rfl
@[simp] theorem sEndCommon_inp (n : SNode) :
    (sEndCommon n).inp = n.inp := rfl
@[simp] theorem sEndCommon_mem (n : SNode) :
    (sEndCommon n).mem = n.mem := rfl
@[simp] theorem sEndCommon_ctx (n : SNode) :
    (sEndCommon n).ctx = sEndCtx n.dma n.ctx := rfl
@[simp] theorem sEndCommon_hw (n : SNode) :
    (sEndCommon n).hw = { n.hw with sie := { n.hw.sie with txdata := false, rxdata := false } } := rfl
@[simp] theorem sEndCommon_dma (n : SNode) :
    (sEndCommon n).dma = .stopped := rfl
@[simp] theorem sEndCommon_hostw (n : SNode) :
    (sEndCommon n).hostw = n.hostw := rfl
@[simp] theorem sEndCommon_cbTrace (n : SNode) :
    (sEndCommon n).cbTrace = n.cbTrace := rfl
@[simp] theorem sEndCommon_replies (n : SNode) :
    (sEndCommon n).replies = n.replies := rfl

end Sys2Proof.Machine
end

