-- ==== Sys2Proof/Laws/Memory.lean ====
section
/-! SUPPORT. The laws of application memory: what a byte reads as after a write, and that every write keeps the canonical
form (spec 20_memory.md R80 to R85). -/

namespace Sys2Proof.Machine

/-- The form, one cell at a time. -/
theorem Memory.wf_cons {a : Nat} {b : Byte} {rest : Memory} :
    Memory.wf ((a, b) :: rest) = true ↔
      b ≠ Memory.unwritten ∧ (∀ c ∈ rest, a < c.1) ∧ Memory.wf rest = true := by
  simp [Memory.wf, and_assoc]

/-- An address below every listed one is unwritten. -/
theorem Memory.read_below {m : Memory} {k : Nat} (h : ∀ c ∈ m, k < c.1) : m.read k = Memory.unwritten := by
  induction m with
  | nil => rfl
  | cons c rest ih =>
    obtain ⟨a, b⟩ := c
    have hk : k < a := h (a, b) (by simp)
    simp only [Memory.read, if_neg (Nat.ne_of_lt hk)]
    exact ih fun c hc => h c (by simp [hc])

/-- The addresses a write lists are the old ones and the one written. -/
theorem Memory.mem_write {m : Memory} {k : Nat} {b : Byte} {c : Host.Cell} (h : c ∈ m.write k b) :
    c ∈ m ∨ c.1 = k := by
  induction m with
  | nil =>
    simp only [Memory.write, Memory.put] at h
    split at h <;> simp_all
  | cons d rest ih =>
    obtain ⟨a, e⟩ := d
    simp only [Memory.write, Memory.put] at h
    split at h
    · split at h
      · exact .inl h
      · rcases List.mem_cons.mp h with rfl | h
        · exact .inr rfl
        · exact .inl h
    · split at h
      · split at h
        · exact .inl (by simp [h])
        · rcases List.mem_cons.mp h with rfl | h
          · exact .inr rfl
          · exact .inl (by simp [h])
      · rcases List.mem_cons.mp h with rfl | h
        · exact .inl (by simp)
        · rcases ih h with h | h
          · exact .inl (by simp [h])
          · exact .inr h

/-- A cell put in front of later ones keeps the form. -/
theorem Memory.wf_put {k : Nat} {b : Byte} {rest : Memory} (hr : Memory.wf rest = true) (hk : ∀ c ∈ rest, k < c.1) :
    Memory.wf (Memory.put k b rest) = true := by
  unfold Memory.put
  split
  · exact hr
  · exact Memory.wf_cons.mpr ⟨‹_›, hk, hr⟩

/-- A write keeps the canonical form. -/
theorem Memory.wf_write {m : Memory} (k : Nat) (b : Byte) (h : Memory.wf m = true) : Memory.wf (m.write k b) = true := by
  induction m with
  | nil => exact Memory.wf_put rfl (by simp)
  | cons c rest ih =>
    obtain ⟨a, e⟩ := c
    obtain ⟨he, ha, hr⟩ := Memory.wf_cons.mp h
    simp only [Memory.write]
    split
    · refine Memory.wf_put h fun c hc => ?_
      rcases List.mem_cons.mp hc with rfl | hc
      · assumption
      · exact Nat.lt_trans ‹_› (ha c hc)
    · split
      · subst k
        exact Memory.wf_put hr ha
      · refine Memory.wf_cons.mpr ⟨he, fun c hc => ?_, ih hr⟩
        rcases Memory.mem_write hc with hc | hc
        · exact ha c hc
        · omega

/-- Reading behind a put cell. -/
theorem Memory.read_put {k j : Nat} {b : Byte} {rest : Memory} (hk : ∀ c ∈ rest, k < c.1) :
    (Memory.put k b rest).read j = if j = k then b else rest.read j := by
  unfold Memory.put
  split
  · split
    · subst j b
      exact Memory.read_below hk
    · rfl
  · rfl

/-- A byte reads as what was written last; every other byte as before. -/
theorem Memory.read_write {m : Memory} {k j : Nat} {b : Byte} (h : Memory.wf m = true) :
    (m.write k b).read j = if j = k then b else m.read j := by
  induction m with
  | nil => exact Memory.read_put (by simp)
  | cons c rest ih =>
    obtain ⟨a, e⟩ := c
    obtain ⟨-, ha, hr⟩ := Memory.wf_cons.mp h
    simp only [Memory.write]
    split
    · refine Memory.read_put fun c hc => ?_
      rcases List.mem_cons.mp hc with rfl | hc
      · assumption
      · exact Nat.lt_trans ‹_› (ha c hc)
    · split
      · subst k
        rw [Memory.read_put ha]
        by_cases hj : j = a <;> simp [Memory.read, hj]
      · simp only [Memory.read, ih hr]
        by_cases hj : j = a
        · subst hj
          simp [show j ≠ k from fun e => by omega]
        · simp [hj]

/-- A byte written is read back. -/
theorem Memory.read_write_self {m : Memory} {k : Nat} {b : Byte} (h : Memory.wf m = true) : (m.write k b).read k = b := by
  simp [Memory.read_write h]

/-- A write leaves every other byte. -/
theorem Memory.read_write_ne {m : Memory} {k j : Nat} {b : Byte} (h : Memory.wf m = true) (hj : j ≠ k) :
    (m.write k b).read j = m.read j := by
  simp [Memory.read_write h, hj]

/-- A store that goes on writes inside the address space, and keeps the canonical form. -/
theorem memWrite_eq_next {p : Params} {m m' : Memory} {a : Nat} {v : Byte} :
    memWrite p m a v = .next m' ↔ a < 2 ^ p.addrW ∧ m' = m.write a v := by
  unfold memWrite
  by_cases h : a < 2 ^ p.addrW <;> simp [h, eq_comm]

/-- A load that goes on reads inside the address space. -/
theorem memRead_eq_next {p : Params} {m : Memory} {a : Nat} {v : Byte} :
    memRead p m a = .next v ↔ a < 2 ^ p.addrW ∧ v = m.read a := by
  unfold memRead
  by_cases h : a < 2 ^ p.addrW <;> simp [h, eq_comm]

/-- The only memory operation that changes memory keeps the form. -/
theorem wf_memWrite {p : Params} {m m' : Memory} {a : Nat} {v : Byte} (hm : Memory.wf m = true)
    (h : memWrite p m a v = .next m') : Memory.wf m' = true := by
  obtain ⟨-, rfl⟩ := memWrite_eq_next.mp h
  exact Memory.wf_write a v hm

/-- The memory after reset has the form. -/
theorem wf_reset : Memory.wf State.reset.mem = true := rfl

end Sys2Proof.Machine
end

