-- ==== Sys2Proof/Laws/Ops.lean ====
section
/-! SUPPORT. What each shared operation can do, said once: how a meaning reaches one bus, the FIFOs, the software command
queue, the offer of a command, the DMA channel, the bus side's bytes, what an agent's turn comes to. -/

namespace Sys2Proof.Machine

/-! ## Reaching a bus -/

/-- A rule on an instance goes on iff the instance exists and the rule goes on with it. -/
theorem onInst_eq_next {k : BusIndex} {s s' : State} {f : Inst → Res State} :
    onInst k s f = .next s' ↔ ∃ x, s.inst? k = some x ∧ f x = .next s' := by
  unfold onInst
  cases s.inst? k <;> simp

/-- On an existing bus a rule is run with it. -/
theorem onInst_of {k : BusIndex} {s : State} {x : Inst} {f : Inst → Res State} (h : s.inst? k = some x) :
    onInst k s f = f x := by
  simp [onInst, h]

/-- A master request goes on iff the role is Master and its rule goes on; memory and that instance are all that can
change. -/
theorem onMaster_eq_next {k : BusIndex} {s s' : State} {f : MNode → Res MNode} :
    onMaster k s f = .next s' ↔ ∃ x m n, s.inst? k = some x ∧ x.role = .master m ∧ f (Node.of s x m) = .next n ∧
      s' = s.putNode k x (.master n.ctx) n := by
  unfold onMaster
  rw [onInst_eq_next]
  constructor
  · rintro ⟨x, hx, h⟩
    split at h
    · obtain ⟨n, hn, h⟩ := andThen_eq_next.mp h
      cases h
      exact ⟨x, _, n, hx, ‹_›, hn, rfl⟩
    · cases h
  · rintro ⟨x, m, n, hx, hr, hn, rfl⟩
    exact ⟨x, hx, by simp [hr, hn]⟩

/-- With the role Master a master request is its rule. -/
theorem onMaster_of {k : BusIndex} {s : State} {x : Inst} {m : MCtx} {f : MNode → Res MNode} (h : s.inst? k = some x)
    (hr : x.role = .master m) :
    onMaster k s f = andThen (f (Node.of s x m)) fun n => .next (s.putNode k x (.master n.ctx) n) := by
  simp [onMaster, onInst, h, hr]

/-- A slave request goes on iff the role is Slave and its rule goes on; memory and that instance are all that can
change. -/
theorem onSlave_eq_next {k : BusIndex} {s s' : State} {f : SNode → Res SNode} :
    onSlave k s f = .next s' ↔ ∃ x c n, s.inst? k = some x ∧ x.role = .slave c ∧ f (Node.of s x c) = .next n ∧
      s' = s.putNode k x (.slave n.ctx) n := by
  unfold onSlave
  rw [onInst_eq_next]
  constructor
  · rintro ⟨x, hx, h⟩
    split at h
    · obtain ⟨n, hn, h⟩ := andThen_eq_next.mp h
      cases h
      exact ⟨x, _, n, hx, ‹_›, hn, rfl⟩
    · cases h
  · rintro ⟨x, c, n, hx, hr, hn, rfl⟩
    exact ⟨x, hx, by simp [hr, hn]⟩

/-- With the role Slave a slave request is its rule. -/
theorem onSlave_of {k : BusIndex} {s : State} {x : Inst} {c : SCtx} {f : SNode → Res SNode} (h : s.inst? k = some x)
    (hr : x.role = .slave c) :
    onSlave k s f = andThen (f (Node.of s x c)) fun n => .next (s.putNode k x (.slave n.ctx) n) := by
  simp [onSlave, onInst, h, hr]

/-- A command word goes on iff its bus exists and its rule goes on; only that instance can change. -/
theorem onBus_eq_next {k : BusIndex} {s s' : State} {f : Inst → Res Inst} :
    onBus k s f = .next s' ↔ ∃ x y, s.inst? k = some x ∧ f x = .next y ∧ s' = s.setInst k y := by
  unfold onBus
  rw [onInst_eq_next]
  constructor
  · rintro ⟨x, hx, h⟩
    obtain ⟨y, hy, h⟩ := andThen_eq_next.mp h
    cases h
    exact ⟨x, y, hx, hy, rfl⟩
  · rintro ⟨x, y, hx, hy, rfl⟩
    exact ⟨x, hx, by simp [hy]⟩

/-- What is deliverable to a master with the vector enabled (R383). -/
theorem deliverableM_of {x : Inst} {m : MCtx} (hr : x.role = .master m) (hi : x.hw.irqEn = true) :
    deliverableM x = (mefOf x.hw).meet x.hw.mie := by
  simp [deliverableM, hr, hi]

/-- What is deliverable to a slave with the vector enabled (R383). -/
theorem deliverableS_of {x : Inst} {c : SCtx} (hr : x.role = .slave c) (hi : x.hw.irqEn = true) :
    deliverableS x = x.hw.sef.meet x.hw.sie := by
  simp [deliverableS, hr, hi]

/-- A master event is taken iff the role is Master, its source is deliverable and its handler goes on. -/
theorem takeMasterEvent_eq_next {src : MSources → Bool} {k : BusIndex} {s s' : State} {f : MNode → Res MNode} :
    takeMasterEvent src k s f = .next s' ↔ ∃ x m n, s.inst? k = some x ∧ x.role = .master m ∧
      src (deliverableM x) = true ∧ f (Node.of s x m) = .next n ∧ s' = s.putNode k x (.master n.ctx) n := by
  unfold takeMasterEvent
  rw [onInst_eq_next]
  constructor
  · rintro ⟨x, hx, h⟩
    split at h
    · split at h
      · obtain ⟨n, hn, h⟩ := andThen_eq_next.mp h
        cases h
        exact ⟨x, _, n, hx, ‹_›, ‹_›, hn, rfl⟩
      · cases h
    · cases h
  · rintro ⟨x, m, n, hx, hr, hd, hn, rfl⟩
    exact ⟨x, hx, by simp [hr, hd, hn]⟩

/-- A deliverable master event is its handler. -/
theorem takeMasterEvent_of {src : MSources → Bool} {k : BusIndex} {s : State} {x : Inst} {m : MCtx}
    {f : MNode → Res MNode} (h : s.inst? k = some x) (hr : x.role = .master m) (hd : src (deliverableM x) = true) :
    takeMasterEvent src k s f = andThen (f (Node.of s x m)) fun n => .next (s.putNode k x (.master n.ctx) n) := by
  simp [takeMasterEvent, onInst, h, hr, hd]

/-- A slave event is taken iff the role is Slave, its source is deliverable and its handler goes on. -/
theorem takeSlaveEvent_eq_next {src : SSources → Bool} {k : BusIndex} {s s' : State} {f : SNode → Res SNode} :
    takeSlaveEvent src k s f = .next s' ↔ ∃ x c n, s.inst? k = some x ∧ x.role = .slave c ∧
      src (deliverableS x) = true ∧ f (Node.of s x c) = .next n ∧ s' = s.putNode k x (.slave n.ctx) n := by
  unfold takeSlaveEvent
  rw [onInst_eq_next]
  constructor
  · rintro ⟨x, hx, h⟩
    split at h
    · split at h
      · obtain ⟨n, hn, h⟩ := andThen_eq_next.mp h
        cases h
        exact ⟨x, _, n, hx, ‹_›, ‹_›, hn, rfl⟩
      · cases h
    · cases h
  · rintro ⟨x, c, n, hx, hr, hd, hn, rfl⟩
    exact ⟨x, hx, by simp [hr, hd, hn]⟩

/-- A deliverable slave event is its handler. -/
theorem takeSlaveEvent_of {src : SSources → Bool} {k : BusIndex} {s : State} {x : Inst} {c : SCtx}
    {f : SNode → Res SNode} (h : s.inst? k = some x) (hr : x.role = .slave c) (hd : src (deliverableS x) = true) :
    takeSlaveEvent src k s f = andThen (f (Node.of s x c)) fun n => .next (s.putNode k x (.slave n.ctx) n) := by
  simp [takeSlaveEvent, onInst, h, hr, hd]

/-- A DMA event is taken iff it is enabled and the handler of the active role goes on; the slave's is told the channel's
register. -/
theorem takeDmaEvent_eq_next {en : Inst → Bool} {k : BusIndex} {s s' : State} {fm : MNode → Res MNode}
    {fs : DmaReg → SNode → Res SNode} :
    takeDmaEvent en k s fm fs = .next s' ↔ ∃ x, s.inst? k = some x ∧ en x = true ∧
      ((∃ m n, x.role = .master m ∧ fm (Node.of s x m) = .next n ∧ s' = s.putNode k x (.master n.ctx) n) ∨
       (∃ c n dir reg ptr count, x.role = .slave c ∧ x.dma = .running dir reg ptr count ∧
         fs reg (Node.of s x c) = .next n ∧ s' = s.putNode k x (.slave n.ctx) n)) := by
  unfold takeDmaEvent
  rw [onInst_eq_next]
  constructor
  · rintro ⟨x, hx, h⟩
    refine ⟨x, hx, ?_⟩
    split at h
    · refine ⟨‹_›, ?_⟩
      split at h
      · obtain ⟨n, hn, h⟩ := andThen_eq_next.mp h
        cases h
        exact .inl ⟨_, n, ‹_›, hn, rfl⟩
      · obtain ⟨n, hn, h⟩ := andThen_eq_next.mp h
        cases h
        exact .inr ⟨_, n, _, _, _, _, ‹_›, ‹_›, hn, rfl⟩
      · cases h
    · cases h
  · rintro ⟨x, hx, he, ⟨m, n, hr, hn, rfl⟩ | ⟨c, n, dir, reg, ptr, count, hr, hd, hn, rfl⟩⟩
    · exact ⟨x, hx, by simp [he, hr, hn]⟩
    · exact ⟨x, hx, by simp [he, hd, hr, hn]⟩

/-! ## The hardware FIFOs -/

/-- A push that goes on had room and appends the word, nothing else. -/
theorem pushTxf_eq_next {C : Type} {w : CmdWord} {n n' : Node C} :
    pushTxf w n = .next n' ↔
      n.hw.txf.length < n.par.txDepth ∧ n' = { n with hw := { n.hw with txf := n.hw.txf ++ [w] } } := by
  unfold pushTxf
  by_cases h : n.hw.txf.length < n.par.txDepth <;> simp [h, eq_comm]

/-- A pop that goes on takes the head, nothing else. -/
theorem popRxf_eq_next {C : Type} {n : Node C} {r : Byte × Node C} :
    popRxf n = .next r ↔
      ∃ rest, n.hw.rxf = r.1 :: rest ∧ r.2 = { n with hw := { n.hw with rxf := rest } } := by
  obtain ⟨b, m⟩ := r
  unfold popRxf
  rcases n.hw.rxf with _ | ⟨c, rest⟩
  · simp
  · constructor
    · intro h
      cases h
      exact ⟨rest, rfl, rfl⟩
    · rintro ⟨rest', h, rfl⟩
      cases h
      rfl

/-! ## The software command queue -/

/-- Equal indices are an empty queue. -/
theorem swqEmpty_iff {m : MCtx} : swqEmpty m = true ↔ m.swqWr = m.swqRd := by
  simp [swqEmpty]

/-- An empty queue counts 0, and only an empty one. -/
theorem swqCount_eq_zero {m : MCtx} : swqCount m = 0 ↔ m.swqWr = m.swqRd := by
  unfold swqCount
  generalize m.swqWr = w
  generalize m.swqRd = r
  revert w r
  decide

/-- The queue's entries are as many as it counts. -/
@[simp] theorem length_swqEntries (m : MCtx) : (swqEntries m).length = swqCount m := by
  simp [swqEntries]

/-- An empty queue holds nothing. -/
theorem swqEntries_of_eq {m : MCtx} (h : m.swqWr = m.swqRd) : swqEntries m = [] := by
  apply List.eq_nil_of_length_eq_zero
  rw [length_swqEntries]
  exact swqCount_eq_zero.mpr h

/-- The entries depend on the slots and the two indices alone. -/
theorem swqEntries_congr {m m' : MCtx} (hs : m'.swq = m.swq) (hw : m'.swqWr = m.swqWr) (hr : m'.swqRd = m.swqRd) :
    swqEntries m' = swqEntries m := by
  simp [swqEntries, swqCount, hs, hw, hr]

/-- A push onto the queue goes on iff the queue is not full; it writes one slot and the write index. -/
theorem swqPush_eq_next {w : CmdWord} {n n' : MNode} :
    swqPush w n = .next n' ↔ swqCount n.ctx ≠ 5 ∧ n' = { n with ctx := { n.ctx with
      swq := n.ctx.swq.set (swqSlot n.ctx.swqWr).val w (swqSlot n.ctx.swqWr).isLt, swqWr := n.ctx.swqWr + 1 } } := by
  unfold swqPush
  by_cases h : swqCount n.ctx = 5 <;> simp [h, Config.swqCap, eq_comm]

/-- A pop of the queue moves the indices only. -/
theorem swqDrop_eq (m : MCtx) : ∃ wr rd, swqDrop m = { m with swqWr := wr, swqRd := rd } := by
  unfold swqDrop
  split
  · exact ⟨0, 0, rfl⟩
  · exact ⟨m.swqWr, m.swqRd + 1, rfl⟩

/-- A pop of a non-empty queue leaves one entry fewer. -/
theorem swqCount_swqDrop {m : MCtx} (h : m.swqWr ≠ m.swqRd) : swqCount (swqDrop m) + 1 = swqCount m := by
  have key : ∀ w r : Fin 10, w ≠ r → (if w = r + 1 then ((0 : Fin 10) - 0).val else (w - (r + 1)).val) + 1 = (w - r).val := by
    decide
  have := key m.swqWr m.swqRd h
  unfold swqDrop swqCount
  split <;> simp_all

/-- Everything an offer that goes on can do: with an empty queue and room the word is appended to the transmit FIFO; else
it is pushed onto the queue, which was not full. -/
theorem offer_eq_next {c : Cmd} {d : Byte} {n n' : MNode} (h : offer c d n = .next n') :
    (n.ctx.swqWr = n.ctx.swqRd ∧ n.hw.txf.length < n.par.txDepth ∧
      n' = { n with hw := { n.hw with txf := n.hw.txf ++ [cmdWord c d] } }) ∨
    (¬ (n.ctx.swqWr = n.ctx.swqRd ∧ n.hw.txf.length < n.par.txDepth) ∧ swqCount n.ctx ≠ 5 ∧
      n' = { n with ctx := { n.ctx with
        swq := n.ctx.swq.set (swqSlot n.ctx.swqWr).val (cmdWord c d) (swqSlot n.ctx.swqWr).isLt,
        swqWr := n.ctx.swqWr + 1 } }) := by
  unfold offer at h
  split at h
  · obtain ⟨hr, rfl⟩ := pushTxf_eq_next.mp h
    exact .inl ⟨by simp_all [swqEmpty], hr, rfl⟩
  · obtain ⟨hc, rfl⟩ := swqPush_eq_next.mp h
    exact .inr ⟨by simp_all [swqEmpty], hc, rfl⟩

/-- An offer on an empty queue with room. -/
theorem offer_direct {c : Cmd} {d : Byte} {n : MNode} (hq : n.ctx.swqWr = n.ctx.swqRd)
    (hr : n.hw.txf.length < n.par.txDepth) :
    offer c d n = .next { n with hw := { n.hw with txf := n.hw.txf ++ [cmdWord c d] } } := by
  simp [offer, swqEmpty, hq, hr, pushTxf]

/-- The only fault of an offer is the queue's overflow. -/
theorem offer_fault {c : Cmd} {d : Byte} {n : MNode} {e : Fault} (h : offer c d n = .fault e) :
    e = .queueOverflow ∧ swqCount n.ctx = 5 := by
  unfold offer at h
  split at h
  · rename_i hc
    have hr : n.hw.txf.length < n.par.txDepth := by simp_all
    simp [pushTxf, hr] at h
  · unfold swqPush at h
    split at h
    · cases h
      exact ⟨rfl, ‹_›⟩
    · cases h

/-! ## Frames of the loops -/

/-- The drain moves words from the queue to the transmit FIFO: the indices and the FIFO are all it writes. -/
theorem drainLoop_frame {fuel : Nat} {n n' : MNode} (h : drainLoop fuel n = .next n') :
    ∃ wr rd txf, n' = { n with ctx := { n.ctx with swqWr := wr, swqRd := rd }, hw := { n.hw with txf := txf } } := by
  induction fuel generalizing n with
  | zero =>
    simp only [drainLoop, Host.Outcome.next.injEq] at h
    exact ⟨_, _, _, h.symm⟩
  | succ fuel ih =>
    unfold drainLoop at h
    split at h
    · obtain ⟨m, hm, h⟩ := andThen_eq_next.mp h
      obtain ⟨-, rfl⟩ := pushTxf_eq_next.mp hm
      obtain ⟨wr, rd, txf, rfl⟩ := ih h
      obtain ⟨wr', rd', hd⟩ := swqDrop_eq n.ctx
      exact ⟨wr, rd, txf, by simp [hd]⟩
    · cases h
      exact ⟨_, _, _, rfl⟩

/-- Behind a drain the queue is empty or the transmit FIFO is full, once the fuel covers the queue. -/
theorem drainLoop_done {fuel : Nat} {n n' : MNode} (hf : swqCount n.ctx ≤ fuel) (h : drainLoop fuel n = .next n') :
    n'.ctx.swqWr = n'.ctx.swqRd ∨ n'.par.txDepth ≤ n'.hw.txf.length := by
  induction fuel generalizing n with
  | zero =>
    cases h
    exact .inl (swqCount_eq_zero.mp (by omega))
  | succ fuel ih =>
    unfold drainLoop at h
    split at h
    · rename_i hc
      obtain ⟨m, hm, h⟩ := andThen_eq_next.mp h
      obtain ⟨-, rfl⟩ := pushTxf_eq_next.mp hm
      refine ih ?_ h
      have hne : n.ctx.swqWr ≠ n.ctx.swqRd := by simp_all [swqEmpty]
      have := swqCount_swqDrop hne
      simp only
      omega
    · cases h
      by_cases he : n'.ctx.swqWr = n'.ctx.swqRd
      · exact .inl he
      · exact .inr (by simp_all [swqEmpty])

/-- A drain never faults. -/
theorem drainLoop_ne_fault {fuel : Nat} {n : MNode} {e : Fault} : drainLoop fuel n ≠ .fault e := by
  induction fuel generalizing n with
  | zero => simp [drainLoop]
  | succ fuel ih =>
    unfold drainLoop
    split
    · rename_i hc
      have hr : n.hw.txf.length < n.par.txDepth := by simp_all
      simp [pushTxf, hr, ih]
    · simp

/-! ## The DMA channel -/

/-- A granted move goes on only while the channel runs: pointer and count advance behind the byte. -/
theorem dmaMove_eq_next {n n' : Node Unit} (h : dmaMove n = .next n') :
    (n.dma = .stopped ∧ n' = n) ∨
    ∃ dir reg ptr count m, n.dma = .running dir reg ptr count ∧ dmaByte reg ptr n = .next m ∧
      n' = { m with dma := .running dir reg (ptrNext m.par ptr) (count - 1) } := by
  unfold dmaMove at h
  split at h
  · cases h
    exact .inl ⟨‹_›, rfl⟩
  · obtain ⟨m, hm, h⟩ := andThen_eq_next.mp h
    cases h
    exact .inr ⟨_, _, _, _, m, ‹_›, hm, rfl⟩

/-- The byte of a move: a read for a send register, a store at the channel's pointer for a receive register. -/
theorem dmaByte_eq_next {reg : DmaReg} {ptr : Nat} {n n' : Node Unit} (h : dmaByte reg ptr n = .next n') :
    ptr < 2 ^ n.par.addrW ∧
    match reg with
    | .mtx => n.hw.txf.length < n.par.txDepth ∧
        n' = { n with hw := { n.hw with txf := n.hw.txf ++ [cmdWord .txd (n.mem.read ptr)] } }
    | .mrx => ∃ b rest, n.hw.rxf = b :: rest ∧
        n' = { n with hw := { n.hw with rxf := rest }, mem := n.mem.write ptr b }
    | .stx => n' = writeStdr (n.mem.read ptr) n
    | .srx => n' = { readSrdr n with mem := n.mem.write ptr n.hw.srdr } := by
  cases reg <;> simp only [dmaByte] at h <;> obtain ⟨a, ha, h⟩ := andThen_eq_next.mp h
  · obtain ⟨hp, rfl⟩ := memRead_eq_next.mp ha
    exact ⟨hp, pushTxf_eq_next.mp h⟩
  · obtain ⟨rest, hr, he⟩ := popRxf_eq_next.mp ha
    obtain ⟨m, hm, h⟩ := andThen_eq_next.mp h
    rw [he] at hm h
    obtain ⟨hp, rfl⟩ := memWrite_eq_next.mp hm
    cases h
    exact ⟨hp, _, rest, hr, rfl⟩
  · obtain ⟨hp, rfl⟩ := memRead_eq_next.mp ha
    cases h
    exact ⟨hp, rfl⟩
  · obtain ⟨hp, rfl⟩ := memWrite_eq_next.mp ha
    cases h
    exact ⟨hp, rfl⟩

/-! ## The bus side -/

/-- A transmitted byte goes on with any context of role Master; the wire trace, the latched flags and the open-bus bit are
all that it writes. -/
theorem transmitByte_frame {b : Byte} {e : Bool} {ans : TxAnswer} {x y : Inst} (h : transmitByte b e ans x = .next y) :
    ∃ tail mef busOpen, y = { x with hw := { x.hw with wire := x.hw.wire ++ tail, mef := mef, busOpen := busOpen } } := by
  have nack : ∀ (a : AckBit) (y : Inst), raiseNack { x with hw := putWire (.b b a) x.hw } = .next y →
      ∃ tail mef busOpen,
        y = { x with hw := { x.hw with wire := x.hw.wire ++ tail, mef := mef, busOpen := busOpen } } := by
    intro a y hy
    unfold raiseNack at hy
    split at hy
    · cases hy
      split
      · exact ⟨_, _, _, rfl⟩
      · exact ⟨[.b b a, .pauto], { x.hw.mef with nack := true }, false, by simp [putWire]⟩
    · cases hy
  cases ans <;> cases e <;> simp only [transmitByte, if_true, Bool.false_eq_true, if_false] at h
  all_goals
    first
    | exact nack _ _ h
    | (cases h; exact ⟨_, _, _, rfl⟩)

/-- A transmitted byte never stops while the role is Master. -/
theorem transmitByte_next {b : Byte} {e : Bool} {ans : TxAnswer} {x : Inst} {m : MCtx} (hr : x.role = .master m) :
    ∃ y, transmitByte b e ans x = .next y := by
  cases ans <;> cases e <;> simp [transmitByte, raiseNack, hr]

/-! ## Turns -/

/-- An agent's own step changes its instance if it is enabled, and else nothing. -/
theorem ownStep_of {k : BusIndex} {s : State} {x : Inst} {f : Inst → Option Inst} (h : s.inst? k = some x) :
    ownStep k s f = match f x with
      | none => s
      | some y => s.setInst k y := by
  cases hf : f x <;> simp [ownStep, h, hf]

/-- Everything an agent's own step can do. -/
theorem ownStep_cases (k : BusIndex) (s : State) (f : Inst → Option Inst) :
    ownStep k s f = s ∨ ∃ x y, s.inst? k = some x ∧ f x = some y ∧ ownStep k s f = s.setInst k y := by
  unfold ownStep
  split
  · exact .inl rfl
  · split
    · exact .inl rfl
    · exact .inr ⟨_, _, ‹_›, ‹_›, rfl⟩

/-- Everything an event's turn can come to. -/
theorem eventFetch_cases (k : BusIndex) (s : State) (due : Inst → Option EvtCode) :
    eventFetch k s due = .own (.next s) ∨
    ∃ x c, s.inst? k = some x ∧ due x = some c ∧ eventFetch k s due = .word (.evt k c) s := by
  unfold eventFetch
  split
  · exact .inl rfl
  · split
    · exact .inl rfl
    · exact .inr ⟨_, _, ‹_›, ‹_›, rfl⟩

/-- Everything the master bus side's turn can come to: nothing, a received byte, or a popped command word. -/
theorem busFetch_cases (k : BusIndex) (s : State) :
    busFetch k s = .own (.next s) ∨
    (∃ x, s.inst? k = some x ∧ receiveEnabled s.par x = true ∧
      busFetch k s = .own (.next (s.setInst k (receiveStep s.inp.rx x)))) ∨
    (∃ x w rest, s.inst? k = some x ∧ receiveEnabled s.par x = false ∧ commandEnabled x = true ∧ x.hw.txf = w :: rest ∧
      busFetch k s = .word (.cmd k w) (s.setInst k { x with hw := { x.hw with txf := rest } })) := by
  unfold busFetch
  split
  · exact .inl rfl
  · split
    · exact .inr (.inl ⟨_, ‹_›, ‹_›, rfl⟩)
    · split
      · split
        · exact .inl rfl
        · exact .inr (.inr ⟨_, _, _, ‹_›, by simp_all, ‹_›, ‹_›, rfl⟩)
      · exact .inl rfl

/-- Everything a step can do: nothing on an empty schedule; else the turn comes to a word that is decoded and run, or to a
step of the agent's own. -/
theorem step_cases (s : State) :
    (s.turns = [] ∧ step s = .next s) ∨
    ∃ t rest, s.turns = t :: rest ∧
      ((∃ w s', fetch t.agent (beginTurn t rest s) = .word w s' ∧ step s = runWord w s') ∨
       (∃ r, fetch t.agent (beginTurn t rest s) = .own r ∧ step s = r)) := by
  unfold step
  split
  · exact .inl ⟨‹_›, rfl⟩
  · refine .inr ⟨_, _, ‹_›, ?_⟩
    split
    · exact .inl ⟨_, _, ‹_›, rfl⟩
    · exact .inr ⟨_, ‹_›, rfl⟩

/-- A word that goes on is an instruction that goes on. -/
theorem runWord_eq_next {w : PortWord} {s s' : State} (h : runWord w s = .next s') :
    ∃ i, decode s.par w = .ok i ∧ exec i s = .next s' := by
  unfold runWord at h
  split at h
  · exact ⟨_, ‹_›, h⟩
  · unfold decodeStop at h
    split at h <;> cases h

end Sys2Proof.Machine
end

