-- ==== Sys2Proof/Laws/Engines.lean ====
section
/-! SUPPORT. What the engines' routines do, said once: the fill and the two drains as closed forms, the ends of a
transfer, the callbacks, the address phase. -/

namespace Sys2Proof.Machine

/-! ## The fill (R233) -/

/-- One byte of the fill. -/
theorem fillOne_of {n : MNode} {a : Nat} (hb : n.ctx.txBuff = some a) (ha : a < 2 ^ n.par.addrW)
    (hr : n.hw.txf.length < n.par.txDepth) :
    fillOne n = .next { n with
      ctx := { n.ctx with txBuff := some (ptrNext n.par a), txSize := n.ctx.txSize - 1 }
      hw := { n.hw with txf := n.hw.txf ++ [cmdWord .txd (n.mem.read a)] } } := by
  simp [fillOne, hb, bufAddr, memRead, ha, pushTxf, hr]

/-- The fill moves `k` bytes, the least of its fuel, the count and the room: ascending addresses become `TXD` words in
order, pointer and count advance, nothing else changes. -/
theorem fillLoop_of {fuel k : Nat} {n : MNode} {a : Nat} (hb : 0 < n.ctx.txSize → n.ctx.txBuff = some a)
    (ha : 0 < n.ctx.txSize → a + n.ctx.txSize ≤ 2 ^ n.par.addrW)
    (hk : k = min fuel (min n.ctx.txSize (n.par.txDepth - n.hw.txf.length))) :
    fillLoop fuel n = .next { n with
      ctx := { n.ctx with
        txSize := n.ctx.txSize - k
        txBuff := if k = 0 then n.ctx.txBuff else some ((a + k) % 2 ^ n.par.addrW) }
      hw := { n.hw with txf := n.hw.txf ++ (List.range k).map fun j => cmdWord .txd (n.mem.read (a + j)) } } := by
  induction fuel generalizing n k a with
  | zero =>
    have : k = 0 := by omega
    subst this
    simp [fillLoop]
  | succ fuel ih =>
    unfold fillLoop
    by_cases hc : 0 < n.ctx.txSize ∧ n.hw.txf.length < n.par.txDepth
    · have hs := ha hc.1
      rw [if_pos hc, fillOne_of (hb hc.1) (by omega) hc.2, andThen_next]
      obtain ⟨j, rfl⟩ : ∃ j, k = j + 1 := ⟨k - 1, by omega⟩
      by_cases hz : n.ctx.txSize = 1
      · have hj : j = 0 := by omega
        subst hj
        rw [ih (k := 0) (a := 0) (by simp [hz]) (by simp [hz]) (by simp [hz])]
        simp [ptrNext]
      · have hlt : a + 1 < 2 ^ n.par.addrW := by omega
        have hp : ptrNext n.par a = a + 1 := Nat.mod_eq_of_lt hlt
        rw [ih (k := j) (a := a + 1) (by simp [hp]) (by simp; omega) (by simp; omega)]
        simp only [hp, Host.Outcome.next.injEq, Node.mk.injEq, MCtx.mk.injEq, HW.mk.injEq, true_and, and_true]
        refine ⟨⟨?_, by omega⟩, ?_⟩
        · by_cases hj : j = 0
          · simp [hj, Nat.mod_eq_of_lt hlt]
          · simp [hj, Nat.add_comm, Nat.add_left_comm]
        · simp [List.range_succ_eq_map, Function.comp_def, Nat.add_comm, Nat.add_left_comm]
    · have : k = 0 := by omega
      subst this
      simp [hc]

/-! ## The drains (R234, R166) -/

/-- One byte of the drain. -/
theorem drainOne_of {n : MNode} {a : Nat} {b : Byte} {rest : List Byte} (hf : n.hw.rxf = b :: rest)
    (hb : n.ctx.rxBuff = some a) (ha : a < 2 ^ n.par.addrW) :
    drainOne n = .next { n with
      mem := n.mem.write a b
      ctx := { n.ctx with rxBuff := some (ptrNext n.par a), rxSize := n.ctx.rxSize - 1 }
      hw := { n.hw with rxf := rest } } := by
  simp [drainOne, popRxf, hf, hb, bufAddr, memWrite, ha]

/-- The memory behind a run of bytes stored at ascending addresses. -/
def Memory.writeAll (m : Memory) (a : Nat) : List Byte → Memory
  | [] => m
  | b :: bs => Memory.writeAll (m.write a b) (a + 1) bs

/-- Stored runs keep the canonical form. -/
theorem Memory.wf_writeAll {m : Memory} {a : Nat} {bs : List Byte} (h : Memory.wf m = true) :
    Memory.wf (m.writeAll a bs) = true := by
  induction bs generalizing m a with
  | nil => exact h
  | cons b bs ih => exact ih (Memory.wf_write a b h)

/-- What a byte reads as behind a stored run. -/
theorem Memory.read_writeAll {m : Memory} {a j : Nat} {bs : List Byte} (h : Memory.wf m = true) :
    (m.writeAll a bs).read j = if hj : a ≤ j ∧ j < a + bs.length then bs[j - a]'(by omega) else m.read j := by
  induction bs generalizing m a with
  | nil => simp [Memory.writeAll, show ¬ (a ≤ j ∧ j < a) by omega]
  | cons b bs ih =>
    simp only [Memory.writeAll, ih (Memory.wf_write a b h), List.length_cons]
    by_cases h1 : j = a
    · subst h1
      simp [Memory.read_write_self h, show ¬ (j + 1 ≤ j) by omega]
    · rw [Memory.read_write_ne h h1]
      by_cases h2 : a + 1 ≤ j ∧ j < a + 1 + bs.length
      · have h3 : a ≤ j ∧ j < a + (bs.length + 1) := by omega
        obtain ⟨d, rfl⟩ : ∃ d, j = a + 1 + d := ⟨j - (a + 1), by omega⟩
        have e : a + 1 + d - a = d + 1 := by omega
        simp [h3, show d < bs.length by omega, e]
      · have h3 : ¬ (a ≤ j ∧ j < a + (bs.length + 1)) := by omega
        rw [dif_neg h2, dif_neg h3]

/-- The copy of exactly `k` bytes, all in the FIFO and in the buffer. -/
theorem lateLoop_of {k : Nat} {n : MNode} {a : Nat} (hf : k ≤ n.hw.rxf.length) (hs : k ≤ n.ctx.rxSize)
    (hb : 0 < k → n.ctx.rxBuff = some a) (ha : 0 < k → a + n.ctx.rxSize ≤ 2 ^ n.par.addrW) :
    lateLoop k n = .next { n with
      mem := n.mem.writeAll a (n.hw.rxf.take k)
      ctx := { n.ctx with
        rxSize := n.ctx.rxSize - k
        rxBuff := if k = 0 then n.ctx.rxBuff else some ((a + k) % 2 ^ n.par.addrW) }
      hw := { n.hw with rxf := n.hw.rxf.drop k } } := by
  induction k generalizing n a with
  | zero => simp [lateLoop, Memory.writeAll]
  | succ k ih =>
    obtain ⟨b, rest, hr⟩ : ∃ b rest, n.hw.rxf = b :: rest := by
      cases he : n.hw.rxf with
      | nil => simp [he] at hf
      | cons b rest => exact ⟨b, rest, rfl⟩
    have hl : k ≤ rest.length := by simpa [hr] using hf
    have hs' := ha (by omega)
    rw [lateLoop, drainOne_of hr (hb (by omega)) (by omega), andThen_next]
    by_cases hk : k = 0
    · subst hk
      simp [lateLoop, Memory.writeAll, hr, ptrNext]
    · have hlt : a + 1 < 2 ^ n.par.addrW := by omega
      have hp : ptrNext n.par a = a + 1 := Nat.mod_eq_of_lt hlt
      rw [ih (a := a + 1) hl (by simp; omega) (by simp [hp]) (by simp; omega)]
      simp [hr, hk, Memory.writeAll, Nat.add_comm, Nat.add_left_comm]
      omega

/-- The drain loop copies the least of its fuel, the FIFO's bytes and the count. -/
theorem rxLoop_eq_lateLoop {fuel : Nat} {n : MNode} :
    rxLoop fuel n = lateLoop (min fuel (min n.hw.rxf.length n.ctx.rxSize)) n := by
  induction fuel generalizing n with
  | zero => simp [rxLoop, lateLoop]
  | succ fuel ih =>
    unfold rxLoop
    by_cases hc : 0 < n.hw.rxf.length ∧ 0 < n.ctx.rxSize
    · obtain ⟨j, hj⟩ : ∃ j, min (fuel + 1) (min n.hw.rxf.length n.ctx.rxSize) = j + 1 :=
        ⟨min (fuel + 1) (min n.hw.rxf.length n.ctx.rxSize) - 1, by omega⟩
      rw [if_pos hc, hj, lateLoop]
      cases hd : drainOne n with
      | next m =>
        simp only [andThen_next]
        rw [ih]
        congr 1
        unfold drainOne at hd
        obtain ⟨r, hr, hd⟩ := andThen_eq_next.mp hd
        obtain ⟨rest, hf, he⟩ := popRxf_eq_next.mp hr
        obtain ⟨a, -, hd⟩ := andThen_eq_next.mp hd
        obtain ⟨mem, -, hd⟩ := andThen_eq_next.mp hd
        cases hd
        simp only [he, hf, List.length_cons] at hj ⊢
        omega
      | fault e => rfl
      | refused e => rfl
    · have : min (fuel + 1) (min n.hw.rxf.length n.ctx.rxSize) = 0 := by omega
      rw [if_neg hc, this]
      rfl

/-! ## Callbacks -/

/-- A master callback that issues no request leaves its record and nothing else. -/
theorem mCallback_silent {ev : CbEvent} {n : MNode} (h : n.inp.cb = []) :
    mCallback ev n = .next { n with
      cbTrace := if n.ctx.callback.isSome then n.cbTrace ++ [(ev, n.ctx.callbackParam)] else n.cbTrace } := by
  cases hc : n.ctx.callback <;> simp [mCallback, hc, h, mCallbackRun]

/-- A slave callback that issues no request leaves its record and nothing else. -/
theorem sCallback_silent {ev : CbEvent} {n : SNode} (h : n.inp.cb = []) :
    sCallback ev n = .next { n with
      cbTrace := if n.ctx.callback.isSome then n.cbTrace ++ [(ev, n.ctx.callbackParam)] else n.cbTrace } := by
  cases hc : n.ctx.callback <;> simp [sCallback, hc, h, sCallbackRun]

/-- Without a callback nothing is called. -/
theorem mCallback_null {ev : CbEvent} {n : MNode} (h : n.ctx.callback = none) : mCallback ev n = .next n := by
  simp [mCallback, h]

/-- Without a callback nothing is called. -/
theorem sCallback_null {ev : CbEvent} {n : SNode} (h : n.ctx.callback = none) : sCallback ev n = .next n := by
  simp [sCallback, h]

/-! ## Ends of master transfers -/

/-- `MEnd` without a stop: no offer, so it always goes on. -/
theorem mEnd_noStop (reset : Bool) (n : MNode) :
    mEnd false reset n = .next (mEndRelease (mEndQuiet reset n)) := by
  simp [mEnd]

/-- `MEnd` with a stop on an empty queue with room: the `STOP` word is appended. -/
theorem mEnd_stop {reset : Bool} {n : MNode} (hq : (mEndQuiet reset n).ctx.swqWr = (mEndQuiet reset n).ctx.swqRd)
    (hr : (mEndQuiet reset n).hw.txf.length < (mEndQuiet reset n).par.txDepth) :
    mEnd true reset n = .next (mEndRelease { mEndQuiet reset n with
      hw := { (mEndQuiet reset n).hw with txf := (mEndQuiet reset n).hw.txf ++ [cmdWord .stop 0#8] }
      ctx := { (mEndQuiet reset n).ctx with hsInProgress := false } }) := by
  simp [mEnd, offer_direct hq hr]

/-- `MEnd` up to its offer: enables off, channel stopped in DMA mode, FIFOs and queue reset where asked. -/
theorem mEndQuiet_eq (reset : Bool) (n : MNode) : mEndQuiet reset n = { n with
    hw := { n.hw with
      mie := .none, txf := if reset then [] else n.hw.txf, rxf := if reset then [] else n.hw.rxf,
      rxLeft := if reset then 0 else n.hw.rxLeft }
    ctx := { n.ctx with swqWr := if reset then 0 else n.ctx.swqWr, swqRd := if reset then 0 else n.ctx.swqRd }
    dma := if n.ctx.transferType = .dma then .stopped else n.dma } := by
  obtain ⟨par, inp, mem, ctx, hw, dma, hostw, cbTrace, replies⟩ := n
  obtain ⟨_, _, _, _, _, _, _, _, _, _, _, _, _, _, _, _, _, _, _, _, _, _, t, _, _, _, _⟩ := ctx
  cases t <;> cases reset <;> rfl

/-- A force abort always goes on, where the transmit FIFO can hold a word: everything is reset, and the one word left is
`STOP`. -/
theorem forceAbort_of {st : Status} {n : MNode} (hd : 1 ≤ n.par.txDepth) :
    forceAbort st n = .next { n with
      ctx := { n.ctx with
        txBuff := none, txSize := 0, rxBuff := none, rxSize := 0, dir := .none, idle := true, phase := .idle, status := st
        swqWr := 0, swqRd := 0, hsInProgress := false }
      hw := { n.hw with mie := .none, txf := [cmdWord .stop 0#8], rxf := [], rxLeft := 0 }
      dma := if n.ctx.transferType = .dma then .stopped else n.dma } := by
  by_cases ht : n.ctx.transferType = .dma <;>
    simp [forceAbort, mEnd, mEndQuiet, ht, setMPhase, setMie, dmaStop, resetFifos, offer, swqEmpty,
      show 0 < n.par.txDepth from hd, pushTxf, mEndRelease, setMStatus]

/-- An error end whose callback issues no request always goes on. -/
theorem errEnd_silent {st : Status} {clear : MLatched → MLatched} {n : MNode} (h : n.inp.cb = []) :
    errEnd st clear n = .next { n with
      ctx := { n.ctx with
        txBuff := none, txSize := 0, rxBuff := none, rxSize := 0, dir := .none, idle := true, phase := .idle, status := st
        swqWr := 0, swqRd := 0, hsInProgress := false, sem := n.ctx.blocking || n.ctx.sem }
      hw := { n.hw with mie := .none, txf := [], rxf := [], rxLeft := 0, mef := clear n.hw.mef }
      dma := if n.ctx.transferType = .dma then .stopped else n.dma
      cbTrace := if n.ctx.callback.isSome then n.cbTrace ++ [(.endTransfer, n.ctx.callbackParam)] else n.cbTrace } := by
  by_cases ht : n.ctx.transferType = .dma <;>
    simp [errEnd, mEnd, mEndQuiet, ht, setMPhase, setMie, dmaStop, resetFifos, mEndRelease, mNotify, setMStatus, mPost,
      mCallback_silent, h]

/-! ## Ends of slave transfers -/

/-- What the end of a slave's transaction leaves: the memory, the inputs, the parameters, the host, the records, the
callback and the address. -/
theorem sEnd_frame (n : SNode) :
    (sEnd n).par = n.par ∧ (sEnd n).inp = n.inp ∧ (sEnd n).mem = n.mem ∧ (sEnd n).hostw = n.hostw ∧
    (sEnd n).cbTrace = n.cbTrace ∧ (sEnd n).replies = n.replies ∧ (sEnd n).dma = .stopped ∧
    (sEnd n).ctx.callback = n.ctx.callback ∧ (sEnd n).ctx.callbackParam = n.ctx.callbackParam ∧
    (sEnd n).ctx.addr = n.ctx.addr ∧ (sEnd n).ctx.is10bit = n.ctx.is10bit ∧
    (sEnd n).ctx.listening = n.ctx.listening := by
  cases hl : n.ctx.listening <;> rcases hd : n.dma with _ | ⟨dir, reg, p, c⟩ <;> (try cases reg) <;>
    simp [sEnd, sEndCommon, sEndCtx, sWriteBack, hl, hd, dmaStop, sTeardown]

/-- The end of a slave's transaction is the end of the transfer: no transfer in progress, phase Idle, status final. -/
theorem sEnd_done (n : SNode) :
    (sEnd n).ctx.isTransferInProgress = false ∧ (sEnd n).ctx.phase = .idle ∧ (sEnd n).ctx.repeatedStarts = 0 ∧
    (sEnd n).ctx.status = if n.ctx.status = .busy then .success else n.ctx.status := by
  cases hl : n.ctx.listening <;> rcases hd : n.dma with _ | ⟨dir, reg, p, c⟩ <;> (try cases reg) <;>
    simp [sEnd, sEndCommon, sEndCtx, sWriteBack, hl, hd, dmaStop, sTeardown]

/-! ## Acceptance -/

/-- An idle engine accepts what the operand tests let through. -/
theorem mVerdict_accept {p : Params} {m : MCtx} {dir : Dir} {buf len : Nat} :
    mVerdict p m dir buf len = .accept ↔
      m.idle = true ∧ ¬ (dir = .receive ∧ m.mode = .ultraFast) ∧ len ≠ 0 ∧ ¬ (dir = .receive ∧ 256 < len) ∧
      buf + len ≤ 2 ^ p.addrW := by
  cases hi : m.idle
  · simp [mVerdict, hi]
  · by_cases hu : dir = .receive ∧ m.mode = .ultraFast
    · simp [mVerdict, hi, hu]
    · simp only [mVerdict, hi, hu, bufferWraps, Config.rxMax, decide_eq_true_eq]
      by_cases hb : len = 0 ∨ (dir = .receive ∧ 256 < len) ∨ 2 ^ p.addrW < buf + len
      · simp only [hb, if_true]
        simp
        grind
      · simp only [hb, if_false]
        simp
        grind

/-- A slave without listening and without a transfer accepts what the operand tests let through. -/
theorem sVerdict_accept {p : Params} {c : SCtx} {buf len : Nat} :
    sVerdict p c buf len = .accept ↔
      c.listening = false ∧ c.isTransferInProgress = false ∧ len ≠ 0 ∧ buf + len ≤ 2 ^ p.addrW := by
  cases hl : c.listening
  · cases hp : c.isTransferInProgress
    · simp only [sVerdict, hl, hp, bufferWraps, decide_eq_true_eq]
      by_cases hb : len = 0 ∨ 2 ^ p.addrW < buf + len
      · simp only [hb, if_true]
        simp
        omega
      · simp only [hb, if_false]
        simp
        omega
    · simp [sVerdict, hl, hp]
  · simp [sVerdict, hl]

/-- Behind an accepted request the host either has its answer or waits. -/
theorem completeOrWait_none {C : Type} (o : Origin) (e : Engine) (n : Node C) :
    completeOrWait o e none n = reply o .success n := rfl

/-- Behind an accepted blocking request the host waits in the first stage. -/
theorem completeOrWait_some {C : Type} (o : Origin) (e : Engine) (t : Nat) (n : Node C) :
    completeOrWait o e (some t) n = { n with hostw := some ⟨e, t, .first⟩ } := rfl

/-- The foreground meets the host-suspended test while the host does not wait. -/
theorem suspended_false {C : Type} {o : Origin} {exempt : Bool} {n : Node C} (h : n.hostw = none) :
    suspended o exempt n = false := by
  simp [suspended, h]

/-! ## Configurations -/

/-- A record passes the check iff its mode exists and its address fits; then every field is kept (R113). -/
theorem checkCfg_eq_some {c : CfgPort} {d : Cfg} (h : checkCfg c = some d) :
    modeOfBits c.mode = some d.mode ∧ (c.is10bit = true ∨ c.addr.extractLsb' 7 3 = 0#3) ∧
    d = { addr := c.addr, is10bit := c.is10bit, mode := d.mode, baudRate := c.baudRate, baudRateHS := c.baudRateHS,
          masterCode := c.masterCode, transferType := c.transferType, dmaChannel := c.dmaChannel,
          callback := c.callback, callbackParam := c.callbackParam, listening := c.listening } := by
  unfold checkCfg at h
  split at h
  · cases h
  · split at h
    · cases h
    · rename_i hf
      cases h
      refine ⟨‹_›, ?_, rfl⟩
      cases hb : c.is10bit
      · simp_all
      · exact .inl rfl

/-- The five modes have the numbers 0 to 4 (R24). -/
theorem modeOfBits_modeCode (m : Mode) : modeOfBits (modeCode m) = some m := by
  cases m <;> rfl

/-- The numbers 5 to 7 name no mode (R24). -/
theorem modeOfBits_none {b : BitVec 3} : modeOfBits b = none ↔ 4 < b.toNat := by
  revert b
  decide

end Sys2Proof.Machine
end

