-- ==== Sys2Proof/Laws/PerInstr.lean ====
section
/-! SUPPORT. Statements for all instructions, one lemma per constructor. -/

namespace Sys2Proof.Laws.EncodedWord

/-- The word of an instruction names the bus it acts on and is none of the reserved words of its space (R111, R121). -/
def Statement (i : Instr) : Prop :=
  match encode i with
  | .req h _ => reqInst h = i.bus ∧ h.extractLsb' 13 3 = 0#3
  | .cmd k w => k = i.bus ∧ cmdField w ≠ 3#3 ∧ cmdField w ≠ 7#3
  | .evt k c => k = i.bus ∧ decodeEvt k c = .ok i

theorem minit (inst : BusIndex) (cfg : CfgPort) : Statement (.minit inst cfg) :=
  header_fields (by decide) inst

theorem mdeinit (inst : BusIndex) : Statement (.mdeinit inst) :=
  header_fields (by decide) inst

theorem msend (inst : BusIndex) (buf len : Nat) (stop : Bool) : Statement (.msend inst buf len stop) :=
  header_fields (by decide) inst

theorem msendb (inst : BusIndex) (buf len : Nat) (stop : Bool) (timeout : Nat) :
    Statement (.msendb inst buf len stop timeout) :=
  header_fields (by decide) inst

theorem mrecv (inst : BusIndex) (buf len : Nat) (stop : Bool) : Statement (.mrecv inst buf len stop) :=
  header_fields (by decide) inst

theorem mrecvb (inst : BusIndex) (buf len : Nat) (stop : Bool) (timeout : Nat) :
    Statement (.mrecvb inst buf len stop timeout) :=
  header_fields (by decide) inst

theorem mstatus (inst : BusIndex) : Statement (.mstatus inst) :=
  header_fields (by decide) inst

theorem mabort (inst : BusIndex) : Statement (.mabort inst) :=
  header_fields (by decide) inst

theorem mgetbaud (inst : BusIndex) : Statement (.mgetbaud inst) :=
  header_fields (by decide) inst

theorem msetbaud (inst : BusIndex) (mode : BitVec 3) (rate rateHS : BitVec 32) :
    Statement (.msetbaud inst mode rate rateHS) :=
  header_fields (by decide) inst

theorem sinit (inst : BusIndex) (cfg : CfgPort) : Statement (.sinit inst cfg) :=
  header_fields (by decide) inst

theorem sdeinit (inst : BusIndex) : Statement (.sdeinit inst) :=
  header_fields (by decide) inst

theorem ssend (inst : BusIndex) (buf len : Nat) : Statement (.ssend inst buf len) :=
  header_fields (by decide) inst

theorem ssendb (inst : BusIndex) (buf len timeout : Nat) : Statement (.ssendb inst buf len timeout) :=
  header_fields (by decide) inst

theorem srecv (inst : BusIndex) (buf len : Nat) : Statement (.srecv inst buf len) :=
  header_fields (by decide) inst

theorem srecvb (inst : BusIndex) (buf len timeout : Nat) : Statement (.srecvb inst buf len timeout) :=
  header_fields (by decide) inst

theorem sstatus (inst : BusIndex) : Statement (.sstatus inst) :=
  header_fields (by decide) inst

theorem sabort (inst : BusIndex) : Statement (.sabort inst) :=
  header_fields (by decide) inst

theorem ssettx (inst : BusIndex) (buf len : Nat) : Statement (.ssettx inst buf len) :=
  header_fields (by decide) inst

theorem ssetrx (inst : BusIndex) (buf len : Nat) : Statement (.ssetrx inst buf len) :=
  header_fields (by decide) inst

theorem txd (inst : BusIndex) (data : Byte) : Statement (.txd inst data) :=
  ⟨rfl, by rw [cmdField_cmdWord]; decide, by rw [cmdField_cmdWord]; decide⟩

theorem rxn (inst : BusIndex) (data : Byte) : Statement (.rxn inst data) :=
  ⟨rfl, by rw [cmdField_cmdWord]; decide, by rw [cmdField_cmdWord]; decide⟩

theorem stop (inst : BusIndex) : Statement (.stop inst) :=
  ⟨rfl, by rw [cmdField_cmdWord]; decide, by rw [cmdField_cmdWord]; decide⟩

theorem start (inst : BusIndex) (data : Byte) : Statement (.start inst data) :=
  ⟨rfl, by rw [cmdField_cmdWord]; decide, by rw [cmdField_cmdWord]; decide⟩

theorem startn (inst : BusIndex) (data : Byte) : Statement (.startn inst data) :=
  ⟨rfl, by rw [cmdField_cmdWord]; decide, by rw [cmdField_cmdWord]; decide⟩

theorem starths (inst : BusIndex) (data : Byte) : Statement (.starths inst data) :=
  ⟨rfl, by rw [cmdField_cmdWord]; decide, by rw [cmdField_cmdWord]; decide⟩

theorem txrdy (inst : BusIndex) : Statement (.txrdy inst) :=
  ⟨rfl, rfl⟩

theorem rxrdy (inst : BusIndex) : Statement (.rxrdy inst) :=
  ⟨rfl, rfl⟩

theorem nack (inst : BusIndex) : Statement (.nack inst) :=
  ⟨rfl, rfl⟩

theorem arblost (inst : BusIndex) : Statement (.arblost inst) :=
  ⟨rfl, rfl⟩

theorem fifoerr (inst : BusIndex) : Statement (.fifoerr inst) :=
  ⟨rfl, rfl⟩

theorem pinlow (inst : BusIndex) : Statement (.pinlow inst) :=
  ⟨rfl, rfl⟩

theorem addrvalid (inst : BusIndex) : Statement (.addrvalid inst) :=
  ⟨rfl, rfl⟩

theorem txdata (inst : BusIndex) : Statement (.txdata inst) :=
  ⟨rfl, rfl⟩

theorem rxdata (inst : BusIndex) : Statement (.rxdata inst) :=
  ⟨rfl, rfl⟩

theorem rstart (inst : BusIndex) : Statement (.rstart inst) :=
  ⟨rfl, rfl⟩

theorem evtStop (inst : BusIndex) : Statement (.evtStop inst) :=
  ⟨rfl, rfl⟩

theorem biterr (inst : BusIndex) : Statement (.biterr inst) :=
  ⟨rfl, rfl⟩

theorem sfifoerr (inst : BusIndex) : Statement (.sfifoerr inst) :=
  ⟨rfl, rfl⟩

theorem dmaok (inst : BusIndex) : Statement (.dmaok inst) :=
  ⟨rfl, rfl⟩

theorem dmaerr (inst : BusIndex) : Statement (.dmaerr inst) :=
  ⟨rfl, rfl⟩

theorem wtimeout (inst : BusIndex) : Statement (.wtimeout inst) :=
  ⟨rfl, rfl⟩

end Sys2Proof.Laws.EncodedWord
end

