-- ==== Sys2Proof/Tests/Slice0.lean ====
section
/-! SUPPORT. The model's own tests: words written out from the spec's encodings, ill-formed terms refused, single steps
with the results of spec/95_test_vectors.md, and for each statement a state and operands that meet its hypotheses. -/

namespace Sys2Proof.Tests

open Sys2Proof.Machine Sys2Proof.Claims

set_option synthInstance.maxSize 1024

/-! ## Small states -/

/-- The answer's value of a field, when the step goes on. -/
def after {α : Type} (r : Res State) (f : Inst → α) : Option α :=
  match r with
  | .next s => s.insts.head?.map f
  | _ => none

/-- The memory behind a step that goes on. -/
def memAfter (r : Res State) (a : Nat) : Option Byte :=
  match r with
  | .next s => some (Memory.read s.mem a)
  | _ => none

/-- The fault of a step that faults. -/
def faultOf (r : Res State) : Option Fault :=
  match r with
  | .fault e => some e
  | _ => none

/-- The refusal of a step that is refused. -/
def refusalOf (r : Res State) : Option Refusal :=
  match r with
  | .refused e => some e
  | _ => none

/-- The Master Context of an instance. -/
def masterOf (x : Inst) : Option MCtx :=
  match x.role with
  | .master m => some m
  | _ => none

/-- The Slave Context of an instance. -/
def slaveOf (x : Inst) : Option SCtx :=
  match x.role with
  | .slave c => some c
  | _ => none

/-- The last answer on the request port. -/
def lastReply (x : Inst) : Option (Status × Option Nat) := x.replies.getLast?.map fun r => (r.status, r.bytesRemaining)

/-- Address 0x40, standard mode, 100 kHz. -/
def cfg : Cfg := { Cfg.zero with addr := 0x40#10, baudRate := 100000#32 }

/-- Address 0x2A5 with 10 bits, high-speed mode, master code 3. -/
def cfgHs : Cfg :=
  { Cfg.zero with addr := 0x2A5#10, is10bit := true, mode := .highSpeed, baudRate := 400000#32, baudRateHS := 3400000#32,
                  masterCode := 3#3 }

/-- Five empty slots. -/
def slots : Vector CmdWord 5 := Vector.replicate 5 0#11

/-- An idle master behind its init. -/
def m0 : MCtx := mFreshCtx cfg slots

/-- The registers of a master behind its init. -/
def hm : HW := { HW.reset with men := true, irqEn := true, fIn := 48000000, baud := ⟨2, 59, 59, 59, 29⟩ }

/-- The callback of the examples. -/
def cb : Option Nat := some 0x8000

/-- A bus with a master. -/
def mBus (m : MCtx) (h : HW) : Inst := { Inst.reset with role := .master m, hw := h }

/-- A bus with a slave. -/
def sBus (c : SCtx) (h : HW) : Inst := { Inst.reset with role := .slave c, hw := h }

/-- `Mem[0x1000..0x1005]` and two bytes at 0x5000. -/
def mem0 : Memory :=
  [(0x1000, 0x10#8), (0x1001, 0x20#8), (0x1002, 0x30#8), (0x1003, 0x40#8), (0x1004, 0x50#8), (0x1005, 0x60#8),
   (0x5000, 0x77#8), (0x5001, 0x88#8)]

/-- The machine with one bus. -/
def st (x : Inst) : State := { State.reset with insts := [x], mem := mem0, inp := { Input.quiet with fIn := 48000000 } }

/-- The same, with an answer of the bus oracle to a transmitted byte. -/
def stTx (ans : TxAnswer) (x : Inst) : State := { st x with inp := { Input.quiet with tx := ans } }

/-- The same, with the requests of a callback. -/
def stCb (rs : List CbReq) (x : Inst) : State := { st x with inp := { Input.quiet with cb := rs } }

/-- One turn with quiet inputs. -/
def go (a : Agent) : Turn := ⟨a, Input.quiet⟩

/-- A send of two bytes, all words in the transmit FIFO (V-M1). -/
def mSending : MCtx :=
  { m0 with dir := .send, sendStop := true, status := .busy, idle := false, phase := .transferring,
            txBuff := some 0x1002, txSize := 0 }

/-- The bus of V-M1. -/
def sending : Inst := mBus mSending { hm with txf := [0x480#11, 0x010#11, 0x020#11], mie := mieErrors true false }

/-- The same bus once the FIFO is empty and the bus open (P1 behind step 5). -/
def sent : Inst :=
  mBus { mSending with callback := cb, callbackParam := 0xC0DE }
    { hm with mie := mieErrors true false, busOpen := true }

/-- A receive of `n` bytes at 0x2000 behind its command words. -/
def mReceiving (n : Nat) : MCtx :=
  { m0 with dir := .receive, sendStop := true, status := .busy, idle := false, phase := .transferring,
            rxBuff := some 0x2000, rxSize := n }

/-- The bus of a receive with bytes in the receive FIFO. -/
def receiving (n rxw : Nat) (bs : List Byte) : Inst :=
  mBus (mReceiving n) { hm with rxf := bs, rxw := rxw, mie := mieErrors false true, busOpen := true }

/-- A listening slave at 0x50 with the callback, armed. -/
def c0 : SCtx := { sFreshCtx { Cfg.zero with addr := 0x50#10, listening := true } with callback := cb, callbackParam := 0x5A }

/-- An on-demand slave at 0x50. -/
def cOd : SCtx := sFreshCtx { Cfg.zero with addr := 0x50#10 }

/-- The registers of an armed slave. -/
def hs : HW := { HW.reset with irqEn := true, sen := true, sie := sieArmed }

/-- A slave context in mid-transaction. -/
def begun (c : SCtx) : SCtx := { c with isTransferInProgress := true, status := .busy, phase := .transferring }

/-- A slave in mid-transaction, the data interrupts enabled, with given flags. -/
def inTransaction (c : SCtx) (f : SSources) : Inst :=
  sBus (begun c)
    { hs with sie := { sieArmed with txdata := true, rxdata := true }, sef := f }

/-! ## Ill-formed instructions are refused -/

theorem test_wf_bus : Instr.wellFormed Params.default (.mstatus 0#8) = true ∧
    Instr.wellFormed Params.default (.mstatus 1#8) = false ∧ Instr.wellFormed Params.default (.wtimeout 1#8) = false := by
  decide

theorem test_wf_buf : Instr.wellFormed Params.default (.msend 0#8 (2 ^ 32 - 1) 1 true) = true ∧
    Instr.wellFormed Params.default (.msend 0#8 (2 ^ 32) 1 true) = false ∧
    Instr.wellFormed Params.default (.ssetrx 0#8 (2 ^ 32) 0) = false := by
  decide

theorem test_wf_len : Instr.wellFormed Params.default (.mrecv 0#8 0 (2 ^ 32) true) = false ∧
    Instr.wellFormed Params.default (.ssend 0#8 0 (2 ^ 32)) = false := by
  decide

theorem test_wf_timeout : Instr.wellFormed Params.default (.msendb 0#8 0 1 true (2 ^ 32)) = false ∧
    Instr.wellFormed Params.default (.mrecvb 0#8 0 1 true (2 ^ 32)) = false ∧
    Instr.wellFormed Params.default (.ssendb 0#8 0 1 (2 ^ 32)) = false ∧
    Instr.wellFormed Params.default (.srecvb 0#8 0 1 (2 ^ 32)) = false := by
  decide

theorem test_wf_cfg :
    Instr.wellFormed Params.default (.minit 0#8 { CfgPort.zero with callbackParam := 2 ^ 32 - 1 }) = true ∧
    Instr.wellFormed Params.default (.minit 0#8 { CfgPort.zero with callbackParam := 2 ^ 32 }) = false ∧
    Instr.wellFormed Params.default (.sinit 0#8 { CfgPort.zero with callbackParam := 2 ^ 32 }) = false := by
  decide

/-! ## Words written out from the encodings (R111 to R120) -/

/-- Operands on the request port. -/
def ports : Ports :=
  { buf := 0x1000, len := 2, stop := true, timeout := 10, mode := 1#3, rate := 400000#32, rateHS := 7#32,
    cfg := portOf cfgHs }

/-- The master requests, opcode 0x01 to 0x0A, operation bits written out. -/
theorem test_decode_req_master :
    [0b0000_0001_0000_0000#16, 0b0000_0010_0000_0000#16, 0b0000_0011_0000_0000#16, 0b0000_0100_0000_0000#16,
     0b0000_0101_0000_0000#16, 0b0000_0110_0000_0000#16, 0b0000_0111_0000_0000#16, 0b0000_1000_0000_0000#16,
     0b0000_1001_0000_0000#16, 0b0000_1010_0000_0000#16].map (fun h => (decodeReq Params.default h ports).toOption) =
    [some (.minit 0#8 (portOf cfgHs)), some (.mdeinit 0#8), some (.msend 0#8 0x1000 2 true),
     some (.msendb 0#8 0x1000 2 true 10), some (.mrecv 0#8 0x1000 2 true), some (.mrecvb 0#8 0x1000 2 true 10),
     some (.mstatus 0#8), some (.mabort 0#8), some (.mgetbaud 0#8), some (.msetbaud 0#8 1#3 400000#32 7#32)] := by
  decide

/-- The slave requests, opcode 0x11 to 0x1A: the engine bit set. -/
theorem test_decode_req_slave :
    [0b0001_0001_0000_0000#16, 0b0001_0010_0000_0000#16, 0b0001_0011_0000_0000#16, 0b0001_0100_0000_0000#16,
     0b0001_0101_0000_0000#16, 0b0001_0110_0000_0000#16, 0b0001_0111_0000_0000#16, 0b0001_1000_0000_0000#16,
     0b0001_1001_0000_0000#16, 0b0001_1010_0000_0000#16].map (fun h => (decodeReq Params.default h ports).toOption) =
    [some (.sinit 0#8 (portOf cfgHs)), some (.sdeinit 0#8), some (.ssend 0#8 0x1000 2), some (.ssendb 0#8 0x1000 2 10),
     some (.srecv 0#8 0x1000 2), some (.srecvb 0#8 0x1000 2 10), some (.sstatus 0#8), some (.sabort 0#8),
     some (.ssettx 0#8 0x1000 2), some (.ssetrx 0#8 0x1000 2)] := by
  decide

/-- The bus index in bits 7:0 (V-R1), and the reserved headers of V-R2. -/
theorem test_decode_req_edges :
    (decodeReq { Params.default with numInst := 2 } 0x0301#16 ports).toOption = some (.msend 1#8 0x1000 2 true) ∧
    [0x0B00#16, 0x1000#16, 0x2100#16, 0x0301#16].map (fun h => (decodeReq Params.default h ports).toOption) =
      [none, none, none, none] := by
  decide

/-- The command words of V-C1 and V-C2. -/
theorem test_decode_cmd :
    [0x480#11, 0x010#11, 0x020#11, 0x200#11, 0x1FF#11, 0x100#11, 0x50B#11, 0x6F4#11, 0x6F5#11, 0x102#11, 0x300#11,
     0x7AA#11].map (fun w => (decodeCmd 0#8 w).toOption) =
    [some (.start 0#8 0x80#8), some (.txd 0#8 0x10#8), some (.txd 0#8 0x20#8), some (.stop 0#8), some (.rxn 0#8 255#8),
     some (.rxn 0#8 0#8), some (.startn 0#8 0x0B#8), some (.starths 0#8 0xF4#8), some (.starths 0#8 0xF5#8),
     some (.rxn 0#8 2#8), none, none] := by
  decide

/-- The event codes of R120. -/
theorem test_decode_evt :
    [0x01#8, 0x02#8, 0x03#8, 0x04#8, 0x05#8, 0x06#8, 0x11#8, 0x12#8, 0x13#8, 0x14#8, 0x15#8, 0x16#8, 0x17#8, 0x21#8,
     0x22#8, 0x31#8].map (fun c => (decodeEvt 3#8 c).toOption) =
    [some (.txrdy 3#8), some (.rxrdy 3#8), some (.nack 3#8), some (.arblost 3#8), some (.fifoerr 3#8),
     some (.pinlow 3#8), some (.addrvalid 3#8), some (.txdata 3#8), some (.rxdata 3#8), some (.rstart 3#8),
     some (.evtStop 3#8), some (.biterr 3#8), some (.sfifoerr 3#8), some (.dmaok 3#8), some (.dmaerr 3#8),
     some (.wtimeout 3#8)] ∧
    [0x00#8, 0x07#8, 0x10#8, 0x18#8, 0x20#8, 0x23#8, 0x30#8, 0x32#8].map (fun c => (decodeEvt 0#8 c).toOption) =
      [none, none, none, none, none, none, none, none] := by
  decide

/-- The table's view of a word: 8 bits EVT, 11 bits CMD, 16 bits REQ. -/
theorem test_decode_table :
    decodeTableWord 8 0x15 = some (.evtStop 0#8) ∧ decodeTableWord 11 0x480 = some (.start 0#8 0x80#8) ∧
    decodeTableWord 16 0x1700 = some (.sstatus 0#8) ∧ decodeTableWord 16 0x010 = some (.txd 0#8 0x10#8) := by
  decide

/-- Address and master-code bytes (V-A1, V-A2, V-A3). -/
theorem test_address_bytes :
    [addrByte7 0x40#10 false, addrByte7 0x40#10 true, addrByte7 0x7F#10 true, addrByte7 0x00#10 false] =
      [0x80#8, 0x81#8, 0xFF#8, 0x00#8] ∧
    [addrByte10a 0x2A5#10 false, addrByte10a 0x2A5#10 true, addrByte10a 0x3FF#10 true, addrByte10a 0x000#10 false,
     addrByte10b 0x2A5#10] = [0xF4#8, 0xF5#8, 0xF7#8, 0xF0#8, 0xA5#8] ∧
    [masterCodeByte 0#3, masterCodeByte 3#3, masterCodeByte 7#3] = [0x08#8, 0x0B#8, 0x0F#8] := by
  decide

/-- Enable registers as bytes (V-F1, V-F2). -/
theorem test_enable_bytes :
    [(mieErrors false false).toByte, (mieErrors true false).toByte, (mieErrors false true).toByte,
     (mieErrors true true).toByte] = [0x78#8, 0x7A#8, 0x7C#8, 0x7E#8] ∧
    [sieArmed.toByte, { sieArmed with rxdata := true }.toByte, { sieArmed with txdata := true }.toByte] =
      [0xF2#8, 0xFA#8, 0xF6#8] := by
  decide

/-- The worked values of R368 with the default parameters. -/
theorem test_baud_values :
    [(48000000, 100000), (48000000, 400000), (48000000, 1000000), (48000000, 3400000), (8000000, 100000),
     (8000000, 300000), (48000000, 0), (48000000, 1000), (48000000, 48000000)].map
      (fun p => (baudCalc Params.default p.1 p.2, actualRate Params.default p.1 (baudCalc Params.default p.1 p.2))) =
    [(⟨2, 59, 59, 59, 29⟩, 100000), (⟨0, 59, 59, 59, 29⟩, 400000), (⟨0, 23, 23, 23, 11⟩, 1000000),
     (⟨0, 6, 6, 6, 3⟩, 3428571), (⟨0, 39, 39, 39, 19⟩, 100000), (⟨0, 12, 13, 13, 6⟩, 296296),
     (⟨7, 63, 63, 63, 31⟩, 2929), (⟨7, 63, 63, 63, 31⟩, 2929), (⟨0, 3, 1, 2, 1⟩, 8000000)] := by
  decide

/-- The queue of V-Q2: five entries, two popped, then three more: both indices return to 0. -/
theorem test_queue_drops :
    let m := { m0 with swqWr := 5 }
    let m2 := swqDrop (swqDrop m)
    let m5 := swqDrop (swqDrop (swqDrop m2))
    (m2.swqRd, swqCount m2) = (2, 3) ∧ (m5.swqRd, m5.swqWr) = (0, 0) := by
  decide

/-! ## Master requests -/

/-- P1 step 1. -/
theorem test_minit :
    after (exec (.minit 0#8 (portOf cfg)) (st Inst.reset))
      (fun x => (x.role.code, x.hw.baud, x.hw.men, x.hw.irqEn, x.hw.mie.toByte, lastReply x)) =
    some (1#2, ⟨2, 59, 59, 59, 29⟩, true, true, 0#8, some (.success, none)) := by
  decide

/-- V-M10: the bus never idles. -/
theorem test_minit_busy :
    after (exec (.minit 0#8 (portOf cfg)) { st Inst.reset with inp := { Input.quiet with busIdles := false } })
      (fun x => (x.role.code, lastReply x)) = some (0#2, some (.busBusy, none)) := by
  decide

theorem test_mdeinit :
    after (exec (.mdeinit 0#8) (st (mBus m0 hm))) (fun x => (x.role.code, x.hw.irqEn, x.hw.men)) =
      some (0#2, false, false) := by
  decide

/-- V-M9. -/
theorem test_mdeinit_busy : faultOf (exec (.mdeinit 0#8) (st sending)) = some .deinitWhileBusy := by
  decide

/-- V-M7. -/
theorem test_msend :
    after (exec (.msend 0#8 0x1000 6 true) (st (mBus m0 hm)))
      (fun x => (x.hw.txf, (masterOf x).map fun m => (m.txSize, m.txBuff))) =
    some ([0x480#11, 0x010#11, 0x020#11, 0x030#11], some (3, some 0x1003)) := by
  decide

/-- P7 step 2: DMA. -/
theorem test_msend_dma :
    after (exec (.msend 0#8 0x1000 2 true) (st (mBus { m0 with transferType := .dma } hm)))
      (fun x => (x.hw.txf, x.dma, x.hw.mie.toByte)) =
    some ([0x480#11], .running .memToPeriph .mtx 0x1000 2, 0x78#8) := by
  decide

/-- P1 step 2. -/
theorem test_msendb :
    after (exec (.msendb 0#8 0x1000 2 true 10) (st (mBus m0 hm)))
      (fun x => (x.hw.txf, x.hw.mie.toByte, x.hostw, x.replies)) =
    some ([0x480#11, 0x010#11, 0x020#11], 0x7A#8, some ⟨.m, 10, .first⟩, []) := by
  decide

/-- V-M11: the largest receive. -/
theorem test_mrecv :
    after (exec (.mrecv 0#8 0x2000 256 true) (st (mBus m0 hm))) (fun x => (x.hw.txf, x.hw.rxw, x.hw.mie.toByte)) =
    some ([0x481#11, 0x1FF#11], 3, 0x7C#8) := by
  decide

/-- V-Q3: the worst case of the queue, with a STOP still in a FIFO of depth 1. -/
theorem test_mrecv_queued :
    let s := st (mBus (mFreshCtx cfgHs slots) { hm with txf := [0x200#11] })
    after (exec (.mrecv 0#8 0x2000 3 true) { s with par := { s.par with txDepth := 1 } })
      (fun x => (x.hw.txf, (masterOf x).map fun m => (swqEntries m, m.phase), x.hw.mie.toByte)) =
    some ([0x200#11], some ([0x50B#11, 0x6F4#11, 0x0A5#11, 0x6F5#11, 0x102#11], .addressing), 0x7E#8) := by
  decide

/-- P4 step 1. -/
theorem test_mrecvb :
    after (exec (.mrecvb 0#8 0x3000 256 true 10) (st (mBus m0 hm)))
      (fun x => (x.hw.txf, x.hw.rxw, x.hostw, (masterOf x).map (·.rxSize))) =
    some ([0x481#11, 0x1FF#11], 3, some ⟨.m, 10, .first⟩, some 256) := by
  decide

/-- V-M7: the query behind a send of six bytes. -/
theorem test_mstatus :
    after (exec (.mstatus 0#8) (st (mBus { mSending with txSize := 3 } hm))) lastReply = some (some (.busy, some 3)) := by
  decide

/-- V-M4. -/
theorem test_mabort :
    after (exec (.mabort 0#8) (st sending))
      (fun x => (x.hw.txf, x.hw.mie.toByte, (masterOf x).map fun m => (m.idle, m.status), lastReply x)) =
    some ([0x200#11], 0#8, some (true, .aborted), some (.success, none)) := by
  decide

/-- V-M6. -/
theorem test_mabort_receive :
    after (exec (.mabort 0#8) (st (receiving 2 1 []))) lastReply = some (some (.unsupported, none)) := by
  decide

/-- V-M13. -/
theorem test_mgetbaud :
    after (exec (.mgetbaud 0#8) (st (mBus m0 hm))) (fun x => x.replies.map (·.baud)) =
      some [some (.standard, 100000#32, 0#32)] := by
  decide

theorem test_msetbaud :
    after (exec (.msetbaud 0#8 1#3 400000#32 0#32) (st (mBus m0 hm)))
      (fun x => (x.hw.baud, (masterOf x).map (·.mode))) = some (⟨0, 59, 59, 59, 29⟩, some .fast) := by
  decide

/-- V-M8. -/
theorem test_msetbaud_refused :
    refusalOf (exec (.msetbaud 0#8 5#3 400000#32 0#32) (st (mBus m0 hm))) = some .badConfig ∧
    after (exec (.msetbaud 0#8 1#3 400000#32 0#32) (st sending)) (fun x => (x.hw.baud, lastReply x)) =
      some (⟨2, 59, 59, 59, 29⟩, some (.busy, none)) := by
  decide

/-! ## Slave requests -/

/-- P5 step 1. -/
theorem test_sinit :
    after (exec (.sinit 0#8 { portOf cfg with listening := true }) (st Inst.reset))
      (fun x => (x.role.code, x.hw.sen, x.hw.sie.toByte, x.hw.irqEn)) = some (2#2, true, 0xF2#8, true) := by
  decide

/-- V-S2's start. -/
theorem test_sinit_onDemand :
    after (exec (.sinit 0#8 (portOf cfg)) (st Inst.reset)) (fun x => (x.hw.sen, x.hw.sie.toByte)) =
      some (false, 0#8) := by
  decide

theorem test_sdeinit :
    after (exec (.sdeinit 0#8) (st (sBus c0 hs))) (fun x => (x.role.code, x.hw.sen, x.hw.sie.toByte)) =
      some (0#2, false, 0#8) ∧
    faultOf (exec (.sdeinit 0#8) (st (inTransaction c0 .none))) = some .deinitWhileBusy := by
  decide

/-- V-S2. -/
theorem test_ssend :
    after (exec (.ssend 0#8 0x3000 4) (st (sBus cOd { hs with sen := false, sie := .none })))
      (fun x => ((slaveOf x).map fun c => (c.txSize, c.isTransferInProgress), x.hw.sen, x.hw.sie.toByte)) =
    some (some (4, true), true, 0xF2#8) := by
  decide

/-- V-S1. -/
theorem test_ssend_listening :
    after (exec (.ssend 0#8 0x3000 4) (st (sBus c0 hs))) (fun x => (x.role, lastReply x)) =
      some (.slave c0, some (.unsupported, none)) := by
  decide

theorem test_ssendb :
    after (exec (.ssendb 0#8 0x3000 4 7) (st (sBus cOd hs))) (fun x => (x.hostw, x.replies)) =
      some (some ⟨.s, 7, .first⟩, []) := by
  decide

theorem test_srecv :
    after (exec (.srecv 0#8 0x4000 2) (st (sBus cOd hs)))
      (fun x => (slaveOf x).map fun c => (c.rxBuff, c.rxSize, c.txSize)) = some (some (some 0x4000, 2, 0)) := by
  decide

/-- V-S5's request. -/
theorem test_srecvb :
    after (exec (.srecvb 0#8 0x4000 4 10) (st (sBus cOd hs))) (fun x => ((slaveOf x).map (·.rxSize), x.hostw)) =
      some (some 4, some ⟨.s, 10, .first⟩) := by
  decide

/-- P5's end. -/
theorem test_sstatus :
    after (exec (.sstatus 0#8) (st (sBus { c0 with status := .rxOverrun } hs))) lastReply =
      some (some (.rxOverrun, some 0)) := by
  decide

/-- V-S4. -/
theorem test_sabort :
    after (exec (.sabort 0#8) (st (inTransaction { cOd with txBuff := some 0x3000, txSize := 4 } .none)))
      (fun x => ((slaveOf x).map fun c => (c.status, c.txBuff, c.txSize), x.hw.sen, x.hw.sie.toByte)) =
    some (some (.aborted, none, 0), false, 0#8) := by
  decide

/-- V-S4, on a listening slave in mid-transaction. -/
theorem test_sabort_listening :
    after (exec (.sabort 0#8) (st (inTransaction c0 .none)))
      (fun x => ((slaveOf x).map (·.isTransferInProgress), lastReply x)) = some (some true, some (.success, none)) := by
  decide

theorem test_ssettx :
    after (exec (.ssettx 0#8 0x5000 0) (st (sBus { c0 with txBuff := some 1, txSize := 9, rxSize := 3 } hs)))
      (fun x => (slaveOf x).map fun c => (c.txBuff, c.txSize, c.rxSize)) = some (some (none, 0, 3)) := by
  decide

/-- P5 step 2. -/
theorem test_ssetrx :
    after (exec (.ssetrx 0#8 0x4000 1) (st (sBus c0 hs))) (fun x => (slaveOf x).map fun c => (c.rxBuff, c.rxSize)) =
      some (some (some 0x4000, 1)) := by
  decide

/-! ## Command words -/

/-- V-B4. -/
theorem test_txd_nack :
    after (exec (.txd 0#8 0x10#8) (stTx .nack (mBus m0 { hm with busOpen := true })))
      (fun x => (x.hw.wire, x.hw.mef.nack, x.hw.busOpen)) = some ([.b 0x10#8 .nack, .pauto], true, false) := by
  decide

/-- V-B6. -/
theorem test_txd_closed :
    after (exec (.txd 0#8 0x10#8) (st (mBus m0 hm))) (fun x => (x.hw.wire, x.hw.mef.fifoerr)) = some ([], true) := by
  decide

/-- V-B7. -/
theorem test_rxn :
    after (exec (.rxn 0#8 0xFF#8) (st (mBus m0 { hm with busOpen := true }))) (fun x => x.hw.rxLeft) = some 256 := by
  decide

/-- V-M5's end. -/
theorem test_stop :
    after (exec (.stop 0#8) (st (mBus m0 { hm with busOpen := true, wire := [.s] })))
      (fun x => (x.hw.wire, x.hw.busOpen)) = some ([.s, .p], false) := by
  decide

/-- V-B9. -/
theorem test_stop_closed : after (exec (.stop 0#8) (st (mBus m0 hm))) (fun x => x.hw.wire) = some [] := by
  decide

/-- V-B1. -/
theorem test_start :
    after (exec (.start 0#8 0x80#8) (st (mBus m0 hm))) (fun x => (x.hw.wire, x.hw.busOpen)) =
      some ([.s, .b 0x80#8 .ack], true) := by
  decide

/-- V-B2, and an arbitration loss on the byte. -/
theorem test_start_repeated :
    after (exec (.start 0#8 0x81#8) (st (mBus m0 { hm with busOpen := true }))) (fun x => x.hw.wire) =
      some [.sr, .b 0x81#8 .ack] ∧
    after (exec (.start 0#8 0x81#8) (stTx .arbLost (mBus m0 hm))) (fun x => (x.hw.wire, x.hw.mef.arblost)) =
      some ([.s, .lost], true) := by
  decide

/-- V-B3. -/
theorem test_startn :
    after (exec (.startn 0#8 0x0B#8) (stTx .nack (mBus m0 hm))) (fun x => (x.hw.wire, x.hw.mef.nack)) =
      some ([.s, .b 0x0B#8 .nack], false) := by
  decide

/-- V-B3, with an unexpected acknowledge. -/
theorem test_startn_ack :
    after (exec (.startn 0#8 0x0B#8) (st (mBus m0 hm))) (fun x => (x.hw.wire, x.hw.mef.nack, x.hw.busOpen)) =
      some ([.s, .b 0x0B#8 .ack, .pauto], true, false) := by
  decide

/-- P2 step 4. -/
theorem test_starths :
    after (exec (.starths 0#8 0xF4#8) (st (mBus m0 { hm with busOpen := true }))) (fun x => x.hw.wire) =
      some [.srhs, .b 0xF4#8 .ack] := by
  decide

/-! ## Master events -/

/-- P1 step 6. -/
theorem test_txrdy :
    after (exec (.txrdy 0#8) (st sent))
      (fun x => (x.hw.txf, x.hw.mie.toByte, (masterOf x).map fun m => (m.idle, m.status, m.txBuff), x.cbTrace)) =
    some ([0x200#11], 0#8, some (true, .success, none), [(.endTransfer, 0xC0DE)]) := by
  decide

/-- P2 step 7. -/
theorem test_txrdy_drains :
    after (exec (.txrdy 0#8) (st (mBus { mReceiving 3 with phase := .addressing, swqWr := 1,
                                                           swq := slots.set 0 0x102#11 }
      { hm with mie := mieErrors true true })))
      (fun x => (x.hw.txf, x.hw.mie.toByte, (masterOf x).map fun m => (m.swqWr, m.swqRd, m.phase))) =
    some ([0x102#11], 0x7C#8, some (0, 0, .transferring)) := by
  decide

/-- V-E2's first event. -/
theorem test_rxrdy :
    after (exec (.rxrdy 0#8) (st (receiving 6 3 [0xA1#8, 0xA2#8, 0xA3#8, 0xA4#8])))
      (fun x => (x.hw.rxf, x.hw.rxw, (masterOf x).map fun m => (m.rxSize, m.rxBuff))) =
    some ([], 1, some (2, some 0x2004)) := by
  decide

/-- P2 step 12. -/
theorem test_rxrdy_completes :
    let r := exec (.rxrdy 0#8) (st (receiving 3 2 [0xDE#8, 0xAD#8, 0xBE#8]))
    (after r (fun x => (x.hw.txf, (masterOf x).map (·.status))), memAfter r 0x2000, memAfter r 0x2001, memAfter r 0x2002,
      memAfter r 0x2003) =
    (some ([0x200#11], some .success), some 0xDE#8, some 0xAD#8, some 0xBE#8, some 0#8) := by
  decide

/-- P3 step 3. -/
theorem test_nack :
    after (exec (.nack 0#8) (st (mBus { mSending with callback := cb, callbackParam := 0xC0DE }
        { hm with txf := [0x010#11, 0x020#11], mie := mieErrors true false, mef := { MLatched.none with nack := true } })))
      (fun x => (x.hw.txf, x.hw.mef.nack, (masterOf x).map (·.status), x.cbTrace)) =
    some ([], false, some .receivedNack, [(.endTransfer, 0xC0DE)]) := by
  decide

/-- V-E6: in ultra-fast mode the flag is cleared and nothing ends. -/
theorem test_nack_ultraFast :
    after (exec (.nack 0#8) (st (mBus { mSending with mode := .ultraFast }
        { hm with txf := [0x010#11], mie := mieErrors true false, mef := { MLatched.none with nack := true } })))
      (fun x => (x.hw.txf, x.hw.mef.nack, (masterOf x).map (·.status))) = some ([0x010#11], false, some .busy) := by
  decide

/-- V-E4. -/
theorem test_arblost :
    after (exec (.arblost 0#8) (st (mBus mSending
        { hm with txf := [0x010#11, 0x020#11], mie := mieErrors true false,
                  mef := { MLatched.none with arblost := true }, wire := [.s, .lost] })))
      (fun x => (x.hw.txf, x.hw.mef.arblost, (masterOf x).map fun m => (m.status, m.idle), x.hw.wire)) =
    some ([], false, some (.arbitrationLost, true), [.s, .lost]) := by
  decide

theorem test_fifoerr :
    after (exec (.fifoerr 0#8) (st (mBus mSending
        { hm with mie := mieErrors true false, mef := { MLatched.none with fifoerr := true } })))
      (fun x => (x.hw.mef.fifoerr, (masterOf x).map (·.status))) = some (false, some .error) := by
  decide

/-- V-E5. -/
theorem test_pinlow :
    after (exec (.pinlow 0#8) (st (mBus (mReceiving 1)
        { hm with mie := mieErrors false true, mef := { MLatched.none with pinlow := true } })))
      (fun x => (x.hw.mef.pinlow, (masterOf x).map (·.status))) = some (false, some .lineLowTimeout) := by
  decide

/-! ## Slave events -/

/-- P5 step 4. -/
theorem test_addrvalid :
    after (exec (.addrvalid 0#8) (st (sBus c0 { hs with saddr := 0xA0#11, sef := { SSources.none with addrvalid := true } })))
      (fun x => (x.hw.sef, x.hw.sie.toByte, (slaveOf x).map (·.status), x.cbTrace)) =
    some (.none, 0xFA#8, some .busy, [(.rxRequested, 0x5A)]) := by
  decide

/-- V-D3: the channel is armed and the data interrupt is not enabled. -/
theorem test_addrvalid_dma :
    after (exec (.addrvalid 0#8) (st (sBus { c0 with transferType := .dma, txBuff := some 0x5000, txSize := 2 }
        { hs with saddr := 0xA1#11, sef := { SSources.none with addrvalid := true } })))
      (fun x => (x.dma, x.hw.sie.toByte, x.cbTrace)) =
    some (.running .memToPeriph .stx 0x5000 2, 0xF2#8, [(.txRequested, 0x5A)]) := by
  decide

/-- P6 step 4b: the second exhaustion in a row. -/
theorem test_txdata_underrun :
    after (exec (.txdata 0#8) (st (inTransaction { c0 with txUnderrunWarning := true }
        { SSources.none with txdata := true })))
      (fun x => (x.hw.stx, (slaveOf x).map (·.status), x.cbTrace, x.hw.sef)) =
    some ([0xFF#8], some .txUnderrun, [(.txEmpty, 0x5A)], .none) := by
  decide

/-- P6 step 4a: a refill in time. -/
theorem test_txdata :
    after (exec (.txdata 0#8) (st (inTransaction { c0 with txUnderrunWarning := true, txBuff := some 0x5001, txSize := 1 }
        { SSources.none with txdata := true })))
      (fun x => (x.hw.stx, (slaveOf x).map fun c => (c.status, c.txUnderrunWarning, c.txSize))) =
    some ([0x88#8], some (.busy, false, 0)) := by
  decide

/-- P5 step 5. -/
theorem test_rxdata :
    let r := exec (.rxdata 0#8) (st (let x := inTransaction { c0 with rxBuff := some 0x4000, rxSize := 1 }
                                                { SSources.none with rxdata := true }
                                     { x with hw := { x.hw with srdr := 0x11#8 } }))
    (after r (fun x => (slaveOf x).map fun c => (c.rxBuff, c.rxSize)), memAfter r 0x4000) =
      (some (some (some 0x4001, 0)), some 0x11#8) := by
  decide

/-- P5 step 6. -/
theorem test_rxdata_overrun :
    after (exec (.rxdata 0#8) (st (inTransaction c0 { SSources.none with rxdata := true })))
      (fun x => ((slaveOf x).map (·.status), x.cbTrace, x.hw.sef)) =
    some (some .rxOverrun, [(.rxFull, 0x5A)], .none) := by
  decide

/-- V-S3: the first repeated start of a 10-bit transaction goes on. -/
theorem test_rstart_continues :
    after (exec (.rstart 0#8) (st (inTransaction { c0 with is10bit := true } { SSources.none with rstart := true })))
      (fun x => ((slaveOf x).map fun c => (c.repeatedStarts, c.isTransferInProgress), x.cbTrace)) =
    some (some (1, true), []) := by
  decide

/-- V-S3: the second one is a boundary. -/
theorem test_rstart_boundary :
    after (exec (.rstart 0#8) (st (inTransaction { c0 with is10bit := true, repeatedStarts := 1 }
        { SSources.none with rstart := true })))
      (fun x => ((slaveOf x).map fun c => (c.repeatedStarts, c.isTransferInProgress, c.status), x.cbTrace)) =
    some (some (0, false, .success), [(.stopEvent, 0x5A)]) := by
  decide

/-- P5 step 8. -/
theorem test_evtStop :
    after (exec (.evtStop 0#8) (st (inTransaction c0 { SSources.none with stop := true })))
      (fun x => (x.hw.sie.toByte, x.hw.sen, (slaveOf x).map (·.isTransferInProgress), x.cbTrace)) =
    some (0xF2#8, true, some false, [(.stopEvent, 0x5A)]) := by
  decide

/-- V-D4: the channel's remainder goes back. -/
theorem test_evtStop_dma :
    after (exec (.evtStop 0#8) (st { inTransaction { c0 with transferType := .dma, txBuff := some 0x5000, txSize := 2 }
        { SSources.none with stop := true } with dma := .running .memToPeriph .stx 0x5001 1 }))
      (fun x => ((slaveOf x).map fun c => (c.txBuff, c.txSize, c.status), x.dma)) =
    some (some (some 0x5001, 1, .success), .stopped) := by
  decide

/-- V-S6. -/
theorem test_biterr :
    after (exec (.biterr 0#8) (st (inTransaction c0 { SSources.none with biterr := true })))
      (fun x => ((slaveOf x).map (·.status), x.cbTrace, x.hw.sie.toByte)) =
    some (some .error, [(.errorEvent, 0x5A)], 0xF2#8) := by
  decide

theorem test_sfifoerr :
    after (exec (.sfifoerr 0#8) (st (inTransaction cOd { SSources.none with sfifoerr := true })))
      (fun x => ((slaveOf x).map (·.status), x.hw.sen, x.hw.sie.toByte)) = some (some .error, false, 0#8) := by
  decide

/-! ## DMA and timer events -/

/-- A bus whose channel is done. -/
def dmaDone (x : Inst) (dir : DmaDir) (reg : DmaReg) : Inst := { x with dma := .running dir reg 0x1002 0 }

/-- P7 step 5. -/
theorem test_dmaok :
    after (exec (.dmaok 0#8) (st (dmaDone (mBus { mSending with transferType := .dma, txBuff := some 0x1000, txSize := 2 }
        { hm with mie := mieErrors false false }) .memToPeriph .mtx)))
      (fun x => (x.dma, (masterOf x).map fun m => (m.txBuff, m.txSize, m.idle), x.hw.mie.toByte)) =
    some (.stopped, some (none, 0, false), 0x7A#8) := by
  decide

/-- V-D3: the slave's data interrupt takes over. -/
theorem test_dmaok_slave :
    after (exec (.dmaok 0#8) (st (dmaDone (sBus { c0 with transferType := .dma, txBuff := some 0x5000, txSize := 2 } hs)
        .memToPeriph .stx)))
      (fun x => (x.dma, (slaveOf x).map (·.txSize), x.hw.sie.toByte)) = some (.stopped, some 0, 0xF6#8) := by
  decide

/-- V-D2. -/
theorem test_dmaerr :
    after (exec (.dmaerr 0#8) (st (dmaDone (mBus { mSending with transferType := .dma, txSize := 2 }
        { hm with txf := [0x480#11, 0x010#11] }) .memToPeriph .mtx)))
      (fun x => (x.dma, x.hw.txf, (masterOf x).map (·.status))) = some (.stopped, [0x200#11], some .dmaTxFailure) := by
  decide

/-- P4 step 3: the watermark is narrowed and a second wait begins. -/
theorem test_wtimeout_narrows :
    after (exec (.wtimeout 0#8) (st { receiving 256 3 [] with hostw := some ⟨.m, 10, .first⟩ }))
      (fun x => (x.hw.rxw, x.hostw, (masterOf x).map (·.abortedByTimeout))) =
    some (0, some ⟨.m, 10, .second⟩, some true) := by
  decide

/-- P8 step 3: late success. -/
theorem test_wtimeout_late :
    let r := exec (.wtimeout 0#8) (st { mBus { mReceiving 2 with blocking := true } { hm with rxf := [0xA1#8, 0xB2#8] } with
      hostw := some ⟨.m, 10, .first⟩ })
    (after r (fun x => (x.hw.txf, (masterOf x).map fun m => (m.status, m.sem), x.hostw, lastReply x)), memAfter r 0x2001) =
      (some ([0x200#11], some (.success, false), none, some (.success, none)), some 0xB2#8) := by
  decide

/-! ## Steps of the agents -/

/-- V-B8: a full receive FIFO stalls reception. -/
theorem test_receive_stalls :
    let s := st (mBus m0 { hm with rxLeft := 2, rxf := [1#8, 2#8, 3#8, 4#8], txf := [0x200#11] })
    after (step (turn s (go (.busm 0#8)))) (fun x => (x.hw.rxf, x.hw.txf, x.hw.rxLeft)) =
      some ([1#8, 2#8, 3#8, 4#8], [0x200#11], 2) := by
  decide

/-- V-S3: the received address register of a 10-bit slave. -/
theorem test_addrMatch :
    after (step (turn (st (sBus { c0 with addr := 0x2A5#10, is10bit := true } hs)) (go (.buss 0#8 (.addrMatch true)))))
      (fun x => (x.hw.saddr, x.hw.sef.toByte)) = some (0x54B#11, 0x02#8) := by
  decide

/-- P1 step 3: the bus side pops the head word and runs it. -/
theorem test_busm_pops :
    after (step (turn (st sending) (go (.busm 0#8)))) (fun x => (x.hw.txf, x.hw.wire)) =
      some ([0x010#11, 0x020#11], [.s, .b 0x80#8 .ack]) := by
  decide

/-- P1 step 8: the host takes the semaphore. -/
theorem test_resume :
    after (step (turn (st { mBus { m0 with sem := true, blocking := true } hm with hostw := some ⟨.m, 10, .first⟩ })
        (go (.resume 0#8)))) (fun x => (x.hostw, (masterOf x).map fun m => (m.sem, m.blocking), lastReply x)) =
      some (none, some (false, false), some (.success, none)) := by
  decide

/-- P7 step 3: a byte moved by the channel. -/
theorem test_dmaMove :
    after (step (turn (st { mBus { mSending with transferType := .dma } { hm with txf := [0x480#11] } with
        dma := .running .memToPeriph .mtx 0x1000 2 }) (go (.dmaMove 0#8)))) (fun x => (x.hw.txf, x.dma)) =
      some ([0x480#11, 0x010#11], .running .memToPeriph .mtx 0x1001 1) := by
  decide

/-- V-E3: with `NACK` and `TXRDY` both deliverable the interrupt context serves `NACK` first. -/
theorem test_priority :
    dispatchFirst (mBus mSending { hm with mie := mieErrors true false, mef := { MLatched.none with nack := true } }) =
      some 0x03#8 := by
  decide

/-! ## Witnesses: the hypotheses of each statement, met together -/

/-- An idle master behind its init. -/
def idle : Inst := mBus m0 hm

/-- A send whose host waits. -/
def waiting (stage : Stage) : Inst :=
  { sending with role := .master { mSending with blocking := true }, hostw := some ⟨.m, 10, stage⟩ }

/-- A listening slave with a flag raised and its callback. -/
def flagged (f : SSources) : Inst := inTransaction c0 f

theorem witness_DecodeOfEncode :
    Instr.wellFormed Params.default (.mrecvb 0#8 (2 ^ 32 - 1) (2 ^ 32 - 1) true (2 ^ 32 - 1)) = true ∧
    Instr.wellFormed { Params.default with numInst := 256 } (.rxn 255#8 255#8) = true := by
  decide

theorem witness_EncodeOfDecode :
    (decodeReq Params.default 0x1A00#16 ports).toOption = some (.ssetrx 0#8 0x1000 2) ∧
    (decodeCmd 0#8 0x2FF#11).toOption = some (.stop 0#8) ∧ (decodeEvt 0#8 0x31#8).toOption = some (.wtimeout 0#8) := by
  decide

theorem witness_ReservedEncodings_request : decodeReq (st idle).par 0x0301#16 ports = .error .reservedRequest := rfl

theorem witness_ReservedEncodings_command :
    let x := mBus m0 { hm with txf := [0x300#11] }
    masterAt (st x) 0#8 x m0 ∧ x.hw.txf = 0x300#11 :: [] ∧ x.hw.men = true ∧ ¬ halted x.hw m0.mode ∧ x.hw.rxLeft = 0 ∧
    (0x300#11).extractLsb' 8 3 = 3#3 := by
  decide

theorem witness_StepRunsFetchedInstruction_request : decodeReq (st idle).par 0x0700#16 Ports.zero = .ok (.mstatus 0#8) :=
  rfl

theorem witness_StepRunsFetchedInstruction_command :
    masterAt (st sending) 0#8 sending mSending ∧ sending.hw.txf = 0x480#11 :: [0x010#11, 0x020#11] ∧
    sending.hw.men = true ∧ ¬ halted sending.hw mSending.mode ∧ sending.hw.rxLeft = 0 ∧
    (decodeCmd 0#8 0x480#11).toOption = some (.start 0#8 0x80#8) := by
  decide

theorem witness_StepRunsFetchedInstruction_events :
    let d := dmaDone sending .memToPeriph .mtx
    (busAt (st sent) 0#8 sent ∧ dispatchFirst sent = some 0x01#8 ∧ (decodeEvt 0#8 0x01#8).toOption = some (.txrdy 0#8)) ∧
    (busAt (st d) 0#8 d ∧ dmaokEnabled d = true ∧ dmaerrEnabled d = true) ∧
    (busAt (st (waiting .second)) 0#8 (waiting .second) ∧ wtimeoutEnabled (waiting .second) = true) := by
  decide

theorem witness_InterruptPriority :
    (∃ m, masterAt (st sent) 0#8 sent m) ∧
    (∃ c, slaveAt (st (flagged { SSources.none with txdata := true, stop := true })) 0#8
      (flagged { SSources.none with txdata := true, stop := true }) c) :=
  ⟨⟨_, rfl, rfl⟩, ⟨_, rfl, rfl⟩⟩

theorem witness_ResetOnlyInits :
    (∀ x ∈ (st Inst.reset).insts, unownedGood x = true ∧ x.role = .unowned) ∧
    (∀ k, ¬ asks (go (.request 0x0300#16 ports)) k 0x01 0x11) ∧ (∀ k, ¬ asks (go (.request 0x0B00#16 ports)) k 0x01 0x11) ∧
    (∀ a b k, ¬ asks (go (.app a b)) k 0x01 0x11) ∧ (∀ j k, ¬ asks (go (.busm j)) k 0x01 0x11) := by
  refine ⟨by decide, ?_, ?_, ?_, ?_⟩
  · rintro k ⟨h, o, hq, -, ho⟩
    cases hq
    revert ho
    decide
  · rintro k ⟨h, o, hq, -, ho⟩
    cases hq
    revert ho
    decide
  · rintro a b k ⟨h, o, hq, -, -⟩
    cases hq
  · rintro j k ⟨h, o, hq, -, -⟩
    cases hq

theorem witness_MinitResult :
    busAt (st Inst.reset) 0#8 Inst.reset ∧ Inst.reset.role = .unowned ∧ addrFits cfg.addr cfg.is10bit ∧
    addrFits cfgHs.addr cfgHs.is10bit ∧ (st Inst.reset).inp.busIdles = true ∧
    ¬ addrFits 0x80#10 false ∧ addrFits 0x7F#10 false ∧ 4 < (5#3).toNat ∧
    busAt (st idle) 0#8 idle ∧ idle.role ≠ .unowned ∧
    ({ st Inst.reset with inp := { Input.quiet with busIdles := false } }).inp.busIdles = false := by
  decide

theorem witness_SinitResult :
    busAt (st Inst.reset) 0#8 Inst.reset ∧ Inst.reset.slaveCapable = true ∧ addrFits cfg.addr cfg.is10bit ∧
    ({ Inst.reset with slaveCapable := false }).role = .unowned ∧ idle.role ≠ .unowned := by
  decide

theorem witness_DeinitResult :
    (masterAt (st idle) 0#8 idle m0 ∧ idle.hostw = none ∧ m0.idle = true) ∧
    (masterAt (st sending) 0#8 sending mSending ∧ sending.hostw = none ∧ mSending.idle = false) ∧
    (slaveAt (st (sBus c0 hs)) 0#8 (sBus c0 hs) c0 ∧ (sBus c0 hs).hostw = none ∧ c0.isTransferInProgress = false) := by
  decide

theorem witness_RequestsNeedTheirRole :
    (busAt (st Inst.reset) (Instr.mstatus 0#8).bus Inst.reset ∧ ∀ m, Inst.reset.role ≠ .master m) ∧
    (busAt (st idle) (Instr.sabort 0#8).bus idle ∧ ∀ c, idle.role ≠ .slave c) ∧
    (busAt (st (waiting .first)) (Instr.mabort 0#8).bus (waiting .first) ∧ (∃ m, (waiting .first).role = .master m) ∧
      (waiting .first).hostw.isSome) ∧
    (let x := { inTransaction cOd .none with hostw := some ⟨.s, 1, .first⟩ }
     busAt (st x) (Instr.sstatus 0#8).bus x ∧ (∃ c, x.role = .slave c) ∧ x.hostw.isSome) :=
  ⟨⟨rfl, by intro m h; cases h⟩, ⟨rfl, by intro c h; cases h⟩, ⟨rfl, ⟨_, rfl⟩, rfl⟩, ⟨rfl, ⟨_, rfl⟩, rfl⟩⟩

theorem witness_RolesChangeByInitAndDeinit :
    ∃ s' y, step (turn (st idle) (go (.request 0x0200#16 Ports.zero))) = .next s' ∧ busAt (st idle) 0#8 idle ∧
      busAt s' 0#8 y ∧ y.role = .unowned :=
  ⟨_, _, rfl, rfl, rfl, rfl⟩

theorem witness_RolesChangeByInitAndDeinit_timer :
    ∃ s' y, step (turn (st (waiting .second)) (go (.timer 0#8))) = .next s' ∧
      busAt (st (waiting .second)) 0#8 (waiting .second) ∧ busAt s' 0#8 y :=
  ⟨_, _, rfl, rfl, rfl⟩

theorem witness_MasterTransfersTurnedAway :
    (masterAt (st sending) 0#8 sending mSending ∧ sending.hostw = none ∧ mSending.idle = false) ∧
    (let m := { m0 with mode := .ultraFast }
     masterAt (st (mBus m hm)) 0#8 (mBus m hm) m ∧ m.idle = true ∧ m.mode = .ultraFast) ∧
    (masterAt (st idle) 0#8 idle m0 ∧ idle.hostw = none ∧ m0.idle = true ∧ m0.mode ≠ .ultraFast ∧
      2 ^ (st idle).par.addrW < (2 ^ 32 - 1) + 2 ∧ 256 < 257) := by
  decide

theorem witness_MsendResult :
    masterAt (st idle) 0#8 idle m0 ∧ idle.hostw = none ∧ m0.idle = true ∧ m0.swqWr = m0.swqRd ∧ 1 ≤ 1 ∧
    (2 ^ 32 - 1) + 1 ≤ 2 ^ (st idle).par.addrW := by
  decide

theorem witness_MrecvResult :
    masterAt (st idle) 0#8 idle m0 ∧ idle.hostw = none ∧ m0.idle = true ∧ m0.swqWr = m0.swqRd ∧
    m0.mode ≠ .ultraFast ∧ 1 ≤ 256 ∧ 256 ≤ 256 ∧ (2 ^ 32 - 256) + 256 ≤ 2 ^ (st idle).par.addrW := by
  decide

theorem witness_StatusQueries :
    (masterAt (st sending) 0#8 sending mSending ∧ sending.hostw = none) ∧
    (slaveAt (st (sBus c0 hs)) 0#8 (sBus c0 hs) c0 ∧ (sBus c0 hs).hostw = none) := by
  decide

theorem witness_MabortResult :
    (masterAt (st sending) 0#8 sending mSending ∧ sending.hostw = none ∧ 1 ≤ (st sending).par.txDepth) ∧
    (masterAt (st (receiving 2 1 [])) 0#8 (receiving 2 1 []) (mReceiving 2) ∧ (mReceiving 2).dir = .receive) := by
  decide

theorem witness_MgetbaudResult :
    (masterAt (st idle) 0#8 idle m0 ∧ idle.hostw = none ∧ 0 < 2 ^ 2 * (59 + 59 + (st idle).par.periodOverhead) ∧
      idle.hw.fIn / (2 ^ 2 * (59 + 59 + (st idle).par.periodOverhead)) < 2 ^ 32) ∧
    (let m := mFreshCtx cfgHs slots
     masterAt (st (mBus m hm)) 0#8 (mBus m hm) m ∧ m.mode = .highSpeed) := by
  decide

theorem witness_MsetbaudResult : masterAt (st idle) 0#8 idle m0 ∧ idle.hostw = none ∧ 4 < (5#3).toNat := by
  decide

/-- A view of the idle master. -/
def node (m : MCtx) (txf : List CmdWord) : MNode := Node.of (st idle) (mBus m { hm with txf := txf }) m

theorem witness_OfferKeepsOrder :
    (let n := node m0 [0x001#11, 0x002#11, 0x003#11]
     swqCount n.ctx ≤ 5 ∧ n.ctx.swqWr = n.ctx.swqRd ∧ n.hw.txf.length < n.par.txDepth) ∧
    (let n := node { m0 with swqWr := 4 } []
     swqCount n.ctx ≤ 5 ∧ ¬ (n.ctx.swqWr = n.ctx.swqRd ∧ n.hw.txf.length < n.par.txDepth) ∧ swqCount n.ctx < 5) ∧
    (let n := node { m0 with swqWr := 2, swqRd := 7 } []
     ¬ (n.ctx.swqWr = n.ctx.swqRd ∧ n.hw.txf.length < n.par.txDepth) ∧ swqCount n.ctx = 5) ∧
    (let m := { m0 with swqWr := 1, swqRd := 9 }
     swqCount m ≤ 5 ∧ m.swqWr ≠ m.swqRd) := by
  decide

theorem witness_TxdResult :
    masterAt (st sent) 0#8 sent { mSending with callback := cb, callbackParam := 0xC0DE } ∧ sent.hw.busOpen = true ∧
    masterAt (st idle) 0#8 idle m0 ∧ idle.hw.busOpen = false := by
  decide

theorem witness_RxnAndStopResult : busAt (st sent) 0#8 sent ∧ busAt (st idle) 0#8 idle := by
  decide

theorem witness_StartResult : masterAt (st idle) 0#8 idle m0 := by
  decide

theorem witness_ReceiveStep :
    (let x := mBus m0 { hm with rxLeft := 1, rxf := [1#8, 2#8, 3#8] }
     masterAt (st x) 0#8 x m0 ∧ 0 < x.hw.rxLeft ∧
      ¬ (x.hw.men = false ∨ halted x.hw m0.mode ∨ (st x).par.rxDepth ≤ x.hw.rxf.length)) ∧
    (let x := mBus m0 { hm with rxLeft := 256, rxf := [1#8, 2#8, 3#8, 4#8] }
     masterAt (st x) 0#8 x m0 ∧ 0 < x.hw.rxLeft ∧ (st x).par.rxDepth ≤ x.hw.rxf.length) ∧
    (let x := mBus m0 { hm with rxLeft := 2, mef := { MLatched.none with arblost := true } }
     masterAt (st x) 0#8 x m0 ∧ 0 < x.hw.rxLeft ∧ halted x.hw m0.mode) ∧
    (let x := mBus m0 { hm with rxLeft := 2, men := false }
     masterAt (st x) 0#8 x m0 ∧ 0 < x.hw.rxLeft ∧ x.hw.men = false) := by
  decide

theorem witness_EventsNeedTheirSource :
    (busAt (st idle) (Instr.txrdy 0#8).bus idle ∧ eventEnabled (.txrdy 0#8) idle = some false) ∧
    (busAt (st idle) (Instr.stop 0#8).bus idle ∧ eventEnabled (.evtStop 0#8) idle = some false) ∧
    eventEnabled (.dmaok 0#8) { sending with dma := .running .memToPeriph .mtx 0 1 } = some false ∧
    eventEnabled (.wtimeout 0#8) { waiting .first with role := .master { mSending with sem := true } } = some false := by
  decide

/-- What every clause of the `TXRDY` statement assumes, of a master with buffer pointer `a`. -/
abbrev txrdyDue (m : MCtx) (h : HW) (a : Nat) : Prop :=
  masterAt (st (mBus m h)) 0#8 (mBus m h) m ∧ h.irqEn = true ∧ h.mie.txrdy = true ∧ h.txf = [] ∧ swqCount m ≤ 5 ∧
  1 ≤ (st (mBus m h)).par.txDepth ∧ (st (mBus m h)).inp.cb = [] ∧
  (0 < m.txSize → m.txBuff = some a ∧ a + m.txSize ≤ 2 ^ (st (mBus m h)).par.addrW)

theorem witness_TxrdyResult :
    let h := { hm with mie := mieErrors true false }
    (let m := { mSending with swqWr := 5 }
     txrdyDue m h 0 ∧ (st idle).par.txDepth < (swqEntries m).length) ∧
    (let m := { mReceiving 3 with swqWr := 4, phase := .addressing }
     txrdyDue m h 0 ∧ (swqEntries m).length ≤ (st idle).par.txDepth ∧ m.dir = .receive) ∧
    (let m := { mSending with txBuff := some (2 ^ 32 - 2), txSize := 2 }
     txrdyDue m h (2 ^ 32 - 2) ∧ m.dir ≠ .receive ∧ m.transferType ≠ .dma ∧ 0 < m.txSize) ∧
    (txrdyDue mSending h 0 ∧ swqEntries mSending = [] ∧ mSending.dir ≠ .receive ∧ mSending.txSize = 0) := by
  decide

theorem witness_RxrdyResult :
    (let x := receiving 3 2 [1#8, 2#8, 3#8]
     masterAt (st x) 0#8 x (mReceiving 3) ∧ x.hw.irqEn = true ∧ x.hw.mie.rxrdy = true ∧ x.hw.rxw < x.hw.rxf.length ∧
     (mReceiving 3).rxBuff = some 0x2000 ∧ 0x2000 + 3 ≤ 2 ^ (st x).par.addrW ∧ Memory.wf (st x).mem = true ∧
     (st x).inp.cb = [] ∧ (mReceiving 3).swqWr = (mReceiving 3).swqRd ∧ x.hw.txf.length < (st x).par.txDepth) ∧
    (let x := receiving 4 2 [1#8, 2#8, 3#8]
     masterAt (st x) 0#8 x (mReceiving 4) ∧ x.hw.rxw < x.hw.rxf.length ∧ ¬ (mReceiving 4).rxSize ≤ x.hw.rxf.length) := by
  decide

theorem witness_ErrorEventsResult :
    let x := mBus mSending { hm with mie := mieErrors true false, mef := ⟨true, true, true, true⟩ }
    masterAt (st x) 0#8 x mSending ∧ x.hw.irqEn = true ∧ (st x).inp.cb = [] ∧
    (x.hw.mef.nack = true ∧ x.hw.mie.nack = true) ∧ (x.hw.mef.arblost = true ∧ x.hw.mie.arblost = true) ∧
    (x.hw.mef.fifoerr = true ∧ x.hw.mie.fifoerr = true) ∧ (x.hw.mef.pinlow = true ∧ x.hw.mie.pinlow = true) := by
  decide

theorem witness_CallbackStartsNextTransfer :
    let m := { mSending with callback := cb, callbackParam := 0xC0DE }
    let s := stCb [.msend 0x1000 2 true] sent
    (masterAt s 0#8 sent m ∧ sent.hw.irqEn = true ∧ sent.hw.mie.txrdy = true ∧ m.callback.isSome ∧
      m.swqWr = m.swqRd ∧ m.dir = .send ∧ m.txSize = 0 ∧ sent.hw.txf = [] ∧ (m.transferType = .dma → sent.dma = .stopped) ∧
      1 ≤ s.par.txDepth ∧ 0x1000 < 2 ^ s.par.addrW ∧ 2 < 2 ^ s.par.sizeW ∧ sent.hostw = none) ∧
    ∃ s0 s1 y, exec (.txrdy 0#8) { s with inp := { s.inp with cb := [] } } = .next s0 ∧
      exec (.msend 0#8 0x1000 2 true) s0 = .next s1 ∧ busAt s1 0#8 y :=
  ⟨by decide, _, _, _, rfl, rfl, rfl⟩

theorem witness_CallbackStartsNextTransfer_suspended :
    let m := { mSending with callback := cb, callbackParam := 0xC0DE }
    let x := { sent with hostw := some ⟨.m, 10, .first⟩ }
    let s := stCb [.msend 0x1000 2 true] x
    masterAt s 0#8 x m ∧ x.hw.irqEn = true ∧ x.hw.mie.txrdy = true ∧ m.callback.isSome ∧ x.hw.txf = [] ∧
    s.inp.cb = [.msend 0x1000 2 true] ∧ x.hostw.isSome := by
  decide

theorem witness_SlaveTransferResult :
    (slaveAt (st (sBus c0 hs)) 0#8 (sBus c0 hs) c0 ∧ (sBus c0 hs).hostw = none ∧ c0.listening = true) ∧
    (let c := { cOd with isTransferInProgress := true }
     slaveAt (st (sBus c hs)) 0#8 (sBus c hs) c ∧ c.listening = false ∧ c.isTransferInProgress = true) ∧
    (slaveAt (st (sBus cOd hs)) 0#8 (sBus cOd hs) cOd ∧ cOd.listening = false ∧ cOd.isTransferInProgress = false ∧
      2 ^ (st (sBus cOd hs)).par.addrW < 2 ^ 32 + 1 ∧ (2 ^ 32 - 1) + 1 ≤ 2 ^ (st (sBus cOd hs)).par.addrW) := by
  decide

theorem witness_SlaveBufferSupply :
    slaveAt (st (sBus c0 hs)) 0#8 (sBus c0 hs) c0 ∧ (sBus c0 hs).hostw = none ∧
    2 ^ (st (sBus c0 hs)).par.addrW < (2 ^ 32 - 1) + 2 ∧ (2 ^ 32 - 1) + 1 ≤ 2 ^ (st (sBus c0 hs)).par.addrW := by
  decide

theorem witness_SabortResult :
    let c := { cOd with isTransferInProgress := true }
    slaveAt (st (sBus c hs)) 0#8 (sBus c hs) c ∧ (sBus c hs).hostw = none ∧
    ¬ (c.isTransferInProgress = false ∨ c.listening = true) := by
  decide

theorem witness_SlaveBusStep :
    (slaveAt (st (sBus c0 hs)) 0#8 (sBus c0 hs) c0 ∧ (sBus c0 hs).hw.sen = true ∧ (sBus c0 hs).hw.sef = noSlaveSource) ∧
    (let x := sBus c0 { hs with sef := { SSources.none with addrvalid := true } }
     slaveAt (st x) 0#8 x c0 ∧ x.hw.sen = true ∧ x.hw.sef ≠ noSlaveSource ∧ x.hw.sef.biterr = false) ∧
    (let x := sBus c0 { hs with sen := false }
     busAt (st x) 0#8 x ∧ x.hw.sen = false) ∧
    (busAt (st idle) 0#8 idle ∧ idle.hw.sen = false) := by
  decide

theorem witness_AddrvalidResult :
    let due (c : SCtx) (a : BitVec 11) : Inst := sBus c { hs with saddr := a, sef := { SSources.none with addrvalid := true } }
    let d := { c0 with transferType := .dma, txBuff := some 0x5000, txSize := 1, rxBuff := some 0x4000, rxSize := 1 }
    (slaveAt (st (due d 0xA1#11)) 0#8 (due d 0xA1#11) d ∧ (due d 0xA1#11).hw.irqEn = true ∧
      (due d 0xA1#11).hw.sef.addrvalid = true ∧ (due d 0xA1#11).hw.sie.addrvalid = true ∧
      (st (due d 0xA1#11)).inp.cb = [] ∧ (due d 0xA1#11).hw.saddr.getLsbD 0 = true ∧ d.transferType = .dma ∧
      0 < d.txSize ∧ d.txBuff = some 0x5000) ∧
    ((due d 0xA0#11).hw.saddr.getLsbD 0 = false ∧ 0 < d.rxSize ∧ d.rxBuff = some 0x4000) ∧
    (slaveAt (st (due c0 0xA0#11)) 0#8 (due c0 0xA0#11) c0 ∧ c0.transferType = .interrupts) := by
  decide

/-- The clauses of a callback that supplies a buffer: the last byte of memory, the host waiting; and a withdrawal. -/
theorem witness_AddrvalidResult_supplied :
    let d := { cOd with transferType := .dma, callback := cb }
    let due (a : BitVec 11) : Inst :=
      { sBus d { hs with saddr := a, sef := { SSources.none with addrvalid := true } } with hostw := some ⟨.s, 10, .first⟩ }
    let s (r : CbReq) (a : BitVec 11) : State := stCb [r] (due a)
    slaveAt (s (.ssettx (2 ^ 32 - 1) 1) 0xA1#11) 0#8 (due 0xA1#11) d ∧ (due 0xA1#11).hw.irqEn = true ∧
    (due 0xA1#11).hw.sef.addrvalid = true ∧ (due 0xA1#11).hw.sie.addrvalid = true ∧
    (due 0xA1#11).hw.saddr.getLsbD 0 = true ∧ (due 0xA0#11).hw.saddr.getLsbD 0 = false ∧ d.callback.isSome = true ∧
    (s (.ssettx (2 ^ 32 - 1) 1) 0xA1#11).inp.cb = [.ssettx (2 ^ 32 - 1) 1] ∧
    (s (.ssetrx 0 0) 0xA0#11).inp.cb = [.ssetrx 0 0] ∧
    1 < 2 ^ Params.default.sizeW ∧ 2 ^ 32 - 1 + 1 ≤ 2 ^ Params.default.addrW := by
  decide

theorem witness_TxdataResult :
    let f := { SSources.none with txdata := true }
    let c := { c0 with txBuff := some (2 ^ 32 - 1), txSize := 1 }
    (slaveAt (st (flagged f)) 0#8 (flagged f) (begun c0) ∧ (begun c0).txSize = 0) ∧
    (slaveAt (st (inTransaction c f)) 0#8 (inTransaction c f) (begun c) ∧ 0 < (begun c).txSize ∧
      (begun c).txBuff = some (2 ^ 32 - 1)) ∧
    (flagged f).hw.irqEn = true ∧ (flagged f).hw.sef.txdata = true ∧ (flagged f).hw.sie.txdata = true ∧
    (st (flagged f)).inp.cb = [] ∧ 2 ^ 32 - 1 < 2 ^ (st (flagged f)).par.addrW := by
  decide

theorem witness_RxdataResult :
    let f := { SSources.none with rxdata := true }
    let c := { c0 with rxBuff := some 0, rxSize := 1 }
    (slaveAt (st (flagged f)) 0#8 (flagged f) (begun c0) ∧ (begun c0).rxSize = 0) ∧
    (slaveAt (st (inTransaction c f)) 0#8 (inTransaction c f) (begun c) ∧ 0 < (begun c).rxSize ∧
      (begun c).rxBuff = some 0) ∧
    (flagged f).hw.irqEn = true ∧ (flagged f).hw.sef.rxdata = true ∧ (flagged f).hw.sie.rxdata = true ∧
    (st (flagged f)).inp.cb = [] ∧ Memory.wf (st (flagged f)).mem = true := by
  decide

theorem witness_CallbackRefillInTime :
    let f := { SSources.none with txdata := true }
    let s := stCb [.ssettx 0x5000 2] (flagged f)
    slaveAt s 0#8 (flagged f) (begun c0) ∧ (begun c0).txSize = 0 ∧ (begun c0).callback.isSome ∧
    (flagged f).hw.irqEn = true ∧ (flagged f).hw.sef.txdata = true ∧ (flagged f).hw.sie.txdata = true ∧
    2 < 2 ^ s.par.sizeW ∧ 0x5000 + 2 ≤ 2 ^ s.par.addrW ∧ s.inp.cb = [.ssettx 0x5000 2] := by
  decide

theorem witness_CallbackRefillInTime_receive :
    let f := { SSources.none with rxdata := true }
    let s := stCb [.ssetrx (2 ^ 32 - 1) 1] (flagged f)
    slaveAt s 0#8 (flagged f) (begun c0) ∧ (begun c0).rxSize = 0 ∧ (begun c0).callback.isSome ∧
    (flagged f).hw.irqEn = true ∧ (flagged f).hw.sef.rxdata = true ∧ (flagged f).hw.sie.rxdata = true ∧
    1 < 2 ^ s.par.sizeW ∧ 2 ^ 32 - 1 + 1 ≤ 2 ^ s.par.addrW ∧ s.inp.cb = [.ssetrx (2 ^ 32 - 1) 1] ∧
    Memory.wf s.mem = true := by
  decide

theorem witness_SlaveBoundaryResult :
    let x := flagged { SSources.none with rstart := true, stop := true }
    slaveAt (st x) 0#8 x (begun c0) ∧ x.hw.irqEn = true ∧ (st x).inp.cb = [] ∧ x.hw.sef.rstart = true ∧
    x.hw.sie.rstart = true ∧ x.hw.sef.stop = true ∧ x.hw.sie.stop = true := by
  decide

theorem witness_SlaveErrorResult :
    let x := flagged { SSources.none with biterr := true, sfifoerr := true }
    slaveAt (st x) 0#8 x (begun c0) ∧ x.hw.irqEn = true ∧ (st x).inp.cb = [] ∧ x.hw.sef.biterr = true ∧
    x.hw.sie.biterr = true ∧ x.hw.sef.sfifoerr = true ∧ x.hw.sie.sfifoerr = true := by
  decide

/-- A bus whose channel has `n` bytes to move. -/
def channel (x : Inst) (dir : DmaDir) (reg : DmaReg) (n : Nat) : Inst := { x with dma := .running dir reg (2 ^ 32 - 1) n }

theorem witness_DmaByteMoves :
    let tx := channel (mBus mSending { hm with txf := [1#11, 2#11, 3#11] }) .memToPeriph .mtx 1
    let rx := channel (receiving 2 0 [7#8]) .periphToMem .mrx 1
    let stx := channel (flagged { SSources.none with txdata := true }) .memToPeriph .stx 1
    let srx := channel (flagged { SSources.none with rxdata := true }) .periphToMem .srx 1
    let none := channel sent .memToPeriph .mtx 0
    (busAt (st tx) 0#8 tx ∧ (mSending.swqWr = mSending.swqRd ∧ tx.hw.txf.length < (st tx).par.txDepth ∧
      mSending.idle = false ∧ tx.role = .master mSending)) ∧
    (busAt (st rx) 0#8 rx ∧ rx.hw.rxw < rx.hw.rxf.length) ∧ (busAt (st stx) 0#8 stx ∧ stx.hw.sef.txdata = true) ∧
    (busAt (st srx) 0#8 srx ∧ srx.hw.sef.rxdata = true) ∧
    (busAt (st none) 0#8 none ∧ none.dma = .running .memToPeriph .mtx (2 ^ 32 - 1) 0) ∧
    2 ^ 32 - 1 < 2 ^ (st tx).par.addrW ∧ Memory.wf (st tx).mem = true := by
  decide

theorem witness_MasterDmaokResult :
    (let x := dmaDone sending .memToPeriph .mtx
     masterAt (st x) 0#8 x mSending ∧ x.hw.irqEn = true ∧ x.dma = .running .memToPeriph .mtx 0x1002 0 ∧
     mSending.dir = .send) ∧
    (let x := dmaDone (receiving 2 0 []) .periphToMem .mrx
     masterAt (st x) 0#8 x (mReceiving 2) ∧ x.hw.irqEn = true ∧ x.dma = .running .periphToMem .mrx 0x1002 0 ∧
     (mReceiving 2).dir ≠ .send ∧ (st x).inp.cb = [] ∧ (mReceiving 2).swqWr = (mReceiving 2).swqRd ∧
     x.hw.txf.length < (st x).par.txDepth) := by
  decide

theorem witness_MasterDmaerrResult :
    let x := dmaDone sending .memToPeriph .mtx
    masterAt (st x) 0#8 x mSending ∧ x.hw.irqEn = true ∧ x.dma = .running .memToPeriph .mtx 0x1002 0 ∧
    (st x).inp.cb = [] ∧ 1 ≤ (st x).par.txDepth := by
  decide

theorem witness_SlaveDmaResult :
    (let x := dmaDone (flagged .none) .memToPeriph .stx
     slaveAt (st x) 0#8 x (begun c0) ∧ x.hw.irqEn = true ∧ x.dma = .running .memToPeriph .stx 0x1002 0 ∧
     (st x).inp.cb = []) ∧
    (let x := dmaDone (flagged .none) .periphToMem .srx
     slaveAt (st x) 0#8 x (begun c0) ∧ x.hw.irqEn = true ∧ x.dma = .running .periphToMem .srx 0x1002 0 ∧
     DmaReg.srx ≠ .stx) := by
  decide

theorem witness_SemaphoreTaken :
    (masterAt (st (waiting .second)) 0#8 (waiting .second) { mSending with blocking := true } ∧
      (waiting .second).hostw = some ⟨.m, 10, .second⟩) ∧
    (let c := { cOd with sem := true, blocking := true }
     let x := { sBus c hs with hostw := some ⟨.s, 10, .first⟩ }
     slaveAt (st x) 0#8 x c ∧ x.hostw = some ⟨.s, 10, .first⟩ ∧ c.sem = true) := by
  decide

theorem witness_WtimeoutForceAborts :
    let m := { mSending with blocking := true }
    masterAt (st (waiting .first)) 0#8 (waiting .first) m ∧ (waiting .first).hostw = some ⟨.m, 10, .first⟩ ∧
    m.sem = false ∧ 1 ≤ (st (waiting .first)).par.txDepth ∧ m.dir = .send := by
  decide

theorem witness_WtimeoutOfReceive :
    let wait (n : Nat) : Inst := { receiving n 1 [1#8, 2#8] with hostw := some ⟨.m, 10, .first⟩ }
    (masterAt (st (wait 3)) 0#8 (wait 3) (mReceiving 3) ∧ (wait 3).hostw = some ⟨.m, 10, .first⟩ ∧
      (mReceiving 3).sem = false ∧ (mReceiving 3).dir ≠ .send ∧ (mReceiving 3).phase ≠ .addressing ∧
      (mReceiving 3).transferType = .interrupts ∧ (wait 3).hw.rxf.length < (mReceiving 3).rxSize) ∧
    (masterAt (st (wait 2)) 0#8 (wait 2) (mReceiving 2) ∧ (mReceiving 2).rxSize ≤ (wait 2).hw.rxf.length ∧
      (mReceiving 2).rxBuff = some 0x2000 ∧ Memory.wf (st (wait 2)).mem = true ∧ (st (wait 2)).inp.cb = [] ∧
      (mReceiving 2).swqWr = (mReceiving 2).swqRd ∧ (wait 2).hw.txf.length < (st (wait 2)).par.txDepth) := by
  decide

/-- The late success with a callback: its requests are issued, an answered one and a refused one. -/
theorem witness_WtimeoutOfReceive_callback :
    let m := { mReceiving 0 with callback := cb, rxBuff := none }
    let x : Inst := { mBus m hm with hostw := some ⟨.m, 10, .first⟩ }
    let y := receiveCompleted Params.default { m with abortedByTimeout := true, blocking := false } x
    masterAt (stCb [.mstatus] x) 0#8 x m ∧ x.hostw = some ⟨.m, 10, .first⟩ ∧ m.sem = false ∧ m.dir ≠ .send ∧
    m.phase ≠ .addressing ∧ m.transferType = .interrupts ∧ m.rxSize ≤ x.hw.rxf.length ∧ m.swqWr = m.swqRd ∧
    x.hw.txf.length < Params.default.txDepth ∧ y.cbTrace ≠ x.cbTrace ∧
    (∃ s', callbackRuns 0#8 [.mstatus] (stCb [.mstatus] y) = .next s') ∧
    callbackRuns 0#8 [.msend 0x1000 1 true] (stCb [.msend 0x1000 1 true] y) = .refused .hostSuspended := by
  refine ⟨by decide, by decide, by decide, by decide, by decide, by decide, by decide, by decide, by decide, by decide,
    ⟨_, rfl⟩, rfl⟩

theorem witness_WtimeoutReinitialises :
    let m := { mSending with blocking := true }
    masterAt (st (waiting .second)) 0#8 (waiting .second) m ∧ (waiting .second).hostw = some ⟨.m, 10, .second⟩ ∧
    m.sem = false := by
  decide

theorem witness_SlaveWtimeoutResult :
    let c := { cOd with isTransferInProgress := true, status := .busy, phase := .addressing, blocking := true }
    let x := { sBus c hs with hostw := some ⟨.s, 10, .first⟩ }
    slaveAt (st x) 0#8 x c ∧ x.hostw = some ⟨.s, 10, .first⟩ ∧ c.sem = false := by
  decide

/-- Good states of every role: none, an idle master, a master sending and waiting, a master receiving, a listening slave in
mid-transaction, an on-demand slave. -/
theorem witness_good :
    (st Inst.reset).good ∧ (st idle).good ∧ (st sending).good ∧ (st (waiting .first)).good ∧
    (st (receiving 3 2 [1#8, 2#8, 3#8])).good ∧ (st (flagged { SSources.none with stop := true })).good ∧
    (st (sBus cOd { hs with sen := false, sie := .none })).good := by
  decide

/-- A good state with a turn in front of its schedule is good, and its step goes on. -/
theorem witness_StepKeepsGood :
    (turn (st sending) (go (.busm 0#8))).good ∧ ∃ s', step (turn (st sending) (go (.busm 0#8))) = .next s' :=
  ⟨by decide, _, rfl⟩

/-- Both faults of the host come from good states. -/
theorem witness_GoodStepsRaiseOnlyHostFaults :
    ((turn (st sending) (go (.request 0x0200#16 Ports.zero))).good ∧
      step (turn (st sending) (go (.request 0x0200#16 Ports.zero))) = .fault .deinitWhileBusy) ∧
    ((turn (st idle) (go (.app (2 ^ 32) 1#8))).good ∧
      step (turn (st idle) (go (.app (2 ^ 32) 1#8))) = .fault .noSuchAddress) :=
  ⟨⟨by decide, rfl⟩, ⟨by decide, rfl⟩⟩

theorem witness_GoodStatesMeetTheSpecsInvariants :
    (st sending).good ∧ sending ∈ (st sending).insts ∧ sending.role = .master mSending := by
  decide

theorem witness_StepKeepsMemoryForm :
    Memory.wf (turn (st idle) (go (.app 7 1#8))).mem = true ∧
    ∃ s', step (turn (st idle) (go (.app 7 1#8))) = .next s' :=
  ⟨by decide, _, rfl⟩

theorem witness_InstructionsTouchTheirBusOnly :
    ∃ s', exec (.msend 0#8 0x1000 2 true) (st idle) = .next s' ∧ (1#8 : BusIndex) ≠ (Instr.msend 0#8 0x1000 2 true).bus ∧
      mayStore (.msend 0#8 0x1000 2 true) = false :=
  ⟨_, rfl, by decide, rfl⟩

theorem witness_OtherBusesUntouched :
    let s := { st idle with insts := [idle, sending], par := { Params.default with numInst := 2 } }
    agentBus (.busm 1#8) ≠ some 0#8 ∧ ∃ s', step (turn s (go (.busm 1#8))) = .next s' :=
  ⟨by decide, _, rfl⟩

theorem witness_TracesOnlyGrow :
    ∃ s' y, step (turn (st sending) (go (.busm 0#8))) = .next s' ∧ busAt (turn (st sending) (go (.busm 0#8))) 0#8 sending ∧
      busAt s' 0#8 y :=
  ⟨_, _, rfl, rfl, rfl⟩

/-- A completed send whose callback asks for the status, and the stop of a slave whose callback supplies a buffer: both
handlers go on with a silent callback, and invoke it. -/
theorem witness_CallbackRunsItsRequests :
    (let s := stCb [.mstatus, .mrecv 0x2000 1 true] sent
     busAt s (Instr.txrdy 0#8).bus sent ∧ endsWithCallback (.txrdy 0#8) = true ∧
     after (exec (.txrdy 0#8) { s with inp := { s.inp with cb := [] } }) (·.cbTrace) = some [(.endTransfer, 0xC0DE)]) ∧
    (let x := flagged { SSources.none with stop := true }
     let s := stCb [.ssetrx 0x4000 2, .sstatus] x
     busAt s (Instr.evtStop 0#8).bus x ∧ endsWithCallback (.evtStop 0#8) = true ∧
     after (exec (.evtStop 0#8) { s with inp := { s.inp with cb := [] } }) (·.cbTrace) = some [(.stopEvent, 0x5A)]) ∧
    (busAt (st idle) (Instr.nack 0#8).bus idle ∧
     refusalOf (exec (.nack 0#8) { st idle with inp := { (st idle).inp with cb := [] } }) = some .notEnabled) := by
  decide

theorem witness_CallbackWhileHostWaits :
    (let m := { mSending with callback := cb, callbackParam := 0xC0DE }
     let x := { sent with hostw := some ⟨.m, 10, .first⟩ }
     let s (rs : List CbReq) := stCb rs x
     masterAt (s [.mstatus]) 0#8 x m ∧ x.hw.irqEn = true ∧ x.hw.mie.txrdy = true ∧ m.callback.isSome ∧
     m.swqWr = m.swqRd ∧ m.dir = .send ∧ m.txSize = 0 ∧ x.hw.txf = [] ∧ (m.transferType = .dma → x.dma = .stopped) ∧
     1 ≤ (s [.mstatus]).par.txDepth ∧ x.hostw.isSome ∧ (s [.mgetbaud]).inp.cb = [.mgetbaud] ∧
     (s [.mrecv 0x2000 1 true]).inp.cb = [.mrecv 0x2000 1 true]) ∧
    (let x := { flagged { SSources.none with stop := true } with hostw := some ⟨.s, 10, .first⟩ }
     let s := stCb [.ssetrx (2 ^ 32 - 1) 1] x
     slaveAt s 0#8 x (begun c0) ∧ x.hw.irqEn = true ∧ x.hw.sef.stop = true ∧ x.hw.sie.stop = true ∧
     (begun c0).callback.isSome ∧ 1 < 2 ^ s.par.sizeW ∧ (2 ^ 32 - 1) + 1 ≤ 2 ^ s.par.addrW ∧ x.hostw.isSome) := by
  decide

/-- P3 step 3: the callback of a failed transfer polls the status. -/
theorem test_callback_polls :
    let x := { sending with
      hw := { sending.hw with mef := { MLatched.none with nack := true } }, hostw := some ⟨.m, 10, .first⟩
      role := .master { mSending with callback := cb, callbackParam := 0xC0DE } }
    after (exec (.nack 0#8) (stCb [.mstatus] x)) lastReply = some (some (.receivedNack, some 0)) := by
  decide

end Sys2Proof.Tests
end

section
/-! SUPPORT. The frame of every step, said once for each routine: what an engine's work on one bus never changes (the
parameters, the inputs, the platform's constants, the canonical form of memory), what it only appends to (the wire trace,
the slave transmit trace, the callback trace, the record of answers), and that memory is written by the storing routines
alone (spec 00_scope.md R9; 10_state.md R43, R44, R52; 20_memory.md R80, R95, R96). -/

namespace Sys2Proof.Machine

/-! ## The frame of a view -/

/-- The two traces among the registers (R43, R44). -/
def HW.traces (h : HW) : List WireSym × List Byte := (h.wire, h.stx)

/-- What the work of an engine on its view leaves: memory too, where the work is not one that `stores`. -/
structure Node.Frame {C : Type} (stores : Bool) (n n' : Node C) : Prop where
  par : n'.par = n.par
  inp : n'.inp = n.inp
  memForm : Memory.wf n.mem = true → Memory.wf n'.mem = true
  memKept : stores = false → n'.mem = n.mem
  wire : n.hw.wire <+: n'.hw.wire
  stx : n.hw.stx <+: n'.hw.stx
  cbTrace : n.cbTrace <+: n'.cbTrace
  replies : n.replies <+: n'.replies

/-- Wherever a rule goes on from a view, it keeps the frame of it. -/
def Node.Frames {C : Type} (stores : Bool) (n : Node C) (r : Res (Node C)) : Prop :=
  ∀ n', r = .next n' → n.Frame stores n'

section
variable {C α : Type} {b : Bool} {n m l : Node C} {r : Res (Node C)}

theorem Node.Frame.refl : n.Frame b n :=
  ⟨rfl, rfl, id, fun _ => rfl, List.prefix_rfl, List.prefix_rfl, List.prefix_rfl, List.prefix_rfl⟩

theorem Node.Frame.trans (h₁ : n.Frame b m) (h₂ : m.Frame b l) : n.Frame b l where
  par := h₂.par.trans h₁.par
  inp := h₂.inp.trans h₁.inp
  memForm h := h₂.memForm (h₁.memForm h)
  memKept h := (h₂.memKept h).trans (h₁.memKept h)
  wire := h₁.wire.trans h₂.wire
  stx := h₁.stx.trans h₂.stx
  cbTrace := h₁.cbTrace.trans h₂.cbTrace
  replies := h₁.replies.trans h₂.replies

/-- The context, the channel and the host's record may be written. -/
theorem Node.Frame.context {ctx : C} {dma : DmaCh} {hostw : Option Wait} :
    n.Frame b { n with ctx := ctx, dma := dma, hostw := hostw } :=
  { Node.Frame.refl (n := n) with }

/-- The registers may be written with them, the traces among the registers left as they are. (Where the view behind the
update is found only later in a proof, the equation is given as `by rfl`, which waits for it.) -/
theorem Node.Frame.registers {ctx : C} {hw : HW} {dma : DmaCh} {hostw : Option Wait} (h : hw.traces = n.hw.traces) :
    n.Frame b { n with ctx := ctx, hw := hw, dma := dma, hostw := hostw } := by
  obtain ⟨hwire, hstx⟩ := Prod.mk.inj h
  exact { Node.Frame.refl (n := n) with wire := by simp [hwire], stx := by simp [hstx] }

/-- The record of answers may grow. -/
theorem Node.Frame.answers {rs : List Reply} : n.Frame b { n with replies := n.replies ++ rs } :=
  { Node.Frame.refl with replies := List.prefix_append .. }

/-- The callback trace may grow. -/
theorem Node.Frame.calls {ev : List (CbEvent × Nat)} : n.Frame b { n with cbTrace := n.cbTrace ++ ev } :=
  { Node.Frame.refl with cbTrace := List.prefix_append .. }

/-- A stored byte keeps the canonical form. -/
theorem Node.Frame.store {a : Nat} {v : Byte} : n.Frame true { n with mem := n.mem.write a v } :=
  { Node.Frame.refl (n := n) (b := true) with memForm := Memory.wf_write a v, memKept := nofun }

theorem Node.Frame.ite {c : Prop} [Decidable c] (h₁ : n.Frame b m) (h₂ : n.Frame b l) :
    n.Frame b (if c then m else l) := by
  split
  · exact h₁
  · exact h₂

theorem Node.Frames.next (h : n.Frame b m) : n.Frames b (.next m) := by
  rintro _ ⟨⟩
  exact h

theorem Node.Frames.refused {e : Refusal} : n.Frames b (.refused e) := fun _ h => by cases h

/-- A rule that works behind a framed update. -/
theorem Node.Frames.behind (h : n.Frame b m) (hr : m.Frames b r) : n.Frames b r :=
  fun l hl => h.trans (hr l hl)

/-- A sequence of two rules. -/
theorem Node.Frames.andThen {f : Node C → Res (Node C)} (hr : n.Frames b r) (hf : ∀ m : Node C, m.Frames b (f m)) :
    n.Frames b (andThen r f) := by
  intro l hl
  obtain ⟨m, hm, hl⟩ := andThen_eq_next.mp hl
  exact (hr m hm).trans (hf m l hl)

/-- A rule behind a value that is read. -/
theorem Node.Frames.reading {v : Res α} {f : α → Res (Node C)} (hf : ∀ a, v = .next a → n.Frames b (f a)) :
    n.Frames b (Machine.andThen v f) := by
  intro l hl
  obtain ⟨a, ha, hl⟩ := andThen_eq_next.mp hl
  exact hf a ha l hl

theorem Node.Frames.ite {c : Prop} [Decidable c] {r₁ r₂ : Res (Node C)} (h₁ : n.Frames b r₁) (h₂ : n.Frames b r₂) :
    n.Frames b (if c then r₁ else r₂) := by
  split
  · exact h₁
  · exact h₂

/-! ## Shared operations -/

theorem reply_frame {o : Origin} {st : Status} : n.Frame b (reply o st n) := .answers

theorem replyBytes_frame {o : Origin} {st : Status} {k : Nat} : n.Frame b (replyBytes o st k n) := .answers

theorem replyBaud_frame {o : Origin} {st : Status} {md : Mode} {p q : BitVec 32} :
    n.Frame b (replyBaud o st md p q n) := .answers

theorem resumeHost_frame {st : Status} : n.Frame b (resumeHost st n) :=
  .trans .context reply_frame

theorem completeOrWait_frame {o : Origin} {e : Engine} {t : Option Nat} : n.Frame b (completeOrWait o e t n) := by
  cases t with
  | none => exact reply_frame
  | some t => exact .context

theorem writeStdr_frame {v : Byte} : n.Frame b (writeStdr v n) :=
  { Node.Frame.refl (n := n) with stx := List.prefix_append .. }

theorem pushTxf_frames {w : CmdWord} : n.Frames b (pushTxf w n) := by
  intro m hm
  obtain ⟨-, rfl⟩ := pushTxf_eq_next.mp hm
  exact .registers rfl

end

/-! ## The command queue and the address phase -/

section
variable {b : Bool} {n : MNode}

theorem offer_frames {c : Cmd} {d : Byte} : n.Frames b (offer c d n) := by
  intro m hm
  obtain ⟨-, -, rfl⟩ | ⟨-, -, rfl⟩ := offer_eq_next hm
  · exact .registers rfl
  · exact .context

theorem drainQueue_frames : n.Frames b (drainQueue n) := by
  refine .andThen (fun m hm => ?_) fun m => .ite (.next .context) (.next .refl)
  obtain ⟨wr, rd, txf, rfl⟩ := drainLoop_frame hm
  exact .registers rfl

theorem masterCodePhase_frames : n.Frames b (masterCodePhase n) :=
  .ite (.andThen offer_frames fun _ => .next .context) (.next .refl)

theorem addressPhase_frames {dir : Dir} : n.Frames b (addressPhase dir n) :=
  .andThen masterCodePhase_frames fun _ =>
    .ite offer_frames
      (.andThen offer_frames fun _ => .andThen offer_frames fun _ => .ite offer_frames (.next .refl))

theorem enterTransferring_frame : n.Frame b (enterTransferring n) := .ite .context .refl

/-! ## The fill and the drains -/

theorem fillOne_frames : n.Frames b (fillOne n) :=
  .reading fun _ _ => .reading fun _ _ => .andThen pushTxf_frames fun _ => .next .context

theorem fillLoop_frames {fuel : Nat} : n.Frames b (fillLoop fuel n) := by
  induction fuel generalizing n with
  | zero => exact .next .refl
  | succ fuel ih => exact .ite (.andThen fillOne_frames fun _ => ih) (.next .refl)

/-- The drain's byte is the master's one store. -/
theorem drainOne_frames : n.Frames true (drainOne n) := by
  refine .reading fun r hr => .reading fun a _ => .reading fun mem hmem => .next ?_
  obtain ⟨rest, -, he⟩ := popRxf_eq_next.mp hr
  obtain ⟨-, rfl⟩ := memWrite_eq_next.mp hmem
  rw [he]
  exact .trans .store (.registers rfl)

theorem lateLoop_frames {fuel : Nat} : n.Frames true (lateLoop fuel n) := by
  induction fuel generalizing n with
  | zero => exact .next .refl
  | succ fuel ih => exact .andThen drainOne_frames fun _ => ih

theorem rxLoop_frames {fuel : Nat} : n.Frames true (rxLoop fuel n) := by
  rw [rxLoop_eq_lateLoop]
  exact lateLoop_frames

/-! ## Master requests -/

theorem sendStart_frames {buf len : Nat} : n.Frames b (sendStart buf len n) := by
  refine .andThen addressPhase_frames fun m => .behind enterTransferring_frame ?_
  dsimp only
  split
  · exact .andThen (.ite fillLoop_frames (.next .refl)) fun _ => .next (.registers rfl)
  · exact .next (.registers rfl)

theorem recvStart_frames {buf len : Nat} : n.Frames b (recvStart buf len n) := by
  refine .behind (.registers (by rfl)) (.andThen addressPhase_frames fun _ =>
    .andThen offer_frames fun m => .behind enterTransferring_frame ?_)
  dsimp only
  split
  · exact .next (.registers rfl)
  · exact .next (.registers rfl)

theorem mTransfer_frames {start : Nat → Nat → MNode → Res MNode}
    (hstart : ∀ buf len m, Node.Frames b m (start buf len m)) {dir : Dir} {o : Origin} {buf len : Nat}
    {stop : Bool} {t : Option Nat} : n.Frames b (mTransfer start dir o buf len stop t n) := by
  refine .ite .refused ?_
  split
  · exact .next reply_frame
  · exact .refused
  · exact .behind (.registers (by rfl)) (.andThen (hstart _ _ _) fun _ => .next completeOrWait_frame)

theorem mSend_frames {o : Origin} {buf len : Nat} {stop : Bool} {t : Option Nat} :
    n.Frames b (mSend o buf len stop t n) :=
  mTransfer_frames fun _ _ _ => sendStart_frames

theorem mRecv_frames {o : Origin} {buf len : Nat} {stop : Bool} {t : Option Nat} :
    n.Frames b (mRecv o buf len stop t n) :=
  mTransfer_frames fun _ _ _ => recvStart_frames

theorem mStatus_frames {o : Origin} : n.Frames b (mStatus o n) := .ite .refused (.next replyBytes_frame)

theorem mGetBaud_frames {o : Origin} : n.Frames b (mGetBaud o n) := .ite .refused (.next replyBaud_frame)

theorem mSetBaud_frames {o : Origin} {md : BitVec 3} {p q : BitVec 32} : n.Frames b (mSetBaud o md p q n) := by
  refine .ite .refused ?_
  split
  · exact .refused
  · exact .ite (.next reply_frame) (.next (.trans (.registers (by rfl)) reply_frame))

/-! ## The master callback and the end of a transfer -/

theorem mCallbackRequest_frames {r : CbReq} : n.Frames b (mCallbackRequest r n) := by
  cases r with
  | msend => exact mSend_frames
  | mrecv => exact mRecv_frames
  | mstatus => exact mStatus_frames
  | mgetbaud => exact mGetBaud_frames
  | msetbaud => exact mSetBaud_frames
  | ssettx | ssetrx | sstatus => exact .refused

theorem mCallbackRun_frames {rs : List CbReq} : n.Frames b (mCallbackRun rs n) := by
  induction rs generalizing n with
  | nil => exact .next .refl
  | cons r rs ih => exact .andThen mCallbackRequest_frames fun _ => ih

theorem mCallback_frames {ev : CbEvent} : n.Frames b (mCallback ev n) := by
  unfold mCallback
  split
  · exact .next .refl
  · exact .behind .calls mCallbackRun_frames

theorem mEndQuiet_frame {reset : Bool} : n.Frame b (mEndQuiet reset n) := by
  rw [mEndQuiet_eq]
  exact .registers rfl

theorem mEnd_frames {stop reset : Bool} : n.Frames b (mEnd stop reset n) :=
  .behind mEndQuiet_frame
    (.andThen (.ite (.andThen offer_frames fun _ => .next .context) (.next .refl)) fun _ => .next .context)

theorem mNotify_frames : n.Frames b (mNotify n) := .behind .context mCallback_frames

theorem mFinish_frames {st : Status} {stop reset : Bool} : n.Frames b (mFinish st stop reset n) :=
  .behind .context (.andThen mEnd_frames fun _ => .behind .context mNotify_frames)

theorem rxComplete_frames : n.Frames b (rxComplete n) :=
  .behind .context (.andThen mEnd_frames fun _ => .behind .context (.ite (.next .refl) mCallback_frames))

theorem errEnd_frames {st : Status} {clear : MLatched → MLatched} : n.Frames b (errEnd st clear n) :=
  .behind .context (.andThen mEnd_frames fun _ =>
    .andThen (.behind .context mNotify_frames) fun _ => .next (.registers rfl))

theorem forceAbort_frames {st : Status} : n.Frames b (forceAbort st n) :=
  .behind .context (.andThen mEnd_frames fun _ => .next .context)

theorem mAbort_frames : n.Frames b (mAbort n) :=
  .ite .refused (.ite (.next reply_frame) (.ite (.next reply_frame)
    (.andThen forceAbort_frames fun _ => .next reply_frame)))

/-! ## Master events -/

theorem handleTxrdy_frames : n.Frames b (handleTxrdy n) :=
  .andThen drainQueue_frames fun _ =>
    .ite (.next .refl) (.ite (.next (.registers rfl)) (.ite (.next (.registers rfl))
      (.ite mFinish_frames fillLoop_frames)))

theorem handleRxrdy_frames : n.Frames true (handleRxrdy n) :=
  .andThen rxLoop_frames fun _ => .ite rxComplete_frames (.next (.ite (.registers rfl) .refl))

theorem handleNack_frames : n.Frames b (handleNack n) := .ite (.next (.registers rfl)) errEnd_frames

theorem masterDmaok_frames : n.Frames b (masterDmaok n) :=
  .behind .context (.ite (.next (.registers rfl)) (.behind .context rxComplete_frames))

theorem masterDmaerr_frames : n.Frames b (masterDmaerr n) := mFinish_frames

theorem timeoutAbort_frames : n.Frames b (timeoutAbort n) :=
  .andThen forceAbort_frames fun _ => .next (.trans .context resumeHost_frame)

theorem lateSuccess_frames : n.Frames true (lateSuccess n) :=
  .andThen lateLoop_frames fun _ =>
    .andThen (.behind .context rxComplete_frames) fun _ => .next (.trans .context resumeHost_frame)

theorem masterTimeout_frames {w : Wait} : n.Frames true (masterTimeout w n) := by
  unfold masterTimeout
  split
  · exact .ite timeoutAbort_frames (.behind .context (.ite lateSuccess_frames (.next (.registers rfl))))
  · exact .next (.trans (.registers (by rfl)) resumeHost_frame)

end

/-! ## The slave engine -/

section
variable {b : Bool} {n : SNode}

theorem sTransfer_frames {dir : Dir} {buf len : Nat} {t : Option Nat} : n.Frames b (sTransfer dir buf len t n) := by
  refine .ite .refused ?_
  split
  · exact .next reply_frame
  · exact .refused
  · exact .next (.trans (.registers (by rfl)) completeOrWait_frame)

theorem sSetTx_frames {o : Origin} {buf len : Nat} : n.Frames b (sSetTx o buf len n) :=
  .ite .refused (.ite .refused (.next (.trans .context reply_frame)))

theorem sSetRx_frames {o : Origin} {buf len : Nat} : n.Frames b (sSetRx o buf len n) :=
  .ite .refused (.ite .refused (.next (.trans .context reply_frame)))

theorem sStatus_frames {o : Origin} : n.Frames b (sStatus o n) := .ite .refused (.next replyBytes_frame)

theorem sAbort_frames : n.Frames b (sAbort n) :=
  .ite .refused (.ite (.next reply_frame) (.ite (.next reply_frame)
    (.next (.trans (.registers (by rfl)) reply_frame))))

theorem sCallbackRequest_frames {r : CbReq} : n.Frames b (sCallbackRequest r n) := by
  cases r with
  | ssettx => exact sSetTx_frames
  | ssetrx => exact sSetRx_frames
  | sstatus => exact sStatus_frames
  | msend | mrecv | mstatus | mgetbaud | msetbaud => exact .refused

theorem sCallbackRun_frames {rs : List CbReq} : n.Frames b (sCallbackRun rs n) := by
  induction rs generalizing n with
  | nil => exact .next .refl
  | cons r rs ih => exact .andThen sCallbackRequest_frames fun _ => ih

theorem sCallback_frames {ev : CbEvent} : n.Frames b (sCallback ev n) := by
  unfold sCallback
  split
  · exact .next .refl
  · exact .behind .calls sCallbackRun_frames

theorem sEnd_keepsFrame : n.Frame b (sEnd n) :=
  Node.Frame.trans (m := sEndCommon n) (.registers rfl) (.ite .refl (.registers rfl))

theorem sArm_frames {dir : DmaDir} {reg : DmaReg} {buf : Option Nat} {count : Nat} :
    n.Frames b (sArm dir reg buf count n) :=
  .reading fun _ _ => .next .context

theorem handleAddrvalid_frames : n.Frames b (handleAddrvalid n) :=
  .behind (.registers (by rfl)) (.ite
    (.andThen (.behind .context sCallback_frames) fun _ => .ite sArm_frames (.next (.registers rfl)))
    (.andThen sCallback_frames fun _ => .ite sArm_frames (.next (.registers rfl))))

theorem handleTxdata_frames : n.Frames b (handleTxdata n) :=
  .andThen (.ite sCallback_frames (.next .refl)) fun _ =>
    .ite (.next (.trans .context writeStdr_frame))
      (.reading fun _ _ => .reading fun _ _ => .next (.trans .context writeStdr_frame))

/-- The received byte is the slave's one store. -/
theorem storeByte_frames {v : Byte} : n.Frames true (storeByte v n) := by
  refine .reading fun a _ => .reading fun mem hmem => .next ?_
  obtain ⟨-, rfl⟩ := memWrite_eq_next.mp hmem
  exact .trans .store .context

theorem handleRxdata_frames : n.Frames true (handleRxdata n) :=
  .andThen (.ite sCallback_frames (.next .refl)) fun _ =>
    .behind (.registers (by rfl)) (.ite (.next .context) storeByte_frames)

theorem boundary_frames : n.Frames b (boundary n) := .behind sEnd_keepsFrame sCallback_frames

theorem handleRstart_frames : n.Frames b (handleRstart n) :=
  .behind (.registers (by rfl)) (.ite (.next .refl) boundary_frames)

theorem handleStop_frames : n.Frames b (handleStop n) := .behind (.registers (by rfl)) boundary_frames

theorem slaveError_frames : n.Frames b (slaveError n) :=
  .behind .context (.behind sEnd_keepsFrame sCallback_frames)

theorem handleBiterr_frames : n.Frames b (handleBiterr n) := .behind (.registers (by rfl)) slaveError_frames

theorem handleSfifoerr_frames : n.Frames b (handleSfifoerr n) := .behind (.registers (by rfl)) slaveError_frames

theorem slaveDmaok_frames {reg : DmaReg} : n.Frames b (slaveDmaok reg n) :=
  .behind .context (.ite (.next (.registers rfl)) (.next (.registers rfl)))

theorem slaveDmaerr_frames {reg : DmaReg} : n.Frames b (slaveDmaerr reg n) :=
  .behind .context (.behind sEnd_keepsFrame sCallback_frames)

theorem slaveTimeout_frame : n.Frame b (slaveTimeout n) := .trans (.registers (by rfl)) resumeHost_frame

end

/-! ## The DMA channel -/

theorem dmaByte_frames {reg : DmaReg} {ptr : Nat} {n : Node Unit} : n.Frames true (dmaByte reg ptr n) := by
  intro m hm
  obtain ⟨-, hm⟩ := dmaByte_eq_next hm
  cases reg with
  | mtx =>
    obtain ⟨-, rfl⟩ := hm
    exact .registers rfl
  | mrx =>
    obtain ⟨v, rest, -, rfl⟩ := hm
    exact .trans .store (.registers rfl)
  | stx =>
    cases hm
    exact writeStdr_frame
  | srx =>
    cases hm
    exact .trans .store (.registers rfl)

theorem dmaMove_frames {n : Node Unit} : n.Frames true (dmaMove n) := by
  unfold dmaMove
  split
  · exact .next .refl
  · exact .andThen dmaByte_frames fun _ => .next .context

end Sys2Proof.Machine
end

section
/-! SUPPORT. The frame of a whole step: one bus may change, and that one only as its frame allows; and the statement about
the memory's form, the parameters and the platform that follows from it. -/

namespace Sys2Proof.Machine
open Sys2Proof.Claims

/-! ## The frame of one bus -/

/-- What no step takes back from a bus: the platform's constants (R9, R96) and what its traces hold. -/
structure Inst.Frame (x y : Inst) : Prop where
  slaveCapable : y.slaveCapable = x.slaveCapable
  base : y.base = x.base
  wire : x.hw.wire <+: y.hw.wire
  stx : x.hw.stx <+: y.hw.stx
  cbTrace : x.cbTrace <+: y.cbTrace
  replies : x.replies <+: y.replies

theorem Inst.Frame.trans {x y z : Inst} (h₁ : x.Frame y) (h₂ : y.Frame z) : x.Frame z where
  slaveCapable := h₂.slaveCapable.trans h₁.slaveCapable
  base := h₂.base.trans h₁.base
  wire := h₁.wire.trans h₂.wire
  stx := h₁.stx.trans h₂.stx
  cbTrace := h₁.cbTrace.trans h₂.cbTrace
  replies := h₁.replies.trans h₂.replies

theorem Inst.Frame.refl {x : Inst} : x.Frame x :=
  ⟨rfl, rfl, List.prefix_rfl, List.prefix_rfl, List.prefix_rfl, List.prefix_rfl⟩

/-- The role, the registers, the channel and the host's record may be written and an answer recorded, the traces among the
registers left as they are. -/
theorem Inst.Frame.answers {x : Inst} {role : Role} {hw : HW} {dma : DmaCh} {hostw : Option Wait} {rs : List Reply}
    (h : hw.traces = x.hw.traces) :
    x.Frame { x with role := role, hw := hw, dma := dma, hostw := hostw, replies := x.replies ++ rs } := by
  obtain ⟨hwire, hstx⟩ := Prod.mk.inj h
  exact { Inst.Frame.refl (x := x) with
    wire := by simp [hwire], stx := by simp [hstx], replies := List.prefix_append .. }

/-- The registers may be written, the traces among them left as they are. -/
theorem Inst.Frame.registers {x : Inst} {hw : HW} (h : hw.traces = x.hw.traces) : x.Frame { x with hw := hw } := by
  obtain ⟨hwire, hstx⟩ := Prod.mk.inj h
  exact { Inst.Frame.refl (x := x) with wire := by simp [hwire], stx := by simp [hstx] }

/-- The wire trace may grow. -/
theorem Inst.Frame.signals {x : Inst} {hw : HW} {tail : List WireSym} (hwire : hw.wire = x.hw.wire ++ tail)
    (hstx : hw.stx = x.hw.stx) : x.Frame { x with hw := hw } :=
  { Inst.Frame.refl (x := x) with wire := by simp [hwire], stx := by simp [hstx] }

/-- Writing back a view that keeps its frame. -/
theorem Node.Frame.inst {C : Type} {b : Bool} {s : State} {x : Inst} {c : C} {n : Node C} {role : Role}
    (h : (Node.of s x c).Frame b n) : x.Frame (n.inst role x) :=
  ⟨rfl, rfl, h.wire, h.stx, h.cbTrace, h.replies⟩

theorem startSymbol_frame {fresh repeated : WireSym} {x : Inst} : x.Frame (startSymbol fresh repeated x) :=
  .signals rfl rfl

theorem transmitByte_keepsFrame {v : Byte} {e : Bool} {ans : TxAnswer} {x y : Inst}
    (h : transmitByte v e ans x = .next y) : x.Frame y := by
  obtain ⟨tail, mef, busOpen, rfl⟩ := transmitByte_frame h
  exact .signals rfl rfl

theorem receiveStep_frame {ans : RxAnswer} {x : Inst} : x.Frame (receiveStep ans x) := by
  cases ans with
  | byte v => exact .signals rfl rfl
  | lineLow => exact .signals rfl rfl

theorem resumeStep_frame {x y : Inst} (h : resumeStep x = some y) : x.Frame y := by
  unfold resumeStep at h
  split at h
  · split at h
    · cases h
      exact .answers rfl
    · cases h
  · split at h
    · cases h
      exact .answers rfl
    · cases h
  · cases h

theorem bussEffect_traces {act : BussAct} {c : SCtx} {h : HW} : (bussEffect act c h).traces = h.traces := by
  cases act <;> rfl

theorem bussStep_frame {act : BussAct} {x y : Inst} (h : bussStep act x = some y) : x.Frame y := by
  unfold bussStep at h
  split at h
  · split at h
    · cases h
      exact .registers bussEffect_traces
    · cases h
  · cases h

/-! ## The frame of the machine -/

/-- What the work on a bus, or on none, leaves of the machine: memory too, where the work is not one that `stores`. -/
structure State.Frame (stores : Bool) (bus : Option BusIndex) (s s' : State) : Prop where
  par : s'.par = s.par
  turns : s'.turns = s.turns
  inp : s'.inp = s.inp
  memForm : Memory.wf s.mem = true → Memory.wf s'.mem = true
  memKept : stores = false → s'.mem = s.mem
  insts : s'.insts = s.insts ∨
    ∃ k x y, bus = some k ∧ s.inst? k = some x ∧ x.Frame y ∧ s'.insts = s.insts.set k.toNat y

section
variable {b : Bool} {bus : Option BusIndex} {k : BusIndex} {s s' s'' : State} {x y : Inst}

theorem State.Frame.refl : s.Frame b bus s := ⟨rfl, rfl, rfl, id, fun _ => rfl, .inl rfl⟩

theorem State.Frame.trans (h₁ : s.Frame b bus s') (h₂ : s'.Frame b bus s'') : s.Frame b bus s'' where
  par := h₂.par.trans h₁.par
  turns := h₂.turns.trans h₁.turns
  inp := h₂.inp.trans h₁.inp
  memForm h := h₂.memForm (h₁.memForm h)
  memKept h := (h₂.memKept h).trans (h₁.memKept h)
  insts := by
    obtain e₂ | ⟨k, y, z, hk, hy, hyz, e₂⟩ := h₂.insts
    · rw [e₂]
      exact h₁.insts
    · obtain e₁ | ⟨j, x, y', hj, hx, hxy, e₁⟩ := h₁.insts
      · exact .inr ⟨k, y, z, hk, by rwa [State.inst?, ← e₁], hyz, by rw [e₂, e₁]⟩
      · obtain rfl : k = j := Option.some.inj (hk.symm.trans hj)
        obtain ⟨hlt, -⟩ := List.getElem?_eq_some_iff.mp hx
        obtain rfl : y' = y := by simpa [State.inst?, e₁, hlt] using hy
        exact .inr ⟨k, x, z, hk, hx, hxy.trans hyz, by rw [e₂, e₁, List.set_set]⟩

/-- A frame with memory kept is one with memory written. -/
theorem State.Frame.toStoring (h : s.Frame b bus s') : s.Frame true bus s' := { h with memKept := nofun }

theorem State.Frame.setInst (hx : s.inst? k = some x) (h : x.Frame y) : s.Frame b (some k) (s.setInst k y) :=
  ⟨rfl, rfl, rfl, id, fun _ => rfl, .inr ⟨k, x, y, rfl, hx, h, rfl⟩⟩

theorem State.Frame.putNode {C : Type} {c : C} {n : Node C} {role : Role} (hx : s.inst? k = some x)
    (h : (Node.of s x c).Frame b n) : s.Frame b (some k) (s.putNode k x role n) :=
  ⟨rfl, rfl, rfl, h.memForm, h.memKept, .inr ⟨k, x, n.inst role x, rfl, hx, h.inst, rfl⟩⟩

/-- The counter of the free values is no part of the frame. -/
theorem State.Frame.takesFree {ctr : Nat} (h : s.Frame b bus s') : s.Frame b bus { s' with freeCtr := ctr } :=
  { h with }

/-- The platform's constants of every bus are what they were. -/
theorem State.Frame.platform (h : s.Frame b bus s') :
    s'.insts.map (fun x => (x.slaveCapable, x.base)) = s.insts.map (fun x => (x.slaveCapable, x.base)) := by
  obtain e | ⟨k, x, y, -, hx, hxy, e⟩ := h.insts
  · rw [e]
  · obtain ⟨hlt, rfl⟩ := List.getElem?_eq_some_iff.mp hx
    rw [e, List.map_set, hxy.slaveCapable, hxy.base]
    exact List.map_set.symm.trans (by rw [List.set_getElem_self])

/-! ## How a rule reaches its bus -/

theorem onMaster_frame {f : MNode → Res MNode} (hf : ∀ n, Node.Frames b n (f n)) (h : onMaster k s f = .next s') :
    s.Frame b (some k) s' := by
  obtain ⟨x, m, n, hx, -, hn, rfl⟩ := onMaster_eq_next.mp h
  exact .putNode hx (hf _ n hn)

theorem onSlave_frame {f : SNode → Res SNode} (hf : ∀ n, Node.Frames b n (f n)) (h : onSlave k s f = .next s') :
    s.Frame b (some k) s' := by
  obtain ⟨x, c, n, hx, -, hn, rfl⟩ := onSlave_eq_next.mp h
  exact .putNode hx (hf _ n hn)

theorem takeMasterEvent_frame {src : MSources → Bool} {f : MNode → Res MNode} (hf : ∀ n, Node.Frames b n (f n))
    (h : takeMasterEvent src k s f = .next s') : s.Frame b (some k) s' := by
  obtain ⟨x, m, n, hx, -, -, hn, rfl⟩ := takeMasterEvent_eq_next.mp h
  exact .putNode hx (hf _ n hn)

theorem takeSlaveEvent_frame {src : SSources → Bool} {f : SNode → Res SNode} (hf : ∀ n, Node.Frames b n (f n))
    (h : takeSlaveEvent src k s f = .next s') : s.Frame b (some k) s' := by
  obtain ⟨x, c, n, hx, -, -, hn, rfl⟩ := takeSlaveEvent_eq_next.mp h
  exact .putNode hx (hf _ n hn)

theorem takeDmaEvent_frame {en : Inst → Bool} {fm : MNode → Res MNode} {fs : DmaReg → SNode → Res SNode}
    (hm : ∀ n, Node.Frames b n (fm n)) (hs : ∀ reg n, Node.Frames b n (fs reg n))
    (h : takeDmaEvent en k s fm fs = .next s') : s.Frame b (some k) s' := by
  obtain ⟨x, hx, -, ⟨m, n, -, hn, rfl⟩ | ⟨c, n, dir, reg, ptr, count, -, -, hn, rfl⟩⟩ := takeDmaEvent_eq_next.mp h
  · exact .putNode hx (hm _ n hn)
  · exact .putNode hx (hs reg _ n hn)

theorem onBus_frame {f : Inst → Res Inst} (hf : ∀ x y, f x = .next y → x.Frame y) (h : onBus k s f = .next s') :
    s.Frame b (some k) s' := by
  obtain ⟨x, y, hx, hy, rfl⟩ := onBus_eq_next.mp h
  exact .setInst hx (hf x y hy)

/-! ## Instructions that reach their bus themselves -/

theorem execMinit_frame {cfg : CfgPort} (h : execMinit k cfg s = .next s') : s.Frame b (some k) s' := by
  obtain ⟨x, hx, h⟩ := onInst_eq_next.mp h
  split at h
  · split at h
    · cases h
    · split at h
      · cases h
        exact .takesFree (.setInst hx (.answers rfl))
      · cases h
        exact .setInst hx (.answers rfl)
  · cases h

theorem execMdeinit_frame (h : execMdeinit k s = .next s') : s.Frame b (some k) s' := by
  obtain ⟨x, hx, h⟩ := onInst_eq_next.mp h
  split at h
  · split at h
    · cases h
    · split at h
      · cases h
      · cases h
        exact .setInst hx (.answers rfl)
  · cases h

theorem sInitHw_traces {listening : Bool} {h : HW} : (sInitHw listening h).traces = h.traces := by
  cases listening <;> rfl

theorem execSinit_frame {cfg : CfgPort} (h : execSinit k cfg s = .next s') : s.Frame b (some k) s' := by
  obtain ⟨x, hx, h⟩ := onInst_eq_next.mp h
  split at h
  · split at h
    · cases h
    · split at h
      · cases h
        exact .setInst hx (.answers sInitHw_traces)
      · cases h
  · cases h

theorem execSdeinit_frame (h : execSdeinit k s = .next s') : s.Frame b (some k) s' := by
  obtain ⟨x, hx, h⟩ := onInst_eq_next.mp h
  split at h
  · split at h
    · cases h
    · split at h
      · cases h
      · cases h
        exact .setInst hx (.answers rfl)
  · cases h

theorem execTxd_frame {d : Byte} (h : execTxd k d s = .next s') : s.Frame b (some k) s' := by
  refine onBus_frame (fun x y hy => ?_) h
  split at hy
  · exact transmitByte_keepsFrame hy
  · cases hy
    exact .registers rfl

theorem execRxn_frame {d : Byte} (h : execRxn k d s = .next s') : s.Frame b (some k) s' := by
  refine onBus_frame (fun x y hy => ?_) h
  split at hy
  · cases hy
    exact .registers rfl
  · cases hy
    exact .registers rfl

theorem execStop_frame (h : execStop k s = .next s') : s.Frame b (some k) s' := by
  refine onBus_frame (fun x y hy => ?_) h
  split at hy
  · cases hy
    exact .signals rfl rfl
  · cases hy
    exact .registers rfl

theorem execWtimeout_frame (h : execWtimeout k s = .next s') : s.Frame true (some k) s' := by
  obtain ⟨x, hx, h⟩ := onInst_eq_next.mp h
  split at h
  · split at h
    · obtain ⟨n, hn, h⟩ := andThen_eq_next.mp h
      cases h
      exact .putNode hx (masterTimeout_frames n hn)
    · cases h
      exact .putNode hx slaveTimeout_frame
    · cases h
  · cases h

/-! ## Every instruction -/

/-- The frame of every instruction: only its bus, and memory only if it is one that may store. -/
theorem exec_frame {i : Instr} (h : exec i s = .next s') : s.Frame (mayStore i) (some i.bus) s' := by
  cases i with
  | minit => exact execMinit_frame h
  | mdeinit => exact execMdeinit_frame h
  | msend | msendb => exact onMaster_frame (fun _ => mSend_frames) h
  | mrecv | mrecvb => exact onMaster_frame (fun _ => mRecv_frames) h
  | mstatus => exact onMaster_frame (fun _ => mStatus_frames) h
  | mabort => exact onMaster_frame (fun _ => mAbort_frames) h
  | mgetbaud => exact onMaster_frame (fun _ => mGetBaud_frames) h
  | msetbaud => exact onMaster_frame (fun _ => mSetBaud_frames) h
  | sinit => exact execSinit_frame h
  | sdeinit => exact execSdeinit_frame h
  | ssend | ssendb | srecv | srecvb => exact onSlave_frame (fun _ => sTransfer_frames) h
  | sstatus => exact onSlave_frame (fun _ => sStatus_frames) h
  | sabort => exact onSlave_frame (fun _ => sAbort_frames) h
  | ssettx => exact onSlave_frame (fun _ => sSetTx_frames) h
  | ssetrx => exact onSlave_frame (fun _ => sSetRx_frames) h
  | txd => exact execTxd_frame h
  | rxn => exact execRxn_frame h
  | stop => exact execStop_frame h
  | start | startn | starths =>
    exact onBus_frame (fun _ _ hy => startSymbol_frame.trans (transmitByte_keepsFrame hy)) h
  | txrdy => exact takeMasterEvent_frame (fun _ => handleTxrdy_frames) h
  | rxrdy => exact takeMasterEvent_frame (fun _ => handleRxrdy_frames) h
  | nack => exact takeMasterEvent_frame (fun _ => handleNack_frames) h
  | arblost | fifoerr | pinlow => exact takeMasterEvent_frame (fun _ => errEnd_frames) h
  | addrvalid => exact takeSlaveEvent_frame (fun _ => handleAddrvalid_frames) h
  | txdata => exact takeSlaveEvent_frame (fun _ => handleTxdata_frames) h
  | rxdata => exact takeSlaveEvent_frame (fun _ => handleRxdata_frames) h
  | rstart => exact takeSlaveEvent_frame (fun _ => handleRstart_frames) h
  | evtStop => exact takeSlaveEvent_frame (fun _ => handleStop_frames) h
  | biterr => exact takeSlaveEvent_frame (fun _ => handleBiterr_frames) h
  | sfifoerr => exact takeSlaveEvent_frame (fun _ => handleSfifoerr_frames) h
  | dmaok => exact takeDmaEvent_frame (fun _ => masterDmaok_frames) (fun _ _ => slaveDmaok_frames) h
  | dmaerr => exact takeDmaEvent_frame (fun _ => masterDmaerr_frames) (fun _ _ => slaveDmaerr_frames) h
  | wtimeout => exact execWtimeout_frame h

/-! ## Every turn -/

/-- The bus whose port a word stands at (R110, R111). -/
def portBus : PortWord → BusIndex
  | .req h _ => reqInst h
  | .cmd k _ => k
  | .evt k _ => k

/-- An instruction acts on the bus of its word's port. -/
theorem decode_bus {p : Params} {w : PortWord} {i : Instr} (h : decode p w = .ok i) : i.bus = portBus w := by
  cases w with
  | req hd o =>
    simp only [decode, decodeReq] at h
    split at h
    · cases h
    · split at h <;> cases h <;> rfl
  | cmd k w =>
    simp only [decode, decodeCmd] at h
    split at h <;> cases h <;> rfl
  | evt k c =>
    simp only [decode, decodeEvt] at h
    split at h <;> cases h <;> rfl

theorem runWord_frame {w : PortWord} (h : runWord w s = .next s') : s.Frame true (some (portBus w)) s' := by
  obtain ⟨i, hi, h⟩ := runWord_eq_next h
  rw [← decode_bus hi]
  exact (exec_frame h).toStoring

theorem ownStep_frame {f : Inst → Option Inst} (hf : ∀ x y, f x = some y → x.Frame y) :
    s.Frame b (some k) (ownStep k s f) := by
  obtain e | ⟨x, y, hx, hy, e⟩ := ownStep_cases k s f
  · rw [e]
    exact .refl
  · rw [e]
    exact .setInst hx (hf x y hy)

theorem dmaTurn_frame (h : dmaTurn k s = .next s') : s.Frame true (some k) s' := by
  unfold dmaTurn at h
  split at h
  · cases h
    exact .refl
  · split at h
    · obtain ⟨n, hn, h⟩ := andThen_eq_next.mp h
      cases h
      exact .putNode ‹_› (dmaMove_frames n hn)
    · cases h
      exact .refl

theorem appStore_frame {a : Nat} {v : Byte} (h : appStore a v s = .next s') : s.Frame true bus s' := by
  obtain ⟨mem, hmem, h⟩ := andThen_eq_next.mp h
  cases h
  exact ⟨rfl, rfl, rfl, fun hwf => wf_memWrite hwf hmem, nofun, .inl rfl⟩

/-- An event is delivered to the bus of its line, the state as it is. -/
theorem eventFetch_word {due : Inst → Option EvtCode} {w : PortWord} (h : eventFetch k s due = .word w s') :
    s.Frame b (some k) s' ∧ some k = some (portBus w) := by
  obtain e | ⟨x, c, -, -, e⟩ := eventFetch_cases k s due
  · rw [e] at h
    cases h
  · rw [e] at h
    cases h
    exact ⟨.refl, rfl⟩

theorem eventFetch_own {due : Inst → Option EvtCode} (h : eventFetch k s due = .own (.next s')) :
    s.Frame b (some k) s' := by
  obtain e | ⟨x, c, -, -, e⟩ := eventFetch_cases k s due
  · rw [e] at h
    cases h
    exact .refl
  · rw [e] at h
    cases h

/-- A turn that comes to a word changes its bus at most, by the pop of a command word, and the word is for that bus. -/
theorem fetch_word {a : Agent} {w : PortWord} (h : fetch a s = .word w s') :
    s.Frame b (agentBus a) s' ∧ agentBus a = some (portBus w) := by
  cases a with
  | request =>
    cases h
    exact ⟨.refl, rfl⟩
  | busm k =>
    change busFetch k s = _ at h
    obtain e | ⟨x, -, -, e⟩ | ⟨x, c, rest, hx, -, -, -, e⟩ := busFetch_cases k s
    · rw [e] at h
      cases h
    · rw [e] at h
      cases h
    · rw [e] at h
      cases h
      exact ⟨.setInst hx (.registers rfl), rfl⟩
  | isr | dmaOk | dmaErr | timer => exact eventFetch_word h
  | resume | buss | dmaMove | app => cases h

/-- A turn that comes to a step of the agent's own changes its bus and memory at most. -/
theorem fetch_own {a : Agent} (h : fetch a s = .own (.next s')) : s.Frame true (agentBus a) s' := by
  cases a with
  | request => cases h
  | busm k =>
    change busFetch k s = _ at h
    obtain e | ⟨x, hx, -, e⟩ | ⟨x, c, rest, -, -, -, -, e⟩ := busFetch_cases k s
    · rw [e] at h
      cases h
      exact .refl
    · rw [e] at h
      cases h
      exact .setInst hx receiveStep_frame
    · rw [e] at h
      cases h
  | isr | dmaOk | dmaErr | timer => exact eventFetch_own h
  | resume =>
    cases h
    exact ownStep_frame fun _ _ => resumeStep_frame
  | buss =>
    cases h
    exact ownStep_frame fun _ _ => bussStep_frame
  | dmaMove => exact dmaTurn_frame (Fetched.own.inj h)
  | app => exact appStore_frame (Fetched.own.inj h)

/-- The frame of every step: with no turn scheduled nothing changes; else the turn is taken, and behind it only the bus of
its agent, and memory, can change. -/
theorem step_frame (h : step s = .next s') :
    s' = s ∨ ∃ t rest, s.turns = t :: rest ∧ (beginTurn t rest s).Frame true (agentBus t.agent) s' := by
  obtain ⟨-, e⟩ | ⟨t, rest, ht, ⟨w, s₁, hw, e⟩ | ⟨r, hr, e⟩⟩ := step_cases s
  · rw [e] at h
    cases h
    exact .inl rfl
  · rw [e] at h
    obtain ⟨hframe, hbus⟩ := fetch_word hw
    exact .inr ⟨t, rest, ht, hframe.trans (hbus ▸ runWord_frame h)⟩
  · rw [e] at h
    cases h
    exact .inr ⟨t, rest, ht, fetch_own hr⟩

end

/-- Settles O55: every step keeps the frame of the machine, which holds the memory's form, the parameters and the
platform's constants (log 5 of notes/assumptions is the form). -/
theorem stepKeepsMemoryForm : Obligations.StepKeepsMemoryForm := by
  intro s s' hwf h
  obtain rfl | ⟨t, rest, -, hframe⟩ := step_frame h
  · exact ⟨hwf, rfl, rfl⟩
  · exact ⟨hframe.memForm hwf, hframe.par, hframe.platform⟩

end Sys2Proof.Machine
end

section
/-! SUPPORT. The frames of the instructions and of the steps read bus by bus (spec 20_memory.md R80, R95), and what the
turn of each agent that delivers a word comes to: the word is decoded in the space of its port and executed (20_memory.md
R89; 30_encoding.md R110; 41_master_commands.md R200; 60_exceptions.md R383). -/

namespace Sys2Proof.Machine
open Sys2Proof.Claims

/-! ## Other buses -/

section
variable {b : Bool} {bus : Option BusIndex} {s s' : State}

/-- The work on one bus leaves every other bus as it is, and work on none leaves them all. -/
theorem State.Frame.inst?_ne {j : BusIndex} (h : s.Frame b bus s') (hj : bus ≠ some j) : s'.inst? j = s.inst? j := by
  obtain e | ⟨k, x, y, rfl, -, -, e⟩ := h.insts
  · rw [State.inst?, e, State.inst?]
  · have hjk : j ≠ k := fun hjk => hj (congrArg some hjk.symm)
    calc s'.inst? j = (s.setInst k y).inst? j := by rw [State.inst?, e, State.inst?, setInst_insts]
      _ = s.inst? j := inst?_setInst_ne hjk

/-- No bus comes or goes. -/
theorem State.Frame.length_insts (h : s.Frame b bus s') : s'.insts.length = s.insts.length := by
  obtain e | ⟨k, x, y, -, -, -, e⟩ := h.insts
  · rw [e]
  · rw [e, List.length_set]

end

/-- Settles O56: each part is read off the frame of the instruction. -/
theorem instructionsTouchTheirBusOnly : Obligations.InstructionsTouchTheirBusOnly := by
  intro i s s' h
  have hframe := exec_frame h
  refine ⟨hframe.par, hframe.turns, hframe.inp, hframe.length_insts, fun j hj => ?_, fun hstore a => ?_⟩
  · exact hframe.inst?_ne fun e => hj (Option.some.inj e).symm
  · rw [byteAt, hframe.memKept hstore]

/-- Settles O57: the turn on the schedule is the one the step takes, and its frame names the agent's bus. -/
theorem otherBusesUntouched : Obligations.OtherBusesUntouched := by
  intro s t s' j hj h
  obtain rfl | ⟨t', rest, ht, hframe⟩ := step_frame h
  · rfl
  · obtain ⟨rfl, rfl⟩ := List.cons.inj ht
    exact hframe.inst?_ne hj

/-! ## What a turn runs -/

section
variable {s s₁ : State} {t : Turn} {k : BusIndex} {x : Inst} {i : Instr}

/-- A word that decodes is executed as its instruction (R110). -/
theorem runWord_of_decode {w : PortWord} (h : decode s.par w = .ok i) : runWord w s = exec i s := by
  rw [runWord, h]

@[simp] theorem turn_turns : (turn s t).turns = t :: s.turns := rfl

/-- The turn taken off the schedule again, its inputs in force. -/
@[simp] theorem beginTurn_turn : beginTurn t s.turns (turn s t) = during s t := rfl

/-- The step of a turn that comes to a word runs it behind the fetch, on the turn's state. -/
theorem step_turn_of_word {w : PortWord} (h : fetch t.agent (during s t) = .word w s₁) :
    step (turn s t) = runWord w s₁ := by
  simp only [step, turn_turns, beginTurn_turn, h]

/-- The step of a turn that comes to a word executes the instruction the word decodes to. -/
theorem step_turn_of_decode {w : PortWord} (h : fetch t.agent (during s t) = .word w s₁)
    (hi : decode s₁.par w = .ok i) : step (turn s t) = exec i s₁ :=
  (step_turn_of_word h).trans (runWord_of_decode hi)

/-- An event that is due on its bus is delivered, the state as it is. -/
theorem eventFetch_of_due {due : Inst → Option EvtCode} {c : EvtCode} (hx : s.inst? k = some x)
    (hc : due x = some c) : eventFetch k s due = .word (.evt k c) s := by
  simp only [eventFetch, hx, hc]

/-- With a Master Context the mode that decides about a latched `NACK` is the context's (R42). -/
theorem busHalted_iff {m : MCtx} (h : x.role = .master m) : busHalted x = true ↔ halted x.hw m.mode := by
  simp [busHalted, ultraFast, h, halted, or_assoc]

/-- While no byte is expected the master bus side pops and delivers the head word of its transmit FIFO (R200). -/
theorem busFetch_of_command {m : MCtx} {w : CmdWord} {rest : List CmdWord} (hx : masterAt s k x m)
    (htxf : x.hw.txf = w :: rest) (hmen : x.hw.men = true) (hrun : ¬ halted x.hw m.mode) (hleft : x.hw.rxLeft = 0) :
    busFetch k s = .word (.cmd k w) (s.setInst k { x with hw := { x.hw with txf := rest } }) := by
  obtain ⟨hbus, hrole⟩ := hx
  have hnot : busHalted x = false := Bool.eq_false_iff.mpr fun h => hrun ((busHalted_iff hrole).mp h)
  have hreceive : receiveEnabled s.par x = false := by simp [receiveEnabled, hleft]
  have hcommand : commandEnabled x = true := by simp [commandEnabled, hmen, hnot, hleft]
  simp [busFetch, hbus, hreceive, hcommand, htxf]

end

/-- Settles O5: each agent's turn comes to its word, which decodes to the instruction. -/
theorem stepRunsFetchedInstruction : Obligations.StepRunsFetchedInstruction := by
  refine ⟨fun s h o inp i hi => ?request, fun s k inp x m w rest i hx htxf hmen hrun hleft hi => ?command,
    fun s k inp x c i hx hc hi => ?interrupt, fun s k inp x hx hen => ?dmaOk, fun s k inp x hx hen => ?dmaErr,
    fun s k inp x hx hen => ?timer⟩
  case request => exact step_turn_of_decode (w := .req h o) rfl hi
  case command => exact step_turn_of_decode (busFetch_of_command (s := during s _) hx htxf hmen hrun hleft) hi
  case interrupt => exact step_turn_of_decode (eventFetch_of_due (s := during s _) hx hc) hi
  case dmaOk => exact step_turn_of_decode (eventFetch_of_due (s := during s _) hx (if_pos hen)) rfl
  case dmaErr => exact step_turn_of_decode (eventFetch_of_due (s := during s _) hx (if_pos hen)) rfl
  case timer => exact step_turn_of_decode (eventFetch_of_due (s := during s _) hx (if_pos hen)) rfl

end Sys2Proof.Machine
end

section
/-! SUPPORT. The decoder and the encoder undo each other, and the words that are reserved (spec 30_encoding.md R111 to
R121; 41_master_commands.md R200): the fields of a header and of a command word read back and put together again, the
widths of the operand ports, what a request, a command word and an event code decode to. -/

namespace Sys2Proof
open Sys2Proof.Claims Sys2Proof.Machine

/-! ## The fields of a word -/

/-- The opcode field of a header is its opcode (R111). -/
@[simp] theorem reqOpcode_reqHeader (op : BitVec 8) (k : BusIndex) : reqOpcode (reqHeader op k) = op := by
  have hop := op.isLt
  have hk := k.isLt
  apply BitVec.eq_of_toNat_eq
  simp only [reqOpcode, BitVec.extractLsb'_toNat, toNat_reqHeader, Nat.shiftRight_eq_div_pow]
  omega

/-- The bus field of a header is its bus index (R111). -/
@[simp] theorem reqInst_reqHeader (op : BitVec 8) (k : BusIndex) : reqInst (reqHeader op k) = k := by
  have hk := k.isLt
  apply BitVec.eq_of_toNat_eq
  simp only [reqInst, BitVec.extractLsb'_toNat, toNat_reqHeader, Nat.shiftRight_eq_div_pow]
  omega

/-- A header is its opcode and its bus index, every bit of it (R111). -/
theorem reqHeader_of_opcode {h : ReqWord} {n : Nat} (hop : (reqOpcode h).toNat = n) :
    reqHeader (BitVec.ofNat 8 n) (reqInst h) = h := by
  rw [← hop, BitVec.ofNat_toNat, BitVec.setWidth_eq]
  apply BitVec.eq_of_toNat_eq
  rw [toNat_reqHeader]
  simp only [reqOpcode, reqInst, BitVec.extractLsb'_toNat, Nat.shiftRight_eq_div_pow]
  omega

/-- A command word is its code and its data, every bit of it (R114). -/
theorem cmdWord_of_cmdField {w : CmdWord} {c : Cmd} (hc : (cmdField w).toNat = c.code.toNat) :
    cmdWord c (dataField w) = w := by
  apply BitVec.eq_of_toNat_eq
  rw [toNat_cmdWord, ← hc]
  simp only [cmdField, dataField, BitVec.extractLsb'_toNat, Nat.shiftRight_eq_div_pow]
  omega

/-- Bits 15:13 of a header are the top of its opcode (R111). -/
theorem extractLsb'_top_eq_zero_iff (h : ReqWord) : h.extractLsb' 13 3 = 0#3 ↔ (reqOpcode h).toNat < 32 := by
  rw [← BitVec.toNat_inj]
  simp only [reqOpcode, BitVec.extractLsb'_toNat, Nat.shiftRight_eq_div_pow, BitVec.toNat_ofNat]
  omega

/-- The operation, bits 11:8 of a header, is the bottom of its opcode (R111). -/
theorem toNat_extractLsb'_operation (h : ReqWord) : (h.extractLsb' 8 4).toNat = (reqOpcode h).toNat % 16 := by
  simp only [reqOpcode, BitVec.extractLsb'_toNat, Nat.shiftRight_eq_div_pow]
  omega

/-! ## The widths of the operand ports -/

theorem onPort_lt (width v : Nat) : onPort width v < 2 ^ width := Nat.mod_lt _ (Nat.two_pow_pos width)

theorem onPort_of_lt {width v : Nat} (h : v < 2 ^ width) : onPort width v = v := Nat.mod_eq_of_lt h

theorem cfgOnPort_fits (p : Params) (c : CfgPort) : (cfgOnPort p c).fits p := onPort_lt p.addrW c.callbackParam

theorem cfgOnPort_of_fits {p : Params} {c : CfgPort} (h : c.fits p) : cfgOnPort p c = c := by
  rw [cfgOnPort, onPort_of_lt h]

/-- Well-formed is two things: the bus exists (R111), and the operands fit their ports (R112, R113). -/
theorem Instr.wellFormed_iff {p : Params} {i : Instr} :
    i.wellFormed p = true ↔ i.bus.toNat < p.numInst ∧ i.operandsFit p = true := by
  rw [Instr.wellFormed, Bool.and_eq_true, decide_eq_true_eq]

/-- Settles O2: the fields of the word are read back as they were put in, and a cut to its port's width leaves an
operand that fits. -/
theorem decodeOfEncode : Obligations.DecodeOfEncode := by
  intro p i hwf
  obtain ⟨hbus, hfit⟩ := Instr.wellFormed_iff.mp hwf
  cases i with
  | minit k c | sinit k c =>
    have hc : c.fits p := of_decide_eq_true hfit
    simpa [encode, decode, decodeReq, cfgOnPort_of_fits hc, Instr.bus] using hbus
  | msend k b l _ | mrecv k b l _ | ssend k b l | srecv k b l | ssettx k b l | ssetrx k b l =>
    obtain ⟨hb, hl⟩ : bufferFits p b l := of_decide_eq_true hfit
    simpa [encode, decode, decodeReq, onPort_of_lt hb, onPort_of_lt hl, Instr.bus] using hbus
  | msendb k b l _ t | mrecvb k b l _ t | ssendb k b l t | srecvb k b l t =>
    obtain ⟨⟨hb, hl⟩, ht⟩ : bufferFits p b l ∧ t < 2 ^ p.timeoutW := of_decide_eq_true hfit
    simpa [encode, decode, decodeReq, onPort_of_lt hb, onPort_of_lt hl, onPort_of_lt ht, Instr.bus] using hbus
  | mdeinit | mstatus | mabort | mgetbaud | msetbaud | sdeinit | sstatus | sabort =>
    simpa [encode, decode, decodeReq, Instr.bus] using hbus
  | txd | rxn | stop | start | startn | starths =>
    simp [encode, decode, decodeCmd, cmdField_cmdWord, dataField_cmdWord, Cmd.code]
  | txrdy | rxrdy | nack | arblost | fifoerr | pinlow | addrvalid | txdata | rxdata | rstart | evtStop | biterr
  | sfifoerr | dmaok | dmaerr | wtimeout => rfl

/-! ## What a request decodes to -/

section
variable {p : Params} {h : ReqWord} {o : Ports} {i : Instr}

/-- Only a request to a bus that exists decodes (R111). -/
theorem reqInst_lt_of_decodeReq (hdec : decodeReq p h o = .ok i) : (reqInst h).toNat < p.numInst := by
  rw [decodeReq] at hdec
  split at hdec
  · cases hdec
  · exact Nat.not_le.mp ‹_›

/-- The cut to the port's width makes every operand fit (R112, R113). -/
theorem operandsFit_of_decodeReq (hdec : decodeReq p h o = .ok i) : i.operandsFit p = true := by
  simp only [decodeReq] at hdec
  split at hdec
  · cases hdec
  · split at hdec <;> cases hdec <;> simp [Instr.operandsFit, onPort_lt, cfgOnPort_fits]

/-- A request acts on the bus its header names, so one that decodes is well-formed. -/
theorem wellFormed_of_decodeReq (hdec : decodeReq p h o = .ok i) : i.wellFormed p = true := by
  have hbus : i.bus = reqInst h := decode_bus (w := .req h o) hdec
  exact Instr.wellFormed_iff.mpr ⟨hbus ▸ reqInst_lt_of_decodeReq hdec, operandsFit_of_decodeReq hdec⟩

/-- A header with its used ports is the encoding of what it decodes to: its opcode fixes the header, and which ports are
used. -/
theorem encode_of_decodeReq (hdec : decodeReq p h o = .ok i) : encode i = .req h (portsUsed p h o) := by
  simp only [decodeReq] at hdec
  split at hdec
  · cases hdec
  · split at hdec
    case h_21 => cases hdec
    all_goals
      rename_i hop
      have hheader := reqHeader_of_opcode hop
      change (h.extractLsb' 8 8).toNat = _ at hop
      cases hdec
      simp [encode, hheader, portsUsed, hop, Ports.zero, onPort, cfgOnPort]

/-- The map of R112 is the opcodes below 32 whose low four bits are 1 to 10. -/
theorem decodeReq_eq_reserved_iff :
    decodeReq p h o = .error .reservedRequest ↔
      h.extractLsb' 13 3 ≠ 0#3 ∨ p.numInst ≤ (reqInst h).toNat ∨ (h.extractLsb' 8 4).toNat = 0 ∨
        10 < (h.extractLsb' 8 4).toNat := by
  rw [ne_eq, extractLsb'_top_eq_zero_iff, toNat_extractLsb'_operation, decodeReq]
  split
  · exact iff_of_true rfl (.inr (.inl ‹_›))
  · split
    case h_21 =>
      refine iff_of_true rfl ?_
      simp only [imp_false] at *
      omega
    all_goals exact iff_of_false nofun (by omega)

end

/-! ## Command words and events -/

section
variable {k : BusIndex} {i : Instr}

/-- Of the command words only a `STOP` has bits that its meaning leaves out, its data (R115). -/
theorem encode_of_decodeCmd {w : CmdWord} (hdec : decodeCmd k w = .ok i) :
    encode i = .cmd k w ∨ (i = .stop k ∧ cmdField w = Cmd.stop.code ∧ encode i = .cmd k 0x200#11) := by
  have hword {c : Cmd} (hc : (cmdField w).toNat = c.code.toNat) :
      PortWord.cmd k (cmdWord c (dataField w)) = .cmd k w := congrArg _ (cmdWord_of_cmdField hc)
  simp only [decodeCmd] at hdec
  split at hdec <;> cases hdec
  case h_1 hc => exact .inl (hword (c := .txd) hc)
  case h_2 hc => exact .inl (hword (c := .rxn) hc)
  case h_3 hc => exact .inr ⟨rfl, BitVec.eq_of_toNat_eq hc, rfl⟩
  case h_4 hc => exact .inl (hword (c := .start) hc)
  case h_5 hc => exact .inl (hword (c := .startn) hc)
  case h_6 hc => exact .inl (hword (c := .starths) hc)

/-- A code is three bits wide, so 3 and 7 are all that the map of R115 leaves out (R121). -/
theorem decodeCmd_eq_reserved_iff {w : CmdWord} :
    decodeCmd k w = .error .reservedCommand ↔ cmdField w = 3#3 ∨ cmdField w = 7#3 := by
  have hlt := (cmdField w).isLt
  simp only [decodeCmd, ← BitVec.toNat_inj, BitVec.toNat_ofNat]
  split
  case h_7 =>
    refine iff_of_true rfl ?_
    simp only [imp_false] at *
    omega
  all_goals exact iff_of_false nofun (by omega)

theorem encode_of_decodeEvt {c : EvtCode} (hdec : decodeEvt k c = .ok i) : encode i = .evt k c := by
  simp only [decodeEvt] at hdec
  split at hdec <;> cases hdec <;> exact congrArg (PortWord.evt k) (BitVec.eq_of_toNat_eq (Eq.symm ‹c.toNat = _›))

theorem decodeEvt_eq_reserved_iff {c : EvtCode} :
    decodeEvt k c = .error .reservedEvent ↔
      ¬ ((1 ≤ c.toNat ∧ c.toNat ≤ 6) ∨ (0x11 ≤ c.toNat ∧ c.toNat ≤ 0x17) ∨ c.toNat = 0x21 ∨ c.toNat = 0x22 ∨
        c.toNat = 0x31) := by
  simp only [decodeEvt]
  split
  case h_17 =>
    refine iff_of_true rfl ?_
    simp only [imp_false] at *
    omega
  all_goals exact iff_of_false nofun (by omega)

end

/-- Settles O3: a request by its opcode, a command word by its code, an event by its whole code. -/
theorem encodeOfDecode : Obligations.EncodeOfDecode :=
  ⟨fun _ _ _ _ hdec => ⟨wellFormed_of_decodeReq hdec, encode_of_decodeReq hdec⟩, fun _ _ _ => encode_of_decodeCmd,
    fun _ _ _ => encode_of_decodeEvt⟩

/-- Settles O1: each word is closed, and the decoder evaluates on it. -/
theorem writtenWordsDecode : Obligations.WrittenWordsDecode :=
  ⟨rfl, rfl, rfl, rfl, rfl, rfl, rfl, rfl, rfl, rfl, rfl, rfl, rfl⟩

end Sys2Proof

namespace Sys2Proof.Machine
open Sys2Proof.Claims

/-- The step of a turn that comes to a word that is no instruction stops as that word does (R121). -/
theorem step_turn_of_decode_error {s s₁ : State} {t : Turn} {w : PortWord} {e : DecodeError}
    (h : fetch t.agent (during s t) = .word w s₁) (he : decode s₁.par w = .error e) :
    step (turn s t) = decodeStop e := by
  rw [step_turn_of_word h, runWord, he]

/-- Settles O4: the words the tables leave out, and the stop a step with one comes to. -/
theorem reservedEncodings : Obligations.ReservedEncodings := by
  refine ⟨fun p h o => decodeReq_eq_reserved_iff, fun s h o inp hres => ?request, fun k w => decodeCmd_eq_reserved_iff,
    fun s k inp x m w rest hx htxf hmen hrun hleft hres => ?command, fun k c => decodeEvt_eq_reserved_iff⟩
  case request => exact step_turn_of_decode_error (w := .req h o) (e := .reservedRequest) rfl hres
  case command =>
    exact step_turn_of_decode_error (e := .reservedCommand)
      (busFetch_of_command (s := during s _) hx htxf hmen hrun hleft) (decodeCmd_eq_reserved_iff.mpr hres)

end Sys2Proof.Machine
end

section
/-! SUPPORT. The order of the software command queue (spec 10_state.md R23; 20_memory.md R90; 41_master_commands.md
R190, R191): what a push and a pop do to the queue's entries. -/

namespace Sys2Proof.Machine
open Sys2Proof.Claims

/-! ## A push and a pop -/

/-- The context behind a push onto the queue (R191). -/
def swqPushed (w : CmdWord) (m : MCtx) : MCtx :=
  { m with swq := m.swq.set (swqSlot m.swqWr).val w (swqSlot m.swqWr).isLt, swqWr := m.swqWr + 1 }

section
variable {m : MCtx} {w : CmdWord}

/-- A push onto a queue with room. -/
theorem swqPush_of {n : MNode} (h : swqCount n.ctx < 5) :
    swqPush w n = .next { n with ctx := swqPushed w n.ctx } :=
  swqPush_eq_next.mpr ⟨Nat.ne_of_lt h, rfl⟩

/-- A push onto a queue with room counts one more. -/
theorem swqCount_swqPushed (h : swqCount m < 5) : swqCount (swqPushed w m) = swqCount m + 1 := by
  have key : ∀ wr rd : Fin 10, (wr - rd).val < 5 → (wr + 1 - rd).val = (wr - rd).val + 1 := by decide
  exact key m.swqWr m.swqRd h

/-- The slot a push writes is the one behind the entries, and none of theirs. -/
theorem swqSlot_entries {wr rd : Fin 10} (h : (wr - rd).val < 5) :
    rd + Fin.ofNat 10 (wr - rd).val = wr ∧
      ∀ j < (wr - rd).val, swqSlot wr ≠ swqSlot (rd + Fin.ofNat 10 j) := by
  revert wr rd
  decide

/-- A pushed word stands behind the entries. -/
theorem swqEntries_swqPushed (h : swqCount m < 5) : swqEntries (swqPushed w m) = swqEntries m ++ [w] := by
  obtain ⟨hlast, hother⟩ := swqSlot_entries h
  rw [swqEntries, swqCount_swqPushed h, List.range_succ, List.map_append, swqEntries, List.map_singleton]
  congr 1
  · refine List.map_congr_left fun j hj => ?_
    have hslot := hother j (List.mem_range.mp hj)
    exact Vector.getElem_set_ne (swqSlot m.swqWr).isLt _ fun e => hslot (Fin.ext e)
  · have hslot : swqSlot (m.swqRd + Fin.ofNat 10 (swqCount m)) = swqSlot m.swqWr := congrArg swqSlot hlast
    simp only [swqPushed, hslot, Vector.getElem_set_self]

/-- The entries of a queue that is not empty are its head and the entries behind a pop. -/
theorem swqEntries_eq_cons (h : m.swqWr ≠ m.swqRd) : swqEntries m = swqHead m :: swqEntries (swqDrop m) := by
  have hcount := swqCount_swqDrop h
  rw [swqEntries, ← hcount, List.range_succ_eq_map, List.map_cons, List.map_map]
  refine List.cons_eq_cons.mpr ⟨by simp [swqHead], ?_⟩
  by_cases hlast : m.swqWr = m.swqRd + 1
  · have hempty : swqCount (swqDrop m) = 0 := by rw [swqCount_eq_zero, swqDrop, if_pos hlast]
    rw [hempty, swqEntries, hempty]
    rfl
  · rw [swqEntries]
    refine List.map_congr_left fun j _ => ?_
    have hnext : m.swqRd + Fin.ofNat 10 (j + 1) = m.swqRd + 1 + Fin.ofNat 10 j := by
      apply Fin.ext
      simp [Fin.val_add]
      omega
    simp only [Function.comp_apply, Nat.succ_eq_add_one, hnext, swqDrop, if_neg hlast]

theorem withQueue_swqPushed (h : swqCount m < 5) : withQueue m (swqPushed w m) (swqEntries m ++ [w]) :=
  ⟨⟨_, _, m.swqRd, rfl⟩, swqEntries_swqPushed h⟩

theorem withQueue_swqDrop (h : m.swqWr ≠ m.swqRd) : withQueue m (swqDrop m) (swqEntries m).tail := by
  obtain ⟨wr, rd, hdrop⟩ := swqDrop_eq m
  exact ⟨⟨m.swq, wr, rd, hdrop⟩, by rw [swqEntries_eq_cons h, List.tail_cons]⟩

end

/-- An offer that does not go to the FIFO is a push onto the queue. -/
theorem offer_queued {c : Cmd} {d : Byte} {n : MNode}
    (h : ¬ (n.ctx.swqWr = n.ctx.swqRd ∧ n.hw.txf.length < n.par.txDepth)) :
    offer c d n = swqPush (cmdWord c d) n := by
  rw [offer, if_neg (by simpa [swqEmpty] using h)]

/-- Settles O22: an offer goes to the FIFO directly, or is a push onto the queue, which has room or overflows; a pop
takes the head of the entries. -/
theorem offerKeepsOrder : Obligations.OfferKeepsOrder := by
  refine ⟨fun c d n _ => ⟨fun hdirect => ?direct, fun hqueued hroom => ?queued, fun hqueued hfull => ?overflow⟩,
    fun m _ hne => ⟨swqEntries_eq_cons hne, withQueue_swqDrop hne⟩⟩
  case direct => exact offer_direct hdirect.1 hdirect.2
  case queued => exact ⟨_, withQueue_swqPushed hroom, (offer_queued hqueued).trans (swqPush_of hroom)⟩
  case overflow => exact (offer_queued hqueued).trans (if_pos hfull)

end Sys2Proof.Machine
end

section
/-! SUPPORT. What a command word and the receive step do on the bus of a master (spec 41_master_commands.md R200 to
R209): the transmitted byte and the START symbol as updates of the registers. -/

namespace Sys2Proof.Machine
open Sys2Proof.Claims

section
variable {s : State} {k : BusIndex} {x : Inst} {m : MCtx}

/-- On an existing bus a command word is its rule. -/
theorem onBus_of {f : Inst → Res Inst} (h : s.inst? k = some x) :
    onBus k s f = andThen (f x) fun y => .next (s.setInst k y) :=
  onInst_of h

/-- With a Master Context the oracle's answer to a byte writes the registers, and nothing else (R204, R206). -/
theorem transmitByte_of_master {b : Byte} {expectNack : Bool} {ans : TxAnswer} (hr : x.role = .master m) :
    transmitByte b expectNack ans x = .next { x with hw := byteSent m.mode b expectNack ans x.hw } := by
  by_cases hu : m.mode = .ultraFast <;> cases ans <;> cases expectNack <;>
    simp [transmitByte, raiseNack, hr, hu, byteSent, putWire, arbitrationLost, lineHeldLow]

/-- The START symbol writes the registers (R204). -/
theorem startSymbol_eq {fresh repeated : WireSym} :
    startSymbol fresh repeated x = { x with hw := startSent fresh repeated x.hw } := rfl

/-- A START with its byte, on the bus of a master (R204, R208, R209). -/
theorem onBus_start {fresh repeated : WireSym} {b : Byte} {expectNack : Bool} (hx : masterAt s k x m) :
    onBus k s (fun x => transmitByte b expectNack s.inp.tx (startSymbol fresh repeated x)) = .next (s.setInst k { x with
      hw := byteSent m.mode b expectNack s.inp.tx (startSent fresh repeated x.hw) }) := by
  obtain ⟨hbus, hrole⟩ := hx
  have hrole' : (startSymbol fresh repeated x).role = .master m := hrole
  rw [onBus_of hbus, transmitByte_of_master hrole', andThen_next, startSymbol_eq]

/-- With a Master Context the receive step is enabled on an enabled bus side that is not halted, while bytes are
expected and the receive FIFO has room (R205). -/
theorem receiveEnabled_iff {p : Params} (hr : x.role = .master m) (hleft : 0 < x.hw.rxLeft) :
    receiveEnabled p x = true ↔ ¬ (x.hw.men = false ∨ halted x.hw m.mode ∨ p.rxDepth ≤ x.hw.rxf.length) := by
  rw [← busHalted_iff hr]
  simp [receiveEnabled, hleft, and_assoc]

/-- The step of a turn that comes to a step of the agent's own is that step. -/
theorem step_turn_of_own {t : Turn} {r : Res State} (h : fetch t.agent (during s t) = .own r) :
    step (turn s t) = r := by
  simp only [step, turn_turns, beginTurn_turn, h]

/-- While bytes are expected no command is popped (R200). -/
theorem commandEnabled_of_receiving (hleft : 0 < x.hw.rxLeft) : commandEnabled x = false := by
  simp [commandEnabled, Nat.ne_of_gt hleft]

/-- While bytes are expected the master bus side's turn is the receive step or passes (R205). -/
theorem busFetch_of_receiving (hx : s.inst? k = some x) (hleft : 0 < x.hw.rxLeft) :
    busFetch k s = .own (.next (if receiveEnabled s.par x then s.setInst k (receiveStep s.inp.rx x) else s)) := by
  simp only [busFetch, hx, commandEnabled_of_receiving hleft]
  split <;> rfl

end

/-- Settles O23: the transmitted byte on an open bus, the FIFO error on a closed one. -/
theorem txdResult : Obligations.TxdResult := by
  rintro s k x m d ⟨hbus, hrole⟩
  refine (onBus_of hbus).trans ?_
  by_cases hopen : x.hw.busOpen = true
  · simp only [hopen, if_true, transmitByte_of_master hrole, andThen_next]
  · simp only [hopen, if_false, Bool.false_eq_true, andThen_next, fifoError]

/-- Settles O25: the three are one rule, with their symbols and the answer they expect. -/
theorem startResult : Obligations.StartResult :=
  fun _ _ _ _ _ hx => ⟨onBus_start hx, onBus_start hx, onBus_start hx⟩

/-- Settles O26: the turn is the receive step or passes. -/
theorem receiveStepResult : Obligations.ReceiveStep := by
  rintro s k inp x m ⟨hbus, hrole⟩ hleft
  have hstep : step (turn s ⟨.busm k, inp⟩) = .next
      (if receiveEnabled s.par x then (during s ⟨.busm k, inp⟩).setInst k (receiveStep inp.rx x)
       else during s ⟨.busm k, inp⟩) :=
    step_turn_of_own (busFetch_of_receiving (s := during s _) hbus hleft)
  have hiff := receiveEnabled_iff (p := s.par) hrole hleft
  rw [hstep]
  by_cases hen : receiveEnabled s.par x = true
  · rw [if_pos hen, if_neg (hiff.mp hen)]
    cases inp.rx <;> rfl
  · rw [if_neg hen, if_pos (Decidable.not_not.mp fun h => hen (hiff.mpr h))]

/-- Settles O24: both words test the open bus. -/
theorem rxnAndStopResult : Obligations.RxnAndStopResult := by
  intro s k x hbus
  refine ⟨fun d => (onBus_of hbus).trans ?rxn, (onBus_of hbus).trans ?stop⟩
  case rxn => by_cases hopen : x.hw.busOpen = true <;> simp [hopen, rxnCount, fifoError]
  case stop => by_cases hopen : x.hw.busOpen = true <;> simp [hopen, putWire]

end Sys2Proof.Machine
end

section
/-! SUPPORT. No rule of an engine faults where the invariant holds (spec 41_master_commands.md R191, R196;
20_memory.md R81, R87): first what a rule makes true where it goes on, then the master engine. -/

namespace Sys2Proof.Machine

/-! ## Rules that do not fault -/

/-- The rule does not fault, and where it goes on `P` holds of its answer; it may refuse. (Where the rule's view is
found only later in a proof, a hypothesis about it is given as `by exact`, which waits for it.) -/
def Ensures {α : Type} (r : Res α) (P : α → Prop) : Prop :=
  match r with
  | .next a => P a
  | .fault _ => False
  | .refused _ => True

/-- The rule does not fault. -/
abbrev FaultFree {α : Type} (r : Res α) : Prop := Ensures r fun _ => True

section
variable {α β : Type} {r r' : Res α} {P Q : α → Prop}

theorem Ensures.next {a : α} (h : P a) : Ensures (.next a) P := h

theorem Ensures.refused {e : Refusal} : Ensures (.refused e) P := trivial

theorem Ensures.mono (h : Ensures r P) (hPQ : ∀ a, P a → Q a) : Ensures r Q := by
  cases r with
  | next a => exact hPQ a h
  | fault e => exact h.elim
  | refused e => trivial

theorem Ensures.faultFree (h : Ensures r P) : FaultFree r := h.mono fun _ _ => trivial

/-- A sequence of two rules. -/
theorem Ensures.andThen {f : α → Res β} {R : β → Prop} (hr : Ensures r P) (hf : ∀ a, P a → Ensures (f a) R) :
    Ensures (andThen r f) R := by
  cases r with
  | next a => exact hf a hr
  | fault e => exact hr.elim
  | refused e => trivial

theorem Ensures.ite {c : Prop} [Decidable c] (h : c → Ensures r P) (h' : ¬ c → Ensures r' P) :
    Ensures (if c then r else r') P := by
  split
  · exact h ‹_›
  · exact h' ‹_›

theorem ensures_of_ne_fault (hr : ∀ e, r ≠ .fault e) (hP : ∀ a, r = .next a → P a) : Ensures r P := by
  cases r with
  | next a => exact hP a rfl
  | fault e => exact hr e rfl
  | refused e => trivial

theorem FaultFree.of_eq {a : α} (h : r = .next a) : FaultFree r := by
  rw [h]
  exact .next trivial

theorem FaultFree.ne_fault (h : FaultFree r) (e : Fault) : r ≠ .fault e := by
  rintro rfl
  exact h

end

/-! ## Buffers -/

/-- A buffer pointer that a count above 0 may use: not null, and inside the address space (R81). -/
def BufReady (p : Params) (b : Option Nat) (count : Nat) : Prop := 0 < count → ∃ a, b = some a ∧ a < 2 ^ p.addrW

section
variable {p : Params}

theorem bufReady_of_bufGood {b : Option Nat} {count : Nat} (h : bufGood p b count = true) : BufReady p b count := by
  intro hcount
  cases b with
  | none => simp [bufGood, Nat.ne_of_gt hcount] at h
  | some a => exact ⟨a, rfl, by simp_all [bufGood]⟩

/-- A buffer that does not wrap is ready (R82). -/
theorem bufReady_of_fits {buf len : Nat} (h : buf + len ≤ 2 ^ p.addrW) : BufReady p (some buf) len :=
  fun hlen => ⟨buf, rfl, by omega⟩

/-- A pointer stays inside the address space as it advances (R82). -/
theorem bufReady_ptrNext {a count : Nat} : BufReady p (some (ptrNext p a)) count :=
  fun _ => ⟨_, rfl, Nat.mod_lt _ (Nat.two_pow_pos _)⟩

end

/-! ## The command queue and the address phase -/

/-- Behind the offer of at most `k` words: the queue has grown by no more than `k`; the parameters, the idle flag and
the send buffer are as before. -/
structure Node.Offers (k : Nat) (n n' : MNode) : Prop where
  par : n'.par = n.par
  idle : n'.ctx.idle = n.ctx.idle
  txBuff : n'.ctx.txBuff = n.ctx.txBuff
  txSize : n'.ctx.txSize = n.ctx.txSize
  count : swqCount n'.ctx ≤ swqCount n.ctx + k

section
variable {k l : Nat} {n m : MNode} {r : Res MNode}

theorem Node.Offers.none : n.Offers k n := ⟨rfl, rfl, rfl, rfl, Nat.le_add_right _ _⟩

theorem Node.Offers.mono (h : n.Offers k m) (hkl : k ≤ l) : n.Offers l m :=
  { h with count := Nat.le_trans h.count (Nat.add_le_add_left hkl _) }

theorem Node.Offers.trans {n' : MNode} (h : n.Offers k m) (h' : m.Offers l n') : n.Offers (k + l) n' :=
  ⟨h'.par.trans h.par, h'.idle.trans h.idle, h'.txBuff.trans h.txBuff, h'.txSize.trans h.txSize, by
    have := h.count
    have := h'.count
    omega⟩

/-- Offers one behind another; the second part may use how far the queue has grown. -/
theorem Ensures.offers {f : MNode → Res MNode} (hr : Ensures r (n.Offers k))
    (hf : ∀ m : MNode, n.Offers k m → Ensures (f m) (m.Offers l)) : Ensures (Machine.andThen r f) (n.Offers (k + l)) :=
  hr.andThen fun m hm => (hf m hm).mono fun _ => hm.trans

/-- An offer to a queue that is not full does not overflow (R191, R196). -/
theorem offer_ensures {c : Cmd} {d : Byte} (h : swqCount n.ctx < 5) : Ensures (offer c d n) (n.Offers 1) := by
  by_cases hdirect : n.ctx.swqWr = n.ctx.swqRd ∧ n.hw.txf.length < n.par.txDepth
  · rw [offer_direct hdirect.1 hdirect.2]
    exact .next ⟨rfl, rfl, rfl, rfl, Nat.le_succ _⟩
  · rw [offer_queued hdirect, swqPush_of h]
    exact .next ⟨rfl, rfl, rfl, rfl, Nat.le_of_eq (swqCount_swqPushed h)⟩

theorem masterCodePhase_ensures (h : swqCount n.ctx < 5) : Ensures (masterCodePhase n) (n.Offers 1) :=
  .ite (fun _ => (offer_ensures h).andThen fun _ hm => .next { hm with }) fun _ => .next .none

/-- The address phase offers at most four words: the master code, and three bytes of a 10-bit receive (R194, R195). -/
theorem addressPhase_ensures {dir : Dir} (h : swqCount n.ctx = 0) : Ensures (addressPhase dir n) (n.Offers 4) := by
  refine (masterCodePhase_ensures (by omega)).offers (l := 3) fun n₁ h₁ => ?_
  have hcount₁ := h₁.count
  refine .ite (fun _ => ?short) fun _ => ?long
  case short => exact (offer_ensures (by omega)).mono fun _ hm => hm.mono (by omega)
  case long =>
    refine (offer_ensures (by omega)).offers (l := 2) fun n₂ h₂ => ?_
    have hcount₂ := h₂.count
    refine (offer_ensures (by omega)).offers (l := 1) fun n₃ h₃ => ?_
    have hcount₃ := h₃.count
    exact .ite (fun _ => offer_ensures (by omega)) fun _ => .next .none

/-- Behind the address phase only the phase may change. -/
theorem enterTransferring_offers : n.Offers 0 (enterTransferring n) := by
  unfold enterTransferring
  split
  · exact ⟨rfl, rfl, rfl, rfl, Nat.le_refl _⟩
  · exact .none

/-! ## The fill and the drain -/

/-- The drain of the queue leaves the parameters and the send buffer. -/
theorem drainQueue_ensures : Ensures (drainQueue n) fun n' =>
    n'.par = n.par ∧ n'.ctx.txBuff = n.ctx.txBuff ∧ n'.ctx.txSize = n.ctx.txSize := by
  refine Ensures.andThen (ensures_of_ne_fault (fun _ => drainLoop_ne_fault) fun m hm => ?_)
    fun m hm => .ite (fun _ => .next hm) fun _ => .next hm
  obtain ⟨wr, rd, txf, rfl⟩ := drainLoop_frame hm
  exact ⟨rfl, rfl, rfl⟩

/-- The fill reads inside the address space and pushes into a FIFO with room (R81, R87, R233). -/
theorem fillLoop_ensures {fuel : Nat} (h : BufReady n.par n.ctx.txBuff n.ctx.txSize) :
    Ensures (fillLoop fuel n) fun n' => n'.ctx.idle = n.ctx.idle := by
  induction fuel generalizing n with
  | zero => exact .next rfl
  | succ fuel ih =>
    refine .ite (fun ⟨hsize, hroom⟩ => ?_) fun _ => .next rfl
    obtain ⟨a, hbuf, ha⟩ := h hsize
    rw [fillOne_of hbuf ha hroom]
    exact ih bufReady_ptrNext

/-- Behind a drain of the receive FIFO: the count has gone down by the bytes stored; the queue, the transmit FIFO and
the parameters are as before. -/
structure Node.Drained (k : Nat) (n n' : MNode) : Prop where
  par : n'.par = n.par
  txf : n'.hw.txf = n.hw.txf
  swqWr : n'.ctx.swqWr = n.ctx.swqWr
  swqRd : n'.ctx.swqRd = n.ctx.swqRd
  rxSize : n'.ctx.rxSize = n.ctx.rxSize - k

/-- The drain pops from a FIFO that is not empty and writes inside the address space (R81, R87, R234, R166). -/
theorem lateLoop_ensures (hfifo : k ≤ n.hw.rxf.length) (hsize : k ≤ n.ctx.rxSize)
    (h : BufReady n.par n.ctx.rxBuff n.ctx.rxSize) : Ensures (lateLoop k n) (n.Drained k) := by
  induction k generalizing n with
  | zero => exact .next ⟨rfl, rfl, rfl, rfl, rfl⟩
  | succ k ih =>
    obtain ⟨b, rest, hrxf⟩ := List.exists_cons_of_length_pos (Nat.zero_lt_of_lt hfifo)
    obtain ⟨a, hbuf, ha⟩ := h (by omega)
    rw [lateLoop, drainOne_of hrxf hbuf ha, andThen_next]
    have hrest : k ≤ rest.length := by simpa [hrxf] using hfifo
    refine (ih hrest (Nat.le_sub_one_of_lt hsize) bufReady_ptrNext).mono fun n' hn => ?_
    exact { hn with rxSize := by rw [hn.rxSize]; dsimp only; omega }

theorem rxLoop_ensures (h : BufReady n.par n.ctx.rxBuff n.ctx.rxSize) :
    Ensures (rxLoop n.hw.rxf.length n) (n.Drained (min n.hw.rxf.length n.ctx.rxSize)) := by
  rw [rxLoop_eq_lateLoop, Nat.min_self_assoc]
  exact lateLoop_ensures (Nat.min_le_left _ _) (Nat.min_le_right _ _) h

/-! ## Requests and the callback -/

/-- An idle engine has an empty queue: what a request needs to be free of faults, and every request keeps. -/
def Node.IdleEmpty (n : MNode) : Prop := n.ctx.idle = true → n.ctx.swqWr = n.ctx.swqRd

theorem Node.IdleEmpty.of_busy (h : n.ctx.idle = false) : n.IdleEmpty := by simp [Node.IdleEmpty, h]

/-- An accepted send does not fault (R153). -/
theorem sendStart_ensures {buf len : Nat} (hcount : swqCount n.ctx = 0) (h : BufReady n.par n.ctx.txBuff n.ctx.txSize) :
    Ensures (sendStart buf len n) fun n' => n'.ctx.idle = n.ctx.idle := by
  refine (addressPhase_ensures hcount).andThen fun m hm => ?_
  have hoffers := hm.trans enterTransferring_offers
  have hready : BufReady (enterTransferring m).par (enterTransferring m).ctx.txBuff
      (enterTransferring m).ctx.txSize := by
    rw [hoffers.par, hoffers.txBuff, hoffers.txSize]
    exact h
  dsimp only
  split
  · refine Ensures.andThen (P := fun n' => n'.ctx.idle = n.ctx.idle) (.ite (fun _ => ?_) fun _ => .next hoffers.idle)
      fun _ => .next
    exact (fillLoop_ensures hready).mono fun _ hidle => hidle.trans hoffers.idle
  · exact .next hoffers.idle

/-- An accepted receive offers at most five words to an empty queue (R155, R196). -/
theorem recvStart_ensures {buf len : Nat} (hcount : swqCount n.ctx = 0) :
    Ensures (recvStart buf len n) fun n' => n'.ctx.idle = n.ctx.idle := by
  refine Ensures.andThen (addressPhase_ensures (by exact hcount)) fun n₁ h₁ => ?_
  have hcount₁ : swqCount n₁.ctx ≤ swqCount n.ctx + 4 := h₁.count
  refine (offer_ensures (by omega)).andThen fun n₂ h₂ => ?_
  have hidle := ((h₁.trans h₂).trans enterTransferring_offers).idle
  dsimp only
  split
  · exact .next hidle
  · exact .next hidle

/-- The answer or the wait behind an accepted request leaves the context. -/
theorem completeOrWait_ctx {C : Type} {o : Origin} {e : Engine} {t : Option Nat} {n : Node C} :
    (completeOrWait o e t n).ctx = n.ctx := by
  cases t <;> rfl

/-- A transfer request does not fault, if its start does not from an empty queue. -/
theorem mTransfer_ensures {start : Nat → Nat → MNode → Res MNode} {dir : Dir} {o : Origin} {buf len : Nat} {stop : Bool}
    {t : Option Nat} (h : n.IdleEmpty)
    (hstart : ∀ blocking, swqCount n.ctx = 0 → buf + len ≤ 2 ^ n.par.addrW →
      Ensures (start buf len (mAccepted dir buf len stop blocking n)) fun n' => n'.ctx.idle = false) :
    Ensures (mTransfer start dir o buf len stop t n) Node.IdleEmpty := by
  refine .ite (fun _ => .refused) fun _ => ?_
  split
  · exact .next h
  · exact .refused
  · obtain ⟨hidle, -, -, -, hfits⟩ := mVerdict_accept.mp ‹_›
    refine (hstart _ (swqCount_eq_zero.mpr (h hidle)) hfits).andThen fun n' hbusy => .next (.of_busy ?_)
    rw [completeOrWait_ctx]
    exact hbusy

theorem mSend_ensures {o : Origin} {buf len : Nat} {stop : Bool} {t : Option Nat} (h : n.IdleEmpty) :
    Ensures (mSend o buf len stop t n) Node.IdleEmpty :=
  mTransfer_ensures h fun _ hcount hfits => sendStart_ensures hcount (bufReady_of_fits hfits)

theorem mRecv_ensures {o : Origin} {buf len : Nat} {stop : Bool} {t : Option Nat} (h : n.IdleEmpty) :
    Ensures (mRecv o buf len stop t n) Node.IdleEmpty :=
  mTransfer_ensures h fun _ hcount _ => recvStart_ensures hcount

theorem mStatus_ensures {o : Origin} (h : n.IdleEmpty) : Ensures (mStatus o n) Node.IdleEmpty :=
  .ite (fun _ => .refused) fun _ => .next h

theorem mGetBaud_ensures {o : Origin} (h : n.IdleEmpty) : Ensures (mGetBaud o n) Node.IdleEmpty :=
  .ite (fun _ => .refused) fun _ => .next h

theorem mSetBaud_ensures {o : Origin} {mode : BitVec 3} {rate rateHS : BitVec 32} (h : n.IdleEmpty) :
    Ensures (mSetBaud o mode rate rateHS n) Node.IdleEmpty := by
  refine .ite (fun _ => .refused) fun _ => ?_
  split
  · exact .refused
  · exact .ite (fun _ => .next h) fun _ => .next h

theorem mCallbackRequest_ensures {q : CbReq} (h : n.IdleEmpty) : Ensures (mCallbackRequest q n) Node.IdleEmpty := by
  cases q with
  | msend => exact mSend_ensures h
  | mrecv => exact mRecv_ensures h
  | mstatus => exact mStatus_ensures h
  | mgetbaud => exact mGetBaud_ensures h
  | msetbaud => exact mSetBaud_ensures h
  | ssettx | ssetrx | sstatus => exact .refused

theorem mCallbackRun_ensures {qs : List CbReq} (h : n.IdleEmpty) : Ensures (mCallbackRun qs n) Node.IdleEmpty := by
  induction qs generalizing n with
  | nil => exact .next h
  | cons q qs ih => exact (mCallbackRequest_ensures h).andThen fun _ => ih

/-- A callback does not fault, whatever requests it issues, where an idle engine has an empty queue (R231). -/
theorem mCallback_faultFree {ev : CbEvent} (h : n.IdleEmpty) : FaultFree (mCallback ev n) := by
  unfold mCallback
  split
  · exact .next trivial
  · exact Ensures.faultFree (mCallbackRun_ensures (by exact h))

theorem mNotify_faultFree (h : n.IdleEmpty) : FaultFree (mNotify n) := mCallback_faultFree (n := mPost n) h

/-! ## Ends of transfers -/

/-- A `STOP` offered now goes to the transmit FIFO: the queue is empty and the FIFO has room (R190). -/
def Node.StopReady (n : MNode) : Prop := n.ctx.swqWr = n.ctx.swqRd ∧ n.hw.txf.length < n.par.txDepth

/-- A drain of the receive FIFO is no part of it. -/
theorem Node.Drained.stopReady {n' : MNode} (h : n.Drained k n') (hready : n.StopReady) : n'.StopReady := by
  obtain ⟨hempty, hroom⟩ := hready
  exact ⟨by rw [h.swqWr, h.swqRd, hempty], by rw [h.txf, h.par]; exact hroom⟩

/-- `MEnd` resets the FIFOs and the queue, or finds them ready for a `STOP`. -/
def Node.CanEnd (reset : Bool) (n : MNode) : Prop := if reset then 1 ≤ n.par.txDepth else n.StopReady

theorem mEndQuiet_stopReady {reset : Bool} (h : n.CanEnd reset) : (mEndQuiet reset n).StopReady := by
  rw [mEndQuiet_eq]
  cases reset with
  | false => exact h
  | true => exact ⟨rfl, h⟩

/-- The phase is no part of it. -/
theorem Node.CanEnd.setMPhase {reset : Bool} {p : Phase} (h : n.CanEnd reset) : (setMPhase p n).CanEnd reset := h

/-- The end of a transfer does not overflow the queue, and leaves it empty (R196, R230). -/
theorem mEnd_ensures {stop reset : Bool} (h : n.CanEnd reset) : Ensures (mEnd stop reset n) Node.IdleEmpty := by
  obtain ⟨hempty, hroom⟩ := mEndQuiet_stopReady h
  cases stop with
  | false =>
    rw [mEnd_noStop]
    exact .next fun _ => hempty
  | true =>
    rw [mEnd_stop hempty hroom]
    exact .next fun _ => hempty

theorem mFinish_faultFree {st : Status} {stop reset : Bool} (h : n.CanEnd reset) :
    FaultFree (mFinish st stop reset n) :=
  (mEnd_ensures h.setMPhase).andThen fun _ hm => mNotify_faultFree hm

theorem rxComplete_faultFree (h : n.StopReady) : FaultFree (rxComplete n) :=
  (mEnd_ensures (Node.CanEnd.setMPhase (reset := false) h)).andThen fun _ hm =>
    .ite (fun _ => .next trivial) fun _ => mCallback_faultFree hm

theorem errEnd_faultFree {st : Status} {clear : MLatched → MLatched} (h : 1 ≤ n.par.txDepth) :
    FaultFree (errEnd st clear n) :=
  (mEnd_ensures (Node.CanEnd.setMPhase (reset := true) h)).andThen fun _ hm =>
    Ensures.andThen (mNotify_faultFree (by exact hm)) fun _ _ => .next trivial

theorem forceAbort_faultFree {st : Status} (h : 1 ≤ n.par.txDepth) : FaultFree (forceAbort st n) :=
  .of_eq (forceAbort_of h)

theorem mAbort_faultFree (h : 1 ≤ n.par.txDepth) : FaultFree (mAbort n) :=
  .ite (fun _ => .refused) fun _ => .ite (fun _ => .next trivial) fun _ => .ite (fun _ => .next trivial) fun _ =>
    (forceAbort_faultFree h).andThen fun _ _ => .next trivial

/-! ## Master events -/

theorem handleTxrdy_faultFree (hd : 1 ≤ n.par.txDepth) (h : BufReady n.par n.ctx.txBuff n.ctx.txSize) :
    FaultFree (handleTxrdy n) := by
  refine drainQueue_ensures.andThen fun m ⟨hpar, hbuff, hsize⟩ => ?_
  refine .ite (fun _ => .next trivial) fun hqueue => .ite (fun _ => .next trivial) fun _ =>
    .ite (fun _ => .next trivial) fun _ => .ite (fun ⟨_, hnil⟩ => mFinish_faultFree ?finish) fun _ => ?fill
  case finish =>
    refine ⟨swqEmpty_iff.mp (by simpa using hqueue), ?_⟩
    rw [hnil, hpar]
    exact hd
  case fill =>
    refine (fillLoop_ensures ?_).faultFree
    rw [hpar, hbuff, hsize]
    exact h

/-- A receive completes only where a `STOP` finds room. -/
theorem handleRxrdy_faultFree (h : BufReady n.par n.ctx.rxBuff n.ctx.rxSize)
    (hdone : n.ctx.rxSize ≤ n.hw.rxf.length → n.StopReady) : FaultFree (handleRxrdy n) := by
  refine (rxLoop_ensures h).andThen fun m hm => .ite (fun hzero => rxComplete_faultFree ?_) fun _ => .next trivial
  have hsize := hm.rxSize
  exact hm.stopReady (hdone (by omega))

theorem handleNack_faultFree (hd : 1 ≤ n.par.txDepth) : FaultFree (handleNack n) :=
  .ite (fun _ => .next trivial) fun _ => errEnd_faultFree hd

theorem masterDmaok_faultFree (hdone : n.ctx.dir ≠ .send → n.StopReady) : FaultFree (masterDmaok n) :=
  .ite (fun _ => .next trivial) fun hdir => rxComplete_faultFree (by exact hdone hdir)

theorem masterDmaerr_faultFree (hd : 1 ≤ n.par.txDepth) : FaultFree (masterDmaerr n) := mFinish_faultFree hd

theorem timeoutAbort_faultFree (hd : 1 ≤ n.par.txDepth) : FaultFree (timeoutAbort n) :=
  (forceAbort_faultFree hd).andThen fun _ _ => .next trivial

theorem lateSuccess_faultFree (hall : n.ctx.rxSize ≤ n.hw.rxf.length) (h : BufReady n.par n.ctx.rxBuff n.ctx.rxSize)
    (hdone : n.StopReady) : FaultFree (lateSuccess n) :=
  (lateLoop_ensures hall (Nat.le_refl _) h).andThen fun _ hm =>
    Ensures.andThen (rxComplete_faultFree (by exact hm.stopReady hdone)) fun _ _ => .next trivial

/-- A wait's expiry copies late bytes only of a receive in interrupt mode (R164, R166). -/
theorem masterTimeout_faultFree {w : Wait} (hd : 1 ≤ n.par.txDepth) (h : BufReady n.par n.ctx.rxBuff n.ctx.rxSize)
    (hdone : n.ctx.dir ≠ .send → n.ctx.transferType = .interrupts → n.ctx.rxSize ≤ n.hw.rxf.length → n.StopReady) :
    FaultFree (masterTimeout w n) := by
  unfold masterTimeout
  split
  · refine .ite (fun _ => timeoutAbort_faultFree hd) fun hrecv =>
      .ite (fun hall => lateSuccess_faultFree (by exact hall) (by exact h) ?_) fun _ => .next trivial
    obtain ⟨hdir, -, hmode⟩ := not_or.mp hrecv |>.imp_right not_or.mp
    cases ht : n.ctx.transferType
    · exact hdone hdir ht hall
    · exact absurd ht hmode
  · exact .next trivial

end

end Sys2Proof.Machine
end

section
/-! SUPPORT. No step faults from a good state but for the host's two faults (spec 10_state.md R50;
41_master_commands.md R196; 20_memory.md R81, R87; 30_encoding.md R121; 60_exceptions.md R382): what the invariant
says to each handler, the slave engine, the DMA channel, and every instruction and turn. -/

namespace Sys2Proof.Machine
open Sys2Proof.Claims

/-! ## What the invariant says of a master -/

section
variable {p : Params} {m : MCtx} {x : Inst} {s : State}

/-- A stream that receives nothing and whose last word is `RXN` is empty. -/
theorem eq_nil_of_pendingRx {ws : List CmdWord} (hpending : pendingRx ws = 0)
    (hlast : ∀ w, ws.getLast? = some w → isRxn w = true) : ws = [] := by
  induction ws with
  | nil => rfl
  | cons w ws ih =>
    simp only [pendingRx, Nat.add_eq_zero_iff] at hpending
    obtain ⟨hw, hws⟩ := hpending
    cases ws with
    | nil => simp_all [rxnCount]
    | cons v vs => exact absurd (ih hws (by simpa using hlast)) (List.cons_ne_nil v vs)

/-- Once the receive FIFO holds all that a receive still has to store, no word is left to execute: the queue and the
transmit FIFO are empty (R90, R155). -/
theorem stream_nil_of_recvGood (h : recvGood p m x = true)
    (hleft : ∀ left, recvRemaining p m x.dma = some left → left ≤ x.hw.rxf.length) :
    m.swqWr = m.swqRd ∧ x.hw.txf = [] := by
  unfold recvGood at h
  split at h
  · cases h
  · obtain ⟨hsum, hlast⟩ := Bool.and_eq_true_iff.mp h
    have hsum := of_decide_eq_true hsum
    have hall := hleft _ ‹_›
    have hnil : commandStream m x.hw = [] := eq_nil_of_pendingRx (by omega) fun w hw => by simpa [hw] using hlast
    obtain ⟨htxf, hqueue⟩ := List.append_eq_nil_iff.mp hnil
    refine ⟨swqCount_eq_zero.mp ?_, htxf⟩
    rw [← length_swqEntries, hqueue, List.length_nil]

/-- In interrupt mode the context counts what is still to be stored. -/
theorem recvRemaining_interrupts {d : DmaCh} {left : Nat} (ht : m.transferType = .interrupts)
    (h : recvRemaining p m d = some left) : left = m.rxSize := by
  cases d <;> simp_all [recvRemaining]

/-- While the channel runs it counts what is still to be stored, from a pointer inside the address space. -/
theorem recvRemaining_running {dir : DmaDir} {reg : DmaReg} {ptr count left : Nat}
    (h : recvRemaining p m (.running dir reg ptr count) = some left) : left = count ∧ ptr < 2 ^ p.addrW := by
  cases ht : m.transferType <;> cases dir <;> cases reg <;> simp_all [recvRemaining, bufGood]

theorem sendDmaGood_running {dir : DmaDir} {reg : DmaReg} {ptr count : Nat}
    (h : sendDmaGood p m (.running dir reg ptr count) = true) : ptr < 2 ^ p.addrW := by
  cases ht : m.transferType <;> cases dir <;> cases reg <;> simp_all [sendDmaGood, bufGood]

/-- The parts of the invariant of a master that its handlers need. -/
theorem masterGood_parts (h : masterGood p m x = true) :
    BufReady p m.txBuff m.txSize ∧ BufReady p m.rxBuff m.rxSize ∧ masterWaitGood m x.hostw = true ∧
      (m.idle = true → masterIdleGood m x = true) ∧ (m.idle = false → masterBusyGood p m x = true) := by
  simp only [masterGood, Bool.and_eq_true] at h
  obtain ⟨⟨⟨⟨-, htx⟩, hrx⟩, hwait⟩, hengine⟩ := h
  refine ⟨bufReady_of_bufGood htx, bufReady_of_bufGood hrx, hwait, fun hi => ?_, fun hi => ?_⟩
  · simpa [hi] using hengine
  · simpa [hi] using hengine

/-- An idle engine has an empty queue, no enabled source and a stopped channel. -/
theorem masterIdleGood_parts (h : masterIdleGood m x = true) :
    m.swqWr = m.swqRd ∧ x.hw.mie = .none ∧ x.dma = .stopped := by
  simp only [masterIdleGood, Bool.and_eq_true, beq_iff_eq, swqEmpty_iff] at h
  obtain ⟨⟨⟨⟨⟨⟨-, hmie⟩, hdma⟩, hempty⟩, -⟩, -⟩, -⟩ := h
  exact ⟨hempty, hmie, hdma⟩

/-- A transfer in flight is a send with its channel, `RXRDY` disabled, or a receive with its bytes accounted for. -/
theorem masterBusyGood_parts (h : masterBusyGood p m x = true) :
    (m.dir = .send ∧ x.hw.mie.rxrdy = false ∧ sendDmaGood p m x.dma = true) ∨
    (m.dir = .receive ∧ (x.hw.mie.rxrdy = true → m.transferType = .interrupts) ∧ recvGood p m x = true) := by
  simp only [masterBusyGood, Bool.and_eq_true] at h
  obtain ⟨-, h⟩ := h
  cases hd : m.dir <;> simp only [hd, Bool.and_eq_true, Bool.not_eq_true', Bool.or_eq_true, beq_iff_eq] at h
  case none => cases h
  case send =>
    obtain ⟨⟨-, hrxrdy⟩, hdma⟩ := h
    exact .inl ⟨rfl, hrxrdy, hdma⟩
  case receive =>
    obtain ⟨⟨-, hmode⟩, hrecv⟩ := h
    exact .inr ⟨rfl, fun hrxrdy => hmode.resolve_left (by simp [hrxrdy]), hrecv⟩

/-- An engine with a source enabled is not idle. -/
theorem masterBusyGood_of_enabled (h : masterGood p m x = true) (hmie : x.hw.mie ≠ .none) :
    masterBusyGood p m x = true := by
  obtain ⟨-, -, -, hidle, hbusy⟩ := masterGood_parts h
  cases hi : m.idle
  · exact hbusy hi
  · obtain ⟨-, hnone, -⟩ := masterIdleGood_parts (hidle hi)
    exact absurd hnone hmie

/-- An engine whose channel runs is not idle. -/
theorem masterBusyGood_of_running (h : masterGood p m x = true) (hdma : x.dma ≠ .stopped) :
    masterBusyGood p m x = true := by
  obtain ⟨-, -, -, hidle, hbusy⟩ := masterGood_parts h
  cases hi : m.idle
  · exact hbusy hi
  · obtain ⟨-, -, hstopped⟩ := masterIdleGood_parts (hidle hi)
    exact absurd hstopped hdma

/-! ## Master events -/

theorem nodeOf_idleEmpty (h : masterGood p m x = true) : (Node.of s x m).IdleEmpty := by
  intro hi
  obtain ⟨-, -, -, hidle, -⟩ := masterGood_parts h
  exact (masterIdleGood_parts (hidle hi)).1

/-- A receive that has all its bytes in the FIFO finds queue and transmit FIFO ready for its `STOP`. -/
theorem nodeOf_stopReady (hd : 1 ≤ s.par.txDepth) (h : recvGood s.par m x = true)
    (hleft : ∀ left, recvRemaining s.par m x.dma = some left → left ≤ x.hw.rxf.length) :
    (Node.of s x m).StopReady := by
  obtain ⟨hempty, hnil⟩ := stream_nil_of_recvGood h hleft
  exact ⟨hempty, by rw [nodeOf_hw, hnil]; exact hd⟩

theorem handleRxrdy_faultFree_of_good (hd : 1 ≤ s.par.txDepth) (h : masterGood s.par m x = true)
    (hmie : x.hw.mie.rxrdy = true) : FaultFree (handleRxrdy (Node.of s x m)) := by
  obtain ⟨-, hrx, -⟩ := masterGood_parts h
  refine handleRxrdy_faultFree hrx fun hall => ?_
  have hbusy := masterBusyGood_of_enabled h fun e => by simp [e, MSources.none] at hmie
  obtain ⟨-, hoff, -⟩ | ⟨-, hmode, hrecv⟩ := masterBusyGood_parts hbusy
  · simp [hoff] at hmie
  · refine nodeOf_stopReady hd hrecv fun left hleft => ?_
    rw [recvRemaining_interrupts (hmode hmie) hleft]
    exact hall

theorem masterDmaok_faultFree_of_good (hd : 1 ≤ s.par.txDepth) (h : masterGood s.par m x = true)
    {dir : DmaDir} {reg : DmaReg} {ptr : Nat} (hdma : x.dma = .running dir reg ptr 0) :
    FaultFree (masterDmaok (Node.of s x m)) := by
  refine masterDmaok_faultFree fun hdir => ?_
  have hbusy := masterBusyGood_of_running h (by simp [hdma])
  obtain ⟨hsend, -⟩ | ⟨-, -, hrecv⟩ := masterBusyGood_parts hbusy
  · exact absurd hsend hdir
  · refine nodeOf_stopReady hd hrecv fun left hleft => ?_
    rw [hdma] at hleft
    rw [(recvRemaining_running hleft).1]
    exact Nat.zero_le _

/-- A wait that expires with its semaphore not posted is one for a transfer in flight. -/
theorem masterTimeout_faultFree_of_good {w : Wait} (hd : 1 ≤ s.par.txDepth) (h : masterGood s.par m x = true)
    (hwait : x.hostw = some w) (hsem : m.sem = false) : FaultFree (masterTimeout w (Node.of s x m)) := by
  obtain ⟨-, hrx, hhost, -, hbusy⟩ := masterGood_parts h
  have hidle : m.idle = false := by simp_all [masterWaitGood]
  refine masterTimeout_faultFree hd hrx fun hdir hmode hall => ?_
  obtain ⟨hsend, -⟩ | ⟨-, -, hrecv⟩ := masterBusyGood_parts (hbusy hidle)
  · exact absurd hsend hdir
  · refine nodeOf_stopReady hd hrecv fun left hleft => ?_
    rw [recvRemaining_interrupts hmode hleft]
    exact hall

end

/-! ## The slave engine -/

section
variable {n : SNode}

/-- Both buffers of a slave are ready. -/
def Node.BuffersReady (n : SNode) : Prop :=
  BufReady n.par n.ctx.txBuff n.ctx.txSize ∧ BufReady n.par n.ctx.rxBuff n.ctx.rxSize

/-- A rule that does not fault and leaves ready buffers ready. -/
abbrev KeepsReady (n : SNode) (r : Res SNode) : Prop := Ensures r fun n' => n.BuffersReady → n'.BuffersReady

/-- A buffer supplied by a request is null or does not wrap (R279, R280). -/
theorem bufReady_supplied {p : Params} {buf len : Nat} (h : ¬ bufferWraps p buf len = true) :
    BufReady p (if len = 0 then none else some buf) len := by
  intro hlen
  rw [if_neg (Nat.ne_of_gt hlen)]
  exact bufReady_of_fits (by simpa [bufferWraps] using h) hlen

theorem sSetTx_keepsReady {o : Origin} {buf len : Nat} : KeepsReady n (sSetTx o buf len n) :=
  .ite (fun _ => .refused) fun _ => .ite (fun _ => .refused) fun hfits =>
    .next fun ⟨_, hrx⟩ => ⟨bufReady_supplied hfits, hrx⟩

theorem sSetRx_keepsReady {o : Origin} {buf len : Nat} : KeepsReady n (sSetRx o buf len n) :=
  .ite (fun _ => .refused) fun _ => .ite (fun _ => .refused) fun hfits =>
    .next fun ⟨htx, _⟩ => ⟨htx, bufReady_supplied hfits⟩

theorem sStatus_keepsReady {o : Origin} : KeepsReady n (sStatus o n) :=
  .ite (fun _ => .refused) fun _ => .next id

theorem sCallbackRequest_keepsReady {q : CbReq} : KeepsReady n (sCallbackRequest q n) := by
  cases q with
  | ssettx => exact sSetTx_keepsReady
  | ssetrx => exact sSetRx_keepsReady
  | sstatus => exact sStatus_keepsReady
  | msend | mrecv | mstatus | mgetbaud | msetbaud => exact .refused

theorem sCallbackRun_keepsReady {qs : List CbReq} : KeepsReady n (sCallbackRun qs n) := by
  induction qs generalizing n with
  | nil => exact .next id
  | cons q qs ih => exact sCallbackRequest_keepsReady.andThen fun _ hm => ih.mono fun _ hm' h => hm' (hm h)

/-- A slave callback does not fault, whatever requests it issues (R302). -/
theorem sCallback_keepsReady {ev : CbEvent} : KeepsReady n (sCallback ev n) := by
  unfold sCallback
  split
  · exact .next id
  · exact sCallbackRun_keepsReady (n := { n with cbTrace := _ })

theorem sTransfer_faultFree {dir : Dir} {buf len : Nat} {t : Option Nat} : FaultFree (sTransfer dir buf len t n) := by
  refine .ite (fun _ => .refused) fun _ => ?_
  split
  · exact .next trivial
  · exact .refused
  · exact .next trivial

theorem sAbort_faultFree : FaultFree (sAbort n) :=
  .ite (fun _ => .refused) fun _ => .ite (fun _ => .next trivial) fun _ => .ite (fun _ => .next trivial) fun _ =>
    .next trivial

/-- The channel is armed with a pointer that is not null (R303). -/
theorem sArm_faultFree {dir : DmaDir} {reg : DmaReg} {b : Option Nat} {count : Nat} (h : BufReady n.par b count)
    (hcount : 0 < count) : FaultFree (sArm dir reg b count n) := by
  obtain ⟨a, rfl, -⟩ := h hcount
  exact .next trivial

theorem handleAddrvalid_faultFree (h : n.BuffersReady) : FaultFree (handleAddrvalid n) := by
  refine .ite (fun _ => ?read) fun _ => ?write
  case read =>
    exact sCallback_keepsReady.andThen fun m hm =>
      .ite (fun ⟨_, hcount⟩ => sArm_faultFree (hm (by exact h)).1 hcount) fun _ => .next trivial
  case write =>
    exact sCallback_keepsReady.andThen fun m hm =>
      .ite (fun ⟨_, hcount⟩ => sArm_faultFree (hm (by exact h)).2 hcount) fun _ => .next trivial

/-- An exhausted buffer is asked for first; both ways the buffers are ready (R304, R305). -/
theorem refill_ensures {c : Prop} [Decidable c] {ev : CbEvent} (h : n.BuffersReady) :
    Ensures (if c then sCallback ev n else .next n) Node.BuffersReady :=
  .ite (fun _ => sCallback_keepsReady.mono fun _ hm => hm h) fun _ => .next h

theorem sendNextByte_faultFree (h : BufReady n.par n.ctx.txBuff n.ctx.txSize) (hcount : 0 < n.ctx.txSize) :
    FaultFree (sendNextByte n) := by
  obtain ⟨a, hbuff, ha⟩ := h hcount
  simp [sendNextByte, hbuff, bufAddr, memRead, ha, Ensures]

theorem storeByte_faultFree {b : Byte} (h : BufReady n.par n.ctx.rxBuff n.ctx.rxSize) (hcount : 0 < n.ctx.rxSize) :
    FaultFree (storeByte b n) := by
  obtain ⟨a, hbuff, ha⟩ := h hcount
  simp [storeByte, hbuff, bufAddr, memWrite, ha, Ensures]

theorem handleTxdata_faultFree (h : n.BuffersReady) : FaultFree (handleTxdata n) :=
  (refill_ensures h).andThen fun _ hm =>
    .ite (fun _ => .next trivial) fun hcount => sendNextByte_faultFree hm.1 (Nat.pos_of_ne_zero hcount)

theorem handleRxdata_faultFree (h : n.BuffersReady) : FaultFree (handleRxdata n) :=
  (refill_ensures h).andThen fun m hm =>
    .ite (fun _ => .next trivial) fun hcount =>
      storeByte_faultFree (n := readSrdr m) hm.2 (Nat.pos_of_ne_zero hcount)

theorem boundary_faultFree : FaultFree (boundary n) := sCallback_keepsReady.faultFree

theorem handleRstart_faultFree : FaultFree (handleRstart n) :=
  .ite (fun _ => .next trivial) fun _ => boundary_faultFree

theorem slaveError_faultFree : FaultFree (slaveError n) := sCallback_keepsReady.faultFree

theorem slaveDmaok_faultFree {reg : DmaReg} : FaultFree (slaveDmaok reg n) :=
  .ite (fun _ => .next trivial) fun _ => .next trivial

theorem slaveDmaerr_faultFree {reg : DmaReg} : FaultFree (slaveDmaerr reg n) := sCallback_keepsReady.faultFree

/-- The buffers of a good slave are ready, and a channel it runs has its pointer inside the address space. -/
theorem slaveGood_parts {s : State} {c : SCtx} {x : Inst} (h : slaveGood s.par c x = true) :
    (Node.of s x c).BuffersReady ∧
      ∀ dir reg ptr count, x.dma = .running dir reg ptr count → ptr < 2 ^ s.par.addrW := by
  simp only [slaveGood, Bool.and_eq_true] at h
  obtain ⟨⟨⟨⟨⟨-, htx⟩, hrx⟩, hdma⟩, -⟩, -⟩ := h
  refine ⟨⟨bufReady_of_bufGood htx, bufReady_of_bufGood hrx⟩, fun dir reg ptr count hrun => ?_⟩
  cases dir <;> cases reg <;> simp_all [slaveDmaGood, bufGood]

end

/-! ## How a rule reaches its bus -/

section
variable {s : State} {k : BusIndex} {P : State → Prop}

theorem onInst_ensures {f : Inst → Res State} (h : ∀ x, s.inst? k = some x → Ensures (f x) P) :
    Ensures (onInst k s f) P := by
  unfold onInst
  split
  · exact .refused
  · exact h _ ‹_›

/-- A rule on an instance faults only if the instance exists and the rule faults with it. -/
theorem onInst_fault {f : Inst → Res State} {e : Fault} (h : onInst k s f = .fault e) :
    ∃ x, s.inst? k = some x ∧ f x = .fault e := by
  unfold onInst at h
  split at h
  · cases h
  · exact ⟨_, ‹_›, h⟩

theorem onMaster_faultFree {f : MNode → Res MNode} (h : ∀ x m, masterAt s k x m → FaultFree (f (Node.of s x m))) :
    FaultFree (onMaster k s f) := by
  refine onInst_ensures fun x hx => ?_
  split
  · exact (h x _ ⟨hx, ‹_›⟩).andThen fun _ _ => .next trivial
  · exact .refused

theorem onSlave_faultFree {f : SNode → Res SNode} (h : ∀ n, FaultFree (f n)) : FaultFree (onSlave k s f) := by
  refine onInst_ensures fun x _ => ?_
  split
  · exact (h _).andThen fun _ _ => .next trivial
  · exact .refused

theorem takeMasterEvent_faultFree {src : MSources → Bool} {f : MNode → Res MNode}
    (h : ∀ x m, masterAt s k x m → src (deliverableM x) = true → FaultFree (f (Node.of s x m))) :
    FaultFree (takeMasterEvent src k s f) := by
  refine onInst_ensures fun x hx => ?_
  split
  · exact .ite (fun hd => (h x _ ⟨hx, ‹_›⟩ hd).andThen fun _ _ => .next trivial) fun _ => .refused
  · exact .refused

theorem takeSlaveEvent_faultFree {src : SSources → Bool} {f : SNode → Res SNode}
    (h : ∀ x c, slaveAt s k x c → FaultFree (f (Node.of s x c))) : FaultFree (takeSlaveEvent src k s f) := by
  refine onInst_ensures fun x hx => ?_
  split
  · exact .ite (fun _ => (h x _ ⟨hx, ‹_›⟩).andThen fun _ _ => .next trivial) fun _ => .refused
  · exact .refused

theorem takeDmaEvent_faultFree {enabled : Inst → Bool} {fm : MNode → Res MNode} {fs : DmaReg → SNode → Res SNode}
    (hm : ∀ x m, masterAt s k x m → enabled x = true → FaultFree (fm (Node.of s x m)))
    (hs : ∀ reg n, FaultFree (fs reg n)) : FaultFree (takeDmaEvent enabled k s fm fs) := by
  refine onInst_ensures fun x hx => .ite (fun hen => ?_) fun _ => .refused
  split
  · exact (hm x _ ⟨hx, ‹_›⟩ hen).andThen fun _ _ => .next trivial
  · exact (hs _ _).andThen fun _ _ => .next trivial
  · exact .refused

/-! ## Every instruction -/

/-- On the bus of a master no command word faults (R200 to R209). -/
theorem exec_command_faultFree {i : Instr} {w : CmdWord} {x : Inst} {m : MCtx} (hi : encode i = .cmd k w)
    (hx : masterAt s k x m) : FaultFree (exec i s) := by
  cases i <;> cases hi
  case txd d => exact .of_eq (txdResult s k x m d hx)
  case rxn d => exact .of_eq ((rxnAndStopResult s k x hx.1).1 d)
  case stop => exact .of_eq (rxnAndStopResult s k x hx.1).2
  case start d => exact .of_eq (startResult s k x m d hx).1
  case starths d => exact .of_eq (startResult s k x m d hx).2.1
  case startn d => exact .of_eq (startResult s k x m d hx).2.2

theorem State.good.txDepth_pos (hs : s.good) : 1 ≤ s.par.txDepth := by
  obtain ⟨⟨-, hd, -⟩, -⟩ := hs
  exact hd

theorem State.good.inst {x : Inst} (hs : s.good) (hx : s.inst? k = some x) : Inst.good s.par x = true := by
  obtain ⟨-, -, -, hall⟩ := hs
  exact List.all_eq_true.mp hall x (List.mem_of_getElem? hx)

theorem State.good.master {x : Inst} {m : MCtx} (hs : s.good) (hx : masterAt s k x m) :
    masterGood s.par m x = true := by
  obtain ⟨hbus, hrole⟩ := hx
  have hgood := hs.inst hbus
  rw [Inst.good, hrole, Bool.and_eq_true] at hgood
  exact hgood.2

theorem State.good.slave {x : Inst} {c : SCtx} (hs : s.good) (hx : slaveAt s k x c) : slaveGood s.par c x = true := by
  obtain ⟨hbus, hrole⟩ := hx
  have hgood := hs.inst hbus
  rw [Inst.good, hrole, Bool.and_eq_true] at hgood
  exact hgood.2

theorem State.good.buffersReady {x : Inst} {c : SCtx} (hs : s.good) (hx : slaveAt s k x c) :
    (Node.of s x c).BuffersReady :=
  (slaveGood_parts (hs.slave hx)).1

/-- A deliverable source is enabled (R383). -/
theorem rxrdy_enabled {x : Inst} (h : (deliverableM x).rxrdy = true) : x.hw.mie.rxrdy = true := by
  unfold deliverableM at h
  split at h
  · split at h
    · simp only [MSources.meet, Bool.and_eq_true] at h
      exact h.2
    · cases h
  · cases h

/-- `DMAOK` is enabled only behind the channel's last byte (R337). -/
theorem running_of_dmaokEnabled {x : Inst} (h : dmaokEnabled x = true) :
    ∃ dir reg ptr, x.dma = .running dir reg ptr 0 := by
  unfold dmaokEnabled at h
  split at h
  · cases h
  · exact ⟨_, _, _, ‹_›⟩
  · cases h

theorem execWtimeout_faultFree (hs : s.good) : FaultFree (execWtimeout k s) := by
  refine onInst_ensures fun x hx => .ite (fun hen => ?_) fun _ => .refused
  split
  · rename_i m w hrole hwait
    have hsem : m.sem = false := by
      rw [wtimeoutEnabled, hrole, hwait] at hen
      split at hen <;> simp_all
    exact (masterTimeout_faultFree_of_good hs.txDepth_pos (hs.master ⟨hx, hrole⟩) hwait hsem).andThen
      fun _ _ => .next trivial
  · exact .next trivial
  · exact .refused

/-- No event faults (R232 to R240, R303 to R309, R338 to R341, R164 to R168, R282). -/
theorem exec_event_faultFree {i : Instr} {c : EvtCode} (hs : s.good) (hi : encode i = .evt k c) :
    FaultFree (exec i s) := by
  have hd := hs.txDepth_pos
  cases i <;> cases hi
  case txrdy =>
    exact takeMasterEvent_faultFree fun x m hx _ => handleTxrdy_faultFree hd (masterGood_parts (hs.master hx)).1
  case rxrdy =>
    exact takeMasterEvent_faultFree fun x m hx hsrc =>
      handleRxrdy_faultFree_of_good hd (hs.master hx) (rxrdy_enabled hsrc)
  case nack => exact takeMasterEvent_faultFree fun _ _ _ _ => handleNack_faultFree hd
  case arblost | fifoerr | pinlow => exact takeMasterEvent_faultFree fun _ _ _ _ => errEnd_faultFree hd
  case addrvalid => exact takeSlaveEvent_faultFree fun _ _ hx => handleAddrvalid_faultFree (hs.buffersReady hx)
  case txdata => exact takeSlaveEvent_faultFree fun _ _ hx => handleTxdata_faultFree (hs.buffersReady hx)
  case rxdata => exact takeSlaveEvent_faultFree fun _ _ hx => handleRxdata_faultFree (hs.buffersReady hx)
  case rstart => exact takeSlaveEvent_faultFree fun _ _ _ => handleRstart_faultFree
  case evtStop => exact takeSlaveEvent_faultFree fun _ _ _ => boundary_faultFree
  case biterr | sfifoerr => exact takeSlaveEvent_faultFree fun _ _ _ => slaveError_faultFree
  case dmaok =>
    refine takeDmaEvent_faultFree (fun x m hx hen => ?_) fun _ _ => slaveDmaok_faultFree
    obtain ⟨dir, reg, ptr, hdma⟩ := running_of_dmaokEnabled hen
    exact masterDmaok_faultFree_of_good hd (hs.master hx) hdma
  case dmaerr =>
    exact takeDmaEvent_faultFree (fun _ _ _ _ => masterDmaerr_faultFree hd) fun _ _ => slaveDmaerr_faultFree
  case wtimeout => exact execWtimeout_faultFree hs

theorem execMinit_faultFree {cfg : CfgPort} : FaultFree (execMinit k cfg s) := by
  refine onInst_ensures fun x _ => ?_
  split
  · split
    · exact .refused
    · exact .ite (fun _ => .next trivial) fun _ => .next trivial
  · exact .refused

theorem execSinit_faultFree {cfg : CfgPort} : FaultFree (execSinit k cfg s) := by
  refine onInst_ensures fun x _ => ?_
  split
  · split
    · exact .refused
    · exact .ite (fun _ => .next trivial) fun _ => .refused
  · exact .refused

/-- A deinit faults only on its own engine with a transfer in flight (R151, R382). -/
theorem execMdeinit_fault {e : Fault} (h : execMdeinit k s = .fault e) : e = .deinitWhileBusy ∧ inFlight s k := by
  obtain ⟨x, hx, h⟩ := onInst_fault h
  split at h
  · split at h
    · cases h
    · split at h
      · cases h
        exact ⟨rfl, .inl ⟨x, _, ⟨hx, ‹_›⟩, by simp_all⟩⟩
      · cases h
  · cases h

/-- A deinit faults only on its own engine with a transfer in flight (R271, R382). -/
theorem execSdeinit_fault {e : Fault} (h : execSdeinit k s = .fault e) : e = .deinitWhileBusy ∧ inFlight s k := by
  obtain ⟨x, hx, h⟩ := onInst_fault h
  split at h
  · split at h
    · cases h
    · split at h
      · cases h
        exact ⟨rfl, .inr ⟨x, _, ⟨hx, ‹_›⟩, ‹_›⟩⟩
      · cases h
  · cases h

/-- A request is a deinit or does not fault. -/
theorem exec_request_faultFree {i : Instr} {h : ReqWord} {o : Ports} (hs : s.good) (hi : encode i = .req h o) :
    (i = .mdeinit (reqInst h) ∧ (reqOpcode h).toNat = 0x02) ∨ (i = .sdeinit (reqInst h) ∧ (reqOpcode h).toNat = 0x12) ∨
      FaultFree (exec i s) := by
  have hmaster {f : MNode → Res MNode} {k : BusIndex} (hf : ∀ n, n.IdleEmpty → Ensures (f n) Node.IdleEmpty) :
      FaultFree (onMaster k s f) :=
    onMaster_faultFree fun _ _ hx => (hf _ (nodeOf_idleEmpty (hs.master hx))).faultFree
  cases i <;> cases hi
  case mdeinit => exact .inl ⟨by simp, by simp⟩
  case sdeinit => exact .inr (.inl ⟨by simp, by simp⟩)
  all_goals refine .inr (.inr ?_)
  case minit => exact execMinit_faultFree
  case sinit => exact execSinit_faultFree
  case msend | msendb => exact hmaster fun _ => mSend_ensures
  case mrecv | mrecvb => exact hmaster fun _ => mRecv_ensures
  case mstatus => exact hmaster fun _ => mStatus_ensures
  case mgetbaud => exact hmaster fun _ => mGetBaud_ensures
  case msetbaud => exact hmaster fun _ => mSetBaud_ensures
  case mabort => exact onMaster_faultFree fun _ _ _ => mAbort_faultFree hs.txDepth_pos
  case ssend | ssendb | srecv | srecvb => exact onSlave_faultFree fun _ => sTransfer_faultFree
  case sstatus => exact onSlave_faultFree fun _ => sStatus_keepsReady.faultFree
  case sabort => exact onSlave_faultFree fun _ => sAbort_faultFree
  case ssettx => exact onSlave_faultFree fun _ => sSetTx_keepsReady.faultFree
  case ssetrx => exact onSlave_faultFree fun _ => sSetRx_keepsReady.faultFree

/-! ## The DMA channel -/

/-- A channel that runs has its pointer inside the address space (R81, R342). -/
theorem State.good.dmaPtr {x : Inst} {dir : DmaDir} {reg : DmaReg} {ptr count : Nat} (hs : s.good)
    (hx : s.inst? k = some x) (hdma : x.dma = .running dir reg ptr count) : ptr < 2 ^ s.par.addrW := by
  cases hrole : x.role with
  | unowned =>
    have hgood := hs.inst hx
    simp [Inst.good, hrole, unownedGood, hdma] at hgood
  | master m =>
    have hbusy := masterBusyGood_of_running (hs.master ⟨hx, hrole⟩) (by simp [hdma])
    obtain ⟨-, -, hsend⟩ | ⟨-, -, hrecv⟩ := masterBusyGood_parts hbusy
    · exact sendDmaGood_running (hdma ▸ hsend)
    · unfold recvGood at hrecv
      split at hrecv
      · cases hrecv
      · rename_i left hleft
        rw [hdma] at hleft
        exact (recvRemaining_running hleft).2
  | slave c => exact (slaveGood_parts (hs.slave ⟨hx, hrole⟩)).2 dir reg ptr count hdma

/-- The arbiter grants the master's registers only with room in the transmit FIFO, or a byte in the receive FIFO
(R332). -/
theorem dmaGranted_fifo {p : Params} {x : Inst} {dir : DmaDir} {reg : DmaReg} {ptr count : Nat}
    (h : dmaGranted p x = true) (hdma : x.dma = .running dir reg ptr count) :
    (reg = .mtx → x.hw.txf.length < p.txDepth) ∧ (reg = .mrx → x.hw.rxf ≠ []) := by
  simp only [dmaGranted, hdma, Bool.and_eq_true] at h
  obtain ⟨-, h⟩ := h
  refine ⟨?_, ?_⟩
  · rintro rfl
    dsimp only at h
    split at h
    · simp_all
    · cases h
  · rintro rfl hnil
    simp [hnil] at h

/-- The byte of a move reads or writes inside the address space, and meets the FIFO as it needs it (R87, R334 to
R336). -/
theorem dmaByte_faultFree {reg : DmaReg} {ptr : Nat} {n : Node Unit} (hptr : ptr < 2 ^ n.par.addrW)
    (htx : reg = .mtx → n.hw.txf.length < n.par.txDepth) (hrx : reg = .mrx → n.hw.rxf ≠ []) :
    FaultFree (dmaByte reg ptr n) := by
  cases reg with
  | mtx => simp [dmaByte, memRead, hptr, pushTxf, htx rfl, Ensures]
  | mrx =>
    obtain ⟨b, rest, hrxf⟩ := List.exists_cons_of_ne_nil (hrx rfl)
    simp [dmaByte, popRxf, hrxf, memWrite, hptr, Ensures]
  | stx => simp [dmaByte, memRead, hptr, Ensures]
  | srx => simp [dmaByte, memWrite, hptr, Ensures]

theorem dmaTurn_faultFree (hs : s.good) : FaultFree (dmaTurn k s) := by
  unfold dmaTurn
  split
  · exact .next trivial
  · rename_i x hx
    refine .ite (fun hgranted => Ensures.andThen (P := fun _ => True) ?_ fun _ _ => .next trivial)
      fun _ => .next trivial
    unfold dmaMove
    split
    · exact .next trivial
    · rename_i hdma
      obtain ⟨htx, hrx⟩ := dmaGranted_fifo hgranted hdma
      exact (dmaByte_faultFree (hs.dmaPtr hx hdma) htx hrx).andThen fun _ _ => .next trivial

/-! ## Every turn -/

/-- A master bus side that is enabled is a master's, and every command in its FIFO is one of R115. -/
theorem State.good.commandStep {x : Inst} (hs : s.good) (hx : s.inst? k = some x) (hmen : x.hw.men = true) :
    (∃ m, x.role = .master m) ∧ ∀ w ∈ x.hw.txf, cmdGood w = true := by
  have hgood := hs.inst hx
  rw [Inst.good, Bool.and_eq_true] at hgood
  obtain ⟨hhw, hrole⟩ := hgood
  constructor
  · cases h : x.role with
    | unowned => simp [h, unownedGood, hmen] at hrole
    | master m => exact ⟨m, rfl⟩
    | slave c => simp [h, slaveGood, hmen] at hrole
  · simp only [hwGood, Bool.and_eq_true] at hhw
    exact List.all_eq_true.mp hhw.2

theorem runWord_evt_faultFree {c : EvtCode} (hs : s.good) : FaultFree (runWord (.evt k c) s) := by
  unfold runWord
  split
  · exact exec_event_faultFree hs (encode_of_decodeEvt ‹_›)
  · rename_i e he
    cases e
    case reservedCommand =>
      simp only [decode, decodeEvt] at he
      split at he <;> cases he
    all_goals exact .refused

theorem runWord_cmd_faultFree {w : CmdWord} {x : Inst} {m : MCtx} (hx : masterAt s k x m) (hw : cmdGood w = true) :
    FaultFree (runWord (.cmd k w) s) := by
  unfold runWord
  split
  · obtain hi | ⟨-, -, hi⟩ := encode_of_decodeCmd ‹_›
    · exact exec_command_faultFree hi hx
    · exact exec_command_faultFree hi hx
  · rename_i e he
    cases e
    case reservedCommand =>
      obtain hc | hc := decodeCmd_eq_reserved_iff.mp he
      · simp [cmdGood, hc] at hw
      · simp [cmdGood, hc] at hw
    all_goals exact .refused

/-- A request that faults is a deinit of an engine with a transfer in flight. -/
theorem runWord_req_fault {h : ReqWord} {o : Ports} {e : Fault} (hs : s.good) (he : runWord (.req h o) s = .fault e) :
    e = .deinitWhileBusy ∧ inFlight s (reqInst h) ∧ ((reqOpcode h).toNat = 0x02 ∨ (reqOpcode h).toNat = 0x12) := by
  unfold runWord at he
  split at he
  · obtain ⟨rfl, hop⟩ | ⟨rfl, hop⟩ | hfree := exec_request_faultFree hs (encode_of_decodeReq ‹_›)
    · obtain ⟨rfl, hbusy⟩ := execMdeinit_fault he
      exact ⟨rfl, hbusy, .inl hop⟩
    · obtain ⟨rfl, hbusy⟩ := execSdeinit_fault he
      exact ⟨rfl, hbusy, .inr hop⟩
    · exact absurd he (hfree.ne_fault e)
  · rename_i d hd
    cases d
    case reservedCommand =>
      simp only [decode, decodeReq] at hd
      split at hd
      · cases hd
      · split at hd <;> cases hd
    all_goals cases he

theorem step_busm_faultFree {t : Turn} (hs : s.good) (ht : t.agent = .busm k) : FaultFree (step (turn s t)) := by
  have hfetch : fetch t.agent (during s t) = busFetch k (during s t) := by rw [ht, fetch]
  obtain e | ⟨x, -, -, e⟩ | ⟨x, w, rest, hx, -, hen, htxf, e⟩ := busFetch_cases k (during s t)
  · exact .of_eq (step_turn_of_own (hfetch.trans e))
  · exact .of_eq (step_turn_of_own (hfetch.trans e))
  · rw [step_turn_of_word (hfetch.trans e)]
    have hmen : x.hw.men = true := by simp_all [commandEnabled]
    obtain ⟨⟨m, hrole⟩, hwords⟩ := hs.commandStep hx hmen
    exact runWord_cmd_faultFree (m := m) ⟨inst?_setInst_self hx, hrole⟩ (hwords w (by simp [htxf]))

theorem step_event_faultFree {t : Turn} {due : Inst → Option EvtCode} (hs : s.good)
    (hfetch : fetch t.agent (during s t) = eventFetch k (during s t) due) : FaultFree (step (turn s t)) := by
  obtain e | ⟨x, c, -, -, e⟩ := eventFetch_cases k (during s t) due
  · exact .of_eq (step_turn_of_own (hfetch.trans e))
  · rw [step_turn_of_word (hfetch.trans e)]
    exact runWord_evt_faultFree hs

/-- The application's store faults only outside the address space (R81). -/
theorem appStore_fault {a : Nat} {b : Byte} {e : Fault} (h : appStore a b s = .fault e) :
    e = .noSuchAddress ∧ 2 ^ s.par.addrW ≤ a := by
  unfold appStore memWrite at h
  split at h
  · cases h
  · cases h
    exact ⟨rfl, Nat.not_lt.mp ‹_›⟩

end

/-- Settles O53: of the agents only the host with a request and the application can fault, with the two faults named. -/
theorem goodStepsRaiseOnlyHostFaults : Obligations.GoodStepsRaiseOnlyHostFaults := by
  rintro s ⟨agent, inp⟩ e hs he
  cases agent with
  | request h o =>
    rw [step_turn_of_word (w := .req h o) rfl] at he
    obtain ⟨rfl, hbusy, hop⟩ := runWord_req_fault (s := during s _) hs he
    exact .inl ⟨rfl, reqInst h, ⟨h, o, rfl, rfl, hop⟩, hbusy⟩
  | busm k => exact absurd he ((step_busm_faultFree hs rfl).ne_fault e)
  | isr | dmaOk | dmaErr | timer => exact absurd he ((step_event_faultFree hs rfl).ne_fault e)
  | resume | buss =>
    rw [step_turn_of_own rfl] at he
    cases he
  | dmaMove k =>
    rw [step_turn_of_own rfl] at he
    exact absurd he ((dmaTurn_faultFree (s := during s _) hs).ne_fault e)
  | app a b =>
    rw [step_turn_of_own rfl] at he
    obtain ⟨rfl, ha⟩ := appStore_fault he
    exact .inr ⟨rfl, a, b, rfl, ha⟩

end Sys2Proof.Machine
end

section
/-! SUPPORT. What the six master events leave on their bus (spec 42_master_events.md R230 to R240; 41_master_commands.md
R193): the drain of the software queue and the ends of a transfer as closed forms, with a callback that issues no
request. -/

namespace Sys2Proof.Machine
open Sys2Proof.Claims

/-! ## The ends of a transfer -/

/-- The view behind `MEnd` on an empty queue with room for the `STOP` it is asked for (R230). -/
def Node.ended (stop : Bool) (n : MNode) : MNode :=
  { n with
    ctx := { endedCtx n.ctx.status n.ctx with hsInProgress := n.ctx.hsInProgress && !stop }
    hw := { n.hw with mie := noMasterSource, txf := n.hw.txf ++ (if stop then [stopWord] else []) }
    dma := endedDma n.ctx n.dma }

section
variable {s : State} {k : BusIndex} {x : Inst} {m : MCtx} {n n' : MNode} {src : MSources → Bool}

/-- A handler that goes on from a deliverable source writes back the view it leaves. -/
theorem takeMasterEvent_next {f : MNode → Res MNode} (hx : masterAt s k x m) (hdue : src (deliverableM x) = true)
    (hf : f (Node.of s x m) = .next n) : takeMasterEvent src k s f = .next (s.putNode k x (.master n.ctx) n) :=
  takeMasterEvent_eq_next.mpr ⟨x, m, n, hx.1, hx.2, hdue, hf, rfl⟩

/-- An error event with a silent callback is the error end with its flag cleared (R236). -/
theorem takeMasterEvent_errEnd {st : Status} {clear : MLatched → MLatched} (hx : masterAt s k x m)
    (hdue : src (deliverableM x) = true) (hcb : s.inp.cb = []) :
    takeMasterEvent src k s (errEnd st clear) = .next (s.setInst k (errorEnded st (clear x.hw.mef) m x)) :=
  takeMasterEvent_next hx hdue (errEnd_silent hcb)

theorem mEnd_of_stopReady {stop : Bool} {p : Phase} (h : n.StopReady) :
    mEnd stop false (setMPhase p n) = .next (n.ended stop) := by
  cases stop with
  | false =>
    rw [mEnd_noStop, mEndQuiet_eq]
    simp [mEndRelease, Node.ended, endedCtx, endedDma, noMasterSource, MSources.none]
    rfl
  | true =>
    have hready : (mEndQuiet false (setMPhase p n)).StopReady := mEndQuiet_stopReady h
    rw [mEnd_stop hready.1 hready.2, mEndQuiet_eq]
    simp [mEndRelease, Node.ended, endedCtx, endedDma, noMasterSource, MSources.none, stopWord, cmdWord, Cmd.code]
    rfl

/-- A completed transfer ends with its notification (R231). -/
theorem mFinish_success {stop : Bool} (hready : n.StopReady) :
    mFinish .success stop false n = mNotify (setMStatus .success (n.ended stop)) := by
  rw [mFinish]
  exact congrArg (andThen · _) (mEnd_of_stopReady hready)

/-- A completed receive ends with its notification, unless the parameter suppresses the callback (R235). -/
theorem rxComplete_eq (hready : n.StopReady) : rxComplete n =
    let m := mPost (setMStatus .success
      (n.ended (n.ctx.sendStop || (n.ctx.abortedByTimeout && n.par.abortedRx == .forceStop))))
    if n.ctx.abortedByTimeout = true ∧ n.par.abortedRx = .suppressCallback then .next m
    else mCallback .endTransfer m := by
  rw [rxComplete]
  refine (congrArg (andThen · _) (mEnd_of_stopReady hready)).trans ?_
  simp [Node.ended]

end

/-- The end of a transfer with a silent callback, which is told unless that is suppressed. -/
theorem rxComplete_silent {n : MNode} (hready : n.StopReady) (hcb : n.inp.cb = []) : rxComplete n =
    let m := mPost (setMStatus .success
      (n.ended (n.ctx.sendStop || (n.ctx.abortedByTimeout && n.par.abortedRx == .forceStop))))
    .next { m with
      cbTrace := if n.ctx.abortedByTimeout = true ∧ n.par.abortedRx = .suppressCallback then n.cbTrace
                 else traced n.ctx.callback .endTransfer n.ctx.callbackParam n.cbTrace } := by
  rw [rxComplete_eq hready]
  by_cases hsuppress : n.ctx.abortedByTimeout = true ∧ n.par.abortedRx = .suppressCallback
  · simp only [if_pos hsuppress]
    rfl
  · simp only [if_neg hsuppress]
    exact mCallback_silent hcb

/-- Settles O30: three of the events are the error end; `NACK` is one too, outside ultra-fast mode. -/
theorem errorEventsResult : Obligations.ErrorEventsResult := by
  intro s k x m hx hirq hcb
  have hdue : deliverableM x = (mefOf x.hw).meet x.hw.mie := deliverableM_of hx.2 hirq
  refine ⟨fun hflag henabled => ?nack, fun hflag henabled => ?arblost, fun hflag henabled => ?fifoerr,
    fun hflag henabled => ?pinlow⟩
  case nack =>
    have hdue : (deliverableM x).nack = true := by simp [hdue, MSources.meet, mefOf, hflag, henabled]
    by_cases hmode : m.mode = .ultraFast
    · rw [if_pos hmode]
      refine (takeMasterEvent_next (f := handleNack) hx hdue (if_pos hmode)).trans ?_
      simp [putNode_eq, Node.inst, State.setInst, hx.2]
    · rw [if_neg hmode]
      exact takeMasterEvent_next (f := handleNack) hx hdue ((if_neg hmode).trans (errEnd_silent hcb))
  case arblost => exact takeMasterEvent_errEnd hx (by simp [hdue, MSources.meet, mefOf, hflag, henabled]) hcb
  case fifoerr => exact takeMasterEvent_errEnd hx (by simp [hdue, MSources.meet, mefOf, hflag, henabled]) hcb
  case pinlow => exact takeMasterEvent_errEnd hx (by simp [hdue, MSources.meet, mefOf, hflag, henabled]) hcb

/-! ## The receive drain -/

/-- The view behind the drain of `moved` bytes to ascending addresses from `a` on (R234). -/
def Node.stored (a moved : Nat) (n : MNode) : MNode :=
  { n with
    mem := Memory.writeAll n.mem a (n.hw.rxf.take moved)
    ctx := { n.ctx with
      rxSize := n.ctx.rxSize - moved
      rxBuff := if moved = 0 then n.ctx.rxBuff else some ((a + moved) % 2 ^ n.par.addrW) }
    hw := { n.hw with rxf := n.hw.rxf.drop moved } }

/-- The drain of `RXRDY` moves the lesser of the count and the FIFO's bytes. -/
theorem handleRxrdy_of {n : MNode} {a : Nat}
    (hbuf : 0 < n.ctx.rxSize → n.ctx.rxBuff = some a ∧ a + n.ctx.rxSize ≤ 2 ^ n.par.addrW) : handleRxrdy n =
    let n' := n.stored a (min n.ctx.rxSize n.hw.rxf.length)
    if n'.ctx.rxSize = 0 then rxComplete n' else .next (shrinkWatermark n') := by
  have hcount : min n.hw.rxf.length (min n.hw.rxf.length n.ctx.rxSize) = min n.ctx.rxSize n.hw.rxf.length := by omega
  rw [handleRxrdy, rxLoop_eq_lateLoop, hcount, lateLoop_of (a := a) (by omega) (by omega)
    (fun h => (hbuf (by omega)).1) fun h => (hbuf (by omega)).2]
  rfl

/-- Settles O29: the drain is one run of stores; behind it the transfer completes or the watermark shrinks. -/
theorem rxrdyResult : Obligations.RxrdyResult := by
  intro s k x m a hx hirq henabled hlevel hbuf hmem hcb hcomplete moved left m' y
  have hdue : (deliverableM x).rxrdy = true := by
    simp [deliverableM_of hx.2 hirq, MSources.meet, mefOf, hlevel, henabled]
  have hlen : (x.hw.rxf.take moved).length = moved := by rw [List.length_take]; omega
  refine ⟨Memory.writeAll s.mem a (x.hw.rxf.take moved), Memory.wf_writeAll hmem, fun j hj => ?_, fun b hb => ?_, ?_⟩
  · rw [Memory.read_writeAll hmem, dif_pos (by omega)]
    simp
  · rw [Memory.read_writeAll hmem, dif_neg (by omega)]
  · have hdrained := handleRxrdy_of (n := Node.of s x m) hbuf
    by_cases hleft : left = 0
    · have hready : ((Node.of s x m).stored a moved).StopReady := hcomplete (by omega)
      rw [if_pos hleft]
      exact takeMasterEvent_next hx hdue ((hdrained.trans (if_pos hleft)).trans (rxComplete_silent hready hcb))
    · rw [if_neg hleft]
      refine (takeMasterEvent_next hx hdue (hdrained.trans (if_neg hleft))).trans ?_
      by_cases hshrink : left ≤ x.hw.rxw
      · rw [shrinkWatermark, if_pos (by exact hshrink), if_pos hshrink]
        rfl
      · rw [shrinkWatermark, if_neg (by exact hshrink), if_neg hshrink]
        rfl

/-! ## The drain of the command queue -/

/-- The view with a context and a transmit FIFO behind a drain of the queue. -/
def Node.drainedTo (m : MCtx) (txf : List CmdWord) (n : MNode) : MNode :=
  { n with ctx := m, hw := { n.hw with txf := txf } }

/-- The phase behind a drain to the end of the queue (R193). -/
def drainedPhase (p : Phase) : Phase := if p = .addressing then .transferring else p

section
variable {m m₁ m₂ : MCtx} {q q₁ : List CmdWord} {n n' : MNode} {room : Nat}

theorem withQueue_trans (h₁ : withQueue m m₁ q₁) (h₂ : withQueue m₁ m₂ q) : withQueue m m₂ q := by
  obtain ⟨⟨_, _, _, rfl⟩, -⟩ := h₁
  exact h₂

theorem withQueue_self : withQueue m m (swqEntries m) := ⟨⟨m.swq, m.swqWr, m.swqRd, rfl⟩, rfl⟩

theorem swqEntries_eq_nil : swqEntries m = [] ↔ m.swqWr = m.swqRd := by
  rw [← List.length_eq_zero_iff, length_swqEntries, swqCount_eq_zero]

theorem swqEmpty_iff_entries : swqEmpty m = true ↔ swqEntries m = [] := swqEmpty_iff.trans swqEntries_eq_nil.symm

/-- The oldest entries of the queue, as many as there is `room` for, have moved to the transmit FIFO in their order. -/
def Node.QueueMoved (room : Nat) (n n' : MNode) : Prop :=
  ∃ m', withQueue n.ctx m' ((swqEntries n.ctx).drop room) ∧
    n' = n.drainedTo m' (n.hw.txf ++ (swqEntries n.ctx).take room)

theorem queueMoved_none (h : swqEntries n.ctx = [] ∨ room = 0) : n.QueueMoved room n := by
  refine ⟨n.ctx, ?_, ?_⟩ <;> obtain hnil | rfl := h
  · simpa [hnil] using withQueue_self (m := n.ctx)
  · simpa using withQueue_self (m := n.ctx)
  · simp [Node.drainedTo, hnil]
  · simp [Node.drainedTo]

theorem queueMoved_succ (hne : n.ctx.swqWr ≠ n.ctx.swqRd)
    (h : (n.drainedTo (swqDrop n.ctx) (n.hw.txf ++ [swqHead n.ctx])).QueueMoved room n') :
    n.QueueMoved (room + 1) n' := by
  obtain ⟨m', hqueue, rfl⟩ := h
  refine ⟨m', ?_, ?_⟩ <;> rw [swqEntries_eq_cons hne]
  · exact withQueue_trans (withQueue_swqDrop hne) hqueue
  · simp [Node.drainedTo]

/-- The drain moves as many words as the FIFO has room for (R193). -/
theorem drainLoop_of {fuel : Nat} (hfuel : swqCount n.ctx ≤ fuel) (hroom : n.hw.txf.length + room = n.par.txDepth) :
    ∃ n', drainLoop fuel n = .next n' ∧ n.QueueMoved room n' := by
  induction fuel generalizing n room with
  | zero => exact ⟨n, rfl, queueMoved_none (.inl (swqEntries_of_eq (swqCount_eq_zero.mp (by omega))))⟩
  | succ fuel ih =>
    by_cases hempty : n.ctx.swqWr = n.ctx.swqRd
    · exact ⟨n, if_neg (by simp [swqEmpty, hempty]), queueMoved_none (.inl (swqEntries_of_eq hempty))⟩
    cases room with
    | zero => exact ⟨n, if_neg (by simp; omega), queueMoved_none (.inr rfl)⟩
    | succ room =>
      have hlt : n.hw.txf.length < n.par.txDepth := by omega
      have hcount := swqCount_swqDrop hempty
      obtain ⟨n', hloop, hmoved⟩ := ih (n := n.drainedTo (swqDrop n.ctx) (n.hw.txf ++ [swqHead n.ctx])) (room := room)
        (by simp only [Node.drainedTo]; omega) (by simp [Node.drainedTo]; omega)
      refine ⟨n', ?_, queueMoved_succ hempty hmoved⟩
      rw [drainLoop, if_pos (by simp [swqEmpty, hempty, hlt]), pushTxf, if_pos hlt, andThen_next]
      exact hloop

/-- A queue with more entries than the FIFO has room for is not drained to its end. -/
theorem drainQueue_of_lt (hroom : n.hw.txf.length + room = n.par.txDepth) (h : room < swqCount n.ctx) :
    ∃ n', drainQueue n = .next n' ∧ swqEmpty n'.ctx = false ∧ n.QueueMoved room n' := by
  obtain ⟨n', hloop, m', hqueue, rfl⟩ := drainLoop_of (Nat.le_refl _) hroom
  have hne : swqEmpty m' = false := by
    rw [Bool.eq_false_iff, ne_eq, swqEmpty_iff_entries, hqueue.2, List.drop_eq_nil_iff, length_swqEntries]
    omega
  exact ⟨_, by rw [drainQueue, hloop, andThen_next, if_neg (by simp [Node.drainedTo, hne])], hne, m', hqueue, rfl⟩

/-- Behind a drain to its end the address phase is over. -/
theorem drainQueue_of_empties (hloop : drainLoop (swqCount n.ctx) n = .next n') (hempty : swqEmpty n'.ctx = true) :
    drainQueue n = .next (n'.drainedTo { n'.ctx with phase := drainedPhase n'.ctx.phase } n'.hw.txf) := by
  rw [drainQueue, hloop, andThen_next]
  by_cases hphase : n'.ctx.phase = .addressing
  · rw [if_pos (by simp [hempty, hphase]), drainedPhase, if_pos hphase]
    rfl
  · rw [if_neg (by simp [hphase]), drainedPhase, if_neg hphase]
    rfl

/-- A queue the FIFO has room for is drained to its end. -/
theorem drainQueue_of_le (hroom : n.hw.txf.length + room = n.par.txDepth) (h : swqCount n.ctx ≤ room) :
    ∃ m', withQueue n.ctx m' [] ∧ drainQueue n =
      .next (n.drainedTo { m' with phase := drainedPhase n.ctx.phase } (n.hw.txf ++ swqEntries n.ctx)) := by
  obtain ⟨n', hloop, m', hqueue, rfl⟩ := drainLoop_of (Nat.le_refl _) hroom
  rw [← length_swqEntries] at h
  rw [List.drop_of_length_le h] at hqueue
  rw [List.take_of_length_le h] at hloop
  have hdrain := drainQueue_of_empties hloop (swqEmpty_iff_entries.mpr hqueue.2)
  refine ⟨m', hqueue, ?_⟩
  obtain ⟨⟨slots, wr, rd, rfl⟩, -⟩ := hqueue
  exact hdrain

/-! ## `TXRDY` -/

/-- The data are not the handler's: a receive, or a running channel, takes them over (R232). -/
def Node.DataTaken (n : MNode) : Prop :=
  n.ctx.dir = .receive ∨ (n.ctx.transferType = .dma ∧ n.dma ≠ .stopped)

theorem handleTxrdy_queued (hdrain : drainQueue n = .next n') (hne : swqEmpty n'.ctx = false) :
    handleTxrdy n = .next n' := by
  rw [handleTxrdy, hdrain, andThen_next, if_pos (by simp [hne])]

theorem handleTxrdy_taken (hdrain : drainQueue n = .next n') (hempty : swqEmpty n'.ctx = true) (htaken : n'.DataTaken) :
    handleTxrdy n = .next (setMieTxrdy false n') := by
  rw [handleTxrdy, hdrain, andThen_next, if_neg (by simp [hempty])]
  obtain hdir | hdma := htaken
  · rw [if_pos hdir]
  · rw [if_pos hdma, ite_self]

/-- Behind an empty queue, with the data the handler's, a send with nothing left to do completes; else it is filled. -/
theorem handleTxrdy_send (hdrain : drainQueue n = .next n') (hempty : swqEmpty n'.ctx = true)
    (htaken : ¬ n'.DataTaken) : handleTxrdy n =
      if n'.ctx.txSize = 0 ∧ n'.hw.txf = [] then mFinish .success n'.ctx.sendStop false n' else fillTx n' := by
  obtain ⟨hdir, hdma⟩ := not_or.mp htaken
  rw [handleTxrdy, hdrain, andThen_next, if_neg (by simp [hempty]), if_neg hdir, if_neg hdma]

/-- A send with nothing left to do completes. -/
theorem handleTxrdy_completes (hready : n.StopReady) (htaken : ¬ n.DataTaken) (hsize : n.ctx.txSize = 0)
    (hfifo : n.hw.txf = []) : handleTxrdy n = mNotify (setMStatus .success (n.ended n.ctx.sendStop)) := by
  have hempty : swqEmpty n.ctx = true := swqEmpty_iff.mpr hready.1
  have hloop : drainLoop (swqCount n.ctx) n = .next n := by
    rw [swqCount_eq_zero.mpr hready.1]
    rfl
  rw [handleTxrdy_send (drainQueue_of_empties hloop hempty) hempty htaken, if_pos ⟨hsize, hfifo⟩]
  exact mFinish_success hready

theorem cmdWord_txd (b : Byte) : cmdWord .txd b = b.setWidth 11 := by
  apply BitVec.eq_of_toNat_eq
  rw [toNat_cmdWord, BitVec.toNat_setWidth, Nat.mod_eq_of_lt (by omega)]
  exact Nat.zero_add _

/-- The fill moves as many bytes as are left and fit (R233). -/
theorem fillTx_of {a moved : Nat} (hbuf : 0 < n.ctx.txSize → n.ctx.txBuff = some a ∧ a + n.ctx.txSize ≤ 2 ^ n.par.addrW)
    (hmoved : moved = min n.ctx.txSize (n.par.txDepth - n.hw.txf.length)) :
    fillTx n = .next (n.drainedTo
      { n.ctx with
        txSize := n.ctx.txSize - moved
        txBuff := if moved = 0 then n.ctx.txBuff else some ((a + moved) % 2 ^ n.par.addrW) }
      (n.hw.txf ++ txdWords n.mem a moved)) := by
  rw [fillTx, fillLoop_of (k := moved) (fun h => (hbuf h).1) (fun h => (hbuf h).2) (by omega)]
  simp only [cmdWord_txd]
  rfl

end

/-- Settles O28: the drain leaves a queue that is not empty, or an empty one; behind an empty one the handler's tests
tell the cases apart. -/
theorem txrdyResult : Obligations.TxrdyResult := by
  intro s k x m a hx hirq henabled hfifo hcount hdepth hcb hbuf q depth taken phase moved
  have hdue : (deliverableM x).txrdy = true := by
    simp [deliverableM_of hx.2 hirq, MSources.meet, mefOf, hfifo, henabled]
  have hq : q.length = swqCount m := length_swqEntries m
  have hroom : (Node.of s x m).hw.txf.length + depth = (Node.of s x m).par.txDepth := by simp [hfifo, depth]
  have hdrain (hle : q.length ≤ depth) : ∃ m', withQueue m m' [] ∧
      drainQueue (Node.of s x m) = .next ((Node.of s x m).drainedTo { m' with phase := phase } q) := by
    obtain ⟨m', hqueue, hdrain⟩ := drainQueue_of_le hroom (hq ▸ hle)
    exact ⟨m', hqueue, hdrain.trans (by rw [nodeOf_hw, hfifo]; rfl)⟩
  refine ⟨fun hlong => ?queued, fun hle htaken => ?taken, fun hle htaken hmore => ?fills,
    fun hnil htaken hsent => ?ends⟩
  case queued =>
    obtain ⟨n', hdrain, hne, m', hqueue, rfl⟩ := drainQueue_of_lt hroom (hq ▸ hlong)
    rw [nodeOf_hw, hfifo] at hdrain
    exact ⟨m', hqueue, takeMasterEvent_next hx hdue (handleTxrdy_queued hdrain hne)⟩
  case taken =>
    obtain ⟨m', hqueue, hdrain⟩ := hdrain hle
    have hempty : swqEmpty m' = true := swqEmpty_iff_entries.mpr hqueue.2
    refine ⟨m', hqueue, ?_⟩
    obtain ⟨⟨slots, wr, rd, rfl⟩, -⟩ := hqueue
    exact takeMasterEvent_next hx hdue (handleTxrdy_taken hdrain hempty htaken)
  case fills =>
    obtain ⟨m', hqueue, hdrain⟩ := hdrain hle
    have hempty : swqEmpty m' = true := swqEmpty_iff_entries.mpr hqueue.2
    refine ⟨m', hqueue, ?_⟩
    obtain ⟨⟨slots, wr, rd, rfl⟩, -⟩ := hqueue
    have hnext : ¬ (m.txSize = 0 ∧ q = []) := fun ⟨hsize, hnil⟩ => hmore.elim (Nat.ne_of_gt · hsize) (· hnil)
    exact takeMasterEvent_next hx hdue
      ((handleTxrdy_send hdrain hempty htaken).trans ((if_neg hnext).trans (fillTx_of hbuf rfl)))
  case ends =>
    have hready : (Node.of s x m).StopReady := ⟨swqEntries_eq_nil.mp hnil, by rw [nodeOf_hw, hfifo]; exact hdepth⟩
    exact takeMasterEvent_next hx hdue
      ((handleTxrdy_completes hready htaken hsent hfifo).trans (mCallback_silent hcb))

end Sys2Proof.Machine
end

section
/-! SUPPORT. What a callback's requests are to the handler that invokes it (spec 42_master_events.md R231;
44_slave_events.md R302): the routines of the master engine neither read nor write what stands aside of their work, so a
handler is the same handler with a silent callback, followed by the requests. -/

namespace Sys2Proof.Machine
open Sys2Proof.Claims

/-! ## What stands aside -/

/-- An update of what the master engine's routines neither read nor write: the inputs, the host's record, the callback
trace, the record of answers, the latched flags. -/
structure Aside where
  inp : Input → Input := id
  hostw : Option Wait → Option Wait := id
  cbTrace : List (CbEvent × Nat) → List (CbEvent × Nat) := id
  replies : List Reply → List Reply := id
  mef : MLatched → MLatched := id

/-- The view behind such an update. -/
def Node.aside {C : Type} (a : Aside) (n : Node C) : Node C :=
  { n with
    inp := a.inp n.inp, hostw := a.hostw n.hostw, cbTrace := a.cbTrace n.cbTrace, replies := a.replies n.replies
    hw := { n.hw with mef := a.mef n.hw.mef } }

@[simp] theorem aside_par {C : Type} {a : Aside} {n : Node C} : (n.aside a).par = n.par := rfl
@[simp] theorem aside_ctx {C : Type} {a : Aside} {n : Node C} : (n.aside a).ctx = n.ctx := rfl

/-- The second answer is the first with the update made behind it. -/
def Mirrors {C : Type} (a : Aside) (r r' : Res (Node C)) : Prop := r' = andThen r fun m => .next (m.aside a)

section
variable {C α : Type} {a : Aside} {n m : Node C} {r r' : Res (Node C)}

theorem Mirrors.next : Mirrors a (.next n) (.next (n.aside a)) := rfl

theorem Mirrors.fault {e : Fault} : Mirrors a (.fault e : Res (Node C)) (.fault e) := rfl

theorem Mirrors.refused {e : Refusal} : Mirrors a (.refused e : Res (Node C)) (.refused e) := rfl

theorem Mirrors.andThen {f f' : Node C → Res (Node C)} (hr : Mirrors a r r')
    (hf : ∀ m, Mirrors a (f m) (f' (m.aside a))) : Mirrors a (andThen r f) (Machine.andThen r' f') := by
  obtain rfl := hr
  cases r with
  | next m => exact hf m
  | fault | refused => rfl

/-- A rule behind a value that is read. -/
theorem Mirrors.reading {v : Res α} {f f' : α → Res (Node C)} (hf : ∀ w, Mirrors a (f w) (f' w)) :
    Mirrors a (Machine.andThen v f) (Machine.andThen v f') := by
  cases v with
  | next w => exact hf w
  | fault | refused => rfl

theorem Mirrors.ite {c : Prop} [Decidable c] {r₁ r₂ r₁' r₂' : Res (Node C)} (h₁ : Mirrors a r₁ r₁')
    (h₂ : Mirrors a r₂ r₂') : Mirrors a (if c then r₁ else r₂) (if c then r₁' else r₂') := by
  split
  · exact h₁
  · exact h₂

theorem ite_aside {c : Prop} [Decidable c] : (if c then n else m).aside a = if c then n.aside a else m.aside a :=
  apply_ite (Node.aside a) c n m

theorem pushTxf_mirrors {w : CmdWord} : Mirrors a (pushTxf w n) (pushTxf w (n.aside a)) := .ite .next .fault

end

/-! ## The master engine's routines -/

section
variable {a : Aside} {n : MNode}

theorem offer_mirrors {c : Cmd} {d : Byte} : Mirrors a (offer c d n) (offer c d (n.aside a)) :=
  .ite pushTxf_mirrors (.ite .fault .next)

theorem drainLoop_mirrors {fuel : Nat} : Mirrors a (drainLoop fuel n) (drainLoop fuel (n.aside a)) := by
  induction fuel generalizing n with
  | zero => exact .next
  | succ fuel ih => exact .ite (.andThen pushTxf_mirrors fun _ => ih) .next

theorem drainQueue_mirrors : Mirrors a (drainQueue n) (drainQueue (n.aside a)) :=
  .andThen drainLoop_mirrors fun _ => .ite .next .next

theorem masterCodePhase_mirrors : Mirrors a (masterCodePhase n) (masterCodePhase (n.aside a)) :=
  .ite (.andThen offer_mirrors fun _ => .next) .next

theorem addressPhase_mirrors {dir : Dir} : Mirrors a (addressPhase dir n) (addressPhase dir (n.aside a)) :=
  .andThen masterCodePhase_mirrors fun _ =>
    .ite offer_mirrors (.andThen offer_mirrors fun _ => .andThen offer_mirrors fun _ => .ite offer_mirrors .next)

theorem fillOne_mirrors : Mirrors a (fillOne n) (fillOne (n.aside a)) :=
  .reading fun _ => .reading fun _ => .andThen pushTxf_mirrors fun _ => .next

theorem fillLoop_mirrors {fuel : Nat} : Mirrors a (fillLoop fuel n) (fillLoop fuel (n.aside a)) := by
  induction fuel generalizing n with
  | zero => exact .next
  | succ fuel ih => exact .ite (.andThen fillOne_mirrors fun _ => ih) .next

theorem fillTx_mirrors : Mirrors a (fillTx n) (fillTx (n.aside a)) := fillLoop_mirrors

theorem drainOne_mirrors : Mirrors a (drainOne n) (drainOne (n.aside a)) := by
  unfold drainOne popRxf
  simp only [Node.aside]
  cases n.hw.rxf with
  | nil => exact .fault
  | cons b rest => exact .reading fun _ => .reading fun _ => .next

theorem rxLoop_mirrors {fuel : Nat} : Mirrors a (rxLoop fuel n) (rxLoop fuel (n.aside a)) := by
  induction fuel generalizing n with
  | zero => exact .next
  | succ fuel ih => exact .ite (.andThen drainOne_mirrors fun _ => ih) .next

theorem enterTransferring_aside : enterTransferring (n.aside a) = (enterTransferring n).aside a := by
  rw [enterTransferring, enterTransferring, ite_aside]
  rfl

theorem shrinkWatermark_aside : shrinkWatermark (n.aside a) = (shrinkWatermark n).aside a := by
  rw [shrinkWatermark, shrinkWatermark, ite_aside]
  rfl

theorem sendStart_mirrors {buf len : Nat} : Mirrors a (sendStart buf len n) (sendStart buf len (n.aside a)) := by
  refine .andThen addressPhase_mirrors fun m => ?_
  rw [enterTransferring_aside]
  generalize enterTransferring m = m
  cases ht : m.ctx.transferType with
  | interrupts =>
    simp only [aside_ctx, ht]
    exact .andThen (.ite fillTx_mirrors .next) fun _ => .next
  | dma =>
    simp only [aside_ctx, ht]
    exact .next

theorem recvStart_mirrors {buf len : Nat} : Mirrors a (recvStart buf len n) (recvStart buf len (n.aside a)) := by
  refine .andThen addressPhase_mirrors fun _ => .andThen offer_mirrors fun m => ?_
  rw [enterTransferring_aside]
  generalize enterTransferring m = m
  cases ht : m.ctx.transferType <;> simp only [aside_ctx, ht] <;> exact .next

theorem mEnd_mirrors {stop reset : Bool} : Mirrors a (mEnd stop reset n) (mEnd stop reset (n.aside a)) := by
  have hquiet : mEndQuiet reset (n.aside a) = (mEndQuiet reset n).aside a := by
    rw [mEndQuiet_eq, mEndQuiet_eq]
    rfl
  unfold mEnd
  rw [hquiet]
  exact .andThen (.ite (.andThen offer_mirrors fun _ => .next) .next) fun _ => .next

end

/-! ## The view with a silent callback -/

/-- The update that takes a callback's requests away. -/
def Aside.silencing : Aside := { inp := fun i => { i with cb := [] } }

/-- The view whose callback issues nothing. -/
def Node.silent {C : Type} (n : Node C) : Node C := n.aside .silencing

/-- What a routine that mirrors every update leaves as it is. -/
structure Node.KeepsAside {C : Type} (n m : Node C) : Prop where
  inp : m.inp = n.inp
  hostw : m.hostw = n.hostw
  cbTrace : m.cbTrace = n.cbTrace
  replies : m.replies = n.replies

/-- A part of a handler in front of its callback: its answer `r₀` on the view with a silent callback is its answer `r`
on `n` itself, silenced; it leaves the inputs and the callback trace. -/
structure Quiet {C : Type} (n : Node C) (r r₀ : Res (Node C)) : Prop where
  silent : r₀ = andThen r fun m => .next m.silent
  kept : ∀ m, r = .next m → m.inp = n.inp ∧ m.cbTrace = n.cbTrace

section
variable {C : Type} {n m : Node C} {g : Node C → Res (Node C)}

theorem keepsAside_of_mirrors (hg : ∀ a, Mirrors a (g n) (g (n.aside a))) (hm : g n = .next m) : n.KeepsAside m := by
  have hfixed : Mirrors { inp := fun _ => n.inp, hostw := fun _ => n.hostw, cbTrace := fun _ => n.cbTrace,
                          replies := fun _ => n.replies } (g n) (g n) := hg _
  rw [Mirrors, hm] at hfixed
  have hm : m = m.aside _ := Host.Outcome.next.inj hfixed
  rw [hm]
  exact ⟨rfl, rfl, rfl, rfl⟩

theorem quiet_of_mirrors (hg : ∀ a, Mirrors a (g m) (g (m.aside a))) (hinp : m.inp = n.inp := by rfl)
    (hcb : m.cbTrace = n.cbTrace := by rfl) : Quiet n (g m) (g m.silent) where
  silent := hg _
  kept _ hl :=
    have h := keepsAside_of_mirrors hg hl
    ⟨h.inp.trans hinp, h.cbTrace.trans hcb⟩

theorem quiet_next (hinp : m.inp = n.inp := by rfl) (hcb : m.cbTrace = n.cbTrace := by rfl) :
    Quiet n (.next m) (.next m.silent) :=
  ⟨rfl, by rintro _ ⟨⟩; exact ⟨hinp, hcb⟩⟩

end

/-! ## Handlers that end with their callback -/

/-- Requests one after another. -/
def runRequests {C : Type} (request : CbReq → Node C → Res (Node C)) : List CbReq → Node C → Res (Node C)
  | [], n => .next n
  | r :: rs, n => andThen (request r n) (runRequests request rs)

/-- The answer `r` of a handler on `n` is its answer `r₀` on the view with a silent callback, followed by the requests
if the callback was invoked. -/
def CallsBack {C : Type} (request : CbReq → Node C → Res (Node C)) (n : Node C) (r r₀ : Res (Node C)) : Prop :=
  r = andThen r₀ fun m =>
    if m.cbTrace = n.cbTrace then .next { m with inp := n.inp }
    else runRequests request n.inp.cb { m with inp := n.inp }

section
variable {C : Type} {request : CbReq → Node C → Res (Node C)} {n m : Node C} {r r₀ : Res (Node C)}

theorem CallsBack.behind (h : CallsBack request m r r₀) (hinp : m.inp = n.inp := by rfl)
    (hcb : m.cbTrace = n.cbTrace := by rfl) : CallsBack request n r r₀ := by
  rwa [CallsBack, ← hinp, ← hcb]

theorem CallsBack.andThen {f f₀ : Node C → Res (Node C)} (hr : Quiet n r r₀)
    (hf : ∀ m, CallsBack request m (f m) (f₀ m.silent)) :
    CallsBack request n (andThen r f) (Machine.andThen r₀ f₀) := by
  obtain ⟨rfl, hkept⟩ := hr
  cases r with
  | next m => exact (hf m).behind (hkept m rfl).1 (hkept m rfl).2
  | fault | refused => rfl

theorem CallsBack.of_quiet (hr : Quiet n r r₀) : CallsBack request n r r₀ := by
  obtain ⟨rfl, hkept⟩ := hr
  cases r with
  | next m =>
    obtain ⟨hinp, hcb⟩ := hkept m rfl
    rw [CallsBack, andThen_next, andThen_next, if_pos (by exact hcb), ← hinp]
    rfl
  | fault | refused => rfl

theorem CallsBack.ite {c : Prop} [Decidable c] {r' r₀' : Res (Node C)} (h : CallsBack request n r r₀)
    (h' : CallsBack request n r' r₀') : CallsBack request n (if c then r else r') (if c then r₀ else r₀') := by
  split
  · exact h
  · exact h'

/-- An update behind the callback, which no request reads. -/
theorem CallsBack.clearing {c : MLatched → MLatched}
    (hrun : ∀ rs m, Mirrors { mef := c } (runRequests request rs m) (runRequests request rs (m.aside { mef := c })))
    (h : CallsBack request n r r₀) : CallsBack request n (Machine.andThen r fun m => .next (m.aside { mef := c }))
      (Machine.andThen r₀ fun m => .next (m.aside { mef := c })) := by
  obtain rfl := h
  cases r₀ with
  | next m =>
    simp only [CallsBack, andThen_next]
    by_cases hcb : m.cbTrace = n.cbTrace
    · rw [if_pos hcb, if_pos (by exact hcb)]
      rfl
    · rw [if_neg hcb, if_neg (by exact hcb)]
      exact (hrun _ _).symm
  | fault | refused => rfl

end

/-! ## The master's handlers -/

section
variable {n : MNode} {c : MLatched → MLatched}

theorem mCallbackRun_eq {rs : List CbReq} : mCallbackRun rs n = runRequests mCallbackRequest rs n := by
  induction rs generalizing n with
  | nil => rfl
  | cons r rs ih => exact congrArg (andThen (mCallbackRequest r n)) (funext fun _ => ih)

/-- A transfer request reads the host's record, answers, and clears the flags when accepted; an update aside of it that
respects these may as well be made behind it. -/
theorem mTransfer_mirrors {a : Aside} {start : Nat → Nat → MNode → Res MNode} {dir : Dir} {o : Origin}
    {buf len : Nat} {stop : Bool} {t : Option Nat} (hhost : a.hostw = id) (hreplies : a.replies = id)
    (hmef : a.mef .none = .none) (hstart : ∀ m, Mirrors a (start buf len m) (start buf len (m.aside a))) :
    Mirrors a (mTransfer start dir o buf len stop t n) (mTransfer start dir o buf len stop t (n.aside a)) := by
  have hsuspended : suspended o false (n.aside a) = suspended o false n := by simp [suspended, Node.aside, hhost]
  have hreply (st : Status) : reply o st (n.aside a) = (reply o st n).aside a := by simp [reply, Node.aside, hreplies]
  have haccepted : mAccepted dir buf len stop t.isSome (n.aside a) =
      (mAccepted dir buf len stop t.isSome n).aside a := by simp [mAccepted, Node.aside, hmef]
  have hdone (m : MNode) : completeOrWait o .m t (m.aside a) = (completeOrWait o .m t m).aside a := by
    cases t <;> simp [completeOrWait, reply, Node.aside, hhost, hreplies]
  unfold mTransfer
  rw [hsuspended, aside_par, aside_ctx]
  refine .ite .refused ?_
  cases mVerdict n.par n.ctx dir buf len with
  | answer st => exact congrArg _ (hreply st)
  | refuse e => exact .refused
  | accept =>
    dsimp only
    rw [haccepted]
    exact .andThen (hstart _) fun m => congrArg _ (hdone m)

theorem mSetBaud_clears {o : Origin} {mode : BitVec 3} {rate rateHS : BitVec 32} :
    Mirrors { mef := c } (mSetBaud o mode rate rateHS n) (mSetBaud o mode rate rateHS (n.aside { mef := c })) := by
  refine .ite .refused ?_
  cases modeOfBits mode with
  | none => exact .refused
  | some mode => exact .ite .next .next

theorem mCallbackRequest_clears (hc : c .none = .none) {r : CbReq} :
    Mirrors { mef := c } (mCallbackRequest r n) (mCallbackRequest r (n.aside { mef := c })) := by
  cases r with
  | msend => exact mTransfer_mirrors rfl rfl hc fun _ => sendStart_mirrors
  | mrecv => exact mTransfer_mirrors rfl rfl hc fun _ => recvStart_mirrors
  | mstatus | mgetbaud => exact .ite .refused .next
  | msetbaud => exact mSetBaud_clears
  | ssettx | ssetrx | sstatus => exact .refused

theorem mRunRequests_clears (hc : c .none = .none) {rs : List CbReq} :
    Mirrors { mef := c } (runRequests mCallbackRequest rs n)
      (runRequests mCallbackRequest rs (n.aside { mef := c })) := by
  induction rs generalizing n with
  | nil => exact .next
  | cons r rs ih => exact .andThen (mCallbackRequest_clears hc) fun _ => ih

theorem mCallback_callsBack {ev : CbEvent} : CallsBack mCallbackRequest n (mCallback ev n) (mCallback ev n.silent) := by
  rw [mCallback_silent (n := n.silent) rfl, CallsBack, andThen_next]
  cases hc : n.ctx.callback with
  | none => simp [mCallback, hc, Node.silent, Node.aside, Aside.silencing]
  | some => simp [mCallback, hc, Node.silent, Node.aside, Aside.silencing, mCallbackRun_eq]

theorem mNotify_callsBack : CallsBack mCallbackRequest n (mNotify n) (mNotify n.silent) :=
  .behind (mCallback_callsBack (n := mPost n))

theorem mFinish_callsBack {st : Status} {stop reset : Bool} :
    CallsBack mCallbackRequest n (mFinish st stop reset n) (mFinish st stop reset n.silent) :=
  .andThen (quiet_of_mirrors fun _ => mEnd_mirrors) fun m => .behind (mNotify_callsBack (n := setMStatus st m))

theorem rxComplete_callsBack : CallsBack mCallbackRequest n (rxComplete n) (rxComplete n.silent) :=
  .andThen (quiet_of_mirrors fun _ => mEnd_mirrors) fun m =>
    .ite (.of_quiet quiet_next) (.behind (mCallback_callsBack (n := mPost (setMStatus .success m))))

theorem errEnd_callsBack {st : Status} (hc : c .none = .none) :
    CallsBack mCallbackRequest n (errEnd st c n) (errEnd st c n.silent) :=
  .andThen (quiet_of_mirrors fun _ => mEnd_mirrors) fun m =>
    .clearing (fun _ _ => mRunRequests_clears hc)
      (.behind (mNotify_callsBack (n := setMStatus st { m with ctx := { m.ctx with hsInProgress := false } })))

theorem handleTxrdy_callsBack : CallsBack mCallbackRequest n (handleTxrdy n) (handleTxrdy n.silent) :=
  .andThen (quiet_of_mirrors fun _ => drainQueue_mirrors) fun _ =>
    .ite (.of_quiet quiet_next) (.ite (.of_quiet quiet_next) (.ite (.of_quiet quiet_next)
      (.ite mFinish_callsBack (.of_quiet (quiet_of_mirrors fun _ => fillTx_mirrors)))))

theorem handleRxrdy_callsBack : CallsBack mCallbackRequest n (handleRxrdy n) (handleRxrdy n.silent) :=
  .andThen (quiet_of_mirrors fun _ => rxLoop_mirrors) fun _ => .ite rxComplete_callsBack
    (.of_quiet (quiet_of_mirrors (g := fun n => .next (shrinkWatermark n)) fun _ => congrArg _ shrinkWatermark_aside))

theorem handleNack_callsBack : CallsBack mCallbackRequest n (handleNack n) (handleNack n.silent) :=
  .ite (.of_quiet quiet_next) (errEnd_callsBack rfl)

theorem masterDmaok_callsBack : CallsBack mCallbackRequest n (masterDmaok n) (masterDmaok n.silent) :=
  .ite (.of_quiet quiet_next) (.behind rxComplete_callsBack)

theorem masterDmaerr_callsBack : CallsBack mCallbackRequest n (masterDmaerr n) (masterDmaerr n.silent) :=
  mFinish_callsBack

end

/-! ## The slave's handlers -/

section
variable {n : SNode}

theorem sCallbackRun_eq {rs : List CbReq} : sCallbackRun rs n = runRequests sCallbackRequest rs n := by
  induction rs generalizing n with
  | nil => rfl
  | cons r rs ih => exact congrArg (andThen (sCallbackRequest r n)) (funext fun _ => ih)

theorem sCallback_callsBack {ev : CbEvent} : CallsBack sCallbackRequest n (sCallback ev n) (sCallback ev n.silent) := by
  rw [sCallback_silent (n := n.silent) rfl, CallsBack, andThen_next]
  cases hc : n.ctx.callback with
  | none => simp [sCallback, hc, Node.silent, Node.aside, Aside.silencing]
  | some => simp [sCallback, hc, Node.silent, Node.aside, Aside.silencing, sCallbackRun_eq]

theorem sEnd_silent : sEnd n.silent = (sEnd n).silent := by
  rw [Node.silent, Node.silent, sEnd, sEnd, ite_aside]
  rfl

/-- The end of a slave's transaction, told to the callback (R306 to R309, R341). -/
theorem sEnd_callsBack {ev : CbEvent} :
    CallsBack sCallbackRequest n (sCallback ev (sEnd n)) (sCallback ev (sEnd n.silent)) := by
  obtain ⟨-, hinp, -, -, hcb, -⟩ := sEnd_frame n
  rw [sEnd_silent]
  exact sCallback_callsBack.behind hinp hcb

theorem boundary_callsBack : CallsBack sCallbackRequest n (boundary n) (boundary n.silent) := sEnd_callsBack

theorem slaveError_callsBack : CallsBack sCallbackRequest n (slaveError n) (slaveError n.silent) :=
  .behind (sEnd_callsBack (n := setSStatus .error n))

theorem handleRstart_callsBack : CallsBack sCallbackRequest n (handleRstart n) (handleRstart n.silent) :=
  .ite (.of_quiet quiet_next) (.behind boundary_callsBack)

theorem handleStop_callsBack : CallsBack sCallbackRequest n (handleStop n) (handleStop n.silent) :=
  .behind boundary_callsBack

theorem handleBiterr_callsBack : CallsBack sCallbackRequest n (handleBiterr n) (handleBiterr n.silent) :=
  .behind slaveError_callsBack

theorem handleSfifoerr_callsBack : CallsBack sCallbackRequest n (handleSfifoerr n) (handleSfifoerr n.silent) :=
  .behind slaveError_callsBack

theorem slaveDmaok_callsBack {reg : DmaReg} :
    CallsBack sCallbackRequest n (slaveDmaok reg n) (slaveDmaok reg n.silent) :=
  .ite (.of_quiet quiet_next) (.of_quiet quiet_next)

theorem slaveDmaerr_callsBack {reg : DmaReg} :
    CallsBack sCallbackRequest n (slaveDmaerr reg n) (slaveDmaerr reg n.silent) :=
  .behind (sEnd_callsBack (n := setSStatus _ n))

end

/-! ## A callback's request and the foreground's -/

/-- The view on which the foreground's form of a request is asked: one that skips the test for a suspended host finds
the host not waiting (R161, R272). -/
def Node.asked {C : Type} (r : CbReq) (n : Node C) : Node C :=
  { n with hostw := if skipsWaitTest r then none else n.hostw }

/-- The view `m` behind the foreground's form of a request on `n`, with the answer given to the callback and the host
waiting as before. -/
def Node.answering {C : Type} (n m : Node C) : Node C :=
  { m with
    hostw := n.hostw
    replies := n.replies ++ (m.replies.drop n.replies.length).map fun a => { a with origin := .callback } }

/-- The foreground's form of a request to the master engine. -/
def mForeground (r : CbReq) (n : MNode) : Res MNode :=
  match r with
  | .msend buf len stop => mSend .foreground (onPort n.par.addrW buf) (onPort n.par.sizeW len) stop none n
  | .mrecv buf len stop => mRecv .foreground (onPort n.par.addrW buf) (onPort n.par.sizeW len) stop none n
  | .mstatus => mStatus .foreground n
  | .mgetbaud => mGetBaud .foreground n
  | .msetbaud mode rate rateHS => mSetBaud .foreground mode rate rateHS n
  | .ssettx _ _ | .ssetrx _ _ | .sstatus => .refused .wrongRole

/-- The foreground's form of a request to the slave engine. -/
def sForeground (r : CbReq) (n : SNode) : Res SNode :=
  match r with
  | .ssettx buf len => sSetTx .foreground (onPort n.par.addrW buf) (onPort n.par.sizeW len) n
  | .ssetrx buf len => sSetRx .foreground (onPort n.par.addrW buf) (onPort n.par.sizeW len) n
  | .sstatus => sStatus .foreground n
  | .msend _ _ _ | .mrecv _ _ _ | .mstatus | .mgetbaud | .msetbaud _ _ _ => .refused .wrongRole

section
variable {C : Type} {n m : Node C}

theorem answering_reply {st : Status} (hhost : m.hostw = n.hostw) (hreplies : m.replies = n.replies) :
    n.answering (reply .foreground st m) = reply .callback st m := by
  simp [Node.answering, reply, hreplies, ← hhost]

end

theorem mTransfer_callback {start : Nat → Nat → MNode → Res MNode} {dir : Dir} {buf len : Nat} {stop : Bool} {n : MNode}
    (hstart : ∀ m a, Mirrors a (start buf len m) (start buf len (m.aside a))) :
    mTransfer start dir .callback buf len stop none n =
      andThen (mTransfer start dir .foreground buf len stop none n) fun m => .next (n.answering m) := by
  unfold mTransfer
  by_cases hwaits : n.hostw.isSome = true
  · simp [suspended, hwaits]
  rw [if_neg (by simpa [suspended] using hwaits), if_neg (by simpa [suspended] using hwaits)]
  cases mVerdict n.par n.ctx dir buf len with
  | answer st => exact congrArg Host.Outcome.next (answering_reply rfl rfl).symm
  | refuse e => rfl
  | accept =>
    dsimp only
    cases hm : start buf len (mAccepted dir buf len stop _ n) with
    | next m =>
      have hkept := keepsAside_of_mirrors (hstart _) hm
      exact congrArg Host.Outcome.next (answering_reply hkept.hostw hkept.replies).symm
    | fault | refused => rfl

theorem mSetBaud_callback {mode : BitVec 3} {rate rateHS : BitVec 32} {n : MNode} :
    mSetBaud .callback mode rate rateHS n =
      andThen (mSetBaud .foreground mode rate rateHS n) fun m => .next (n.answering m) := by
  unfold mSetBaud
  by_cases hwaits : n.hostw.isSome = true
  · simp [suspended, hwaits]
  rw [if_neg (by simpa [suspended] using hwaits), if_neg (by simpa [suspended] using hwaits)]
  cases modeOfBits mode with
  | none => rfl
  | some mode =>
    dsimp only
    split
    · exact congrArg Host.Outcome.next (answering_reply rfl rfl).symm
    · exact congrArg Host.Outcome.next (answering_reply rfl rfl).symm

theorem sSetTx_callback {buf len : Nat} {n : SNode} : sSetTx .callback buf len n =
    andThen (sSetTx .foreground buf len { n with hostw := none }) fun m => .next (n.answering m) := by
  by_cases hwraps : bufferWraps n.par buf len = true
  · simp [sSetTx, suspended, hwraps]
  · simp [sSetTx, suspended, hwraps, reply, Node.answering]

theorem sSetRx_callback {buf len : Nat} {n : SNode} : sSetRx .callback buf len n =
    andThen (sSetRx .foreground buf len { n with hostw := none }) fun m => .next (n.answering m) := by
  by_cases hwraps : bufferWraps n.par buf len = true
  · simp [sSetRx, suspended, hwraps]
  · simp [sSetRx, suspended, hwraps, reply, Node.answering]

theorem mCallbackRequest_eq {r : CbReq} {n : MNode} :
    mCallbackRequest r n = andThen (mForeground r (n.asked r)) fun m => .next (n.answering m) := by
  cases r with
  | msend => exact mTransfer_callback fun _ _ => sendStart_mirrors
  | mrecv => exact mTransfer_callback fun _ _ => recvStart_mirrors
  | mstatus =>
    simp [mCallbackRequest, mForeground, mStatus, suspended, Node.asked, skipsWaitTest, replyBytes, Node.answering]
  | mgetbaud =>
    simp [mCallbackRequest, mForeground, mGetBaud, suspended, Node.asked, skipsWaitTest, replyBaud, Node.answering]
  | msetbaud mode rate rateHS => exact mSetBaud_callback
  | ssettx | ssetrx | sstatus => rfl

theorem sCallbackRequest_eq {r : CbReq} {n : SNode} :
    sCallbackRequest r n = andThen (sForeground r (n.asked r)) fun m => .next (n.answering m) := by
  cases r with
  | ssettx buf len => exact sSetTx_callback
  | ssetrx buf len => exact sSetRx_callback
  | sstatus =>
    simp [sCallbackRequest, sForeground, sStatus, suspended, Node.asked, skipsWaitTest, replyBytes, Node.answering]
  | msend | mrecv | mstatus | mgetbaud | msetbaud => rfl

end Sys2Proof.Machine
end

section
/-! SUPPORT. The requests of a callback at the level of the machine (spec 42_master_events.md R231; 44_slave_events.md
R302; 40_master_requests.md R161; 43_slave_requests.md R272): each is the foreground's instruction, answered to the
callback. -/

namespace Sys2Proof.Machine
open Sys2Proof.Claims

/-! ## The engine behind a callback -/

/-- How an engine runs a callback's requests, and what they are as instructions. -/
structure CallbackEngine (C : Type) where
  role : C → Role
  foreground : CbReq → Node C → Res (Node C)
  request : CbReq → Node C → Res (Node C)
  exec_foregroundOf {s : State} {k : BusIndex} {x : Inst} {c : C} {r : CbReq} : s.inst? k = some x → x.role = role c →
    exec (foregroundOf s.par k r) s =
      andThen (foreground r (Node.of s x c)) fun n => .next (s.putNode k x (role n.ctx) n)
  request_eq {r : CbReq} {n : Node C} :
    request r n = andThen (foreground r (n.asked r)) fun m => .next (n.answering m)
  frames {r : CbReq} {n : Node C} : n.Frames false (request r n)

/-- The master engine's (R231). -/
def masterEngine : CallbackEngine MCtx where
  role := .master
  foreground := mForeground
  request := mCallbackRequest
  exec_foregroundOf {s k x c r} hx hrole := by
    cases r with
    | msend | mrecv | mstatus | mgetbaud | msetbaud => exact onMaster_of hx hrole
    | ssettx | ssetrx | sstatus => exact (onInst_of hx).trans (by rw [hrole]; rfl)
  request_eq := mCallbackRequest_eq
  frames := mCallbackRequest_frames

/-- The slave engine's (R302). -/
def slaveEngine : CallbackEngine SCtx where
  role := .slave
  foreground := sForeground
  request := sCallbackRequest
  exec_foregroundOf {s k x c r} hx hrole := by
    cases r with
    | ssettx | ssetrx | sstatus => exact onSlave_of hx hrole
    | msend | mrecv | mstatus | mgetbaud | msetbaud => exact (onInst_of hx).trans (by rw [hrole]; rfl)
  request_eq := sCallbackRequest_eq
  frames := sCallbackRequest_frames

section
variable {C : Type} {E : CallbackEngine C} {s : State} {k : BusIndex} {x : Inst} {n : Node C}

theorem inst?_putNode {role : Role} (hx : s.inst? k = some x) :
    (s.putNode k x role n).inst? k = some (n.inst role x) := inst?_setInst_self (s := { s with mem := n.mem }) hx

/-- Writing back twice is writing back the second view. -/
theorem putNode_putNode {role role' : Role} {m : Node C} :
    (s.putNode k x role n).putNode k (n.inst role x) role' m = s.putNode k x role' m := by
  simp [State.putNode, Node.inst]

theorem setInst_putNode {role role' : Role} {m : Node C} (hmem : m.mem = n.mem) :
    (s.putNode k x role n).setInst k (m.inst role' x) = s.putNode k x role' m := by
  simp [State.putNode, State.setInst, hmem]

theorem nodeOf_putNode {role : Role} (hpar : n.par = s.par) (hinp : n.inp = s.inp) :
    Node.of (s.putNode k x role n) (n.inst role x) n.ctx = n := by
  simp [Node.of, ← hpar, ← hinp]

/-- The foreground's instruction of a request, run on the machine with the view written back. -/
theorem exec_foregroundOf_putNode {r : CbReq} (hx : s.inst? k = some x) (hpar : n.par = s.par) (hinp : n.inp = s.inp) :
    exec (foregroundOf s.par k r) (s.putNode k x (E.role n.ctx) n) =
      andThen (E.foreground r n) fun m => .next (s.putNode k x (E.role m.ctx) m) := by
  have hexec := E.exec_foregroundOf (r := r) (inst?_putNode (n := n) (role := E.role n.ctx) hx) rfl
  simp only [nodeOf_putNode hpar hinp, putNode_putNode] at hexec
  exact hexec

/-- A callback's requests, run as instructions on the machine with the view written back, are the engine's requests on
the view. -/
theorem callbackRuns_putNode {rs : List CbReq} (hx : s.inst? k = some x) (hpar : n.par = s.par) (hinp : n.inp = s.inp) :
    callbackRuns k rs (s.putNode k x (E.role n.ctx) n) =
      andThen (runRequests E.request rs n) fun m => .next (s.putNode k x (E.role m.ctx) m) := by
  induction rs generalizing n with
  | nil => rfl
  | cons r rs ih =>
    have hasked : (if skipsWaitTest r then
        (s.putNode k x (E.role n.ctx) n).setInst k { n.inst (E.role n.ctx) x with hostw := none }
        else s.putNode k x (E.role n.ctx) n) = s.putNode k x (E.role (n.asked r).ctx) (n.asked r) := by
      unfold Node.asked
      split
      · exact setInst_putNode (m := { n with hostw := none }) rfl
      · rfl
    have hexec := exec_foregroundOf_putNode (E := E) (n := n.asked r) (r := r) hx hpar hinp
    simp only [callbackRuns, inst?_putNode hx]
    rw [hasked, putNode_par, hexec, runRequests, E.request_eq]
    cases hm : E.foreground r (n.asked r) with
    | next m =>
      have hframe : n.Frame false (n.answering m) := E.frames _ (by rw [E.request_eq, hm]; rfl)
      simp only [andThen_next, inst?_putNode hx]
      rw [← ih (n := n.answering m) (hframe.par.trans hpar) (hframe.inp.trans hinp)]
      exact congrArg _ (setInst_putNode (m := n.answering m) rfl)
    | fault | refused => rfl

end

/-! ## The event and its callback -/

/-- The answer `r` of an event is its answer `r₀` with a silent callback, followed by the requests if the callback was
invoked. -/
structure EventCallsBack (s : State) (k : BusIndex) (x : Inst) (r r₀ : Res State) : Prop where
  next : ∀ s₀, r₀ = .next s₀ → ∀ y, busAt s₀ k y → r =
    if y.cbTrace = x.cbTrace then .next { s₀ with inp := s.inp } else callbackRuns k s.inp.cb { s₀ with inp := s.inp }
  fault : ∀ e, r₀ = .fault e → r = .fault e
  refused : ∀ e, r₀ = .refused e → r = .refused e

/-- The machine with a silent callback. -/
def State.silent (s : State) : State := { s with inp := { s.inp with cb := [] } }

section
variable {s : State} {k : BusIndex} {x : Inst}

theorem EventCallsBack.of_refused {e : Refusal} : EventCallsBack s k x (.refused e) (.refused e) :=
  ⟨nofun, nofun, fun _ h => h⟩

/-- A handler that ends with its callback, with the view written back. -/
theorem EventCallsBack.of_handler {C : Type} (E : CallbackEngine C) {c : C} {f : Node C → Res (Node C)}
    (hx : s.inst? k = some x) (hf : ∀ n, CallsBack E.request n (f n) (f n.silent))
    (hframe : ∀ n, Node.Frames true n (f n)) :
    EventCallsBack s k x (andThen (f (Node.of s x c)) fun n => .next (s.putNode k x (E.role n.ctx) n))
      (andThen (f (Node.of s.silent x c)) fun n => .next (s.silent.putNode k x (E.role n.ctx) n)) := by
  have hcalls := hf (Node.of s x c)
  rw [hcalls]
  change EventCallsBack s k x _ (andThen (f (Node.of s x c).silent) _)
  cases hm : f (Node.of s x c).silent with
  | fault e => exact ⟨nofun, fun _ h => h, nofun⟩
  | refused e => exact .of_refused
  | next m =>
    refine ⟨?_, nofun, nofun⟩
    rintro _ ⟨⟩ y hy
    obtain rfl : m.inst (E.role m.ctx) x = y := Option.some.inj ((inst?_putNode (s := s.silent) hx).symm.trans hy)
    have hpar : m.par = s.par := (hframe _ m hm).par
    simp only [andThen_next]
    by_cases hcb : m.cbTrace = x.cbTrace
    · rw [if_pos (by exact hcb), if_pos (by exact hcb)]
      rfl
    · rw [if_neg (by exact hcb), if_neg (by exact hcb)]
      exact (callbackRuns_putNode (n := { m with inp := s.inp }) hx hpar rfl).symm

theorem takeMasterEvent_callsBack {src : MSources → Bool} {f : MNode → Res MNode} (hx : s.inst? k = some x)
    (hf : ∀ n, CallsBack mCallbackRequest n (f n) (f n.silent)) (hframe : ∀ n, Node.Frames true n (f n)) :
    EventCallsBack s k x (takeMasterEvent src k s f) (takeMasterEvent src k s.silent f) := by
  rw [takeMasterEvent, takeMasterEvent, onInst_of hx, onInst_of (s := s.silent) hx]
  cases hr : x.role with
  | master m =>
    dsimp only
    split
    · exact .of_handler masterEngine hx hf hframe
    · exact .of_refused
  | unowned | slave => exact .of_refused

theorem takeSlaveEvent_callsBack {src : SSources → Bool} {f : SNode → Res SNode} (hx : s.inst? k = some x)
    (hf : ∀ n, CallsBack sCallbackRequest n (f n) (f n.silent)) (hframe : ∀ n, Node.Frames true n (f n)) :
    EventCallsBack s k x (takeSlaveEvent src k s f) (takeSlaveEvent src k s.silent f) := by
  rw [takeSlaveEvent, takeSlaveEvent, onInst_of hx, onInst_of (s := s.silent) hx]
  cases hr : x.role with
  | slave c =>
    dsimp only
    split
    · exact .of_handler slaveEngine hx hf hframe
    · exact .of_refused
  | unowned | master => exact .of_refused

theorem takeDmaEvent_callsBack {enabled : Inst → Bool} {fm : MNode → Res MNode} {fs : DmaReg → SNode → Res SNode}
    (hx : s.inst? k = some x) (hfm : ∀ n, CallsBack mCallbackRequest n (fm n) (fm n.silent))
    (hfs : ∀ reg n, CallsBack sCallbackRequest n (fs reg n) (fs reg n.silent))
    (hmframe : ∀ n, Node.Frames true n (fm n)) (hsframe : ∀ reg n, Node.Frames true n (fs reg n)) :
    EventCallsBack s k x (takeDmaEvent enabled k s fm fs) (takeDmaEvent enabled k s.silent fm fs) := by
  rw [takeDmaEvent, takeDmaEvent, onInst_of hx, onInst_of (s := s.silent) hx]
  by_cases henabled : enabled x = true
  · rw [if_pos henabled, if_pos henabled]
    cases hr : x.role with
    | unowned => exact .of_refused
    | master m => exact .of_handler masterEngine hx hfm hmframe
    | slave c =>
      cases hd : x.dma with
      | stopped => exact .of_refused
      | running dir reg ptr count => exact .of_handler slaveEngine hx (hfs reg) (hsframe reg)
  · rw [if_neg henabled, if_neg henabled]
    exact .of_refused

/-- Every event whose handler invokes the callback last. -/
theorem exec_callsBack {i : Instr} (hx : busAt s i.bus x) (hends : endsWithCallback i = true) :
    EventCallsBack s i.bus x (exec i s) (exec i s.silent) := by
  cases i with
  | txrdy => exact takeMasterEvent_callsBack hx (fun _ => handleTxrdy_callsBack) fun _ => handleTxrdy_frames
  | rxrdy => exact takeMasterEvent_callsBack hx (fun _ => handleRxrdy_callsBack) fun _ => handleRxrdy_frames
  | nack => exact takeMasterEvent_callsBack hx (fun _ => handleNack_callsBack) fun _ => handleNack_frames
  | arblost | fifoerr | pinlow =>
    exact takeMasterEvent_callsBack hx (fun _ => errEnd_callsBack rfl) fun _ => errEnd_frames
  | rstart => exact takeSlaveEvent_callsBack hx (fun _ => handleRstart_callsBack) fun _ => handleRstart_frames
  | evtStop => exact takeSlaveEvent_callsBack hx (fun _ => handleStop_callsBack) fun _ => handleStop_frames
  | biterr => exact takeSlaveEvent_callsBack hx (fun _ => handleBiterr_callsBack) fun _ => handleBiterr_frames
  | sfifoerr =>
    exact takeSlaveEvent_callsBack hx (fun _ => handleSfifoerr_callsBack) fun _ => handleSfifoerr_frames
  | dmaok =>
    exact takeDmaEvent_callsBack hx (fun _ => masterDmaok_callsBack) (fun _ _ => slaveDmaok_callsBack)
      (fun _ => masterDmaok_frames) fun _ _ => slaveDmaok_frames
  | dmaerr =>
    exact takeDmaEvent_callsBack hx (fun _ => masterDmaerr_callsBack) (fun _ _ => slaveDmaerr_callsBack)
      (fun _ => masterDmaerr_frames) fun _ _ => slaveDmaerr_frames
  | _ => cases hends

end

/-- Settles O59: the three answers of the event with a silent callback. -/
theorem callbackRunsItsRequests : Obligations.CallbackRunsItsRequests := by
  intro s i x hx hends
  have hevent : EventCallsBack s i.bus x (exec i s) (exec i { s with inp := { s.inp with cb := [] } }) :=
    exec_callsBack hx hends
  split
  · exact hevent.next _ ‹_›
  · exact hevent.fault _ ‹_›
  · exact hevent.refused _ ‹_›

/-! ## The next transfer from a callback -/

section
variable {s s' : State} {k : BusIndex} {x y : Inst} {m : MCtx} {buf len : Nat} {stop : Bool}

/-- A single request that does not skip the test for a suspended host, where its instruction goes on. -/
theorem callbackRuns_one {r : CbReq} (hx : s.inst? k = some x) (hskips : skipsWaitTest r = false)
    (hexec : exec (foregroundOf s.par k r) s = .next s') (hy : s'.inst? k = some y) :
    callbackRuns k [r] s = .next (s'.setInst k { y with
      hostw := x.hostw
      replies := x.replies ++ (y.replies.drop x.replies.length).map fun a => { a with origin := .callback } }) := by
  simp [callbackRuns, hx, hskips, hexec, hy]

/-- `MSEND` reads no input. -/
theorem exec_msend_withInput (h : exec (.msend k buf len stop) s = .next s') (inp : Input) :
    exec (.msend k buf len stop) { s with inp := inp } = .next { s' with inp := inp } := by
  obtain ⟨x, m, n, hx, hrole, hn, rfl⟩ := onMaster_eq_next.mp h
  have hmirrors : Mirrors { inp := fun _ => inp } (mSend .foreground buf len stop none (Node.of s x m)) _ :=
    mTransfer_mirrors rfl rfl rfl fun _ => sendStart_mirrors
  rw [hn] at hmirrors
  exact onMaster_eq_next.mpr ⟨x, m, _, hx, hrole, hmirrors, rfl⟩

theorem mVerdict_send_ne_answer {p : Params} {st : Status} (hidle : m.idle = true) :
    mVerdict p m .send buf len ≠ .answer st := by
  unfold mVerdict
  rw [if_neg (by simp [hidle]), if_neg (by simp)]
  split <;> nofun

theorem mSend_answers {n n' : MNode} (hidle : n.ctx.idle = true)
    (h : mSend .foreground buf len stop none n = .next n') :
    n'.replies = n.replies ++ [⟨.foreground, .success, none, none⟩] ∧ n'.hostw = n.hostw := by
  unfold mSend mTransfer at h
  split at h
  · cases h
  · split at h
    · exact absurd ‹_› (mVerdict_send_ne_answer hidle)
    · cases h
    · obtain ⟨m, hm, h⟩ := andThen_eq_next.mp h
      cases h
      have hkept := keepsAside_of_mirrors (fun _ => sendStart_mirrors) hm
      exact ⟨congrArg (· ++ _) hkept.replies, hkept.hostw⟩

/-- On an idle engine `MSEND` answers `Success` if it goes on, and the host does not wait for it (R153). -/
theorem exec_msend_answers (hx : masterAt s k x m) (hidle : m.idle = true)
    (h : exec (.msend k buf len stop) s = .next s') (hy : busAt s' k y) :
    y.replies = x.replies ++ [⟨.foreground, .success, none, none⟩] ∧ y.hostw = x.hostw := by
  obtain ⟨x', m', n, hx', hrole, hn, rfl⟩ := onMaster_eq_next.mp h
  obtain rfl : x = x' := Option.some.inj (hx.1.symm.trans hx')
  obtain rfl : m = m' := Role.master.inj (hx.2.symm.trans hrole)
  obtain rfl : n.inst (.master n.ctx) x = y := Option.some.inj ((inst?_putNode hx').symm.trans hy)
  exact mSend_answers hidle hn

/-- `MSEND` is refused while the host waits (R161). -/
theorem exec_msend_suspended (hx : masterAt s k x m) (hwaits : x.hostw.isSome = true) :
    exec (.msend k buf len stop) s = .refused .hostSuspended := by
  have hsuspended : mSend .foreground buf len stop none (Node.of s x m) = .refused .hostSuspended :=
    if_pos (by simp [suspended, hwaits])
  exact (onMaster_of hx.1 hx.2).trans (by rw [hsuspended]; rfl)

end

/-- Settles O31: the handler with a silent callback completes the send, and the request that follows it is an `MSEND` of
an idle engine. -/
theorem callbackStartsNextTransfer : Obligations.CallbackStartsNextTransfer := by
  intro s k x m buf len stop hx hirq henabled hcallback hempty hdir hsize hfifo hdma hdepth hbuf hlen hcb
  let y₀ := notified { endedCtx .success m with hsInProgress := m.hsInProgress && !m.sendStop }
    (succeeded m.sendStop m x)
  have htaken : ¬ (m.dir = .receive ∨ (m.transferType = .dma ∧ x.dma ≠ .stopped)) := by
    rintro (hreceive | ⟨ht, hrunning⟩)
    · simp [hdir] at hreceive
    · exact hrunning (hdma ht)
  have hcount : swqCount m = 0 := swqCount_eq_zero.mpr hempty
  obtain ⟨-, -, -, hends⟩ := txrdyResult s.silent k x m 0 hx hirq henabled hfifo (by omega) hdepth rfl (by omega)
  have hcompletes : exec (.txrdy k) s.silent = .next (s.silent.setInst k y₀) :=
    hends (swqEntries_of_eq hempty) htaken hsize
  have hy₀ : masterAt (s.setInst k y₀) k y₀ _ := ⟨inst?_setInst_self hx.1, rfl⟩
  have htold : y₀.cbTrace ≠ x.cbTrace := by simp [y₀, notified, succeeded, endedCtx, traced, hcallback]
  have hruns : exec (.txrdy k) s = callbackRuns k [.msend buf len stop] (s.setInst k y₀) := by
    have hcalls := (exec_callsBack hx.1 rfl).next _ hcompletes y₀ (inst?_setInst_self hx.1)
    rw [if_neg htold, hcb] at hcalls
    exact hcalls
  have hform : foregroundOf s.par k (.msend buf len stop) = .msend k buf len stop := by
    simp [foregroundOf, Nat.mod_eq_of_lt, hbuf, hlen]
  refine ⟨fun hwaits => ?waits, fun hfree s₀ s₁ y hs₀ hs₁ hy => ?free⟩
  case waits =>
    rw [hruns]
    simp [callbackRuns, hy₀.1, skipsWaitTest, hform, exec_msend_suspended hy₀ hwaits]
  case free =>
    obtain rfl : s.silent.setInst k y₀ = s₀ := Host.Outcome.next.inj (hcompletes.symm.trans hs₀)
    have hy₀' : masterAt (s.silent.setInst k y₀) k y₀ _ := ⟨inst?_setInst_self hx.1, rfl⟩
    obtain ⟨hreplies, hhost⟩ := exec_msend_answers hy₀' rfl hs₁ hy
    have hexec : exec (foregroundOf (s.setInst k y₀).par k (.msend buf len stop)) (s.setInst k y₀) =
        .next { s₁ with inp := s.inp } := by
      rw [setInst_par, hform]
      exact exec_msend_withInput hs₁ s.inp
    refine ⟨y₀.replies, hreplies, hruns.trans ((callbackRuns_one hy₀.1 rfl hexec hy).trans ?_)⟩
    rw [hreplies, ← hhost]
    simp [State.setInst]

end Sys2Proof.Machine
end

section
/-! SUPPORT. The answers of the slave's requests and of its timeout (spec 43_slave_requests.md R270 to R284;
30_encoding.md R113). -/

namespace Sys2Proof.Machine
open Sys2Proof.Claims

/-! ## Configurations -/

/-- With 7-bit addressing bits 9:7 of the address are 0 iff it is below 128 (R113). -/
theorem extractLsb'_seven_eq_zero {a : BitVec 10} : a.extractLsb' 7 3 = 0#3 ↔ a.toNat < 128 := by
  have hlt : a.toNat < 2 ^ 10 := a.isLt
  rw [← BitVec.toNat_inj, BitVec.extractLsb'_toNat, Nat.shiftRight_eq_div_pow, BitVec.toNat_ofNat]
  omega

/-- A reserved mode, or an address that does not fit its addressing mode, makes a configuration malformed (R113). -/
theorem checkCfg_of_malformed {p : CfgPort} (h : 4 < p.mode.toNat ∨ ¬ addrFits p.addr p.is10bit) :
    checkCfg p = none := by
  refine Option.eq_none_iff_forall_ne_some.mpr fun c hc => ?_
  obtain ⟨hmode, hfits, -⟩ := checkCfg_eq_some hc
  rcases h with hreserved | haddr
  · simp [modeOfBits_none.mpr hreserved] at hmode
  · exact haddr (hfits.imp_right extractLsb'_seven_eq_zero.mp)

/-- A configuration whose address fits its addressing mode passes the check as it is (R113). -/
theorem checkCfg_portOf {c : Cfg} (h : addrFits c.addr c.is10bit) : checkCfg (portOf c) = some c := by
  have hmode : modeOfBits (portOf c).mode = some c.mode := modeOfBits_modeCode c.mode
  have hfits : ¬ (!(portOf c).is10bit && (portOf c).addr.extractLsb' 7 3 != 0#3) = true := by
    rcases h with hten | hseven
    · simp [portOf, hten]
    · simp [portOf, extractLsb'_seven_eq_zero.mpr hseven]
  simp only [checkCfg, hmode, if_neg hfits]
  rfl

section
variable {s : State} {k : BusIndex} {x : Inst} {c : SCtx} {n : SNode} {f : SNode → Res SNode} {buf len : Nat}
  {timeout : Option Nat} {dir : Dir} {st : Status}

/-! ## How a slave's request answers -/

/-- A slave request that goes on and stores nothing writes its bus and nothing else. -/
theorem onSlave_next (hx : slaveAt s k x c) (hf : f (Node.of s x c) = .next n) (hmem : n.mem = s.mem := by rfl) :
    onSlave k s f = .next (s.setInst k (n.inst (.slave n.ctx) x)) := by
  rw [onSlave_of hx.1 hx.2, hf, andThen_next, putNode_eq, hmem]
  rfl

theorem onSlave_refused {r : Refusal} (hx : slaveAt s k x c) (hf : f (Node.of s x c) = .refused r) :
    onSlave k s f = .refused r := by
  rw [onSlave_of hx.1 hx.2, hf, andThen_refused]

/-- A view written back as it was taken leaves its bus as it was. -/
theorem nodeOf_inst {C : Type} {role : Role} {a : C} (h : x.role = role) : (Node.of s x a).inst role x = x := by
  subst h
  rfl

/-- An answer to the foreground, on its bus. -/
theorem reply_inst {C : Type} {role : Role} {m : Node C} :
    (reply .foreground st m).inst role x = answered (m.inst role x) st := rfl

/-- A slave request that answers at once changes nothing else. -/
theorem onSlave_answered (hx : slaveAt s k x c)
    (hf : f (Node.of s x c) = .next (reply .foreground st (Node.of s x c))) :
    onSlave k s f = .next (s.setInst k (answered x st)) := by
  rw [onSlave_next hx hf, reply_inst, reply_ctx, nodeOf_ctx, nodeOf_inst hx.2]

/-! ## `SSEND`, `SSENDB`, `SRECV`, `SRECVB` -/

theorem exec_ssendOf : exec (ssendOf k buf len timeout) s = onSlave k s (sTransfer .send buf len timeout) := by
  cases timeout <;> rfl

theorem exec_srecvOf : exec (srecvOf k buf len timeout) s = onSlave k s (sTransfer .receive buf len timeout) := by
  cases timeout <;> rfl

theorem sVerdict_listening {p : Params} (h : c.listening = true) : sVerdict p c buf len = .answer .unsupported :=
  if_pos h

theorem sVerdict_busy {p : Params} (hlistening : c.listening = false) (h : c.isTransferInProgress = true) :
    sVerdict p c buf len = .answer .busy := by
  simp [sVerdict, hlistening, h]

theorem sVerdict_badLength {p : Params} (hlistening : c.listening = false) (hidle : c.isTransferInProgress = false)
    (h : len = 0 ∨ 2 ^ p.addrW < buf + len) : sVerdict p c buf len = .refuse .badLength := by
  simp [sVerdict, hlistening, hidle, bufferWraps, h]

theorem sTransfer_answer (hfree : n.hostw = none) (h : sVerdict n.par n.ctx buf len = .answer st) :
    sTransfer dir buf len timeout n = .next (reply .foreground st n) := by
  simp [sTransfer, suspended_false hfree, h]

theorem sTransfer_refuse {r : Refusal} (hfree : n.hostw = none) (h : sVerdict n.par n.ctx buf len = .refuse r) :
    sTransfer dir buf len timeout n = .refused r := by
  simp [sTransfer, suspended_false hfree, h]

theorem sTransfer_accept (hfree : n.hostw = none) (h : sVerdict n.par n.ctx buf len = .accept) :
    sTransfer dir buf len timeout n =
      .next (completeOrWait .foreground .s timeout (sAccepted dir buf len timeout.isSome n)) := by
  simp [sTransfer, suspended_false hfree, h]

/-- Behind an accepted request the host has its answer or waits, and nothing else changes (R273 to R276). -/
theorem onSlave_accepted (hx : slaveAt s k x c) (hmem : n.mem = s.mem)
    (hf : f (Node.of s x c) = .next (completeOrWait .foreground .s timeout n)) :
    onSlave k s f = .next (s.setInst k (hostBehind .s timeout (n.inst (.slave n.ctx) x))) := by
  cases timeout with
  | none => exact onSlave_next hx hf hmem
  | some t => exact onSlave_next hx hf hmem

/-! ## `SSETTX` and `SSETRX` -/

theorem sSetTx_of_wraps {o : Origin} (hfree : n.hostw = none) (h : 2 ^ n.par.addrW < buf + len) :
    sSetTx o buf len n = .refused .badLength := by
  simp [sSetTx, suspended_false hfree, bufferWraps, h]

theorem sSetRx_of_wraps {o : Origin} (hfree : n.hostw = none) (h : 2 ^ n.par.addrW < buf + len) :
    sSetRx o buf len n = .refused .badLength := by
  simp [sSetRx, suspended_false hfree, bufferWraps, h]

theorem sSetTx_of_fits {o : Origin} (hfree : n.hostw = none) (h : buf + len ≤ 2 ^ n.par.addrW) :
    sSetTx o buf len n = .next (reply o .success
      { n with ctx := { n.ctx with txBuff := if len = 0 then none else some buf, txSize := len } }) := by
  simp [sSetTx, suspended_false hfree, bufferWraps, Nat.not_lt.mpr h]

theorem sSetRx_of_fits {o : Origin} (hfree : n.hostw = none) (h : buf + len ≤ 2 ^ n.par.addrW) :
    sSetRx o buf len n = .next (reply o .success
      { n with ctx := { n.ctx with rxBuff := if len = 0 then none else some buf, rxSize := len } }) := by
  simp [sSetRx, suspended_false hfree, bufferWraps, Nat.not_lt.mpr h]

end

/-- Settles O32: the four requests are one rule, and its verdict decides. -/
theorem slaveTransferResult : Obligations.SlaveTransferResult := by
  intro s k x c buf len timeout hx hfree busy hw
  have hrejected (dir : Dir) :
      (c.listening = true →
        onSlave k s (sTransfer dir buf len timeout) = .next (s.setInst k (answered x .unsupported))) ∧
      (c.listening = false → c.isTransferInProgress = true →
        onSlave k s (sTransfer dir buf len timeout) = .next (s.setInst k (answered x .busy))) ∧
      (c.listening = false → c.isTransferInProgress = false → (len = 0 ∨ 2 ^ s.par.addrW < buf + len) →
        onSlave k s (sTransfer dir buf len timeout) = .refused .badLength) :=
    ⟨fun hl => onSlave_answered hx (sTransfer_answer hfree (sVerdict_listening hl)),
      fun hl ht => onSlave_answered hx (sTransfer_answer hfree (sVerdict_busy hl ht)),
      fun hl ht hlen => onSlave_refused hx (sTransfer_refuse hfree (sVerdict_badLength hl ht hlen))⟩
  have haccepted (dir : Dir) (hl : c.listening = false) (ht : c.isTransferInProgress = false) (hlen : 1 ≤ len)
      (hfits : buf + len ≤ 2 ^ s.par.addrW) :=
    onSlave_accepted (f := sTransfer dir buf len timeout) hx rfl
      (sTransfer_accept hfree (sVerdict_accept.mpr ⟨hl, ht, Nat.ne_of_gt hlen, hfits⟩))
  refine ⟨?rejected, fun hl ht hlen hfits => ⟨?send, ?receive⟩⟩
  case rejected =>
    rintro i (rfl | rfl)
    · rw [exec_ssendOf]
      exact hrejected .send
    · rw [exec_srecvOf]
      exact hrejected .receive
  case send =>
    rw [exec_ssendOf]
    exact haccepted .send hl ht hlen hfits
  case receive =>
    rw [exec_srecvOf]
    exact haccepted .receive hl ht hlen hfits

/-- Settles O33: both requests test the bounds of the buffer, then write it. -/
theorem slaveBufferSupply : Obligations.SlaveBufferSupply :=
  fun _ _ _ _ _ _ hx hfree =>
    ⟨fun hwraps =>
        ⟨onSlave_refused hx (sSetTx_of_wraps hfree hwraps), onSlave_refused hx (sSetRx_of_wraps hfree hwraps)⟩,
      fun hfits => ⟨onSlave_next hx (sSetTx_of_fits hfree hfits), onSlave_next hx (sSetRx_of_fits hfree hfits)⟩⟩

/-- Settles O34: without a transfer, and on a listening slave, the answer is all; else a teardown precedes it. -/
theorem sabortResult : Obligations.SabortResult := by
  intro s k x c hx hfree
  have hhost : suspended .foreground false (Node.of s x c) = false := suspended_false hfree
  by_cases hnothing : c.isTransferInProgress = false ∨ c.listening = true
  · rw [if_pos hnothing]
    exact onSlave_answered hx (by rcases hnothing with h | h <;> simp [sAbort, hhost, h])
  · rw [if_neg hnothing]
    obtain ⟨ht, hl⟩ := not_or.mp hnothing
    have haborts : sAbort (Node.of s x c) =
        .next (reply .foreground .success (setSStatus .aborted (sTeardown (Node.of s x c)))) := by
      simp [sAbort, hhost, ht, hl]
    exact onSlave_next hx haborts

/-- Settles O50: the timer is enabled, and its rule is the teardown and the answer. -/
theorem slaveWtimeoutResult : Obligations.SlaveWtimeoutResult := by
  intro s k x c t hx hwaits hsem
  have henabled : wtimeoutEnabled x = true := by simp [wtimeoutEnabled, hx.2, hwaits, hsem]
  refine (onInst_of hx.1).trans ((if_pos henabled).trans ?_)
  simp only [hx.2, hwaits]
  rfl

/-! ## `SINIT` -/

/-- The registers an init of the slave leaves (R162, R270). -/
theorem sInitHw_hwReset {listening : Bool} {h : HW} : sInitHw listening (hwReset h) =
    { resetHw h with
      irqEn := true, sen := listening, sie := if listening then armedSources else noSlaveSource } := by
  cases listening <;> rfl

/-- Settles O10: the role, the configuration and the capability are tested in that order. -/
theorem sinitResult : Obligations.SinitResult := by
  intro s k x hx
  refine ⟨fun cfg howned => (onInst_of hx).trans ?owned, fun cfg hfree hbad => (onInst_of hx).trans ?malformed,
    fun c hfree haddr hcapable => (onInst_of hx).trans ?incapable,
    fun c hfree haddr hcapable => (onInst_of hx).trans ?initialised⟩
  case owned =>
    cases hrole : x.role with
    | unowned => exact absurd hrole howned
    | master m => rfl
    | slave c => rfl
  case malformed => simp only [hfree, checkCfg_of_malformed hbad]
  case incapable => simp [hfree, checkCfg_portOf haddr, hcapable]
  case initialised =>
    simp only [hfree, checkCfg_portOf haddr, hcapable, if_true, sInitHw_hwReset]
    rfl

end Sys2Proof.Machine
end

section
/-! SUPPORT. What the slave's bus side raises and what the slave's seven events leave on their bus (spec
44_slave_events.md R300 to R309): the callback that supplies nothing or one buffer, each handler behind its callback,
and the end of a transaction as the claims write it. -/

namespace Sys2Proof.Machine
open Sys2Proof.Claims

/-! ## The slave bus side -/

/-- The received address is the slave's with the direction behind it (R300, R44). -/
theorem saddrOf_eq_append (addr : BitVec 10) (rw : Bool) : saddrOf addr rw = addr ++ (if rw then 1#1 else 0#1) := by
  have hshift : (addr.setWidth 11 <<< 1).toNat = addr.toNat <<< 1 := by
    have := addr.isLt
    simp [Nat.shiftLeft_eq]
    omega
  have happend (bit : BitVec 1) : (addr ++ bit : BitVec 11).toNat = addr.toNat <<< 1 ||| bit.toNat :=
    BitVec.toNat_append addr bit
  apply BitVec.eq_of_toNat_eq
  rw [saddrOf, BitVec.toNat_or, hshift, happend]
  cases rw <;> rfl

section
variable {s : State} {k : BusIndex} {x : Inst} {c : SCtx} {act : BussAct} {inp : Input}

/-- A slave bus side's step that comes to nothing passes (R300). -/
theorem step_buss_of_none (hx : busAt s k x) (h : bussStep act x = none) :
    step (turn s ⟨.buss k act, inp⟩) = .next (during s ⟨.buss k act, inp⟩) := by
  refine congrArg Host.Outcome.next ((ownStep_of (s := during s _) hx).trans ?_)
  rw [h]

/-- A slave bus side's step that is taken changes its bus and nothing else (R300). -/
theorem step_buss_of_some {y : Inst} (hx : busAt s k x) (h : bussStep act x = some y) :
    step (turn s ⟨.buss k act, inp⟩) = .next ((during s ⟨.buss k act, inp⟩).setInst k y) := by
  refine congrArg Host.Outcome.next ((ownStep_of (s := during s _) hx).trans ?_)
  rw [h]

/-- Without the role Slave, or with the slave logic off, the slave bus side takes no step (R300). -/
theorem bussStep_off (h : (∀ c, x.role ≠ .slave c) ∨ x.hw.sen = false) : bussStep act x = none := by
  unfold bussStep
  split
  · next c hrole => simp [h.resolve_left fun hslave => hslave c hrole]
  · rfl

/-- With the slave logic on, the enabling condition `P` of a step decides between its effect and nothing (R300). -/
theorem step_buss_decides {P : Prop} (hx : slaveAt s k x c) (hsen : x.hw.sen = true)
    (h : bussEnabled act x.hw.sef = true ↔ P) :
    (P → step (turn s ⟨.buss k act, inp⟩) =
      .next ((during s ⟨.buss k act, inp⟩).setInst k { x with hw := bussEffect act c x.hw })) ∧
    (¬ P → step (turn s ⟨.buss k act, inp⟩) = .next (during s ⟨.buss k act, inp⟩)) := by
  refine ⟨fun hP => step_buss_of_some hx.1 ?_, fun hP => step_buss_of_none hx.1 ?_⟩
  · simp [bussStep, hx.2, hsen, h.mpr hP]
  · simp [bussStep, hx.2, mt h.mp hP]

end

/-- Settles O35: each step's enabling condition, as the rule words it, decides whether the step is taken. -/
theorem slaveBusStep : Obligations.SlaveBusStep := by
  refine ⟨fun s k inp x act hx hoff => step_buss_of_none hx (bussStep_off hoff), ?_⟩
  intro s k inp x c act hx hsen f clear after
  have hdecides {P : Prop} := step_buss_decides (act := act) (inp := inp) (P := P) hx hsen
  cases act with
  | addrMatch rw =>
    have hstep := hdecides (P := f = noSlaveSource) beq_iff_eq
    rwa [bussEffect, saddrOf_eq_append] at hstep
  | byteIn b =>
    have hstep := hdecides (P := clear ∧ f.rxdata = false) (by grind [bussEnabled])
    rwa [and_imp, Classical.not_and_iff_not_or_not, Bool.not_eq_false] at hstep
  | byteReq =>
    have hstep := hdecides (P := clear ∧ f.txdata = false) (by grind [bussEnabled])
    rwa [and_imp, Classical.not_and_iff_not_or_not, Bool.not_eq_false] at hstep
  | repStart | stop => exact hdecides (by simp [bussEnabled, clear, f, and_assoc])
  | bitErr =>
    have hstep := hdecides (P := f.biterr = false) (by simp [bussEnabled, f])
    rwa [Bool.not_eq_false] at hstep
  | fifoErr =>
    have hstep := hdecides (P := f.sfifoerr = false) (by simp [bussEnabled, f])
    rwa [Bool.not_eq_false] at hstep

/-! ## Taking a slave event -/

section
variable {s : State} {k : BusIndex} {x : Inst} {c : SCtx} {n m : SNode} {ev : CbEvent} {buf len a : Nat}
  {src : SSources → Bool} {f : SNode → Res SNode}

/-- A flagged and enabled source is served: what its handler leaves is written back to its bus and to memory (R383). -/
theorem takeSlaveEvent_next (hx : slaveAt s k x c) (hirq : x.hw.irqEn = true) (hflag : src x.hw.sef = true)
    (henabled : src x.hw.sie = true) (hf : f (Node.of s x c) = .next n)
    (hsrc : ∀ p q : SSources, src (p.meet q) = (src p && src q) := by exact fun _ _ => rfl) :
    takeSlaveEvent src k s f = .next { s.setInst k (n.inst (.slave n.ctx) x) with mem := n.mem } := by
  have hdue : src (deliverableS x) = true := by rw [deliverableS_of hx.2 hirq, hsrc, hflag, henabled, Bool.and_self]
  rw [takeSlaveEvent_of hx.1 hx.2 hdue, hf, andThen_next, putNode_eq]

/-- A result that depends on a condition is known from its two cases. -/
theorem next_setInst_ite {P : Prop} [Decidable P] {r : Res State} {y z : Inst} (hy : P → r = .next (s.setInst k y))
    (hz : ¬ P → r = .next (s.setInst k z)) : r = .next (s.setInst k (if P then y else z)) := by
  split
  · next h => exact hy h
  · next h => exact hz h

/-! ## The callback -/

/-- A slave callback that supplies nothing leaves its record and nothing else (R302). -/
theorem sCallback_of_nothing (h : n.inp.cb = [] ∨ n.ctx.callback = none) : sCallback ev n =
    .next { n with cbTrace := traced n.ctx.callback ev n.ctx.callbackParam n.cbTrace } := by
  rcases h with hsilent | hnull
  · exact sCallback_silent hsilent
  · rw [sCallback_null hnull, hnull]
    rfl

/-- A slave callback with one request is that request behind the callback's record (R302). -/
theorem sCallback_of_one {r : CbReq} (hcallback : n.ctx.callback.isSome = true) (h : n.inp.cb = [r]) : sCallback ev n =
    sCallbackRequest r { n with cbTrace := traced n.ctx.callback ev n.ctx.callbackParam n.cbTrace } := by
  obtain ⟨p, hp⟩ := Option.isSome_iff_exists.mp hcallback
  simp only [sCallback, hp, h, sCallbackRun, traced, Option.isSome_some, if_true]
  cases sCallbackRequest r _ <;> rfl

/-- A buffer inside the address space comes through its ports as it is, a withdrawn one null (R112, R279, R280). -/
theorem supplied_onPort {p : Params} (hlen : len < 2 ^ p.sizeW) (hfits : buf + len ≤ 2 ^ p.addrW) :
    onPort p.sizeW len = len ∧ bufferWraps p (onPort p.addrW buf) len = false ∧
      (if len = 0 then none else some (onPort p.addrW buf)) = if len = 0 then none else some buf := by
  have hle : onPort p.addrW buf ≤ buf := Nat.mod_le buf _
  refine ⟨onPort_of_lt hlen, decide_eq_false (by omega), ?_⟩
  split
  · rfl
  · rw [onPort_of_lt (by omega)]

/-- A callback's `SSETTX` supplies its buffer, the host waiting or not (R272, R279). -/
theorem sCallback_of_ssettx (hcallback : n.ctx.callback.isSome = true) (hcb : n.inp.cb = [.ssettx buf len])
    (hlen : len < 2 ^ n.par.sizeW) (hfits : buf + len ≤ 2 ^ n.par.addrW) : sCallback ev n =
    .next (reply .callback .success { n with
      ctx := { n.ctx with txBuff := if len = 0 then none else some buf, txSize := len }
      cbTrace := traced n.ctx.callback ev n.ctx.callbackParam n.cbTrace }) := by
  obtain ⟨hport, hwraps, hbuf⟩ := supplied_onPort hlen hfits
  rw [sCallback_of_one hcallback hcb]
  simp [sCallbackRequest, sSetTx, suspended, hport, hwraps, hbuf]

/-- A callback's `SSETRX` supplies its buffer, the host waiting or not (R272, R280). -/
theorem sCallback_of_ssetrx (hcallback : n.ctx.callback.isSome = true) (hcb : n.inp.cb = [.ssetrx buf len])
    (hlen : len < 2 ^ n.par.sizeW) (hfits : buf + len ≤ 2 ^ n.par.addrW) : sCallback ev n =
    .next (reply .callback .success { n with
      ctx := { n.ctx with rxBuff := if len = 0 then none else some buf, rxSize := len }
      cbTrace := traced n.ctx.callback ev n.ctx.callbackParam n.cbTrace }) := by
  obtain ⟨hport, hwraps, hbuf⟩ := supplied_onPort hlen hfits
  rw [sCallback_of_one hcallback hcb]
  simp [sCallbackRequest, sSetRx, suspended, hport, hwraps, hbuf]

/-! ## `ADDRVALID` -/

/-- The view in which a transaction has begun (R303). -/
def Node.begun (n : SNode) : SNode :=
  { n with
    hw := { n.hw with sef := { n.hw.sef with addrvalid := false } }
    ctx := { n.ctx with isTransferInProgress := true, status := .busy, phase := .transferring } }

/-- The view in which a transaction with read intent has begun (R303). -/
def Node.begunSending (n : SNode) : SNode := { n.begun with ctx := { n.begun.ctx with txUnderrunWarning := false } }

theorem handleAddrvalid_read (h : n.hw.saddr.getLsbD 0 = true) : handleAddrvalid n = addrRead n.begun := if_pos h

theorem handleAddrvalid_write (h : n.hw.saddr.getLsbD 0 = false) : handleAddrvalid n = addrWrite n.begun :=
  if_neg (Bool.not_eq_true _ ▸ h)

/-- A DMA slave with a buffer to send has the channel armed with it (R303). -/
theorem handleAddrvalid_arms_tx (hread : n.hw.saddr.getLsbD 0 = true)
    (hcall : sCallback .txRequested n.begunSending = .next m) (hdma : m.ctx.transferType = .dma)
    (hsize : 0 < m.ctx.txSize) (hbuf : m.ctx.txBuff = some a) :
    handleAddrvalid n = .next (dmaArm .memToPeriph .stx a m.ctx.txSize m) := by
  rw [handleAddrvalid_read hread]
  refine (congrArg (andThen · _) hcall).trans ?_
  simp [hdma, hsize, hbuf, sArm, bufAddr]

theorem handleAddrvalid_enables_tx (hread : n.hw.saddr.getLsbD 0 = true)
    (hcall : sCallback .txRequested n.begunSending = .next m)
    (h : ¬ (m.ctx.transferType = .dma ∧ 0 < m.ctx.txSize)) :
    handleAddrvalid n = .next { m with hw := { m.hw with sie := { m.hw.sie with txdata := true } } } := by
  rw [handleAddrvalid_read hread]
  exact (congrArg (andThen · _) hcall).trans (if_neg h)

/-- A DMA slave with a buffer to fill has the channel armed with it (R303). -/
theorem handleAddrvalid_arms_rx (hwrite : n.hw.saddr.getLsbD 0 = false)
    (hcall : sCallback .rxRequested n.begun = .next m) (hdma : m.ctx.transferType = .dma)
    (hsize : 0 < m.ctx.rxSize) (hbuf : m.ctx.rxBuff = some a) :
    handleAddrvalid n = .next (dmaArm .periphToMem .srx a m.ctx.rxSize m) := by
  rw [handleAddrvalid_write hwrite]
  refine (congrArg (andThen · _) hcall).trans ?_
  simp [hdma, hsize, hbuf, sArm, bufAddr]

theorem handleAddrvalid_enables_rx (hwrite : n.hw.saddr.getLsbD 0 = false)
    (hcall : sCallback .rxRequested n.begun = .next m) (h : ¬ (m.ctx.transferType = .dma ∧ 0 < m.ctx.rxSize)) :
    handleAddrvalid n = .next { m with hw := { m.hw with sie := { m.hw.sie with rxdata := true } } } := by
  rw [handleAddrvalid_write hwrite]
  exact (congrArg (andThen · _) hcall).trans (if_neg h)

/-! ## `TXDATA` and `RXDATA` -/

/-- The next byte of a buffer is sent and clears the warning (R304). -/
theorem sendNextByte_of (hbuf : n.ctx.txBuff = some a) (ha : a < 2 ^ n.par.addrW) : sendNextByte n =
    .next (writeStdr (n.mem.read a) { n with ctx := { n.ctx with
      txBuff := some (ptrNext n.par a), txSize := n.ctx.txSize - 1, txUnderrunWarning := false } }) := by
  simp [sendNextByte, hbuf, bufAddr, memRead, ha]

/-- A received byte is stored at the buffer's pointer (R305). -/
theorem storeByte_of {b : Byte} (hbuf : n.ctx.rxBuff = some a) (ha : a < 2 ^ n.par.addrW) : storeByte b n =
    .next { n with
      mem := n.mem.write a b
      ctx := { n.ctx with rxBuff := some (ptrNext n.par a), rxSize := n.ctx.rxSize - 1 } } := by
  simp [storeByte, hbuf, bufAddr, memWrite, ha]

theorem handleTxdata_of_pos (h : 0 < n.ctx.txSize) : handleTxdata n = sendNextByte n := by
  simp [handleTxdata, Nat.ne_of_gt h]

/-- An exhausted buffer is asked for, and its count tested again behind the callback (R302, R304). -/
theorem handleTxdata_of_zero (h : n.ctx.txSize = 0) (hcall : sCallback .txEmpty n = .next m) :
    handleTxdata n = if m.ctx.txSize = 0 then .next (sendFiller m) else sendNextByte m := by
  rw [handleTxdata, if_pos h, hcall, andThen_next]

theorem handleRxdata_of_pos (h : 0 < n.ctx.rxSize) : handleRxdata n = storeByte n.hw.srdr (readSrdr n) := by
  simp [handleRxdata, Nat.ne_of_gt h]

/-- A full buffer is reported, and its count tested again behind the callback (R302, R305). -/
theorem handleRxdata_of_zero (h : n.ctx.rxSize = 0) (hcall : sCallback .rxFull n = .next m) : handleRxdata n =
    if m.ctx.rxSize = 0 then .next (setSStatus .rxOverrun (readSrdr m)) else storeByte m.hw.srdr (readSrdr m) := by
  rw [handleRxdata, if_pos h, hcall, andThen_next]
  rfl

/-! ## The end of a transaction -/

/-- `SEnd` is what the claims write of it (R301). -/
theorem sEnd_inst : (sEnd (Node.of s x c)).inst (.slave (sEnd (Node.of s x c)).ctx) x = slaveEnded c x := by
  obtain ⟨role, hw, dma, _⟩ := x
  obtain ⟨listening, _⟩ := c
  cases listening <;> rcases dma with _ | ⟨dir, _ | _ | _ | _, p, count⟩ <;> rfl

/-- `SEnd` with a callback behind it that issues nothing, on a bus whose registers the handler has written (R301). -/
theorem takeSlaveEvent_boundary {hw : HW} {d : SCtx} (hx : slaveAt s k x c) (hirq : x.hw.irqEn = true)
    (hflag : src x.hw.sef = true) (henabled : src x.hw.sie = true) (hcb : s.inp.cb = [])
    (hf : f (Node.of s x c) = sCallback ev (sEnd (Node.of s { x with hw := hw } d)))
    (hsrc : ∀ p q : SSources, src (p.meet q) = (src p && src q) := by exact fun _ _ => rfl) :
    takeSlaveEvent src k s f = .next (s.setInst k (slaveBoundary ev d { x with hw := hw })) := by
  obtain ⟨-, hinp, hmem, -, htrace, -, -, hcallback, hparam, -⟩ := sEnd_frame (Node.of s { x with hw := hw } d)
  rw [takeSlaveEvent_next hx hirq hflag henabled (hf.trans (sCallback_of_nothing (.inl (hinp ▸ hcb)))) hsrc]
  rw [slaveBoundary, ← sEnd_inst (s := s), hcallback, hparam, htrace]
  simp only [hmem]
  rfl

end

/-- Settles O36: each direction with a callback that supplies nothing, and with the request that supplies its buffer. -/
theorem addrvalidResult : Obligations.AddrvalidResult := by
  intro s k x c hx hirq hflag henabled begun cleared silent supplies answers
  have hserved {n : SNode} (h : handleAddrvalid (Node.of s x c) = .next n) :=
    takeSlaveEvent_next (src := (·.addrvalid)) hx hirq hflag henabled h
  have hnotArmed {size : Nat} (h : c.transferType = .interrupts ∨ size = 0) :
      ¬ (c.transferType = .dma ∧ 0 < size) := by
    rintro ⟨hdma, hsize⟩
    rcases h with hinterrupts | hzero
    · simp [hdma] at hinterrupts
    · omega
  refine ⟨?read, ?write⟩
  case read =>
    intro hread sending y enabled
    refine ⟨fun hsilent hdma hsize a hbuf => ?arms, fun hsilent h => ?enables, fun buf len hsupplies => ?supplied⟩
    case arms =>
      exact hserved (handleAddrvalid_arms_tx hread (sCallback_of_nothing hsilent) hdma hsize hbuf)
    case enables =>
      exact hserved (handleAddrvalid_enables_tx hread (sCallback_of_nothing hsilent) (hnotArmed h))
    case supplied =>
      intro z
      obtain ⟨hcallback, hlen, hfits, hcb⟩ := hsupplies
      have hcall := sCallback_of_ssettx (n := (Node.of s x c).begunSending) (ev := .txRequested)
        hcallback hcb hlen hfits
      exact next_setInst_ite
        (fun ⟨hdma, hsize⟩ => hserved (handleAddrvalid_arms_tx hread hcall hdma hsize (if_neg (Nat.ne_of_gt hsize))))
        fun hnot => hserved (handleAddrvalid_enables_tx hread hcall hnot)
  case write =>
    intro hwrite y enabled
    refine ⟨fun hsilent hdma hsize a hbuf => ?arms, fun hsilent h => ?enables, fun buf len hsupplies => ?supplied⟩
    case arms =>
      exact hserved (handleAddrvalid_arms_rx hwrite (sCallback_of_nothing hsilent) hdma hsize hbuf)
    case enables =>
      exact hserved (handleAddrvalid_enables_rx hwrite (sCallback_of_nothing hsilent) (hnotArmed h))
    case supplied =>
      intro z
      obtain ⟨hcallback, hlen, hfits, hcb⟩ := hsupplies
      have hcall := sCallback_of_ssetrx (n := (Node.of s x c).begun) (ev := .rxRequested)
        hcallback hcb hlen hfits
      exact next_setInst_ite
        (fun ⟨hdma, hsize⟩ => hserved (handleAddrvalid_arms_rx hwrite hcall hdma hsize (if_neg (Nat.ne_of_gt hsize))))
        fun hnot => hserved (handleAddrvalid_enables_rx hwrite hcall hnot)

/-- Settles O37: an exhausted buffer stays so behind the callback; else the handler reads one byte. -/
theorem txdataResult : Obligations.TxdataResult := by
  intro s k x c hx hirq hflag henabled sent
  have hserved {n : SNode} (h : handleTxdata (Node.of s x c) = .next n) :=
    takeSlaveEvent_next (src := (·.txdata)) hx hirq hflag henabled h
  refine ⟨fun hzero hsilent => ?filler, fun hsize a hbuf ha => ?byte⟩
  case filler => exact hserved ((handleTxdata_of_zero hzero (sCallback_of_nothing hsilent)).trans (if_pos hzero))
  case byte => exact hserved ((handleTxdata_of_pos hsize).trans (sendNextByte_of hbuf ha))

/-- Settles O38: without room there is none behind the callback either; else the handler stores one byte. -/
theorem rxdataResult : Obligations.RxdataResult := by
  intro s k x c hx hirq hflag henabled hw
  have hserved {n : SNode} (h : handleRxdata (Node.of s x c) = .next n) :=
    takeSlaveEvent_next (src := (·.rxdata)) hx hirq hflag henabled h
  refine ⟨fun hzero hsilent => ?discarded, fun hsize a hbuf ha hmem => ⟨Memory.write s.mem a x.hw.srdr,
    Memory.read_write_self hmem, fun b hb => Memory.read_write_ne hmem hb, ?stored⟩⟩
  case discarded => exact hserved ((handleRxdata_of_zero hzero (sCallback_of_nothing hsilent)).trans (if_pos hzero))
  case stored => exact hserved ((handleRxdata_of_pos hsize).trans (storeByte_of hbuf ha))

/-- Settles O39: behind the callback the count is the supplied buffer's, whose first byte is moved. -/
theorem callbackRefillInTime : Obligations.CallbackRefillInTime := by
  intro s k x c buf len hx hirq hcallback hpos hlen hfits next answers
  have hne : len ≠ 0 := Nat.ne_of_gt hpos
  have hbuf : (if len = 0 then none else some buf) = some buf := if_neg hne
  have haddr : buf < 2 ^ s.par.addrW := by omega
  have htraced (ev : CbEvent) : traced c.callback ev c.callbackParam x.cbTrace = x.cbTrace ++ [(ev, c.callbackParam)] :=
    if_pos hcallback
  refine ⟨fun hflag henabled hzero hcb => ?send, fun hflag henabled hzero hcb hmem =>
    ⟨Memory.write s.mem buf x.hw.srdr, Memory.read_write_self hmem, fun b hb => Memory.read_write_ne hmem hb, ?receive⟩⟩
  case send =>
    have hcall := sCallback_of_ssettx (n := Node.of s x c) (ev := .txEmpty) hcallback hcb hlen hfits
    rw [← htraced]
    exact takeSlaveEvent_next (src := (·.txdata)) (f := handleTxdata) hx hirq hflag henabled
      (((handleTxdata_of_zero hzero hcall).trans (if_neg hne)).trans (sendNextByte_of hbuf haddr))
  case receive =>
    have hcall := sCallback_of_ssetrx (n := Node.of s x c) (ev := .rxFull) hcallback hcb hlen hfits
    rw [← htraced]
    exact takeSlaveEvent_next (src := (·.rxdata)) (f := handleRxdata) hx hirq hflag henabled
      (((handleRxdata_of_zero hzero hcall).trans (if_neg hne)).trans (storeByte_of hbuf haddr))

/-- Settles O40: only the first repeated start of a 10-bit transaction is no boundary. -/
theorem slaveBoundaryResult : Obligations.SlaveBoundaryResult := by
  intro s k x c hx hirq hcb
  refine ⟨fun hflag henabled => ?rstart, fun hflag henabled => ?stop⟩
  case rstart =>
    intro c' y
    have hfirst : (c'.is10bit = true ∧ c'.repeatedStarts = 1) ↔ c.is10bit = true ∧ c.repeatedStarts = 0 := by
      have : min (c.repeatedStarts + 1) 255 = 1 ↔ c.repeatedStarts = 0 := by omega
      exact and_congr_right' this
    exact next_setInst_ite
      (fun hcontinues => takeSlaveEvent_next (src := (·.rstart)) (f := handleRstart) hx hirq hflag henabled
        (if_pos (hfirst.mpr hcontinues)))
      fun hends => takeSlaveEvent_boundary (src := (·.rstart)) (f := handleRstart) hx hirq hflag henabled hcb
        (if_neg (mt hfirst.mp hends))
  case stop => exact takeSlaveEvent_boundary (src := (·.stop)) (f := handleStop) hx hirq hflag henabled hcb rfl

/-- Settles O41: both errors set the status, then end the transaction. -/
theorem slaveErrorResult : Obligations.SlaveErrorResult := by
  intro s k x c hx hirq hcb
  refine ⟨fun hflag henabled => ?biterr, fun hflag henabled => ?sfifoerr⟩
  case biterr => exact takeSlaveEvent_boundary (src := (·.biterr)) (f := handleBiterr) hx hirq hflag henabled hcb rfl
  case sfifoerr =>
    exact takeSlaveEvent_boundary (src := (·.sfifoerr)) (f := handleSfifoerr) hx hirq hflag henabled hcb rfl

end Sys2Proof.Machine
end

section
/-! SUPPORT. The bytes the DMA channel moves and what its two events leave on their bus (spec 45_dma.md R332 to R341): the
arbiter's condition for each register, the byte of each register as a closed form, a completion's handler on its bus. -/

namespace Sys2Proof.Machine
open Sys2Proof.Claims

/-! ## The handshake arbiter -/

section
variable {s : State} {k : BusIndex} {x : Inst} {par : Params} {inp : Input} {dir : DmaDir} {reg : DmaReg} {p count : Nat}

/-- A data byte does not overtake a queued command, and needs room in the transmit FIFO (R332). -/
theorem dmaGranted_mtx (hdma : x.dma = .running dir .mtx p count) : dmaGranted par x = true ↔ 0 < count ∧
    ∃ m, x.role = .master m ∧ m.swqWr = m.swqRd ∧ x.hw.txf.length < par.txDepth ∧ m.idle = false := by
  cases hrole : x.role <;> simp [dmaGranted, hdma, hrole, swqEmpty, Nat.pos_iff_ne_zero, and_assoc]

theorem dmaGranted_mrx (hdma : x.dma = .running dir .mrx p count) :
    dmaGranted par x = true ↔ 0 < count ∧ x.hw.rxw < x.hw.rxf.length := by
  simp [dmaGranted, hdma, Nat.pos_iff_ne_zero]

theorem dmaGranted_stx (hdma : x.dma = .running dir .stx p count) :
    dmaGranted par x = true ↔ 0 < count ∧ x.hw.sef.txdata = true := by
  simp [dmaGranted, hdma, Nat.pos_iff_ne_zero]

theorem dmaGranted_srx (hdma : x.dma = .running dir .srx p count) :
    dmaGranted par x = true ↔ 0 < count ∧ x.hw.sef.rxdata = true := by
  simp [dmaGranted, hdma, Nat.pos_iff_ne_zero]

/-! ## The byte of a move -/

theorem dmaByte_mtx {n : Node Unit} (hp : p < 2 ^ n.par.addrW) (hroom : n.hw.txf.length < n.par.txDepth) :
    dmaByte .mtx p n =
      .next { n with hw := { n.hw with txf := n.hw.txf ++ [(n.mem.read p).setWidth 11] } } := by
  simp [dmaByte, memRead, hp, pushTxf, hroom, cmdWord_txd]

theorem dmaByte_mrx {n : Node Unit} {b : Byte} {rest : List Byte} (hp : p < 2 ^ n.par.addrW)
    (hrxf : n.hw.rxf = b :: rest) :
    dmaByte .mrx p n = .next { n with hw := { n.hw with rxf := rest }, mem := n.mem.write p b } := by
  simp [dmaByte, popRxf, hrxf, memWrite, hp]

theorem dmaByte_stx {n : Node Unit} (hp : p < 2 ^ n.par.addrW) :
    dmaByte .stx p n = .next (writeStdr (n.mem.read p) n) := by
  simp [dmaByte, memRead, hp]

theorem dmaByte_srx {n : Node Unit} (hp : p < 2 ^ n.par.addrW) :
    dmaByte .srx p n = .next { readSrdr n with mem := n.mem.write p n.hw.srdr } := by
  simp [dmaByte, memWrite, hp]

/-! ## The channel's turn -/

/-- A move that is not granted is not taken (R332). -/
theorem step_dmaMove_passes (hx : busAt s k x) (h : ¬ dmaGranted s.par x = true) :
    step (turn s ⟨.dmaMove k, inp⟩) = .next (during s ⟨.dmaMove k, inp⟩) := by
  have hbus : (during s ⟨.dmaMove k, inp⟩).inst? k = some x := hx
  rw [step_turn_of_own rfl, dmaTurn, hbus]
  exact if_neg h

/-- A granted move: the byte, then pointer and count advance (R334 to R336). -/
theorem step_dmaMove_moves {n : Node Unit} (hx : busAt s k x) (hdma : x.dma = .running dir reg p count)
    (h : dmaGranted s.par x = true)
    (hbyte : dmaByte reg p (Node.of (during s ⟨.dmaMove k, inp⟩) x ()) = .next n) (hpar : n.par = s.par := by rfl) :
    step (turn s ⟨.dmaMove k, inp⟩) = .next
      { (during s ⟨.dmaMove k, inp⟩).setInst k
          { n.inst x.role x with dma := .running dir reg ((p + 1) % 2 ^ s.par.addrW) (count - 1) } with
        mem := n.mem } := by
  have hbus : (during s ⟨.dmaMove k, inp⟩).inst? k = some x := hx
  rw [step_turn_of_own rfl, dmaTurn, hbus]
  refine (if_pos h).trans ?_
  rw [dmaMove, nodeOf_dma, hdma]
  simp only [hbyte, andThen_next, hpar]
  rfl

end

/-- Settles O42: the arbiter's condition decides whether the turn passes; a granted move is the byte of its register. -/
theorem dmaByteMoves : Obligations.DmaByteMoves := by
  intro s k inp x dir reg p n hx hdma hp hmem t granted moved
  have hturn (hgrant : dmaGranted s.par x = true ↔ granted) :
      ¬ granted → step (turn s t) = .next (during s t) :=
    fun h => step_dmaMove_passes hx (mt hgrant.mp h)
  cases reg with
  | mtx =>
    have hgrant : dmaGranted s.par x = true ↔ granted := dmaGranted_mtx hdma
    refine ⟨hturn hgrant, fun h => ?_⟩
    have ⟨_, _, _, _, hroom, _⟩ := h
    exact step_dmaMove_moves (inp := inp) hx hdma (hgrant.mpr h) (dmaByte_mtx hp hroom)
  | mrx =>
    have hgrant : dmaGranted s.par x = true ↔ granted := dmaGranted_mrx hdma
    refine ⟨hturn hgrant, fun h => ?_⟩
    obtain ⟨b, rest, hrxf⟩ := List.exists_cons_of_length_pos (Nat.zero_lt_of_lt h.2)
    exact ⟨_, b, rest, hrxf, Memory.read_write_self hmem, fun a ha => Memory.read_write_ne hmem ha,
      step_dmaMove_moves (inp := inp) hx hdma (hgrant.mpr h) (dmaByte_mrx hp hrxf)⟩
  | stx =>
    have hgrant : dmaGranted s.par x = true ↔ granted := dmaGranted_stx hdma
    exact ⟨hturn hgrant, fun h => step_dmaMove_moves (inp := inp) hx hdma (hgrant.mpr h) (dmaByte_stx hp)⟩
  | srx =>
    have hgrant : dmaGranted s.par x = true ↔ granted := dmaGranted_srx hdma
    exact ⟨hturn hgrant, fun h => ⟨_, Memory.read_write_self hmem, fun a ha => Memory.read_write_ne hmem ha,
      step_dmaMove_moves (inp := inp) hx hdma (hgrant.mpr h) (dmaByte_srx hp)⟩⟩

/-! ## Taking a completion -/

section
variable {s : State} {k : BusIndex} {x : Inst} {m : MCtx} {c : SCtx} {en : Inst → Bool} {fm : MNode → Res MNode}
  {fs : DmaReg → SNode → Res SNode} {dir : DmaDir} {reg : DmaReg} {p count : Nat}

/-- A channel with nothing left reports its completion to the active role (R337). -/
theorem dmaokEnabled_of (hirq : x.hw.irqEn = true) (hdma : x.dma = .running dir reg p 0) (howned : x.role ≠ .unowned) :
    dmaokEnabled x = true := by
  cases hrole : x.role with
  | unowned => exact absurd hrole howned
  | master m => simp [dmaokEnabled, hrole, hdma, hirq]
  | slave c => simp [dmaokEnabled, hrole, hdma, hirq]

/-- A running channel may report its failure to the active role at any count (R337). -/
theorem dmaerrEnabled_of (hirq : x.hw.irqEn = true) (hdma : x.dma = .running dir reg p count)
    (howned : x.role ≠ .unowned) : dmaerrEnabled x = true := by
  cases hrole : x.role with
  | unowned => exact absurd hrole howned
  | master m => simp [dmaerrEnabled, hrole, hdma, hirq]
  | slave c => simp [dmaerrEnabled, hrole, hdma, hirq]

/-- A completion is written back to the master's bus, where its handler stores nothing (R337, R384). -/
theorem takeDmaEvent_master {n : MNode} (hx : masterAt s k x m) (hen : en x = true) (hf : fm (Node.of s x m) = .next n)
    (hmem : n.mem = s.mem := by rfl) :
    takeDmaEvent en k s fm fs = .next (s.setInst k (n.inst (.master n.ctx) x)) := by
  rw [takeDmaEvent_eq_next.mpr ⟨x, hx.1, hen, .inl ⟨m, n, hx.2, hf, rfl⟩⟩, putNode_eq, hmem]
  rfl

/-- A completion is written back to the slave's bus, where its handler stores nothing (R337, R384). -/
theorem takeDmaEvent_slave {n : SNode} (hx : slaveAt s k x c) (hen : en x = true) (hdma : x.dma = .running dir reg p count)
    (hf : fs reg (Node.of s x c) = .next n) (hmem : n.mem = s.mem := by rfl) :
    takeDmaEvent en k s fm fs = .next (s.setInst k (n.inst (.slave n.ctx) x)) := by
  rw [takeDmaEvent_eq_next.mpr ⟨x, hx.1, hen, .inr ⟨c, n, dir, reg, p, count, hx.2, hdma, hf, rfl⟩⟩, putNode_eq, hmem]
  rfl

end

/-! ## The master's completions -/

/-- Settles O43: a send goes on behind the stopped channel, a receive completes behind it. -/
theorem masterDmaokResult : Obligations.MasterDmaokResult := by
  intro s k x m dir reg p hx hirq hdma
  have hen : dmaokEnabled x = true := dmaokEnabled_of hirq hdma (by simp [hx.2])
  refine ⟨fun hsend => ?send, fun hreceive hcb hempty hroom => ?receive⟩
  case send => exact takeDmaEvent_master (fm := masterDmaok) hx hen (if_pos hsend)
  case receive =>
    exact takeDmaEvent_master (fm := masterDmaok) hx hen
      ((if_neg hreceive).trans (rxComplete_silent ⟨hempty, hroom⟩ hcb))

/-- A transfer that is not completed but ended with both resets is a force abort with its notification (R231). -/
theorem mFinish_abort {st : Status} {n : MNode} (h : st ≠ .success) :
    mFinish st true true n = andThen (forceAbort st n) mNotify := by
  rw [mFinish, forceAbort, if_neg h]
  cases mEnd true true (setMPhase .completingError n) <;> rfl

/-- Settles O44: the handler is the force abort, told to the callback. -/
theorem masterDmaerrResult : Obligations.MasterDmaerrResult := by
  intro s k x m dir reg p n hx hirq hdma hcb hdepth st
  have hfails : st ≠ .success := by
    simp only [st]
    split <;> simp
  have hen : dmaerrEnabled x = true := dmaerrEnabled_of hirq hdma (by simp [hx.2])
  have haborts := (mFinish_abort (n := Node.of s x m) hfails).trans (congrArg (andThen · mNotify) (forceAbort_of hdepth))
  exact takeDmaEvent_master (fm := masterDmaerr) hx hen (haborts.trans (mCallback_silent hcb))

/-! ## The slave's completions -/

/-- A transaction ended with a callback that issues nothing is what the claims write of it, and stores nothing (R301). -/
theorem sCallback_sEnd {s : State} {x : Inst} {c : SCtx} {ev : CbEvent} (hcb : s.inp.cb = []) :
    ∃ n, sCallback ev (sEnd (Node.of s x c)) = .next n ∧ n.mem = s.mem ∧
      n.inst (.slave n.ctx) x = slaveBoundary ev c x := by
  obtain ⟨-, hinp, hmem, -, htrace, -, -, hcallback, hparam, -⟩ := sEnd_frame (Node.of s x c)
  refine ⟨_, sCallback_of_nothing (.inl (hinp ▸ hcb)), hmem, ?_⟩
  rw [slaveBoundary, ← sEnd_inst (s := s), hcallback, hparam, htrace]
  rfl

/-- Settles O45: a used-up buffer's register says which interrupt takes over; a failure ends the transaction. -/
theorem slaveDmaResult : Obligations.SlaveDmaResult := by
  intro s k x c dir reg p n hx hirq hdma
  refine ⟨fun hzero hreg => ?sent, fun hzero hreg => ?received, fun hcb => ?failed⟩
  case sent =>
    have hen : dmaokEnabled x = true := dmaokEnabled_of hirq (hzero ▸ hdma) (by simp [hx.2])
    exact takeDmaEvent_slave (fs := slaveDmaok) hx hen hdma (if_pos hreg)
  case received =>
    have hen : dmaokEnabled x = true := dmaokEnabled_of hirq (hzero ▸ hdma) (by simp [hx.2])
    exact takeDmaEvent_slave (fs := slaveDmaok) hx hen hdma (if_neg hreg)
  case failed =>
    have hen : dmaerrEnabled x = true := dmaerrEnabled_of hirq hdma (by simp [hx.2])
    obtain ⟨n, hends, hmem, hinst⟩ := sCallback_sEnd (s := s) (x := x) (ev := .errorEvent) hcb
    rw [← hinst]
    exact takeDmaEvent_slave (fs := slaveDmaerr) hx hen hdma hends hmem

end Sys2Proof.Machine
end

section
/-! SUPPORT. The baud-rate computation as a search and formulas (spec 46_baud.md R361 to R364): where the prescaler search
stops, the fields for rate 0 and for every other rate. -/

namespace Sys2Proof.Machine
open Sys2Proof.Claims

/-! ## The prescaler search -/

section
variable {par : Params} {fIn rate p q : Nat}

theorem prescalerFrom_of_fits (fuel : Nat) (hfits : clkTotal fIn rate p ≤ baudLimit par) :
    prescalerFrom par fIn rate (fuel + 1) p = p := if_pos hfits

theorem prescalerFrom_of_exceeds (fuel : Nat) (hexceeds : ¬ clkTotal fIn rate p ≤ baudLimit par) :
    prescalerFrom par fIn rate (fuel + 1) p = prescalerFrom par fIn rate fuel (p + 1) := if_neg hexceeds

/-- The search never goes past the last value it may look at. -/
theorem prescalerFrom_le (fuel : Nat) : prescalerFrom par fIn rate fuel p ≤ p + fuel := by
  induction fuel generalizing p with
  | zero => exact Nat.le_refl p
  | succ fuel ih =>
    by_cases hfits : clkTotal fIn rate p ≤ baudLimit par
    · rw [prescalerFrom_of_fits fuel hfits]
      omega
    · rw [prescalerFrom_of_exceeds fuel hfits]
      have hnext := ih (p := p + 1)
      omega

/-- The search passes over a value only when its total does not fit. -/
theorem clkTotal_exceeds_of_lt_prescalerFrom {fuel : Nat} (hfrom : p ≤ q)
    (hto : q < prescalerFrom par fIn rate fuel p) : baudLimit par < clkTotal fIn rate q := by
  induction fuel generalizing p with
  | zero => exact absurd hto (Nat.not_lt.mpr hfrom)
  | succ fuel ih =>
    by_cases hfits : clkTotal fIn rate p ≤ baudLimit par
    · rw [prescalerFrom_of_fits fuel hfits] at hto
      exact absurd hto (Nat.not_lt.mpr hfrom)
    · rw [prescalerFrom_of_exceeds fuel hfits] at hto
      obtain rfl | hlater := Nat.eq_or_lt_of_le hfrom
      · exact Nat.lt_of_not_le hfits
      · exact ih hlater hto

/-- The search stops at a value that fits, or at the last one. -/
theorem prescalerFrom_fits_or_last (fuel : Nat) :
    clkTotal fIn rate (prescalerFrom par fIn rate fuel p) ≤ baudLimit par ∨
      prescalerFrom par fIn rate fuel p = p + fuel := by
  induction fuel generalizing p with
  | zero => exact .inr rfl
  | succ fuel ih =>
    by_cases hfits : clkTotal fIn rate p ≤ baudLimit par
    · rw [prescalerFrom_of_fits fuel hfits]
      exact .inl hfits
    · rw [prescalerFrom_of_exceeds fuel hfits, Nat.add_comm fuel 1, ← Nat.add_assoc]
      exact ih

end

/-! `p*` is the search over 0 to 7 (R361). -/

theorem prescalerOf_le (par : Params) (fIn rate : Nat) : prescalerOf par fIn rate ≤ 7 :=
  prescalerFrom_le 7

theorem clkTotal_exceeds_of_lt_prescalerOf {par : Params} {fIn rate q : Nat} (hq : q < prescalerOf par fIn rate) :
    baudLimit par < clkTotal fIn rate q :=
  clkTotal_exceeds_of_lt_prescalerFrom q.zero_le hq

theorem prescalerOf_fits_or_last (par : Params) (fIn rate : Nat) :
    clkTotal fIn rate (prescalerOf par fIn rate) ≤ baudLimit par ∨ prescalerOf par fIn rate = 7 :=
  prescalerFrom_fits_or_last 7

/-! ## The fields -/

theorem baudCalc_zero (par : Params) (fIn : Nat) :
    baudCalc par fIn 0 = baudFields par 7 par.clkHiMax par.clkLoMax := rfl

theorem baudCalc_of_ne_zero {rate : Nat} (par : Params) (fIn : Nat) (hrate : rate ≠ 0) :
    baudCalc par fIn rate = baudOfPeriod par (prescalerOf par fIn rate)
      (clkTotal fIn rate (prescalerOf par fIn rate) - par.periodOverhead) := if_neg hrate

/-- Settles O21: rate 0 is the maximum divide-down; for every other rate the search gives the prescaler, and the
half-periods and the delays are the formulas of its total. -/
theorem baudFieldsResult : Obligations.BaudFields := by
  intro par fIn rate
  by_cases hrate : rate = 0
  · subst hrate
    rw [baudCalc_zero]
    exact ⟨Nat.le_refl 7, rfl, rfl, fun _ => ⟨rfl, rfl, rfl⟩, fun hpos => absurd hpos (Nat.lt_irrefl 0)⟩
  · rw [baudCalc_of_ne_zero par fIn hrate]
    refine ⟨prescalerOf_le par fIn rate, rfl, rfl, fun hzero => absurd hzero hrate, fun _ => ⟨?smallest, ?fits, rfl, rfl⟩⟩
    case smallest => exact fun q hq => clkTotal_exceeds_of_lt_prescalerOf hq
    case fits => exact prescalerOf_fits_or_last par fIn rate

end Sys2Proof.Machine
end

section
/-! SUPPORT. Which source an interrupt serves, and what an event comes to whose source is not deliverable (spec
60_exceptions.md R383 to R385; 45_dma.md R337; 40_master_requests.md R164, R168; 43_slave_requests.md R282): the order of
R385 as a list of sources, and the enabling of each event in the model's own terms. -/

namespace Sys2Proof.Machine
open Sys2Proof.Claims

/-! ## The order of service -/

/-- The master sources in the order of R385, each pending and enabled or not, with its event. -/
def masterDue (k : BusIndex) (h : HW) : List (Bool × Instr) :=
  [(h.mef.fifoerr && h.mie.fifoerr, .fifoerr k), (h.mef.arblost && h.mie.arblost, .arblost k),
    (h.mef.nack && h.mie.nack, .nack k), (h.mef.pinlow && h.mie.pinlow, .pinlow k),
    (decide (h.rxw < h.rxf.length) && h.mie.rxrdy, .rxrdy k), (h.txf.isEmpty && h.mie.txrdy, .txrdy k)]

/-- The slave sources in the order of R385, each pending and enabled or not, with its event. -/
def slaveDue (k : BusIndex) (h : HW) : List (Bool × Instr) :=
  [(h.sef.biterr && h.sie.biterr, .biterr k), (h.sef.sfifoerr && h.sie.sfifoerr, .sfifoerr k),
    (h.sef.addrvalid && h.sie.addrvalid, .addrvalid k), (h.sef.rxdata && h.sie.rxdata, .rxdata k),
    (h.sef.txdata && h.sie.txdata, .txdata k), (h.sef.rstart && h.sie.rstart, .rstart k),
    (h.sef.stop && h.sie.stop, .evtStop k)]

section
variable {s : State} {k : BusIndex} {x : Inst} {m : MCtx} {c : SCtx} {inp : Input}

/-- An event that is not due on its bus is not delivered: the turn passes. -/
theorem eventFetch_of_not_due {due : Inst → Option EvtCode} (h : ∀ x, s.inst? k = some x → due x = none) :
    eventFetch k s due = .own (.next s) := by
  obtain e | ⟨x, c, hx, hc, -⟩ := eventFetch_cases k s due
  · exact e
  · rw [h x hx] at hc
    cases hc

/-- The first source that holds, one source at a time. -/
theorem find?_cons_ite {α : Type} (p : α → Bool) (a : α) (as : List α) :
    (a :: as).find? p = if p a then some a else as.find? p := by
  cases h : p a <;> simp [h]

/-- With the vector off no source is found (R383). -/
theorem find?_of_irqOff {α : Type} (due : List (Bool × α)) : due.find? (fun d => false && d.1) = none :=
  List.find?_eq_none.mpr fun _ _ => Bool.false_ne_true

/-- The event the interrupt context serves on a master is the first due source (R384, R385). -/
theorem dispatchFirst_master (hr : x.role = .master m) :
    (dispatchFirst x).map (decodeEvt k) =
      ((masterDue k x.hw).find? (fun d => x.hw.irqEn && d.1)).map (fun d => .ok d.2) := by
  cases hirq : x.hw.irqEn with
  | false =>
    rw [find?_of_irqOff, dispatchFirst, hr]
    simp [deliverableM, hr, hirq, masterFirst, MSources.none]
  | true =>
    simp only [dispatchFirst, hr, deliverableM_of hr hirq, masterFirst, mefOf, MSources.meet, masterDue, find?_cons_ite,
      Bool.true_and, apply_ite (Option.map _), Option.map_some, List.find?_nil, Option.map_none]
    rfl

/-- The event the interrupt context serves on a slave is the first due source (R384, R385). -/
theorem dispatchFirst_slave (hr : x.role = .slave c) :
    (dispatchFirst x).map (decodeEvt k) =
      ((slaveDue k x.hw).find? (fun d => x.hw.irqEn && d.1)).map (fun d => .ok d.2) := by
  cases hirq : x.hw.irqEn with
  | false =>
    rw [find?_of_irqOff, dispatchFirst, hr]
    simp [deliverableS, hr, hirq, slaveFirst, SSources.none]
  | true =>
    simp only [dispatchFirst, hr, deliverableS_of hr hirq, slaveFirst, SSources.meet, slaveDue, find?_cons_ite,
      Bool.true_and, apply_ite (Option.map _), Option.map_some, List.find?_nil, Option.map_none]
    rfl

/-- The interrupt's turn passes while nothing is to be served. -/
theorem step_isr_of_none (hx : busAt s k x) (h : dispatchFirst x = none) :
    step (turn s ⟨.isr k, inp⟩) = .next (during s ⟨.isr k, inp⟩) := by
  refine step_turn_of_own (eventFetch_of_not_due (s := during s _) fun y hy => ?_)
  rwa [← Option.some.inj (hx.symm.trans hy)]

/-- The interrupt's turn executes what the code to be served decodes to; `found` is that event in a list of sources. -/
theorem step_isr_of_found {found : Option (Bool × Instr)} (hx : busAt s k x)
    (h : (dispatchFirst x).map (decodeEvt k) = found.map (fun d => .ok d.2)) :
    step (turn s ⟨.isr k, inp⟩) = match (generalizing := false) found with
      | none => .next (during s ⟨.isr k, inp⟩)
      | some d => exec d.2 (during s ⟨.isr k, inp⟩) := by
  cases found with
  | none => exact step_isr_of_none hx (Option.map_eq_none_iff.mp h)
  | some d =>
    obtain ⟨c, hc, hi⟩ := Option.map_eq_some_iff.mp h
    exact step_turn_of_decode (eventFetch_of_due (s := during s _) hx hc) hi

end

/-- Settles O6: for both roles the source the interrupt serves is the first of the list of R385. -/
theorem interruptPriority : Obligations.InterruptPriority :=
  ⟨fun _ _ _ _ _ ⟨hbus, hrole⟩ => step_isr_of_found hbus (dispatchFirst_master hrole),
    fun _ _ _ _ _ ⟨hbus, hrole⟩ => step_isr_of_found hbus (dispatchFirst_slave hrole)⟩

/-! ## Enabled events -/

/-- Whether an event is due on a bus, as its meaning asks; nothing for a word that is no event. -/
def eventDue (i : Instr) (x : Inst) : Option Bool :=
  match i with
  | .txrdy _ => some (deliverableM x).txrdy
  | .rxrdy _ => some (deliverableM x).rxrdy
  | .nack _ => some (deliverableM x).nack
  | .arblost _ => some (deliverableM x).arblost
  | .fifoerr _ => some (deliverableM x).fifoerr
  | .pinlow _ => some (deliverableM x).pinlow
  | .addrvalid _ => some (deliverableS x).addrvalid
  | .txdata _ => some (deliverableS x).txdata
  | .rxdata _ => some (deliverableS x).rxdata
  | .rstart _ => some (deliverableS x).rstart
  | .evtStop _ => some (deliverableS x).stop
  | .biterr _ => some (deliverableS x).biterr
  | .sfifoerr _ => some (deliverableS x).sfifoerr
  | .dmaok _ => some (dmaokEnabled x)
  | .dmaerr _ => some (dmaerrEnabled x)
  | .wtimeout _ => some (wtimeoutEnabled x)
  | _ => none

section
variable {s : State} {k : BusIndex} {x : Inst} {i : Instr}

/-- The transmit FIFO is empty iff its length is 0 (R40). -/
theorem length_beq_zero {α : Type} (l : List α) : (l.length == 0) = l.isEmpty := by
  cases l <;> rfl

/-- The rules' enabling of an event is the model's (R383, R337, R164, R168, R282). -/
theorem eventEnabled_eq_eventDue (i : Instr) (x : Inst) : eventEnabled i x = eventDue i x := by
  cases i with
  | txrdy | rxrdy | nack | arblost | fifoerr | pinlow =>
    cases hr : x.role with
    | master m =>
      cases hirq : x.hw.irqEn <;>
        simp [eventEnabled, eventDue, deliverableM, hr, hirq, mefOf, MSources.meet, MSources.none, Bool.and_comm,
          length_beq_zero]
    | unowned | slave => simp [eventEnabled, eventDue, deliverableM, hr, MSources.none]
  | addrvalid | txdata | rxdata | rstart | evtStop | biterr | sfifoerr =>
    cases hr : x.role with
    | slave c =>
      cases hirq : x.hw.irqEn <;>
        simp [eventEnabled, eventDue, deliverableS, hr, hirq, SSources.meet, SSources.none, Bool.and_comm]
    | unowned | master => simp [eventEnabled, eventDue, deliverableS, hr, SSources.none]
  | dmaok =>
    cases hr : x.role with
    | unowned => simp [eventEnabled, eventDue, dmaokEnabled, hr]
    | master | slave =>
      rcases hd : x.dma with - | ⟨dir, reg, p, - | count⟩ <;> simp [eventEnabled, eventDue, dmaokEnabled, hr, hd]
  | dmaerr =>
    cases hr : x.role with
    | unowned => simp [eventEnabled, eventDue, dmaerrEnabled, hr]
    | master | slave => cases hd : x.dma <;> simp [eventEnabled, eventDue, dmaerrEnabled, hr, hd]
  | wtimeout =>
    cases hr : x.role with
    | unowned => simp [eventEnabled, eventDue, wtimeoutEnabled, hr]
    | master | slave =>
      rcases hw : x.hostw with - | ⟨- | -, t, - | -⟩ <;> simp [eventEnabled, eventDue, wtimeoutEnabled, hr, hw]
  | _ => rfl

theorem takeMasterEvent_of_not_due {src : MSources → Bool} {f : MNode → Res MNode} (hx : s.inst? k = some x)
    (h : src (deliverableM x) = false) : takeMasterEvent src k s f = .refused .notEnabled := by
  rw [takeMasterEvent, onInst_of hx]
  split
  · simp [h]
  · rfl

theorem takeSlaveEvent_of_not_due {src : SSources → Bool} {f : SNode → Res SNode} (hx : s.inst? k = some x)
    (h : src (deliverableS x) = false) : takeSlaveEvent src k s f = .refused .notEnabled := by
  rw [takeSlaveEvent, onInst_of hx]
  split
  · simp [h]
  · rfl

theorem takeDmaEvent_of_not_enabled {en : Inst → Bool} {fm : MNode → Res MNode} {fs : DmaReg → SNode → Res SNode}
    (hx : s.inst? k = some x) (h : en x = false) : takeDmaEvent en k s fm fs = .refused .notEnabled := by
  rw [takeDmaEvent, onInst_of hx, if_neg (by simp [h])]

theorem execWtimeout_of_not_enabled (hx : s.inst? k = some x) (h : wtimeoutEnabled x = false) :
    execWtimeout k s = .refused .notEnabled := by
  rw [execWtimeout, onInst_of hx, if_neg (by simp [h])]

/-- An event that is not due is refused. -/
theorem exec_of_not_due (hx : busAt s i.bus x) (h : eventDue i x = some false) : exec i s = .refused .notEnabled := by
  cases i with
  | txrdy | rxrdy | nack | arblost | fifoerr | pinlow => exact takeMasterEvent_of_not_due hx (Option.some.inj h)
  | addrvalid | txdata | rxdata | rstart | evtStop | biterr | sfifoerr =>
    exact takeSlaveEvent_of_not_due hx (Option.some.inj h)
  | dmaok | dmaerr => exact takeDmaEvent_of_not_enabled hx (Option.some.inj h)
  | wtimeout => exact execWtimeout_of_not_enabled hx (Option.some.inj h)
  | _ => cases h

end

/-- Settles O27: the rules' enabling of an event is the one its meaning asks for, and refuses without. -/
theorem eventsNeedTheirSource : Obligations.EventsNeedTheirSource := by
  intro s i x hx
  split
  · exact exec_of_not_due hx (eventEnabled_eq_eventDue i x ▸ ‹_›)
  · trivial

end Sys2Proof.Machine
end

section
/-! SUPPORT. The machine while no instance has a role (spec 70_reset_and_hazards.md R441): what a request but an init
comes to without its role (40_master_requests.md R161; 43_slave_requests.md R272), and that no other agent has a step. -/

namespace Sys2Proof.Machine
open Sys2Proof.Claims

/-! ## Requests without a role -/

section
variable {s : State} {k : BusIndex} {i : Instr}

/-- A rule that every instance refuses with `wrongRole` is refused so where the bus exists, else as reserved (R111). -/
theorem onInst_wrongRole {f : Inst → Res State} (h : ∀ x, s.inst? k = some x → f x = .refused .wrongRole) :
    onInst k s f = .refused (if (s.inst? k).isSome then .wrongRole else .reservedRequest) := by
  cases hx : s.inst? k with
  | none => simp [onInst, hx]
  | some x => simp [onInst, hx, h x hx]

/-- No request but an init goes on without a role (R161, R272). -/
theorem exec_request_without_role (hi : isMasterRequest i = true ∨ isSlaveRequest i = true)
    (hrole : ∀ x, s.inst? i.bus = some x → x.role = .unowned) :
    exec i s = .refused (if (s.inst? i.bus).isSome then .wrongRole else .reservedRequest) := by
  cases i with
  | mdeinit | msend | msendb | mrecv | mrecvb | mstatus | mabort | mgetbaud | msetbaud
  | sdeinit | ssend | ssendb | srecv | srecvb | sstatus | sabort | ssettx | ssetrx =>
    exact onInst_wrongRole fun x hx => by rw [hrole x hx]
  | _ => simp [isMasterRequest, isSlaveRequest] at hi

/-- A request that decodes is an init, of opcode 1 or 17, or a request of one of the engines (R112). -/
theorem request_of_decodeReq {p : Params} {h : ReqWord} {o : Ports} (hdec : decodeReq p h o = .ok i) :
    ((reqOpcode h).toNat = 0x01 ∨ (reqOpcode h).toNat = 0x11) ∨ isMasterRequest i = true ∨ isSlaveRequest i = true := by
  obtain ⟨ports, hi⟩ : ∃ ports, encode i = .req h ports := ⟨_, encode_of_decodeReq hdec⟩
  cases i <;> cases hi
  case minit | sinit => exact .inl (by simp)
  case mdeinit | msend | msendb | mrecv | mrecvb | mstatus | mabort | mgetbaud | msetbaud => exact .inr (.inl rfl)
  all_goals exact .inr (.inr rfl)

/-- A request word that does not decode is reserved (R111). -/
theorem decodeReq_error {p : Params} {h : ReqWord} {o : Ports} {e : DecodeError} (hdec : decodeReq p h o = .error e) :
    e = .reservedRequest := by
  simp only [decodeReq] at hdec
  split at hdec
  · cases hdec
    rfl
  · split at hdec <;> cases hdec
    rfl

/-- Without a role every request word but an init's is refused, as `wrongRole` where it decodes and its bus exists, else
as reserved (R111, R161, R272, R441). -/
theorem runWord_req_without_role {h : ReqWord} {o : Ports} (hrole : ∀ x ∈ s.insts, x.role = .unowned)
    (hop : ¬ ((reqOpcode h).toNat = 0x01 ∨ (reqOpcode h).toNat = 0x11)) :
    runWord (.req h o) s = .refused
      (if (decodeReq s.par h o).isOk && (s.inst? (reqInst h)).isSome then .wrongRole else .reservedRequest) := by
  cases hdec : decodeReq s.par h o with
  | error e =>
    obtain rfl := decodeReq_error hdec
    simp [runWord, decode, hdec, decodeStop, Except.isOk, Except.toBool]
  | ok i =>
    have hbus : i.bus = reqInst h := decode_bus (w := .req h o) hdec
    have hrefused := exec_request_without_role ((request_of_decodeReq hdec).resolve_left hop)
      fun x hx => hrole x (List.mem_of_getElem? hx)
    rw [runWord_of_decode (w := .req h o) hdec, hrefused, hbus]
    simp [Except.isOk, Except.toBool]

/-! ## The other agents without a role -/

/-- Without a role nothing is due to the interrupt context, the channel or the timer (R383, R384). -/
theorem nothingDue_of_unowned {x : Inst} (h : x.role = .unowned) :
    dispatchFirst x = none ∧ dmaokEnabled x = false ∧ dmaerrEnabled x = false ∧ wtimeoutEnabled x = false := by
  simp [dispatchFirst, dmaokEnabled, dmaerrEnabled, wtimeoutEnabled, h]

/-- Without a role no host waits to be resumed (R163, R283). -/
theorem resumeStep_of_unowned {x : Inst} (h : x.role = .unowned) : resumeStep x = none := by
  simp [resumeStep, h]

/-- An instance without a role has its master bus side off and its channel stopped (R45, R50). -/
theorem unownedGood_off {x : Inst} (h : unownedGood x = true) : x.hw.men = false ∧ x.dma = .stopped := by
  simp only [unownedGood, Bool.and_eq_true, beq_iff_eq, Bool.not_eq_true'] at h
  obtain ⟨⟨⟨⟨⟨⟨hmen, -⟩, -⟩, -⟩, -⟩, hdma⟩, -⟩ := h
  exact ⟨hmen, hdma⟩

/-- An agent's own step that its bus does not enable is not taken. -/
theorem ownStep_off {f : Inst → Option Inst} (h : ∀ x, s.inst? k = some x → f x = none) : ownStep k s f = s := by
  obtain e | ⟨x, y, hx, hy, -⟩ := ownStep_cases k s f
  · exact e
  · rw [h x hx] at hy
    cases hy

/-- With the master bus side off its turn passes (R200, R205). -/
theorem busFetch_off (h : ∀ x, s.inst? k = some x → x.hw.men = false) : busFetch k s = .own (.next s) := by
  obtain e | ⟨x, hx, hen, -⟩ | ⟨x, w, rest, hx, -, hen, -⟩ := busFetch_cases k s
  · exact e
  · simp [receiveEnabled, h x hx] at hen
  · simp [commandEnabled, h x hx] at hen

/-- With the channel stopped its turn passes (R332). -/
theorem dmaTurn_off (h : ∀ x, s.inst? k = some x → x.dma = .stopped) : dmaTurn k s = .next s := by
  cases hx : s.inst? k with
  | none => simp [dmaTurn, hx]
  | some x => simp [dmaTurn, hx, dmaGranted, h x hx]

/-- While no instance has a role the turn of every agent but the host with a request and the application passes. -/
theorem fetch_without_role {a : Agent} (hs : ∀ x ∈ s.insts, unownedGood x = true ∧ x.role = .unowned)
    (hreq : ∀ h o, a ≠ .request h o) (happ : ∀ addr b, a ≠ .app addr b) : fetch a s = .own (.next s) := by
  have hgood {k : BusIndex} (x : Inst) (hx : s.inst? k = some x) := hs x (List.mem_of_getElem? hx)
  have hdue {k : BusIndex} (x : Inst) (hx : s.inst? k = some x) := nothingDue_of_unowned (hgood x hx).2
  cases a with
  | request h o => exact absurd rfl (hreq h o)
  | app addr b => exact absurd rfl (happ addr b)
  | resume => rw [fetch, ownStep_off fun x hx => resumeStep_of_unowned (hgood x hx).2]
  | buss => rw [fetch, ownStep_off fun x hx => bussStep_off (.inl fun c => by simp [(hgood x hx).2])]
  | busm => exact busFetch_off fun x hx => (unownedGood_off (hgood x hx).1).1
  | dmaMove => rw [fetch, dmaTurn_off fun x hx => (unownedGood_off (hgood x hx).1).2]
  | isr => exact eventFetch_of_not_due fun x hx => (hdue x hx).1
  | dmaOk => exact eventFetch_of_not_due fun x hx => by simp [hdue x hx]
  | dmaErr => exact eventFetch_of_not_due fun x hx => by simp [hdue x hx]
  | timer => exact eventFetch_of_not_due fun x hx => by simp [hdue x hx]

/-- Such a turn changes no instance. -/
theorem step_without_role {t : Turn} (hs : ∀ x ∈ s.insts, unownedGood x = true ∧ x.role = .unowned)
    (hreq : ∀ h o, t.agent ≠ .request h o) (happ : ∀ addr b, t.agent ≠ .app addr b) :
    ∃ s', step (turn s t) = .next s' ∧ s'.insts = s.insts :=
  ⟨during s t, step_turn_of_own (fetch_without_role (s := during s t) hs hreq happ), rfl⟩

end

/-- Settles O8: a request is refused, the application's store stays in memory or faults, and every other turn passes. -/
theorem resetOnlyInits : Obligations.ResetOnlyInits := by
  rintro s ⟨agent, inp⟩ hs hinit
  cases agent with
  | request h o =>
    refine (step_turn_of_word (w := .req h o) rfl).trans
      (runWord_req_without_role (s := during s _) (fun x hx => (hs x hx).2) fun hop => ?_)
    exact hinit (reqInst h) ⟨h, o, rfl, rfl, hop⟩
  | app a b =>
    dsimp only
    rw [step_turn_of_own rfl]
    by_cases ha : a < 2 ^ s.par.addrW
    · simp [appStore, memWrite, during, ha]
    · simp [appStore, memWrite, during, ha, Nat.not_lt.mp ha]
  | resume | busm | buss | isr | dmaMove | dmaOk | dmaErr | timer => exact step_without_role hs nofun nofun

end Sys2Proof.Machine
end

section
/-! SUPPORT. Which step changes a role, an address, an addressing mode or a listening flag (spec 10_state.md R20, R21, R30;
20_memory.md R98; 40_master_requests.md R168; 60_exceptions.md R389): the engines' routines keep the addressing registers
of their context, so what is left are the inits, the deinits and a second expiry. -/

namespace Sys2Proof.Machine
open Sys2Proof.Claims

/-! ## Registers of a context that a routine keeps -/

/-- Wherever a rule goes on from a view, it leaves the registers `key` of the context. -/
def Node.Keeps {C κ : Type} (key : C → κ) (n : Node C) (r : Res (Node C)) : Prop :=
  ∀ n', r = .next n' → key n'.ctx = key n.ctx

section
variable {C κ α : Type} {key : C → κ} {n m : Node C} {r r' : Res (Node C)}

/-- (Where the view behind the update is found only later in a proof, the equation is given as `by rfl`, which waits.) -/
theorem Node.Keeps.next (h : key m.ctx = key n.ctx) : n.Keeps key (.next m) := by
  rintro _ ⟨⟩
  exact h

theorem Node.Keeps.refused {e : Refusal} : n.Keeps key (.refused e) := fun _ h => by cases h

/-- A rule that works behind an update. -/
theorem Node.Keeps.behind (h : key m.ctx = key n.ctx) (hr : m.Keeps key r) : n.Keeps key r :=
  fun l hl => (hr l hl).trans h

theorem Node.Keeps.andThen {f : Node C → Res (Node C)} (hr : n.Keeps key r) (hf : ∀ m : Node C, m.Keeps key (f m)) :
    n.Keeps key (andThen r f) := by
  intro l hl
  obtain ⟨m, hm, hl⟩ := andThen_eq_next.mp hl
  exact (hf m l hl).trans (hr m hm)

/-- A rule behind a value that is read. -/
theorem Node.Keeps.reading {v : Res α} {f : α → Res (Node C)} (hf : ∀ a, v = .next a → n.Keeps key (f a)) :
    n.Keeps key (Machine.andThen v f) := by
  intro l hl
  obtain ⟨a, ha, hl⟩ := andThen_eq_next.mp hl
  exact hf a ha l hl

theorem Node.Keeps.ite {c : Prop} [Decidable c] (h : n.Keeps key r) (h' : n.Keeps key r') :
    n.Keeps key (if c then r else r') := by
  split
  · exact h
  · exact h'

theorem pushTxf_keeps {w : CmdWord} : n.Keeps key (pushTxf w n) := by
  intro m hm
  obtain ⟨-, rfl⟩ := pushTxf_eq_next.mp hm
  rfl

/-- The answer or the wait behind a request is no part of the context. -/
theorem completeOrWait_keeps {o : Origin} {e : Engine} {t : Option Nat} :
    n.Keeps key (.next (completeOrWait o e t n)) :=
  .next (congrArg key completeOrWait_ctx)

end

/-! ## The master engine -/

/-- The addressing registers of a Master Context (R21). -/
def MCtx.addressing (m : MCtx) : BitVec 10 × Bool := (m.addr, m.is10bit)

section
variable {n : MNode}

/-- The rule keeps the addressing registers. -/
abbrev KeepsAddress (n : MNode) (r : Res MNode) : Prop := n.Keeps MCtx.addressing r

theorem offer_keepsAddress {c : Cmd} {d : Byte} : KeepsAddress n (offer c d n) := by
  intro m hm
  obtain ⟨-, -, rfl⟩ | ⟨-, -, rfl⟩ := offer_eq_next hm <;> rfl

theorem drainQueue_keepsAddress : KeepsAddress n (drainQueue n) := by
  refine .andThen (fun m hm => ?_) fun m => .ite (.next rfl) (.next rfl)
  obtain ⟨wr, rd, txf, rfl⟩ := drainLoop_frame hm
  rfl

theorem addressPhase_keepsAddress {dir : Dir} : KeepsAddress n (addressPhase dir n) :=
  .andThen (.ite (.andThen offer_keepsAddress fun _ => .next rfl) (.next rfl)) fun _ =>
    .ite offer_keepsAddress (.andThen offer_keepsAddress fun _ => .andThen offer_keepsAddress fun _ =>
      .ite offer_keepsAddress (.next rfl))

theorem fillLoop_keepsAddress {fuel : Nat} : KeepsAddress n (fillLoop fuel n) := by
  induction fuel generalizing n with
  | zero => exact .next rfl
  | succ fuel ih =>
    exact .ite (.andThen (.reading fun _ _ => .reading fun _ _ => .andThen pushTxf_keeps fun _ => .next rfl) fun _ => ih)
      (.next rfl)

theorem drainOne_keepsAddress : KeepsAddress n (drainOne n) := by
  refine .reading fun r hr => .reading fun a _ => .reading fun mem _ => .next ?_
  obtain ⟨rest, -, he⟩ := popRxf_eq_next.mp hr
  rw [he]
  rfl

theorem lateLoop_keepsAddress {fuel : Nat} : KeepsAddress n (lateLoop fuel n) := by
  induction fuel generalizing n with
  | zero => exact .next rfl
  | succ fuel ih => exact .andThen drainOne_keepsAddress fun _ => ih

theorem enterTransferring_addressing : (enterTransferring n).ctx.addressing = n.ctx.addressing := by
  unfold enterTransferring
  split <;> rfl

theorem sendStart_keepsAddress {buf len : Nat} : KeepsAddress n (sendStart buf len n) := by
  refine .andThen addressPhase_keepsAddress fun m => .behind enterTransferring_addressing ?_
  dsimp only
  split
  · exact .andThen (.ite fillLoop_keepsAddress (.next rfl)) fun _ => .next rfl
  · exact .next rfl

theorem recvStart_keepsAddress {buf len : Nat} : KeepsAddress n (recvStart buf len n) := by
  refine Node.Keeps.andThen (.behind (by rfl) addressPhase_keepsAddress) fun _ =>
    .andThen offer_keepsAddress fun m => .behind enterTransferring_addressing ?_
  dsimp only
  split
  · exact .next rfl
  · exact .next rfl

theorem mTransfer_keepsAddress {start : Nat → Nat → MNode → Res MNode}
    (hstart : ∀ buf len m, KeepsAddress m (start buf len m)) {dir : Dir} {o : Origin} {buf len : Nat} {stop : Bool}
    {t : Option Nat} : KeepsAddress n (mTransfer start dir o buf len stop t n) := by
  refine .ite .refused ?_
  split
  · exact .next rfl
  · exact .refused
  · exact .andThen (.behind (by rfl) (hstart _ _ _)) fun _ => completeOrWait_keeps

theorem mSend_keepsAddress {o : Origin} {buf len : Nat} {stop : Bool} {t : Option Nat} :
    KeepsAddress n (mSend o buf len stop t n) :=
  mTransfer_keepsAddress fun _ _ _ => sendStart_keepsAddress

theorem mRecv_keepsAddress {o : Origin} {buf len : Nat} {stop : Bool} {t : Option Nat} :
    KeepsAddress n (mRecv o buf len stop t n) :=
  mTransfer_keepsAddress fun _ _ _ => recvStart_keepsAddress

theorem mSetBaud_keepsAddress {o : Origin} {mode : BitVec 3} {rate rateHS : BitVec 32} :
    KeepsAddress n (mSetBaud o mode rate rateHS n) := by
  refine .ite .refused ?_
  split
  · exact .refused
  · exact .ite (.next rfl) (.next rfl)

theorem mCallbackRequest_keepsAddress {q : CbReq} : KeepsAddress n (mCallbackRequest q n) := by
  cases q with
  | msend => exact mSend_keepsAddress
  | mrecv => exact mRecv_keepsAddress
  | mstatus | mgetbaud => exact .ite .refused (.next rfl)
  | msetbaud => exact mSetBaud_keepsAddress
  | ssettx | ssetrx | sstatus => exact .refused

theorem mCallbackRun_keepsAddress {qs : List CbReq} : KeepsAddress n (mCallbackRun qs n) := by
  induction qs generalizing n with
  | nil => exact .next rfl
  | cons q qs ih => exact .andThen mCallbackRequest_keepsAddress fun _ => ih

theorem mCallback_keepsAddress {ev : CbEvent} : KeepsAddress n (mCallback ev n) := by
  unfold mCallback
  split
  · exact .next rfl
  · exact .behind (by rfl) mCallbackRun_keepsAddress

theorem mEnd_keepsAddress {stop reset : Bool} : KeepsAddress n (mEnd stop reset n) := by
  refine .behind (m := mEndQuiet reset n) (by rw [mEndQuiet_eq]; rfl) ?_
  exact .andThen (.ite (.andThen offer_keepsAddress fun _ => .next rfl) (.next rfl)) fun _ => .next rfl

theorem mNotify_keepsAddress : KeepsAddress n (mNotify n) := .behind (by rfl) mCallback_keepsAddress

theorem mFinish_keepsAddress {st : Status} {stop reset : Bool} : KeepsAddress n (mFinish st stop reset n) :=
  .andThen (.behind (by rfl) mEnd_keepsAddress) fun _ => .behind (by rfl) mNotify_keepsAddress

theorem rxComplete_keepsAddress : KeepsAddress n (rxComplete n) :=
  .andThen (.behind (by rfl) mEnd_keepsAddress) fun _ => .ite (.next rfl) (.behind (by rfl) mCallback_keepsAddress)

theorem errEnd_keepsAddress {st : Status} {clear : MLatched → MLatched} : KeepsAddress n (errEnd st clear n) :=
  .andThen (.behind (by rfl) mEnd_keepsAddress) fun _ =>
    .andThen (.behind (by rfl) mNotify_keepsAddress) fun _ => .next rfl

theorem forceAbort_keepsAddress {st : Status} : KeepsAddress n (forceAbort st n) :=
  .andThen (.behind (by rfl) mEnd_keepsAddress) fun _ => .next rfl

theorem mAbort_keepsAddress : KeepsAddress n (mAbort n) :=
  .ite .refused (.ite (.next rfl) (.ite (.next rfl) (.andThen forceAbort_keepsAddress fun _ => .next rfl)))

theorem handleTxrdy_keepsAddress : KeepsAddress n (handleTxrdy n) :=
  .andThen drainQueue_keepsAddress fun _ => .ite (.next rfl) (.ite (.next rfl) (.ite (.next rfl)
    (.ite mFinish_keepsAddress fillLoop_keepsAddress)))

theorem handleRxrdy_keepsAddress : KeepsAddress n (handleRxrdy n) := by
  refine Node.Keeps.andThen (by rw [rxLoop_eq_lateLoop]; exact lateLoop_keepsAddress) fun m =>
    .ite rxComplete_keepsAddress (.next ?_)
  unfold shrinkWatermark
  split <;> rfl

theorem handleNack_keepsAddress : KeepsAddress n (handleNack n) := .ite (.next rfl) errEnd_keepsAddress

theorem masterDmaok_keepsAddress : KeepsAddress n (masterDmaok n) :=
  .ite (.next rfl) (.behind (by rfl) rxComplete_keepsAddress)

/-- The first expiry of a wait is no re-initialisation (R164 to R167). -/
theorem masterTimeoutFirst_keepsAddress {t : Nat} : KeepsAddress n (masterTimeoutFirst t n) :=
  .ite (.andThen forceAbort_keepsAddress fun _ => .next rfl)
    (.ite (.andThen (.behind (by rfl) lateLoop_keepsAddress) fun _ =>
      .andThen (.behind (by rfl) rxComplete_keepsAddress) fun _ => .next rfl) (.next rfl))

end

/-! ## The slave engine -/

/-- The addressing registers and the listening flag of a Slave Context (R30). -/
def SCtx.addressing (c : SCtx) : BitVec 10 × Bool × Bool := (c.addr, c.is10bit, c.listening)

section
variable {n : SNode}

/-- The rule keeps the addressing registers and the listening flag. -/
abbrev KeepsListening (n : SNode) (r : Res SNode) : Prop := n.Keeps SCtx.addressing r

theorem sTransfer_keepsListening {dir : Dir} {buf len : Nat} {t : Option Nat} :
    KeepsListening n (sTransfer dir buf len t n) := by
  refine .ite .refused ?_
  split
  · exact .next rfl
  · exact .refused
  · exact .behind (by rfl) completeOrWait_keeps

theorem sSetTx_keepsListening {o : Origin} {buf len : Nat} : KeepsListening n (sSetTx o buf len n) :=
  .ite .refused (.ite .refused (.next rfl))

theorem sSetRx_keepsListening {o : Origin} {buf len : Nat} : KeepsListening n (sSetRx o buf len n) :=
  .ite .refused (.ite .refused (.next rfl))

theorem sAbort_keepsListening : KeepsListening n (sAbort n) :=
  .ite .refused (.ite (.next rfl) (.ite (.next rfl) (.next rfl)))

theorem sCallbackRequest_keepsListening {q : CbReq} : KeepsListening n (sCallbackRequest q n) := by
  cases q with
  | ssettx => exact sSetTx_keepsListening
  | ssetrx => exact sSetRx_keepsListening
  | sstatus => exact .ite .refused (.next rfl)
  | msend | mrecv | mstatus | mgetbaud | msetbaud => exact .refused

theorem sCallbackRun_keepsListening {qs : List CbReq} : KeepsListening n (sCallbackRun qs n) := by
  induction qs generalizing n with
  | nil => exact .next rfl
  | cons q qs ih => exact .andThen sCallbackRequest_keepsListening fun _ => ih

theorem sCallback_keepsListening {ev : CbEvent} : KeepsListening n (sCallback ev n) := by
  unfold sCallback
  split
  · exact .next rfl
  · exact .behind (by rfl) sCallbackRun_keepsListening

theorem sEnd_addressing : (sEnd n).ctx.addressing = n.ctx.addressing := by
  obtain ⟨-, -, -, -, -, -, -, -, -, haddr, h10, hlistening⟩ := sEnd_frame n
  rw [SCtx.addressing, haddr, h10, hlistening, SCtx.addressing]

/-- The end of a transaction and its callback (R301, R302). -/
theorem sCallback_sEnd_keepsListening {ev : CbEvent} : KeepsListening n (sCallback ev (sEnd n)) :=
  .behind sEnd_addressing sCallback_keepsListening

theorem sArm_keepsListening {dir : DmaDir} {reg : DmaReg} {buf : Option Nat} {count : Nat} :
    KeepsListening n (sArm dir reg buf count n) :=
  .reading fun _ _ => .next rfl

theorem handleAddrvalid_keepsListening : KeepsListening n (handleAddrvalid n) :=
  .ite (.andThen (.behind (by rfl) sCallback_keepsListening) fun _ => .ite sArm_keepsListening (.next rfl))
    (.andThen (.behind (by rfl) sCallback_keepsListening) fun _ => .ite sArm_keepsListening (.next rfl))

theorem handleTxdata_keepsListening : KeepsListening n (handleTxdata n) :=
  .andThen (.ite sCallback_keepsListening (.next rfl)) fun _ =>
    .ite (.next rfl) (.reading fun _ _ => .reading fun _ _ => .next rfl)

theorem handleRxdata_keepsListening : KeepsListening n (handleRxdata n) :=
  .andThen (.ite sCallback_keepsListening (.next rfl)) fun _ =>
    .ite (.next rfl) (.reading fun _ _ => .reading fun _ _ => .next rfl)

theorem handleRstart_keepsListening : KeepsListening n (handleRstart n) :=
  .ite (.next rfl) (.behind (by rfl) sCallback_sEnd_keepsListening)

theorem handleStop_keepsListening : KeepsListening n (handleStop n) := .behind (by rfl) sCallback_sEnd_keepsListening

theorem slaveError_keepsListening : KeepsListening n (slaveError n) := .behind (by rfl) sCallback_sEnd_keepsListening

theorem handleBiterr_keepsListening : KeepsListening n (handleBiterr n) := .behind (by rfl) slaveError_keepsListening

theorem handleSfifoerr_keepsListening : KeepsListening n (handleSfifoerr n) :=
  .behind (by rfl) slaveError_keepsListening

theorem slaveDmaerr_keepsListening {reg : DmaReg} : KeepsListening n (slaveDmaerr reg n) :=
  .behind (by rfl) sCallback_sEnd_keepsListening

theorem slaveDmaok_keepsListening {reg : DmaReg} : KeepsListening n (slaveDmaok reg n) := .ite (.next rfl) (.next rfl)

end

/-! ## Roles -/

/-- The role is kept, and with it the addressing registers of its context. -/
inductive RoleKept : Role → Role → Prop
  | unowned : RoleKept .unowned .unowned
  | master {m m' : MCtx} (h : m'.addressing = m.addressing) : RoleKept (.master m) (.master m')
  | slave {c c' : SCtx} (h : c'.addressing = c.addressing) : RoleKept (.slave c) (.slave c')

theorem RoleKept.refl {r : Role} : RoleKept r r := by
  cases r with
  | unowned => exact .unowned
  | master => exact .master rfl
  | slave => exact .slave rfl

/-- The instruction that gives or takes a role, or re-initialises a master whose wait `w` expires. -/
inductive RoleChange (w : Option Wait) : Instr → Role → Role → Prop
  | minit {k : BusIndex} {cfg : CfgPort} {m : MCtx} : RoleChange w (.minit k cfg) .unowned (.master m)
  | sinit {k : BusIndex} {cfg : CfgPort} {c : SCtx} : RoleChange w (.sinit k cfg) .unowned (.slave c)
  | mdeinit {k : BusIndex} {m : MCtx} : RoleChange w (.mdeinit k) (.master m) .unowned
  | sdeinit {k : BusIndex} {c : SCtx} : RoleChange w (.sdeinit k) (.slave c) .unowned
  | expiry {k : BusIndex} {m m' : MCtx} {t : Wait} (hwait : w = some t) (hstage : t.stage = .second)
      (haddr : m'.addr = m.initCfg.addr) (h10 : m'.is10bit = m.initCfg.is10bit) :
      RoleChange w (.wtimeout k) (.master m) (.master m')

/-- Bus `k` keeps its role from the first state to the second. -/
def RoleKeptAt (k : BusIndex) (s s' : State) : Prop :=
  ∀ x y, s.inst? k = some x → s'.inst? k = some y → RoleKept x.role y.role

/-- Wherever a rule goes on, bus `k` keeps its role. -/
def KeepsRole (k : BusIndex) (s : State) (r : Res State) : Prop := ∀ s', r = .next s' → RoleKeptAt k s s'

section
variable {s s' : State} {k : BusIndex} {x y : Inst}

theorem RoleKeptAt.of_eq (h : s'.inst? k = s.inst? k) : RoleKeptAt k s s' := by
  intro x y hx hy
  obtain rfl : x = y := Option.some.inj (hx.symm.trans (h ▸ hy))
  exact .refl

theorem RoleKeptAt.setInst (hx : s.inst? k = some x) (h : RoleKept x.role y.role) : RoleKeptAt k s (s.setInst k y) := by
  intro x' y' hx' hy'
  obtain rfl : x = x' := Option.some.inj (hx.symm.trans hx')
  obtain rfl : y = y' := Option.some.inj ((inst?_setInst_self hx).symm.trans hy')
  exact h

theorem RoleKeptAt.putNode {C : Type} {n : Node C} {role : Role} (hx : s.inst? k = some x) (h : RoleKept x.role role) :
    RoleKeptAt k s (s.putNode k x role n) := RoleKeptAt.setInst (y := n.inst role x) hx h

theorem onMaster_keepsRole {f : MNode → Res MNode} (hf : ∀ n, KeepsAddress n (f n)) :
    KeepsRole k s (onMaster k s f) := by
  intro s' h
  obtain ⟨x, m, n, hx, hrole, hn, rfl⟩ := onMaster_eq_next.mp h
  exact .putNode hx (hrole ▸ .master (hf _ n hn))

theorem onSlave_keepsRole {f : SNode → Res SNode} (hf : ∀ n, KeepsListening n (f n)) :
    KeepsRole k s (onSlave k s f) := by
  intro s' h
  obtain ⟨x, c, n, hx, hrole, hn, rfl⟩ := onSlave_eq_next.mp h
  exact .putNode hx (hrole ▸ .slave (hf _ n hn))

theorem takeMasterEvent_keepsRole {src : MSources → Bool} {f : MNode → Res MNode} (hf : ∀ n, KeepsAddress n (f n)) :
    KeepsRole k s (takeMasterEvent src k s f) := by
  intro s' h
  obtain ⟨x, m, n, hx, hrole, -, hn, rfl⟩ := takeMasterEvent_eq_next.mp h
  exact .putNode hx (hrole ▸ .master (hf _ n hn))

theorem takeSlaveEvent_keepsRole {src : SSources → Bool} {f : SNode → Res SNode} (hf : ∀ n, KeepsListening n (f n)) :
    KeepsRole k s (takeSlaveEvent src k s f) := by
  intro s' h
  obtain ⟨x, c, n, hx, hrole, -, hn, rfl⟩ := takeSlaveEvent_eq_next.mp h
  exact .putNode hx (hrole ▸ .slave (hf _ n hn))

theorem takeDmaEvent_keepsRole {en : Inst → Bool} {fm : MNode → Res MNode} {fs : DmaReg → SNode → Res SNode}
    (hm : ∀ n, KeepsAddress n (fm n)) (hs : ∀ reg n, KeepsListening n (fs reg n)) :
    KeepsRole k s (takeDmaEvent en k s fm fs) := by
  intro s' h
  obtain ⟨x, hx, -, ⟨m, n, hrole, hn, rfl⟩ | ⟨c, n, dir, reg, ptr, count, hrole, -, hn, rfl⟩⟩ :=
    takeDmaEvent_eq_next.mp h
  · exact .putNode hx (hrole ▸ .master (hm _ n hn))
  · exact .putNode hx (hrole ▸ .slave (hs reg _ n hn))

theorem onBus_keepsRole {f : Inst → Res Inst} (hf : ∀ x y, f x = .next y → y.role = x.role) :
    KeepsRole k s (onBus k s f) := by
  intro s' h
  obtain ⟨x, y, hx, hy, rfl⟩ := onBus_eq_next.mp h
  exact .setInst hx (hf x y hy ▸ .refl)

theorem transmitByte_role {b : Byte} {e : Bool} {ans : TxAnswer} (h : transmitByte b e ans x = .next y) :
    y.role = x.role := by
  obtain ⟨tail, mef, busOpen, rfl⟩ := transmitByte_frame h
  rfl

theorem startSymbol_role {fresh repeated : WireSym} : (startSymbol fresh repeated x).role = x.role := rfl

/-! ## Every instruction -/

/-- What an instruction leaves of the role of its bus, on which the host waits as `x` says. -/
def RoleStep (i : Instr) (x y : Inst) : Prop := RoleKept x.role y.role ∨ RoleChange x.hostw i x.role y.role

theorem execMinit_role {cfg : CfgPort} (h : execMinit k cfg s = .next s') (hx : s.inst? k = some x)
    (hy : s'.inst? k = some y) : RoleStep (.minit k cfg) x y := by
  rw [execMinit, onInst_of hx] at h
  split at h
  · rename_i hrole
    split at h
    · cases h
    · rw [RoleStep, hrole]
      split at h
      · cases h
        cases (inst?_setInst_self hx).symm.trans hy
        exact .inr .minit
      · cases h
        cases (inst?_setInst_self hx).symm.trans hy
        exact .inl (hrole ▸ .refl)
  · cases h

theorem execSinit_role {cfg : CfgPort} (h : execSinit k cfg s = .next s') (hx : s.inst? k = some x)
    (hy : s'.inst? k = some y) : RoleStep (.sinit k cfg) x y := by
  rw [execSinit, onInst_of hx] at h
  split at h
  · rename_i hrole
    split at h
    · cases h
    · split at h
      · cases h
        cases (inst?_setInst_self hx).symm.trans hy
        rw [RoleStep, hrole]
        exact .inr .sinit
      · cases h
  · cases h

theorem execMdeinit_role (h : execMdeinit k s = .next s') (hx : s.inst? k = some x) (hy : s'.inst? k = some y) :
    RoleStep (.mdeinit k) x y := by
  rw [execMdeinit, onInst_of hx] at h
  split at h
  · rename_i hrole
    split at h
    · cases h
    · split at h
      · cases h
      · cases h
        cases (inst?_setInst_self hx).symm.trans hy
        rw [RoleStep, hrole]
        exact .inr .mdeinit
  · cases h

theorem execSdeinit_role (h : execSdeinit k s = .next s') (hx : s.inst? k = some x) (hy : s'.inst? k = some y) :
    RoleStep (.sdeinit k) x y := by
  rw [execSdeinit, onInst_of hx] at h
  split at h
  · rename_i hrole
    split at h
    · cases h
    · split at h
      · cases h
      · cases h
        cases (inst?_setInst_self hx).symm.trans hy
        rw [RoleStep, hrole]
        exact .inr .sdeinit
  · cases h

theorem execWtimeout_role (h : execWtimeout k s = .next s') (hx : s.inst? k = some x) (hy : s'.inst? k = some y) :
    RoleStep (.wtimeout k) x y := by
  rw [execWtimeout, onInst_of hx] at h
  split at h
  · split at h
    · rename_i m w hrole hwait
      obtain ⟨n, hn, h⟩ := andThen_eq_next.mp h
      cases h
      cases (inst?_putNode hx).symm.trans hy
      rw [RoleStep, hrole, hwait]
      unfold masterTimeout at hn
      split at hn
      · exact .inl (.master (masterTimeoutFirst_keepsAddress n hn))
      · cases hn
        exact .inr (.expiry rfl ‹_› rfl rfl)
    · rename_i c w hrole hwait
      cases h
      cases (inst?_putNode hx).symm.trans hy
      rw [RoleStep, hrole]
      exact .inl (.slave rfl)
    · cases h
  · cases h

theorem exec_role {i : Instr} (h : exec i s = .next s') (hx : s.inst? i.bus = some x) (hy : s'.inst? i.bus = some y) :
    RoleStep i x y := by
  have hkept (hr : KeepsRole i.bus s (exec i s)) : RoleStep i x y := .inl (hr s' h x y hx hy)
  cases i with
  | minit => exact execMinit_role h hx hy
  | mdeinit => exact execMdeinit_role h hx hy
  | sinit => exact execSinit_role h hx hy
  | sdeinit => exact execSdeinit_role h hx hy
  | wtimeout => exact execWtimeout_role h hx hy
  | msend | msendb => exact hkept (onMaster_keepsRole fun _ => mSend_keepsAddress)
  | mrecv | mrecvb => exact hkept (onMaster_keepsRole fun _ => mRecv_keepsAddress)
  | mstatus | mgetbaud => exact hkept (onMaster_keepsRole fun _ => .ite .refused (.next rfl))
  | mabort => exact hkept (onMaster_keepsRole fun _ => mAbort_keepsAddress)
  | msetbaud => exact hkept (onMaster_keepsRole fun _ => mSetBaud_keepsAddress)
  | ssend | ssendb | srecv | srecvb => exact hkept (onSlave_keepsRole fun _ => sTransfer_keepsListening)
  | sstatus => exact hkept (onSlave_keepsRole fun _ => .ite .refused (.next rfl))
  | sabort => exact hkept (onSlave_keepsRole fun _ => sAbort_keepsListening)
  | ssettx => exact hkept (onSlave_keepsRole fun _ => sSetTx_keepsListening)
  | ssetrx => exact hkept (onSlave_keepsRole fun _ => sSetRx_keepsListening)
  | txd =>
    refine hkept (onBus_keepsRole fun x y hxy => ?_)
    split at hxy
    · exact transmitByte_role hxy
    · cases hxy
      rfl
  | rxn | stop =>
    refine hkept (onBus_keepsRole fun x y hxy => ?_)
    split at hxy
    · cases hxy
      rfl
    · cases hxy
      rfl
  | start | startn | starths =>
    exact hkept (onBus_keepsRole fun x y hxy => (transmitByte_role hxy).trans startSymbol_role)
  | txrdy => exact hkept (takeMasterEvent_keepsRole fun _ => handleTxrdy_keepsAddress)
  | rxrdy => exact hkept (takeMasterEvent_keepsRole fun _ => handleRxrdy_keepsAddress)
  | nack => exact hkept (takeMasterEvent_keepsRole fun _ => handleNack_keepsAddress)
  | arblost | fifoerr | pinlow => exact hkept (takeMasterEvent_keepsRole fun _ => errEnd_keepsAddress)
  | addrvalid => exact hkept (takeSlaveEvent_keepsRole fun _ => handleAddrvalid_keepsListening)
  | txdata => exact hkept (takeSlaveEvent_keepsRole fun _ => handleTxdata_keepsListening)
  | rxdata => exact hkept (takeSlaveEvent_keepsRole fun _ => handleRxdata_keepsListening)
  | rstart => exact hkept (takeSlaveEvent_keepsRole fun _ => handleRstart_keepsListening)
  | evtStop => exact hkept (takeSlaveEvent_keepsRole fun _ => handleStop_keepsListening)
  | biterr => exact hkept (takeSlaveEvent_keepsRole fun _ => handleBiterr_keepsListening)
  | sfifoerr => exact hkept (takeSlaveEvent_keepsRole fun _ => handleSfifoerr_keepsListening)
  | dmaok =>
    exact hkept (takeDmaEvent_keepsRole (fun _ => masterDmaok_keepsAddress) fun _ _ => slaveDmaok_keepsListening)
  | dmaerr =>
    exact hkept (takeDmaEvent_keepsRole (fun _ => mFinish_keepsAddress) fun _ _ => slaveDmaerr_keepsListening)

/-! ## Every turn -/

theorem receiveStep_role {ans : RxAnswer} : (receiveStep ans x).role = x.role := by
  cases ans <;> rfl

theorem resumeStep_role (h : resumeStep x = some y) : RoleKept x.role y.role := by
  unfold resumeStep at h
  split at h
  · rename_i hrole _
    split at h
    · cases h
      rw [hrole]
      exact .master rfl
    · cases h
  · rename_i hrole _
    split at h
    · cases h
      rw [hrole]
      exact .slave rfl
    · cases h
  · cases h

theorem bussStep_role {act : BussAct} (h : bussStep act x = some y) : y.role = x.role := by
  unfold bussStep at h
  split at h
  · split at h
    · cases h
      rfl
    · cases h
  · cases h

theorem ownStep_roleKeptAt {f : Inst → Option Inst} (hf : ∀ x y, f x = some y → RoleKept x.role y.role) :
    RoleKeptAt k s (ownStep k s f) := by
  obtain e | ⟨x, y, hx, hy, e⟩ := ownStep_cases k s f
  · rw [e]
    exact .of_eq rfl
  · rw [e]
    exact .setInst hx (hf x y hy)

theorem dmaTurn_keepsRole : KeepsRole k s (dmaTurn k s) := by
  intro s' h
  unfold dmaTurn at h
  split at h
  · cases h
    exact .of_eq rfl
  · split at h
    · obtain ⟨n, -, h⟩ := andThen_eq_next.mp h
      cases h
      exact .putNode ‹_› .refl
    · cases h
      exact .of_eq rfl

/-- A step of an agent's own keeps every role. -/
theorem fetch_own_role {a : Agent} (h : fetch a s = .own (.next s')) (hk : agentBus a = some k) : RoleKeptAt k s s' := by
  have hevent {due : Inst → Option EvtCode} {j : BusIndex} (h : eventFetch j s due = .own (.next s')) :
      RoleKeptAt k s s' := by
    obtain e | ⟨x, c, -, -, e⟩ := eventFetch_cases j s due <;> rw [e] at h <;> cases h
    exact .of_eq rfl
  cases a <;> cases hk
  case request => cases h
  case busm =>
    change busFetch k s = _ at h
    obtain e | ⟨x, hx, -, e⟩ | ⟨x, c, rest, -, -, -, -, e⟩ := busFetch_cases k s <;> rw [e] at h <;> cases h
    · exact .of_eq rfl
    · exact .setInst hx (receiveStep_role ▸ .refl)
  case isr | dmaOk | dmaErr | timer => exact hevent h
  case resume =>
    cases h
    exact ownStep_roleKeptAt fun _ _ => resumeStep_role
  case buss =>
    cases h
    exact ownStep_roleKeptAt fun _ _ hxy => bussStep_role hxy ▸ .refl
  case dmaMove => exact dmaTurn_keepsRole s' (Fetched.own.inj h)

/-- A turn that comes to a word leaves the roles and the hosts' records as they are. -/
theorem fetch_word_role {a : Agent} {w : PortWord} (h : fetch a s = .word w s') (hx : s.inst? k = some x) :
    ∃ y, s'.inst? k = some y ∧ y.role = x.role ∧ y.hostw = x.hostw := by
  have hevent {due : Inst → Option EvtCode} {j : BusIndex} (h : eventFetch j s due = .word w s') :
      ∃ y, s'.inst? k = some y ∧ y.role = x.role ∧ y.hostw = x.hostw := by
    obtain e | ⟨x, c, -, -, e⟩ := eventFetch_cases j s due <;> rw [e] at h <;> cases h
    exact ⟨_, hx, rfl, rfl⟩
  cases a with
  | request =>
    cases h
    exact ⟨x, hx, rfl, rfl⟩
  | busm j =>
    change busFetch j s = _ at h
    obtain e | ⟨x, -, -, e⟩ | ⟨x', c, rest, hx', -, -, -, e⟩ := busFetch_cases j s <;> rw [e] at h <;> cases h
    by_cases hjk : k = j
    · subst hjk
      obtain rfl : x = x' := Option.some.inj (hx.symm.trans hx')
      exact ⟨_, inst?_setInst_self hx, rfl, rfl⟩
    · exact ⟨x, (inst?_setInst_ne hjk).trans hx, rfl, rfl⟩
  | isr | dmaOk | dmaErr | timer => exact hevent h
  | resume | buss | dmaMove | app => cases h

/-- The interrupt context delivers no timeout: that is the timer's (R385). -/
theorem dispatchFirst_ne_timeout : dispatchFirst x ≠ some 0x31#8 := by
  unfold dispatchFirst masterFirst slaveFirst
  grind

/-- The agent whose turn comes to a request's word is the host with that request; to the timeout's, the timer. -/
theorem fetch_word_agent {a : Agent} {w : PortWord} (h : fetch a s = .word w s') :
    (∀ hd o, w = .req hd o → a = .request hd o) ∧ (∀ k, w = .evt k 0x31#8 → a = .timer k) := by
  have hevent {due : Inst → Option EvtCode} {j : BusIndex} (h : eventFetch j s due = .word w s') :
      ∃ x c, due x = some c ∧ w = .evt j c := by
    obtain e | ⟨x, c, -, hc, e⟩ := eventFetch_cases j s due <;> rw [e] at h <;> cases h
    exact ⟨x, c, hc, rfl⟩
  cases a with
  | request =>
    cases h
    exact ⟨by rintro _ _ ⟨⟩; rfl, nofun⟩
  | busm j =>
    change busFetch j s = _ at h
    obtain e | ⟨x, -, -, e⟩ | ⟨x', c, rest, hx', -, -, -, e⟩ := busFetch_cases j s <;> rw [e] at h <;> cases h
    exact ⟨nofun, nofun⟩
  | isr =>
    obtain ⟨x, c, hc, rfl⟩ := hevent h
    exact ⟨nofun, by rintro _ ⟨⟩; exact absurd hc dispatchFirst_ne_timeout⟩
  | dmaOk | dmaErr =>
    obtain ⟨x, c, hc, rfl⟩ := hevent h
    refine ⟨nofun, ?_⟩
    rintro _ ⟨⟩
    split at hc <;> cases hc
  | timer =>
    obtain ⟨x, c, hc, rfl⟩ := hevent h
    exact ⟨nofun, by rintro _ ⟨⟩; rfl⟩
  | resume | buss | dmaMove | app => cases h

end

/-- The agent that changes a role, or re-initialises a master whose wait `w` expires. -/
inductive TurnChange (w : Option Wait) (t : Turn) (j : BusIndex) : Role → Role → Prop
  | minit {m : MCtx} (h : asks t j 0x01 0x01) : TurnChange w t j .unowned (.master m)
  | sinit {c : SCtx} (h : asks t j 0x11 0x11) : TurnChange w t j .unowned (.slave c)
  | mdeinit {m : MCtx} (h : asks t j 0x02 0x02) : TurnChange w t j (.master m) .unowned
  | sdeinit {c : SCtx} (h : asks t j 0x12 0x12) : TurnChange w t j (.slave c) .unowned
  | expiry {m m' : MCtx} {v : Wait} (h : t.agent = .timer j) (hwait : w = some v) (hstage : v.stage = .second)
      (haddr : m'.addr = m.initCfg.addr) (h10 : m'.is10bit = m.initCfg.is10bit) :
      TurnChange w t j (.master m) (.master m')

section
variable {s s₁ s' : State} {t : Turn} {x y : Inst} {w : PortWord}

/-- A request word that is fetched and decodes to an instruction of opcode `op` is the host's with that opcode. -/
theorem asks_of_fetch {i : Instr} {k : BusIndex} {op : BitVec 8} {o : Ports}
    (h : fetch t.agent s = .word w s₁) (hi : decode s₁.par w = .ok i) (henc : encode i = .req (reqHeader op k) o) :
    asks t k op.toNat op.toNat := by
  cases w with
  | req hd o' =>
    have hword := (encode_of_decodeReq hi).symm.trans henc
    obtain rfl : hd = reqHeader op k := (PortWord.req.inj hword).1
    exact ⟨_, o', (fetch_word_agent h).1 _ _ rfl, reqInst_reqHeader op k, .inl (congrArg _ (reqOpcode_reqHeader op k))⟩
  | cmd => 
    obtain e | ⟨-, -, e⟩ := encode_of_decodeCmd hi <;> cases e.symm.trans henc
  | evt => cases (encode_of_decodeEvt hi).symm.trans henc

theorem roleChange_turn {i : Instr} {v : Option Wait} {r r' : Role} (h : fetch t.agent s = .word w s₁)
    (hi : decode s₁.par w = .ok i) (hc : RoleChange v i r r') : TurnChange v t i.bus r r' := by
  cases hc with
  | minit => exact .minit (asks_of_fetch h hi rfl)
  | sinit => exact .sinit (asks_of_fetch h hi rfl)
  | mdeinit => exact .mdeinit (asks_of_fetch h hi rfl)
  | sdeinit => exact .sdeinit (asks_of_fetch h hi rfl)
  | @expiry k m m' t' hwait hstage haddr h10 =>
    refine .expiry ((fetch_word_agent h).2 k ?_) hwait hstage haddr h10
    cases w with
    | req => cases encode_of_decodeReq hi
    | cmd => obtain e | ⟨-, -, e⟩ := encode_of_decodeCmd hi <;> cases e
    | evt => exact (encode_of_decodeEvt hi).symm

/-- A turn keeps the role of a bus, or is one of the five that change it. -/
theorem step_turn_role {j : BusIndex} (h : step (turn s t) = .next s') (hx : busAt s j x) (hy : busAt s' j y) :
    RoleKept x.role y.role ∨ TurnChange x.hostw t j x.role y.role := by
  by_cases hj : agentBus t.agent = some j
  · cases hf : fetch t.agent (during s t) with
    | own r =>
      obtain rfl : r = .next s' := (step_turn_of_own hf).symm.trans h
      exact .inl (fetch_own_role hf hj x y hx hy)
    | word w s₁ =>
      rw [step_turn_of_word hf] at h
      obtain ⟨i, hi, h⟩ := runWord_eq_next h
      obtain ⟨-, hbus⟩ := fetch_word (b := true) hf
      obtain rfl : i.bus = j := (decode_bus hi).trans (Option.some.inj (hbus.symm.trans hj))
      obtain ⟨x₁, hx₁, hrole, hwait⟩ := fetch_word_role (s := during s t) hf hx
      rw [← hrole, ← hwait]
      exact (exec_role h hx₁ hy).imp_right (roleChange_turn hf hi)
  · obtain rfl : x = y := Option.some.inj (hx.symm.trans (otherBusesUntouched s t s' j hj h ▸ hy))
    exact .inl .refl

end

/-- Settles O13: what a turn does to a role is to keep it with its addressing registers, or one of the five changes. -/
theorem rolesChangeByInitAndDeinit : Obligations.RolesChangeByInitAndDeinit := by
  intro s t s' j x y h hx hy
  obtain hkept | hchange := step_turn_role h hx hy
  · generalize x.role = r, y.role = r' at hkept ⊢
    cases hkept with
    | unowned => trivial
    | master h => exact .inl (Prod.mk.inj h)
    | slave h => simpa [SCtx.addressing] using h
  · generalize x.role = r, y.role = r' at hchange ⊢
    cases hchange with
    | minit h | sinit h | mdeinit h | sdeinit h => exact h
    | expiry hagent hwait hstage haddr h10 => exact .inr ⟨hagent, _, hwait, hstage, haddr, h10⟩

end Sys2Proof.Machine
end

section
/-! SUPPORT. The state after reset; the answers of the master's requests but the transfers accepted (spec 10_state.md R50;
40_master_requests.md R150 to R152, R157 to R162; 43_slave_requests.md R271, R272, R277; 46_baud.md R365, R367); that the
traces of a bus only grow (10_state.md R43, R44, R52). -/

namespace Sys2Proof.Machine
open Sys2Proof.Claims

/-- Settles O7: the one instance of the state after reset is the instance after reset, and its registers evaluate. -/
theorem resetRegisters : Obligations.ResetRegisters := by
  refine ⟨rfl, fun x hx => ?_⟩
  obtain rfl : x = Inst.reset := List.eq_of_mem_replicate hx
  decide

/-- Settles O51: the invariant evaluates on the state after reset. -/
theorem resetIsGood : Obligations.ResetIsGood := by
  unfold Obligations.ResetIsGood
  decide

/-! ## Traces -/

/-- The frame of a bus that is there before and behind the work. -/
theorem State.Frame.inst {b : Bool} {bus : Option BusIndex} {s s' : State} {j : BusIndex} {x y : Inst}
    (h : s.Frame b bus s') (hx : s.inst? j = some x) (hy : s'.inst? j = some y) : x.Frame y := by
  by_cases hj : bus = some j
  · obtain e | ⟨k, x', y', hk, hx', hframe, e⟩ := h.insts
    · obtain rfl : x = y := Option.some.inj (hx.symm.trans (by rwa [State.inst?, e] at hy))
      exact .refl
    · obtain rfl : j = k := Option.some.inj (hj.symm.trans hk)
      obtain rfl : x = x' := Option.some.inj (hx.symm.trans hx')
      rw [State.inst?, e] at hy
      obtain rfl : y' = y := Option.some.inj ((inst?_setInst_self hx).symm.trans hy)
      exact hframe
  · obtain rfl : x = y := Option.some.inj (hx.symm.trans (h.inst?_ne hj ▸ hy))
    exact .refl

/-- Settles O58: the frame of a step keeps what the four traces of every bus hold. -/
theorem tracesOnlyGrow : Obligations.TracesOnlyGrow := by
  intro s s' j x y h hx hy
  have hframe : x.Frame y := by
    obtain rfl | ⟨t, rest, -, hframe⟩ := step_frame h
    · obtain rfl : x = y := Option.some.inj (hx.symm.trans hy)
      exact .refl
    · exact hframe.inst (s := beginTurn t rest s) hx hy
  exact ⟨hframe.wire, hframe.stx, hframe.cbTrace, hframe.replies⟩

/-! ## How a master's request answers -/

section
variable {s : State} {k : BusIndex} {x : Inst} {m : MCtx} {n : MNode} {f : MNode → Res MNode} {buf len : Nat}
  {stop : Bool} {timeout : Option Nat} {dir : Dir} {st : Status} {p : Params}

/-- A master request that goes on and stores nothing writes its bus and nothing else. -/
theorem onMaster_next (hx : masterAt s k x m) (hf : f (Node.of s x m) = .next n) (hmem : n.mem = s.mem := by rfl) :
    onMaster k s f = .next (s.setInst k (n.inst (.master n.ctx) x)) := by
  rw [onMaster_of hx.1 hx.2, hf, andThen_next, putNode_eq, hmem]
  rfl

theorem onMaster_refused {r : Refusal} (hx : masterAt s k x m) (hf : f (Node.of s x m) = .refused r) :
    onMaster k s f = .refused r := by
  rw [onMaster_of hx.1 hx.2, hf, andThen_refused]

/-- A master request that answers at once changes nothing else. -/
theorem onMaster_answered (hx : masterAt s k x m)
    (hf : f (Node.of s x m) = .next (reply .foreground st (Node.of s x m))) :
    onMaster k s f = .next (s.setInst k (answered x st)) := by
  rw [onMaster_next hx hf, reply_inst, reply_ctx, nodeOf_ctx, nodeOf_inst hx.2]

/-! ## The role and the host -/

theorem onMaster_wrongRole (hx : busAt s k x) (hrole : ∀ m, x.role ≠ .master m) :
    onMaster k s f = .refused .wrongRole := by
  rw [onMaster, onInst_of hx]
  split
  · exact absurd ‹_› (hrole _)
  · rfl

theorem onSlave_wrongRole {f : SNode → Res SNode} (hx : busAt s k x) (hrole : ∀ c, x.role ≠ .slave c) :
    onSlave k s f = .refused .wrongRole := by
  rw [onSlave, onInst_of hx]
  split
  · exact absurd ‹_› (hrole _)
  · rfl

/-- The foreground is turned away while the host is suspended, whatever the request (R161, R272). -/
theorem suspended_foreground {C : Type} {exempt : Bool} {n : Node C} (h : n.hostw.isSome = true) :
    suspended .foreground exempt n = true := by
  cases exempt <;> simp [suspended, h]

/-- A rule whose first test is the host-suspended test. -/
theorem refused_of_suspended {C : Type} {exempt : Bool} {n : Node C} {r : Res (Node C)}
    (h : n.hostw.isSome = true) :
    (if suspended .foreground exempt n then .refused .hostSuspended else r) = .refused .hostSuspended :=
  if_pos (suspended_foreground h)

theorem exec_masterRequest_wrongRole {i : Instr} (hi : isMasterRequest i = true) (hx : busAt s i.bus x)
    (hrole : ∀ m, x.role ≠ .master m) : exec i s = .refused .wrongRole := by
  cases i with
  | mdeinit =>
    refine (onInst_of hx).trans ?_
    split
    · exact absurd ‹_› (hrole _)
    · rfl
  | msend | msendb | mrecv | mrecvb | mstatus | mabort | mgetbaud | msetbaud => exact onMaster_wrongRole hx hrole
  | _ => cases hi

theorem exec_slaveRequest_wrongRole {i : Instr} (hi : isSlaveRequest i = true) (hx : busAt s i.bus x)
    (hrole : ∀ c, x.role ≠ .slave c) : exec i s = .refused .wrongRole := by
  cases i with
  | sdeinit =>
    refine (onInst_of hx).trans ?_
    split
    · exact absurd ‹_› (hrole _)
    · rfl
  | ssend | ssendb | srecv | srecvb | sstatus | sabort | ssettx | ssetrx => exact onSlave_wrongRole hx hrole
  | _ => cases hi

theorem exec_masterRequest_suspended {i : Instr} (hi : isMasterRequest i = true) (hx : masterAt s i.bus x m)
    (hwaits : x.hostw.isSome = true) : exec i s = .refused .hostSuspended := by
  cases i with
  | mdeinit =>
    refine (onInst_of hx.1).trans ?_
    simp only [hx.2, if_pos hwaits]
  | msend | msendb | mrecv | mrecvb | mstatus | mabort | mgetbaud | msetbaud =>
    exact onMaster_refused hx (refused_of_suspended hwaits)
  | _ => cases hi

theorem exec_slaveRequest_suspended {i : Instr} {c : SCtx} (hi : isSlaveRequest i = true) (hx : slaveAt s i.bus x c)
    (hwaits : x.hostw.isSome = true) : exec i s = .refused .hostSuspended := by
  cases i with
  | sdeinit =>
    refine (onInst_of hx.1).trans ?_
    simp only [hx.2, if_pos hwaits]
  | ssend | ssendb | srecv | srecvb | sstatus | sabort | ssettx | ssetrx =>
    exact onSlave_refused hx (refused_of_suspended hwaits)
  | _ => cases hi

end

/-- Settles O12: the role is the first test of every request, the host the second. -/
theorem requestsNeedTheirRole : Obligations.RequestsNeedTheirRole := by
  intro s i x hx
  refine ⟨fun hi hrole => exec_masterRequest_wrongRole hi hx hrole,
    fun hi hrole => exec_slaveRequest_wrongRole hi hx hrole, fun hi hrole hwaits => ?_, fun hi hrole hwaits => ?_⟩
  · obtain ⟨m, hrole⟩ := hrole
    exact exec_masterRequest_suspended hi ⟨hx, hrole⟩ hwaits
  · obtain ⟨c, hrole⟩ := hrole
    exact exec_slaveRequest_suspended hi ⟨hx, hrole⟩ hwaits

/-! ## Inits and deinits -/

/-- Settles O9: the role and the configuration are tested; behind the reset the idle bus decides. -/
theorem minitResult : Obligations.MinitResult := by
  intro s k x hx
  refine ⟨fun cfg howned => (onInst_of hx).trans ?owned, fun cfg hfree hbad => (onInst_of hx).trans ?malformed,
    fun c hfree haddr hidles => ⟨freeSlots s.freeCtr, s.freeCtr + Config.swqCap, (onInst_of hx).trans ?initialised⟩,
    fun c hfree haddr hbusy => (onInst_of hx).trans ?busBusy⟩
  case owned =>
    cases hrole : x.role with
    | unowned => exact absurd hrole howned
    | master m => rfl
    | slave c => rfl
  case malformed => simp only [hfree, checkCfg_of_malformed hbad]
  case initialised =>
    simp only [hfree, checkCfg_portOf haddr, hidles, if_true]
    rfl
  case busBusy =>
    simp only [hfree, checkCfg_portOf haddr, hbusy, Bool.false_eq_true, if_false]
    rfl

/-- Settles O11: with a host that does not wait the transfer in flight decides. -/
theorem deinitResult : Obligations.DeinitResult := by
  refine ⟨fun s k x m hx hfree => (onInst_of hx.1).trans ?master, fun s k x c hx hfree => (onInst_of hx.1).trans ?slave⟩
  case master =>
    simp only [hx.2, hfree, Option.isSome_none, Bool.false_eq_true, if_false]
    cases m.idle <;> rfl
  case slave =>
    simp only [hx.2, hfree, Option.isSome_none, Bool.false_eq_true, if_false]
    rfl

/-! ## Transfers turned away -/

section
variable {s : State} {k : BusIndex} {x : Inst} {m : MCtx} {n : MNode} {buf len : Nat} {stop : Bool}
  {timeout : Option Nat} {dir : Dir} {st : Status} {p : Params}

theorem exec_msendOf :
    exec (msendOf k buf len stop timeout) s = onMaster k s (mSend .foreground buf len stop timeout) := by
  cases timeout <;> rfl

theorem exec_mrecvOf :
    exec (mrecvOf k buf len stop timeout) s = onMaster k s (mRecv .foreground buf len stop timeout) := by
  cases timeout <;> rfl

theorem mVerdict_busy (h : m.idle = false) : mVerdict p m dir buf len = .answer .busy := by
  simp [mVerdict, h]

theorem mVerdict_unsupported (hidle : m.idle = true) (h : m.mode = .ultraFast) :
    mVerdict p m .receive buf len = .answer .unsupported := by
  simp [mVerdict, hidle, h]

theorem mVerdict_badLength (hidle : m.idle = true) (hmode : dir = .receive → m.mode ≠ .ultraFast)
    (h : len = 0 ∨ (dir = .receive ∧ 256 < len) ∨ 2 ^ p.addrW < buf + len) :
    mVerdict p m dir buf len = .refuse .badLength := by
  have hmode : ¬ (dir = .receive ∧ m.mode = .ultraFast) := not_and.mpr hmode
  simp [mVerdict, hidle, hmode, bufferWraps, Config.rxMax, h]

variable {start : Nat → Nat → MNode → Res MNode} {o : Origin}

theorem mTransfer_answer (hfree : n.hostw = none) (h : mVerdict n.par n.ctx dir buf len = .answer st) :
    mTransfer start dir o buf len stop timeout n = .next (reply o st n) := by
  simp [mTransfer, suspended_false hfree, h]

theorem mTransfer_refuse {r : Refusal} (hfree : n.hostw = none) (h : mVerdict n.par n.ctx dir buf len = .refuse r) :
    mTransfer start dir o buf len stop timeout n = .refused r := by
  simp [mTransfer, suspended_false hfree, h]

end

/-- Settles O14: the verdict decides, in the order of its tests. -/
theorem masterTransfersTurnedAway : Obligations.MasterTransfersTurnedAway := by
  intro s k x m buf len stop timeout hx hfree
  simp only [exec_msendOf, exec_mrecvOf]
  refine ⟨fun hbusy => ⟨?busySend, ?busyReceive⟩, fun hidle hmode => ?unsupported, fun hidle hlen => ?sendLength,
    fun hidle hmode hlen => ?receiveLength⟩
  case busySend | busyReceive => exact onMaster_answered hx (mTransfer_answer hfree (mVerdict_busy hbusy))
  case unsupported => exact onMaster_answered hx (mTransfer_answer hfree (mVerdict_unsupported hidle hmode))
  case sendLength =>
    exact onMaster_refused hx (mTransfer_refuse hfree (mVerdict_badLength hidle nofun (hlen.imp_right .inr)))
  case receiveLength =>
    have hlen : len = 0 ∨ (Dir.receive = .receive ∧ 256 < len) ∨ 2 ^ s.par.addrW < buf + len := by simpa using hlen
    exact onMaster_refused hx (mTransfer_refuse hfree (mVerdict_badLength hidle (fun _ => hmode) hlen))

/-! ## Queries, abort and baud rate -/

/-- The count of a status query is the running channel's in DMA mode, else the sum of the counters (R157, R277). -/
theorem bytesRemaining_eq {p : Params} {t : TransferType} {d : DmaCh} {txSize rxSize : Nat} :
    bytesRemaining p t d txSize rxSize = (match t, d with
      | .dma, .running _ _ _ c => c
      | _, _ => txSize + rxSize) % 2 ^ p.sizeW := by
  cases t <;> cases d <;> rfl

/-- An answer with data changes the record of answers only. -/
theorem replies_inst {C : Type} {role : Role} {a : C} {r : List Reply} (h : x.role = role) :
    ({ Node.of s x a with replies := r }).inst role x = { x with replies := r } := by
  subst h
  rfl

/-- Settles O17: a status query answers, and changes nothing else. -/
theorem statusQueries : Obligations.StatusQueries := by
  refine ⟨fun s k x m hx hfree => ?master, fun s k x c hx hfree => ?slave⟩
  case master =>
    have hfree : suspended .foreground true (Node.of s x m) = false := suspended_false hfree
    refine (onMaster_next (f := mStatus .foreground) hx (if_neg (by simp [hfree]))).trans ?_
    rw [bytesRemaining_eq]
    exact congrArg (fun y => Host.Outcome.next (s.setInst k y)) (replies_inst hx.2)
  case slave =>
    have hfree : suspended .foreground true (Node.of s x c) = false := suspended_false hfree
    refine (onSlave_next (f := sStatus .foreground) hx (if_neg (by simp [hfree]))).trans ?_
    rw [bytesRemaining_eq]
    exact congrArg (fun y => Host.Outcome.next (s.setInst k y)) (replies_inst hx.2)

/-- Settles O18: on an idle engine and on a receive the answer is all; else the force abort precedes it. -/
theorem mabortResult : Obligations.MabortResult := by
  intro s k x m hx hfree hdepth
  have hhost : suspended .foreground false (Node.of s x m) = false := suspended_false hfree
  by_cases hidle : m.idle = true
  · rw [if_pos hidle]
    exact onMaster_answered hx (by simp [mAbort, hhost, hidle])
  rw [if_neg hidle]
  by_cases hdir : m.dir = .receive
  · rw [if_pos hdir]
    exact onMaster_answered hx (by simp [mAbort, hhost, hidle, hdir])
  · rw [if_neg hdir]
    have haborts : mAbort (Node.of s x m) =
        andThen (forceAbort .aborted (Node.of s x m)) fun n => .next (reply .foreground .success n) := by
      simp [mAbort, hhost, hidle, hdir]
    exact onMaster_next hx (haborts.trans (congrArg (andThen · _) (forceAbort_of hdepth)))

/-- The rate on its port is the one the fields produce, where that is a 32-bit number (R367). -/
theorem rateOnPort_of_lt {p : Params} {fIn : Nat} {b : Baud}
    (hdivisor : 0 < 2 ^ b.prescale * (b.clkLo + b.clkHi + p.periodOverhead))
    (hrate : fIn / (2 ^ b.prescale * (b.clkLo + b.clkHi + p.periodOverhead)) < 2 ^ 32) :
    rateOnPort p fIn b = BitVec.ofNat 32 (fIn / (2 ^ b.prescale * (b.clkLo + b.clkHi + p.periodOverhead))) :=
  if_pos ⟨hdivisor, hrate⟩

/-- Settles O19: the answer holds the rates on their ports. -/
theorem mgetbaudResult : Obligations.MgetbaudResult := by
  intro s k x m hx hfree divisor stated
  have hhost : suspended .foreground true (Node.of s x m) = false := suspended_false hfree
  refine ⟨rateOnPort s.par x.hw.fIn x.hw.baud,
    if m.mode = .highSpeed then rateOnPort s.par x.hw.fIn x.hw.hs else 0#32, rateOnPort_of_lt, fun hmode => ?_,
    fun hmode => if_neg hmode, ?_⟩
  · rw [if_pos hmode]
    exact rateOnPort_of_lt
  · refine (onMaster_next (f := mGetBaud .foreground) hx (if_neg (by simp [hhost]))).trans ?_
    exact congrArg (fun y => Host.Outcome.next (s.setInst k y)) (replies_inst hx.2)

/-- Settles O20: the mode is tested, then the transfer; the fields are those of the new rates. -/
theorem msetbaudResult : Obligations.MsetbaudResult := by
  intro s k x m rate rateHS hx hfree
  have hhost : suspended .foreground false (Node.of s x m) = false := suspended_false hfree
  refine ⟨fun mode hmode => onMaster_refused hx ?_, fun mode => ?_⟩
  · simp [mSetBaud, hhost, modeOfBits_none.mpr hmode]
  · have hmode : modeOfBits (modeBits mode) = some mode := modeOfBits_modeCode mode
    by_cases hidle : m.idle = true
    · rw [if_pos hidle]
      have hsets : mSetBaud .foreground (modeBits mode) rate rateHS (Node.of s x m) =
          .next (reply .foreground .success (mBaudSet mode rate rateHS (Node.of s x m))) := by
        simp [mSetBaud, hhost, hmode, hidle]
      exact onMaster_next hx hsets
    · rw [if_neg hidle]
      exact onMaster_answered hx (by simp [mSetBaud, hhost, hmode, hidle])

end Sys2Proof.Machine
end

section
/-! SUPPORT. What an accepted transfer puts into the transmit FIFO, the software queue, the registers and the context (spec
40_master_requests.md R152 to R156; 41_master_commands.md R190, R194, R195; 42_master_events.md R233). -/

namespace Sys2Proof.Machine
open Sys2Proof.Claims

/-! ## The words of the address phase -/

/-- A command word in eleven bits: the code above, the data below (R114). -/
theorem cmdWord_eq_or (c : Cmd) (d : Byte) : cmdWord c d = c.code.setWidth 11 <<< 8 ||| d.setWidth 11 := by
  have hd := d.isLt
  have hc := c.code.isLt
  apply BitVec.eq_of_toNat_eq
  rw [toNat_cmdWord, BitVec.toNat_or, BitVec.toNat_shiftLeft, BitVec.toNat_setWidth, BitVec.toNat_setWidth,
    Nat.mod_eq_of_lt (by omega : c.code.toNat < 2 ^ 11), Nat.mod_eq_of_lt (by omega : d.toNat < 2 ^ 11),
    Nat.mod_eq_of_lt (by rw [Nat.shiftLeft_eq]; omega), ← Nat.shiftLeft_add_eq_or_of_lt hd, Nat.shiftLeft_eq]

theorem cmdWord_startCmd (mode : Mode) (d : Byte) : cmdWord (startCmd mode) d = startWord mode (d.setWidth 11) := by
  rw [cmdWord_eq_or]
  cases mode <;> rfl

theorem setWidth_addrByte7 (a : BitVec 10) (rw : Bool) : (addrByte7 a rw).setWidth 11 =
    ((a.setWidth 11 &&& 0x7F#11) <<< 1) ||| (if rw then 1#11 else 0#11) := by
  refine BitVec.eq_of_getLsbD_eq fun i hi => ?_
  cases rw <;> interval_cases i <;> simp [addrByte7, rwByte]

theorem setWidth_addrByte10a (a : BitVec 10) (rw : Bool) : (addrByte10a a rw).setWidth 11 =
    (if rw then 0xF1#11 else 0xF0#11) ||| ((a.setWidth 11 >>> 8) <<< 1) := by
  refine BitVec.eq_of_getLsbD_eq fun i hi => ?_
  cases rw <;> interval_cases i <;> simp [addrByte10a, rwByte]

theorem setWidth_addrByte10b (a : BitVec 10) : (addrByte10b a).setWidth 11 = a.setWidth 11 &&& 0xFF#11 := by
  refine BitVec.eq_of_getLsbD_eq fun i hi => ?_
  interval_cases i <;> simp [addrByte10b]

theorem cmdWord_masterCode (code : BitVec 3) :
    cmdWord .startn (masterCodeByte code) = 0x508#11 ||| code.setWidth 11 := by
  rw [cmdWord_eq_or]
  refine BitVec.eq_of_getLsbD_eq fun i hi => ?_
  interval_cases i <;> simp [masterCodeByte, Cmd.code]

/-- A count of up to 256 fits the data of `RXN` (R117). -/
theorem cmdWord_rxn {len : Nat} (h : len ≤ 256) : cmdWord .rxn (rxnData len) = rxnWord len := by
  have hlen : len - 1 < 2 ^ 8 := by omega
  have hdata : (rxnData len).setWidth 11 = BitVec.ofNat 11 (len - 1) := by
    apply BitVec.eq_of_toNat_eq
    rw [rxnData, BitVec.toNat_setWidth, BitVec.toNat_ofNat, BitVec.toNat_ofNat, Nat.mod_eq_of_lt hlen]
  rw [cmdWord_eq_or, hdata]
  rfl

/-! ## Offers in their order -/

/-- How many words an offer to this view puts into the FIFO directly: its room behind an empty queue, else none (R190). -/
def Node.direct (n : MNode) : Nat := if swqEntries n.ctx = [] then n.par.txDepth - n.hw.txf.length else 0

/-- The words `ws` are offered: as many as go directly stand behind the FIFO, the others behind the queue. -/
def Node.Offered (ws : List CmdWord) (n n' : MNode) : Prop :=
  ∃ m', withQueue n.ctx m' (swqEntries n.ctx ++ ws.drop n.direct) ∧
    n' = n.drainedTo m' (n.hw.txf ++ ws.take n.direct)

/-- The outcome `r` is a view behind the offer of `ws`. -/
def Node.OffersWords (ws : List CmdWord) (n : MNode) (r : Res MNode) : Prop := ∃ n', r = .next n' ∧ n.Offered ws n'

section
variable {n n' : MNode} {ws vs : List CmdWord} {r : Res MNode} {f : MNode → Res MNode} {dir : Dir} {m' : MCtx}

/-- What goes directly behind an offer is what is left of it. -/
theorem Node.Offered.direct (h : n.Offered ws n') : n'.direct = n.direct - ws.length := by
  obtain ⟨m', hqueue, rfl⟩ := h
  unfold Node.direct at hqueue ⊢
  by_cases hempty : swqEntries n.ctx = []
  · rw [if_pos hempty, hempty, List.nil_append] at hqueue
    simp only [if_pos hempty, Node.drainedTo, hqueue.2, List.drop_eq_nil_iff, List.length_append, List.length_take]
    split <;> omega
  · simp [hempty, Node.drainedTo, hqueue.2]

theorem Node.Offered.trans (h₁ : n.Offered ws n') {n₂ : MNode} (h₂ : n'.Offered vs n₂) : n.Offered (ws ++ vs) n₂ := by
  obtain ⟨m₂, hqueue₂, rfl⟩ := h₂
  rw [h₁.direct] at hqueue₂ ⊢
  obtain ⟨m₁, hqueue₁, rfl⟩ := h₁
  refine ⟨m₂, ?_, ?_⟩
  · rw [List.drop_append, ← List.append_assoc, ← hqueue₁.2]
    exact withQueue_trans hqueue₁ hqueue₂
  · simp [Node.drainedTo, List.take_append]

theorem Node.Offered.none : n.Offered [] n :=
  ⟨n.ctx, by simpa using withQueue_self, by simp [Node.drainedTo]⟩

/-- The queue grows by at most the words offered. -/
theorem Node.Offered.count (h : n.Offered ws n') : swqCount n'.ctx ≤ swqCount n.ctx + ws.length := by
  obtain ⟨m', hqueue, rfl⟩ := h
  rw [← length_swqEntries, ← length_swqEntries n.ctx, Node.drainedTo, hqueue.2]
  simp

/-- One offer to a queue with room (R190, R191). -/
theorem offer_offers {c : Cmd} {d : Byte} (h : swqCount n.ctx < 5) : n.OffersWords [cmdWord c d] (offer c d n) := by
  by_cases hdirect : n.ctx.swqWr = n.ctx.swqRd ∧ n.hw.txf.length < n.par.txDepth
  · have hempty := swqEntries_of_eq hdirect.1
    obtain ⟨room, hroom⟩ := Nat.exists_eq_add_of_lt hdirect.2
    have hdir : n.direct = room + 1 := by rw [Node.direct, if_pos hempty]; omega
    refine ⟨_, offer_direct hdirect.1 hdirect.2, n.ctx, ?_, ?_⟩
    · simpa [hdir] using withQueue_self
    · simp [hdir, Node.drainedTo]
  · have hdir : n.direct = 0 := by
      rw [Node.direct, ite_eq_right_iff, swqEntries_eq_nil]
      intro hempty
      have := (not_and.mp hdirect) hempty
      omega
    refine ⟨_, (offer_queued hdirect).trans (swqPush_of h), swqPushed (cmdWord c d) n.ctx, ?_, ?_⟩
    · rw [hdir]
      exact withQueue_swqPushed h
    · simp [hdir, Node.drainedTo]

theorem Node.OffersWords.andThen (hr : n.OffersWords ws r) (hf : ∀ m, n.Offered ws m → m.OffersWords vs (f m)) :
    n.OffersWords (ws ++ vs) (Machine.andThen r f) := by
  obtain ⟨m, rfl, hm⟩ := hr
  obtain ⟨n', hn', h⟩ := hf m hm
  exact ⟨n', hn', hm.trans h⟩

/-- The view behind the master code: a high-speed burst has begun (R195). -/
def Node.burstBegun (n : MNode) : MNode :=
  { n with ctx := { n.ctx with hsInProgress := n.ctx.hsInProgress || decide (n.ctx.mode = .highSpeed) } }

/-- The words of the master code. -/
def masterCodeWords (m : MCtx) : List CmdWord :=
  if m.mode = .highSpeed ∧ m.hsInProgress = false then [0x508#11 ||| m.masterCode.setWidth 11] else []

/-- The flag of the burst may be written before an offer or behind it. -/
theorem offer_hsInProgress {c : Cmd} {d : Byte} {b : Bool} :
    offer c d { n with ctx := { n.ctx with hsInProgress := b } } =
      Machine.andThen (offer c d n) fun m => .next { m with ctx := { m.ctx with hsInProgress := b } } := by
  by_cases hdirect : n.ctx.swqWr = n.ctx.swqRd ∧ n.hw.txf.length < n.par.txDepth
  · rw [offer_direct hdirect.1 hdirect.2, offer_direct (by exact hdirect.1) (by exact hdirect.2), andThen_next]
  · rw [offer_queued hdirect, offer_queued (by exact hdirect), swqPush, swqPush]
    by_cases hfull : swqCount n.ctx = Config.swqCap
    · rw [if_pos hfull, if_pos (by exact hfull), andThen_fault]
    · rw [if_neg hfull, if_neg (by exact hfull), andThen_next]

theorem masterCodePhase_offers (h : swqCount n.ctx < 5) :
    n.burstBegun.OffersWords (masterCodeWords n.ctx) (masterCodePhase n) := by
  by_cases hcode : n.ctx.mode = .highSpeed ∧ n.ctx.hsInProgress = false
  · have hbegun : n.burstBegun = { n with ctx := { n.ctx with hsInProgress := true } } := by
      simp only [Node.burstBegun, hcode.1, decide_true, Bool.or_true]
    have hphase : masterCodePhase n = offer .startn (masterCodeByte n.ctx.masterCode) n.burstBegun := by
      rw [hbegun]
      exact (if_pos hcode).trans offer_hsInProgress.symm
    rw [masterCodeWords, if_pos hcode, ← cmdWord_masterCode, hphase]
    exact offer_offers h
  · have hbegun : n.burstBegun = n := by
      have hflag : (n.ctx.hsInProgress || decide (n.ctx.mode = .highSpeed)) = n.ctx.hsInProgress := by grind
      rw [Node.burstBegun, hflag]
    rw [masterCodePhase, if_neg hcode, masterCodeWords, if_neg hcode, hbegun]
    exact ⟨n, rfl, .none⟩

/-- An offer leaves the address and the mode. -/
theorem Node.Offered.address (h : n.Offered ws n') :
    n'.ctx.mode = n.ctx.mode ∧ n'.ctx.addr = n.ctx.addr ∧ n'.ctx.is10bit = n.ctx.is10bit := by
  obtain ⟨m', ⟨⟨_, _, _, rfl⟩, -⟩, rfl⟩ := h
  exact ⟨rfl, rfl, rfl⟩

/-- The address phase offers the master code and the bytes of the address, at most four words (R194, R195). -/
theorem addressPhase_offers (h : n.ctx.swqWr = n.ctx.swqRd) :
    n.burstBegun.OffersWords (addressWords n.ctx (dir == .receive)) (addressPhase dir n) := by
  have hcount : swqCount n.ctx = 0 := swqCount_eq_zero.mpr h
  refine (masterCodePhase_offers (by omega)).andThen fun n₁ h₁ => ?_
  have hone : (masterCodeWords n.ctx).length ≤ 1 := by
    unfold masterCodeWords
    split <;> simp
  have hcount₁ : swqCount n₁.ctx ≤ swqCount n.ctx + _ := h₁.count
  obtain ⟨hmode, haddr, h10⟩ : n₁.ctx.mode = n.ctx.mode ∧ n₁.ctx.addr = n.ctx.addr ∧ n₁.ctx.is10bit = n.ctx.is10bit :=
    h₁.address
  dsimp only
  rw [hmode, haddr, h10]
  cases n.ctx.is10bit
  case false =>
    rw [if_pos rfl, ← setWidth_addrByte7, ← cmdWord_startCmd]
    exact offer_offers (by omega)
  case true =>
    have hwrite := setWidth_addrByte10a n.ctx.addr false
    have hread := setWidth_addrByte10a n.ctx.addr true
    simp only [if_true, Bool.false_eq_true, if_false] at hwrite hread
    rw [← hwrite, ← hread, ← setWidth_addrByte10b, ← cmdWord_startCmd,
      ← cmdWord_startCmd, ← cmdWord_txd]
    refine (offer_offers (n := n₁) (by omega)).andThen (vs := [_] ++ _) fun n₂ h₂ => ?_
    have hcount₂ : swqCount n₂.ctx ≤ swqCount n₁.ctx + 1 := h₂.count
    refine (offer_offers (n := n₂) (by omega)).andThen fun n₃ h₃ => ?_
    have hcount₃ : swqCount n₃.ctx ≤ swqCount n₂.ctx + 1 := h₃.count
    cases hdir : dir == .receive
    · exact ⟨n₃, if_neg (by simpa using hdir), .none⟩
    · rw [if_pos (LawfulBEq.eq_of_beq hdir)]
      exact offer_offers (n := n₃) (by omega)

/-- An empty queue stays empty behind an offer that fits the FIFO, and behind no other. -/
theorem withQueue_drop_empty {m m' : MCtx} {room : Nat} (h : withQueue m m' (ws.drop room)) :
    swqEmpty m' = decide (ws.length ≤ room) := by
  rw [Bool.eq_iff_iff, swqEmpty_iff_entries, h.2, List.drop_eq_nil_iff, decide_eq_true_iff]

/-- The view behind the words of an accepted transfer, on an empty queue: as many as fit the FIFO stand in it, the others
in the queue of `m'`, and the address phase is over if none is left. -/
def Node.behindWords (words : List CmdWord) (m' : MCtx) (n : MNode) : MNode :=
  { n with
    ctx := { m' with
      phase := if decide (words.length ≤ n.par.txDepth - n.hw.txf.length) then .transferring else .addressing
      hsInProgress := n.ctx.hsInProgress || decide (n.ctx.mode = .highSpeed) }
    hw := { n.hw with txf := n.hw.txf ++ words.take (n.par.txDepth - n.hw.txf.length) } }

theorem enterTransferring_of (h : n.burstBegun.OffersWords ws r) (hqueue : n.ctx.swqWr = n.ctx.swqRd)
    (hphase : n.ctx.phase = .addressing) : ∃ m', withQueue n.ctx m' (ws.drop (n.par.txDepth - n.hw.txf.length)) ∧
      ∃ n₁, r = .next n₁ ∧ enterTransferring n₁ = n.behindWords ws m' := by
  obtain ⟨n₁, rfl, m₁, hqueue₁, rfl⟩ := h
  have hroom : n.burstBegun.direct = n.par.txDepth - n.hw.txf.length := if_pos (swqEntries_of_eq hqueue)
  have hnil : swqEntries n.burstBegun.ctx = [] := swqEntries_of_eq hqueue
  rw [hroom, hnil, List.nil_append] at hqueue₁
  have hempty := withQueue_drop_empty hqueue₁
  obtain ⟨⟨slots, wr, rd, rfl⟩, hentries⟩ := hqueue₁
  refine ⟨{ n.ctx with swq := slots, swqWr := wr, swqRd := rd }, ⟨⟨slots, wr, rd, rfl⟩, hentries⟩, _, rfl, ?_⟩
  rw [hroom, enterTransferring, Node.drainedTo, hempty, Node.behindWords]
  split
  · rfl
  · simp [Node.burstBegun, hphase]

/-- The start of an accepted send, on an empty queue (R153). -/
theorem sendStart_of {buf len : Nat} (hqueue : n.ctx.swqWr = n.ctx.swqRd) (hphase : n.ctx.phase = .addressing)
    (hbuf : n.ctx.txBuff = some buf) (hsize : n.ctx.txSize = len) (hlen : 1 ≤ len) (hwrap : buf + len ≤ 2 ^ n.par.addrW) :
    let words := addressWords n.ctx false
    let room := n.par.txDepth - n.hw.txf.length
    let fits := decide (words.length ≤ room)
    let irq := decide (n.ctx.transferType = .interrupts)
    let moved := if fits && irq then min len (room - words.length) else 0
    ∃ m', withQueue n.ctx m' (words.drop room) ∧
      sendStart buf len n = .next { n with
        ctx := { m' with
          phase := if fits then .transferring else .addressing
          hsInProgress := n.ctx.hsInProgress || decide (n.ctx.mode = .highSpeed)
          txBuff := some ((buf + moved) % 2 ^ n.par.addrW), txSize := len - moved }
        hw := { n.hw with
          txf := n.hw.txf ++ words.take room ++ txdWords n.mem buf moved, mie := errorsEnabled (irq || !fits) false }
        dma := if irq then n.dma else .running .memToPeriph .mtx buf len } := by
  intro words room fits irq moved
  obtain ⟨m', hqueue', n₁, hoffers, henters⟩ := enterTransferring_of (addressPhase_offers (dir := .send) hqueue) hqueue hphase
  refine ⟨m', hqueue', ?_⟩
  have hempty : swqEmpty m' = fits := withQueue_drop_empty hqueue'
  have hkept : m'.transferType = n.ctx.transferType ∧ m'.txBuff = some buf ∧ m'.txSize = len := by
    obtain ⟨⟨_, _, _, rfl⟩, -⟩ := hqueue'
    exact ⟨rfl, hbuf, hsize⟩
  obtain ⟨htype, hbuf', hsize'⟩ := hkept
  have hbuf₀ : (buf + 0) % 2 ^ n.par.addrW = buf := Nat.mod_eq_of_lt (by omega)
  change enterTransferring n₁ = n.behindWords words m' at henters
  obtain ⟨b, hb⟩ : ∃ b, b = enterTransferring n₁ := ⟨_, rfl⟩
  have hempty' : swqEmpty b.ctx = fits := by rw [hb, henters]; exact hempty
  have htype' : b.ctx.transferType = n.ctx.transferType := by rw [hb, henters]; exact htype
  rw [sendStart, hoffers, andThen_next]
  dsimp only
  rw [← hb, htype', hempty']
  rw [henters] at hb
  have hnone : txdWords n.mem buf 0 = [] := rfl
  cases htype : n.ctx.transferType
  case dma =>
    have hirq : irq = false := decide_eq_false (by simp [htype])
    have hmoved : moved = 0 := by simp [moved, hirq]
    rw [hmoved, hirq, hb, hbuf₀, ← hbuf', hnone, List.append_nil, Nat.sub_zero, ← hsize']
    rfl
  case interrupts =>
    have hirq : irq = true := decide_eq_true htype
    cases hfits : fits
    · have hmoved : moved = 0 := by simp [moved, hfits]
      rw [hmoved, hirq, hb, hbuf₀, ← hbuf', hnone, List.append_nil, Nat.sub_zero, ← hsize', Node.behindWords]
      simp only [if_neg Bool.false_ne_true, andThen_next]
      rw [show decide (words.length ≤ n.par.txDepth - n.hw.txf.length) = false from hfits]
      rfl
    · have hmoved : moved = min len (room - words.length) := by simp [moved, hirq, hfits]
      have hle : words.length ≤ room := of_decide_eq_true hfits
      have hfill := fillTx_of (n := b) (a := buf) (moved := moved)
        (by rw [hb]; exact fun _ => ⟨hbuf', hsize'.symm ▸ hwrap⟩)
        (by rw [hb, hmoved]; simp [Node.behindWords, hsize']; omega)
      have hbuff : (if moved = 0 then m'.txBuff else some ((buf + moved) % 2 ^ n.par.addrW)) =
          some ((buf + moved) % 2 ^ n.par.addrW) := by
        split
        · next hzero => rw [hzero, hbuf₀, hbuf']
        · rfl
      rw [if_pos rfl, hfill, andThen_next, hb, hirq, ← hbuff, ← hsize', Node.behindWords]
      rw [show decide (words.length ≤ n.par.txDepth - n.hw.txf.length) = true from hfits]
      rfl

theorem length_addressWords {m : MCtx} {receive : Bool} : (addressWords m receive).length ≤ 4 := by
  unfold addressWords
  cases receive <;> cases m.is10bit <;> simp <;> split <;> simp

/-- The start of an accepted receive, on an empty queue (R155). -/
theorem recvStart_of {buf len : Nat} (hqueue : n.ctx.swqWr = n.ctx.swqRd) (hphase : n.ctx.phase = .addressing)
    (hlen : len ≤ 256) :
    let words := addressWords n.ctx true ++ [rxnWord len]
    let room := n.par.txDepth - n.hw.txf.length
    let fits := decide (words.length ≤ room)
    let irq := decide (n.ctx.transferType = .interrupts)
    ∃ m', withQueue n.ctx m' (words.drop room) ∧
      recvStart buf len n = .next { n with
        ctx := { m' with
          phase := if fits then .transferring else .addressing
          hsInProgress := n.ctx.hsInProgress || decide (n.ctx.mode = .highSpeed) }
        hw := { n.hw with
          txf := n.hw.txf ++ words.take room, rxw := if irq then min n.par.rxDepth len - 1 else 0
          mie := errorsEnabled (!fits) irq }
        dma := if irq then n.dma else .running .periphToMem .mrx buf len } := by
  intro words room fits irq
  let n₀ : MNode := { n with hw := { n.hw with rxw := initialRxw n.par n.ctx.transferType len } }
  have hwords : n₀.burstBegun.OffersWords words (Machine.andThen (addressPhase .receive n₀) (offer .rxn (rxnData len))) := by
    refine (addressPhase_offers (n := n₀) (dir := .receive) hqueue).andThen fun n₁ h₁ => ?_
    have hcount₁ : swqCount n₁.ctx ≤ swqCount n.ctx + (addressWords n.ctx true).length := h₁.count
    have hlength := length_addressWords (m := n.ctx) (receive := true)
    rw [swqCount_eq_zero.mpr hqueue] at hcount₁
    rw [← cmdWord_rxn hlen]
    exact offer_offers (n := n₁) (by omega)
  obtain ⟨m', hqueue', n₁, hoffers, henters⟩ := enterTransferring_of hwords hqueue hphase
  refine ⟨m', hqueue', ?_⟩
  have hempty : swqEmpty m' = fits := withQueue_drop_empty hqueue'
  have htype : m'.transferType = n.ctx.transferType := by
    obtain ⟨⟨_, _, _, rfl⟩, -⟩ := hqueue'
    rfl
  obtain ⟨b, hb⟩ : ∃ b, b = enterTransferring n₁ := ⟨_, rfl⟩
  have hempty' : swqEmpty b.ctx = fits := by rw [hb, henters]; exact hempty
  have htype' : b.ctx.transferType = n.ctx.transferType := by rw [hb, henters]; exact htype
  obtain ⟨n₂, haddress, hoffer⟩ := andThen_eq_next.mp hoffers
  change andThen (addressPhase .receive n₀) _ = _
  rw [haddress, andThen_next, hoffer, andThen_next]
  dsimp only
  rw [← hb, htype', hempty']
  rw [henters] at hb
  cases htype : n.ctx.transferType
  case dma =>
    have hirq : irq = false := decide_eq_false (by simp [htype])
    have hrxw : initialRxw n.par n.ctx.transferType len = 0 := by rw [htype, initialRxw]
    rw [hirq, hb, if_neg Bool.false_ne_true, if_neg Bool.false_ne_true, ← hrxw]
    rfl
  case interrupts =>
    have hirq : irq = true := decide_eq_true htype
    have hrxw : initialRxw n.par n.ctx.transferType len = min n.par.rxDepth len - 1 := by rw [htype, initialRxw]
    rw [hirq, hb, if_pos rfl, if_pos rfl, ← hrxw]
    rfl

end

/-! ## The accepted requests -/

section
variable {n : MNode} {start : Nat → Nat → MNode → Res MNode} {o : Origin} {dir : Dir} {buf len : Nat} {stop : Bool}
  {timeout : Option Nat}

theorem mTransfer_accept (hfree : n.hostw = none) (h : mVerdict n.par n.ctx dir buf len = .accept) :
    mTransfer start dir o buf len stop timeout n =
      andThen (start buf len (mAccepted dir buf len stop timeout.isSome n)) fun n =>
        .next (completeOrWait o .m timeout n) := by
  simp [mTransfer, suspended_false hfree, h]

end

/-- Settles O15: the operands pass the tests, and the start of a send is known on an empty queue. -/
theorem msendResult : Obligations.MsendResult := by
  intro s k x m buf len stop timeout hx hfree hidle hqueue hlen hwrap
  have haccept : mVerdict s.par m .send buf len = .accept :=
    mVerdict_accept.mpr ⟨hidle, nofun, by omega, nofun, hwrap⟩
  have hsend : mSend .foreground buf len stop timeout (Node.of s x m) = _ := mTransfer_accept hfree haccept
  obtain ⟨_, ⟨⟨slots, wr, rd, rfl⟩, hentries⟩, hstart⟩ :=
    sendStart_of (n := mAccepted .send buf len stop timeout.isSome (Node.of s x m)) (len := len) hqueue rfl rfl rfl hlen hwrap
  rw [hstart, andThen_next] at hsend
  refine ⟨{ m with swq := slots, swqWr := wr, swqRd := rd }, ⟨⟨slots, wr, rd, rfl⟩, hentries⟩, ?_⟩
  rw [exec_msendOf, onMaster_next hx hsend (by cases timeout <;> rfl)]
  cases timeout <;> rfl

/-- Settles O16: the operands pass the tests, and the start of a receive is known on an empty queue. -/
theorem mrecvResult : Obligations.MrecvResult := by
  intro s k x m buf len stop timeout hx hfree hidle hqueue hmode hlen hmax hwrap
  have haccept : mVerdict s.par m .receive buf len = .accept :=
    mVerdict_accept.mpr ⟨hidle, fun h => hmode h.2, by omega, by omega, hwrap⟩
  have hrecv : mRecv .foreground buf len stop timeout (Node.of s x m) = _ := mTransfer_accept hfree haccept
  obtain ⟨_, ⟨⟨slots, wr, rd, rfl⟩, hentries⟩, hstart⟩ :=
    recvStart_of (n := mAccepted .receive buf len stop timeout.isSome (Node.of s x m)) (buf := buf) hqueue rfl hmax
  rw [hstart, andThen_next] at hrecv
  refine ⟨{ m with swq := slots, swqWr := wr, swqRd := rd }, ⟨⟨slots, wr, rd, rfl⟩, hentries⟩, ?_⟩
  rw [exec_mrecvOf, onMaster_next hx hrecv (by cases timeout <;> rfl)]
  cases timeout <;> rfl

end Sys2Proof.Machine
end

section
/-! SUPPORT. How a blocking wait ends: the semaphore taken, the two expiries of the master's timer, the late success with its
callback (spec 40_master_requests.md R163 to R168; 43_slave_requests.md R283). -/

namespace Sys2Proof.Machine
open Sys2Proof.Claims

section
variable {s : State} {k : BusIndex} {x y : Inst} {inp : Input}

/-! ## The semaphore -/

/-- A host that takes its semaphore resumes; without a post the turn passes (R163, R283). -/
theorem step_resume_of {posted : Bool} (hx : busAt s k x) (h : resumeStep x = if posted then some y else none) :
    step (turn s ⟨.resume k, inp⟩) =
      .next (if posted then (during s ⟨.resume k, inp⟩).setInst k y else during s ⟨.resume k, inp⟩) := by
  refine (step_turn_of_own (t := ⟨.resume k, inp⟩) rfl).trans (congrArg Host.Outcome.next ?_)
  rw [ownStep_of (s := during s _) hx, h]
  cases posted <;> rfl

end

/-- Settles O46: on either engine the semaphore decides whether the step is taken. -/
theorem semaphoreTaken : Obligations.SemaphoreTaken := by
  refine ⟨fun s k inp x m w hx hwaits hengine => ?master, fun s k inp x c t hx hwaits => ?slave⟩
  case master =>
    obtain ⟨engine, t, stage⟩ := w
    obtain rfl : engine = .m := hengine
    exact step_resume_of hx.1 (by simp [resumeStep, hx.2, hwaits, answered])
  case slave => exact step_resume_of hx.1 (by simp [resumeStep, hx.2, hwaits, answered])

section
variable {s : State} {k : BusIndex} {x : Inst} {m : MCtx} {w : Wait} {n : MNode}

/-! ## The expiries of the master's timer -/

/-- The timer of a waiting master, its semaphore not posted, is the master's timeout (R164, R168). -/
theorem exec_wtimeout_of (hx : masterAt s k x m) (hwaits : x.hostw = some w) (hengine : w.engine = .m)
    (hsem : m.sem = false) : exec (.wtimeout k) s =
      andThen (masterTimeout w (Node.of s x m)) fun n => .next (s.putNode k x (.master n.ctx) n) := by
  obtain ⟨engine, t, stage⟩ := w
  obtain rfl : engine = .m := hengine
  have henabled : wtimeoutEnabled x = true := by simp [wtimeoutEnabled, hx.2, hwaits, hsem]
  refine (onInst_of hx.1).trans ((if_pos henabled).trans ?_)
  simp only [hx.2, hwaits]

/-- An expiry that goes on and stores nothing writes its bus and nothing else. -/
theorem exec_wtimeout_next (hx : masterAt s k x m) (hwaits : x.hostw = some w) (hengine : w.engine = .m)
    (hsem : m.sem = false) (hf : masterTimeout w (Node.of s x m) = .next n) (hmem : n.mem = s.mem := by rfl) :
    exec (.wtimeout k) s = .next (s.setInst k (n.inst (.master n.ctx) x)) := by
  rw [exec_wtimeout_of hx hwaits hengine hsem, hf, andThen_next, putNode_eq, hmem]
  rfl

end

/-- Settles O47: the first expiry is the force abort, where the transmit FIFO can hold a word. -/
theorem wtimeoutForceAborts : Obligations.WtimeoutForceAborts := by
  intro s k x m t hx hwaits hsem hdepth hphase
  have habort : masterTimeout ⟨.m, t, .first⟩ (Node.of s x m) = timeoutAbort (Node.of s x m) := if_pos hphase
  rw [timeoutAbort, forceAbort_of (by exact hdepth), andThen_next] at habort
  exact exec_wtimeout_next hx hwaits rfl hsem habort

/-- Settles O49: the second expiry is the reset and the init. -/
theorem wtimeoutReinitialises : Obligations.WtimeoutReinitialises :=
  fun _ _ _ _ _ hx hwaits hsem => exec_wtimeout_next hx hwaits rfl hsem rfl

/-! ## The callback of a host that waits -/

section
variable {n m : MNode} {r : CbReq} {rs : List CbReq} {a : Nat}

/-- While the host waits a transfer request is refused, a callback's too (R161). -/
theorem mTransfer_waiting {start : Nat → Nat → MNode → Res MNode} {dir : Dir} {o : Origin} {buf len : Nat} {stop : Bool}
    {t : Option Nat} (hwaits : n.hostw.isSome = true) :
    mTransfer start dir o buf len stop t n = .refused .hostSuspended :=
  if_pos (by simp [suspended, hwaits])

theorem mSetBaud_waiting {o : Origin} {mode : BitVec 3} {rate rateHS : BitVec 32} (hwaits : n.hostw.isSome = true) :
    mSetBaud o mode rate rateHS n = .refused .hostSuspended :=
  if_pos (by simp [suspended, hwaits])

/-- While the host waits only the two queries of a callback go on, and they change the record of answers only (R161). -/
theorem mCallbackRequest_waiting (hwaits : n.hostw.isSome = true) (h : mCallbackRequest r n = .next m) :
    ∃ l, m = { n with replies := l } := by
  cases r with
  | msend => cases (mTransfer_waiting hwaits).symm.trans h
  | mrecv => cases (mTransfer_waiting hwaits).symm.trans h
  | msetbaud => cases (mSetBaud_waiting hwaits).symm.trans h
  | ssettx | ssetrx | sstatus => cases h
  | mstatus =>
    obtain rfl : replyBytes _ _ _ n = m := Host.Outcome.next.inj ((if_neg (by simp [suspended])).symm.trans h)
    exact ⟨_, rfl⟩
  | mgetbaud =>
    obtain rfl : replyBaud _ _ _ _ _ n = m := Host.Outcome.next.inj ((if_neg (by simp [suspended])).symm.trans h)
    exact ⟨_, rfl⟩

theorem runRequests_waiting (hwaits : n.hostw.isSome = true) (h : runRequests mCallbackRequest rs n = .next m) :
    ∃ l, m = { n with replies := l } := by
  induction rs generalizing n with
  | nil => exact ⟨n.replies, (Host.Outcome.next.inj h).symm⟩
  | cons r rs ih =>
    obtain ⟨n', hn', hrest⟩ := andThen_eq_next.mp h
    obtain ⟨l, rfl⟩ := mCallbackRequest_waiting hwaits hn'
    exact ih (n := { n with replies := l }) hwaits hrest

/-! ## The late success -/

/-- The view behind the completion of a receive, with its callback's record and before its requests (R235). -/
def Node.received (n : MNode) : MNode :=
  { mPost (setMStatus .success
      (n.ended (n.ctx.sendStop || (n.ctx.abortedByTimeout && n.par.abortedRx == .forceStop)))) with
    cbTrace := if n.ctx.abortedByTimeout = true ∧ n.par.abortedRx = .suppressCallback then n.cbTrace
               else traced n.ctx.callback .endTransfer n.ctx.callbackParam n.cbTrace }

/-- The requests of the callback that completes a receive: none where it is not invoked. -/
def Node.receivedRequests (n : MNode) : List CbReq := if n.received.cbTrace = n.cbTrace then [] else n.inp.cb

/-- The completion of a receive runs its callback's requests behind everything else. -/
theorem rxComplete_requests (hready : n.StopReady) :
    rxComplete n = runRequests mCallbackRequest n.receivedRequests n.received := by
  have hsilent : rxComplete n.silent = .next n.received.silent := rxComplete_silent (n := n.silent) hready rfl
  have hcalls : CallsBack mCallbackRequest n (rxComplete n) (rxComplete n.silent) := rxComplete_callsBack
  rw [hcalls, hsilent, andThen_next, Node.receivedRequests]
  by_cases hcb : n.received.cbTrace = n.cbTrace
  · rw [if_pos (by exact hcb), if_pos hcb]
    rfl
  · rw [if_neg (by exact hcb), if_neg hcb]
    rfl

/-- The view behind the copy of all that is outstanding, from which the blocking flag is taken (R166). -/
def Node.lateCopied (a : Nat) (n : MNode) : MNode :=
  { n.stored a n.ctx.rxSize with ctx := { (n.stored a n.ctx.rxSize).ctx with blocking := false } }

/-- The late success copies what is outstanding and completes the receive; the host is resumed behind the callback
(R166). -/
theorem lateSuccess_of (hfifo : n.ctx.rxSize ≤ n.hw.rxf.length)
    (hbuf : 0 < n.ctx.rxSize → n.ctx.rxBuff = some a ∧ a + n.ctx.rxSize ≤ 2 ^ n.par.addrW) (hready : n.StopReady) :
    lateSuccess n =
      andThen (runRequests mCallbackRequest (n.lateCopied a).receivedRequests (n.lateCopied a).received) fun n =>
        .next (resumeHost .success { n with ctx := { n.ctx with abortedByTimeout := false } }) := by
  rw [lateSuccess, lateLoop_of (a := a) hfifo (Nat.le_refl _) (fun h => (hbuf h).1) fun h => (hbuf h).2, andThen_next]
  exact congrArg (andThen · _) (rxComplete_requests (n := n.lateCopied a) hready)

end

/-- Settles O48: the first expiry narrows the watermark, or copies, completes and runs the callback's requests, of which
only the queries go on. -/
theorem wtimeoutOfReceive : Obligations.WtimeoutOfReceive := by
  intro s k x m a t hx hwaits hsem hdir hphase htype
  let n : MNode := { Node.of s x m with ctx := { m with abortedByTimeout := true } }
  have hfirst : masterTimeout ⟨.m, t, .first⟩ (Node.of s x m) =
      if m.rxSize ≤ x.hw.rxf.length then lateSuccess n else .next (narrowAndWait t n) :=
    if_neg (by simp [Node.of, hdir, hphase, htype])
  refine ⟨fun hshort => ?narrowed, fun hfifo hbuf hmem hempty hroom => ?late⟩
  case narrowed => exact exec_wtimeout_next hx hwaits rfl hsem (hfirst.trans (if_neg (Nat.not_le.mpr hshort)))
  case late =>
    intro m' y requests
    let n' : MNode := n.lateCopied a
    have hlate : lateSuccess n = _ := lateSuccess_of (a := a) hfifo hbuf ⟨hempty, hroom⟩
    have hlen : (x.hw.rxf.take m.rxSize).length = m.rxSize := by rw [List.length_take]; omega
    have hexec : exec (.wtimeout k) s = andThen (andThen (runRequests mCallbackRequest requests n'.received) fun n =>
        .next (resumeHost .success { n with ctx := { n.ctx with abortedByTimeout := false } }))
          fun n => .next (s.putNode k x (.master n.ctx) n) := by
      rw [exec_wtimeout_of hx hwaits rfl hsem, hfirst, if_pos hfifo, hlate]
      rfl
    have hruns : callbackRuns k requests { s.setInst k y with mem := n'.mem } =
        andThen (runRequests mCallbackRequest requests n'.received) fun m => .next (s.putNode k x (.master m.ctx) m) :=
      callbackRuns_putNode (E := masterEngine) (n := n'.received) hx.1 rfl rfl
    refine ⟨n'.mem, n'.received.ctx, rfl, fun j hj => ?_, fun b hb => ?_, fun hnone => ?_, ?_⟩
    · refine (Memory.read_writeAll (bs := x.hw.rxf.take m.rxSize) hmem).trans ?_
      rw [dif_pos (by omega)]
      simp [Nat.lt_of_lt_of_le hj hfifo]
    · exact (Memory.read_writeAll (bs := x.hw.rxf.take m.rxSize) hmem).trans (dif_neg (by omega))
    · rw [hexec, hnone]
      rfl
    · rw [hruns, hexec]
      cases hrun : runRequests mCallbackRequest requests n'.received with
      | next m₁ =>
        obtain ⟨l, rfl⟩ := runRequests_waiting (n := n'.received) (by exact congrArg Option.isSome hwaits) hrun
        exact ⟨_, ⟨inst?_putNode hx.1, rfl⟩, congrArg Host.Outcome.next (by simp [State.putNode, State.setInst]; rfl)⟩
      | fault | refused => rfl

/-! ## The callback of a completed send -/

/-- The view behind the completion of a send, with its callback's record and before its requests (R231). -/
def Node.sent (n : MNode) : MNode :=
  { mPost (setMStatus .success (n.ended n.ctx.sendStop)) with
    cbTrace := traced n.ctx.callback .endTransfer n.ctx.callbackParam n.cbTrace }

section
variable {s : State} {k : BusIndex} {x : Inst} {m : MCtx} {n : MNode} {r : CbReq} {rs : List CbReq}

/-- A callback that is configured is recorded and runs its requests (R231). -/
theorem mCallback_of_some {ev : CbEvent} (hcallback : n.ctx.callback.isSome = true) : mCallback ev n =
    runRequests mCallbackRequest n.inp.cb
      { n with cbTrace := traced n.ctx.callback ev n.ctx.callbackParam n.cbTrace } := by
  obtain ⟨p, hp⟩ := Option.isSome_iff_exists.mp hcallback
  simp only [mCallback, hp, traced, Option.isSome_some, if_true, mCallbackRun_eq]

/-- `TXRDY` of a send with nothing left to do runs its callback's requests behind everything else. -/
theorem exec_txrdy_sent (hx : masterAt s k x m) (hirq : x.hw.irqEn = true) (henabled : x.hw.mie.txrdy = true)
    (hcallback : m.callback.isSome = true) (hempty : m.swqWr = m.swqRd) (hdir : m.dir = .send) (hsize : m.txSize = 0)
    (hfifo : x.hw.txf = []) (hdma : m.transferType = .dma → x.dma = .stopped) (hdepth : 1 ≤ s.par.txDepth) :
    exec (.txrdy k) s = andThen (runRequests mCallbackRequest s.inp.cb (Node.of s x m).sent) fun n =>
      .next (s.putNode k x (.master n.ctx) n) := by
  have hdue : (deliverableM x).txrdy = true := by
    simp [deliverableM_of hx.2 hirq, MSources.meet, mefOf, hfifo, henabled]
  have htaken : ¬ (Node.of s x m).DataTaken := by
    rintro (hreceive | ⟨ht, hrunning⟩)
    · cases hdir.symm.trans hreceive
    · exact hrunning (hdma ht)
  have hready : (Node.of s x m).StopReady := ⟨hempty, by rw [show (Node.of s x m).hw.txf = [] from hfifo]; exact hdepth⟩
  have hhandler := handleTxrdy_completes hready htaken hsize hfifo
  rw [mNotify, mCallback_of_some (by exact hcallback)] at hhandler
  exact (takeMasterEvent_of hx.1 hx.2 hdue).trans (congrArg (andThen · _) hhandler)

end

/-- Settles O60: each handler is its end followed by the callback's requests, and a waiting host stops a master's requests
but the queries. -/
theorem callbackWhileHostWaits : Obligations.CallbackWhileHostWaits := by
  refine ⟨fun s k x m hx hirq henabled hcallback hempty hdir hsize hfifo hdma hdepth => ?master,
    fun s k x c hx hirq hflag henabled hcallback => ?slave⟩
  case master =>
    intro y divisor stated
    have hexec := exec_txrdy_sent hx hirq henabled hcallback hempty hdir hsize hfifo hdma hdepth
    refine ⟨fun hcb => ?mstatus, fun hcb => ?mgetbaud, fun hwaits r rs hcb hasks => ?refused⟩
    case mstatus =>
      have hbytes : bytesRemaining s.par m.transferType (endedDma m x.dma) 0 0 = 0 := by
        rw [bytesRemaining_eq, endedDma]
        cases m.transferType <;> rfl
      have hanswer : mCallbackRequest .mstatus (Node.of s x m).sent =
          .next (replyBytes .callback .success (bytesRemaining s.par m.transferType (endedDma m x.dma) 0 0) _) :=
        if_neg (by simp [suspended])
      rw [hexec, hcb, runRequests, hanswer, hbytes]
      rfl
    case mgetbaud =>
      refine ⟨rateOnPort s.par x.hw.fIn x.hw.baud,
        if m.mode = .highSpeed then rateOnPort s.par x.hw.fIn x.hw.hs else 0#32, rateOnPort_of_lt, fun hmode => ?_,
        fun hmode => if_neg hmode, ?_⟩
      · rw [if_pos hmode]
        exact rateOnPort_of_lt
      · have hanswer : mCallbackRequest .mgetbaud (Node.of s x m).sent = .next (replyBaud .callback .success m.mode
            (rateOnPort s.par x.hw.fIn x.hw.baud)
            (if m.mode = .highSpeed then rateOnPort s.par x.hw.fIn x.hw.hs else 0#32) _) :=
          if_neg (by simp [suspended])
        rw [hexec, hcb, runRequests, hanswer]
        rfl
    case refused =>
      have hwaits : (Node.of s x m).sent.hostw.isSome = true := hwaits
      have hrefused : mCallbackRequest r (Node.of s x m).sent = .refused .hostSuspended := by
        rcases hasks with ⟨buf, len, stop, rfl | rfl⟩ | ⟨mode, rate, rateHS, rfl⟩
        · exact mTransfer_waiting hwaits
        · exact mTransfer_waiting hwaits
        · exact mSetBaud_waiting hwaits
      rw [hexec, hcb, runRequests, hrefused]
      rfl
  case slave =>
    intro y answer
    let x' : Inst := { x with hw := { x.hw with sef := { x.hw.sef with stop := false } } }
    let n := sEnd (Node.of s x' c)
    obtain ⟨hpar, hinp, hmem, hhost, htrace, hreplies, hdma, hcb', hparam, -⟩ := sEnd_frame (Node.of s x' c)
    have hcallback : n.ctx.callback.isSome = true := hcb' ▸ hcallback
    have hended : n.inst (.slave n.ctx) x' = slaveEnded c x' := sEnd_inst
    have hy : y = { n.inst (.slave n.ctx) x' with
        cbTrace := traced n.ctx.callback .stopEvent n.ctx.callbackParam n.cbTrace } := by
      rw [hended, hcb', hparam, htrace]
      rfl
    have hanswers (st : Status) (bytes : Option Nat) : answer st bytes = n.replies ++ [⟨.callback, st, bytes, none⟩] :=
      congrArg (fun z => Inst.replies z ++ [⟨.callback, st, bytes, none⟩]) hy
    have hserved {m : SNode} (hcall : sCallback .stopEvent n = .next m) (hm : m.mem = n.mem := by rfl) :
        exec (.evtStop k) s = .next (s.setInst k (m.inst (.slave m.ctx) x)) := by
      refine (takeSlaveEvent_next (src := (·.stop)) (f := handleStop) hx hirq hflag henabled hcall).trans ?_
      rw [hm, hmem]
      rfl
    refine ⟨n.ctx, by rw [hy]; rfl, fun hcb => ?sstatus,
      fun buf len hlen hfits => ⟨fun hcb => ?ssettx, fun hcb => ?ssetrx⟩⟩
    case sstatus =>
      have hbytes : bytesRemaining n.par n.ctx.transferType n.dma n.ctx.txSize n.ctx.rxSize =
          (n.ctx.txSize + n.ctx.rxSize) % 2 ^ s.par.sizeW := by
        rw [bytesRemaining_eq, hdma, hpar]
        cases n.ctx.transferType <;> rfl
      have hanswer := (sCallback_of_one (ev := .stopEvent) hcallback ((congrArg Input.cb hinp).trans hcb)).trans
        (if_neg (by simp [suspended]))
      rw [hserved hanswer, hanswers, hy, hbytes]
      rfl
    case ssettx =>
      have hcall := sCallback_of_ssettx (ev := .stopEvent) hcallback ((congrArg Input.cb hinp).trans hcb) (hpar ▸ hlen)
        (hpar ▸ hfits)
      rw [hserved hcall, hanswers, hy]
      rfl
    case ssetrx =>
      have hcall := sCallback_of_ssetrx (ev := .stopEvent) hcallback ((congrArg Input.cb hinp).trans hcb) (hpar ▸ hlen)
        (hpar ▸ hfits)
      rw [hserved hcall, hanswers, hy]
      rfl

end Sys2Proof.Machine
end

section
/-! SUPPORT. The invariant of an instance as propositions: what holds of an engine at rest, of a send and of a receive in
flight, of a slave (spec 10_state.md R20 to R47; 45_dma.md R342). -/

namespace Sys2Proof.Machine
open Sys2Proof.Claims

/-! ## Buffers and words -/

section
variable {p : Params} {a count : Nat} {ws vs : List CmdWord} {w : CmdWord}

theorem bufGood_some : bufGood p (some a) count = true ↔ count < 2 ^ p.sizeW ∧ a < 2 ^ p.addrW := by
  simp [bufGood]

/-- A null buffer is good exactly with a count of 0. -/
theorem bufGood_none : bufGood p none count = true ↔ count = 0 := by
  simp only [bufGood, Bool.and_eq_true, decide_eq_true_eq, beq_iff_eq]
  exact ⟨And.right, fun h => ⟨h ▸ Nat.two_pow_pos _, h⟩⟩

theorem pendingRx_append : pendingRx (ws ++ vs) = pendingRx ws + pendingRx vs := by
  induction ws with
  | nil => simp [pendingRx]
  | cons w ws ih => simp [pendingRx, ih, Nat.add_assoc]

/-- A stream receives nothing exactly if it holds no `RXN`, which receives at least one byte (R117). -/
theorem pendingRx_eq_zero : pendingRx ws = 0 ↔ ∀ w ∈ ws, isRxn w = false := by
  induction ws with
  | nil => simp [pendingRx]
  | cons w ws ih =>
    rw [pendingRx, Nat.add_eq_zero_iff, ih, List.forall_mem_cons]
    cases isRxn w <;> simp [rxnCount]

/-- A command of R115 is none of the reserved ones. -/
theorem cmdGood_cmdWord {c : Cmd} {d : Byte} : cmdGood (cmdWord c d) = true := by
  rw [cmdGood, cmdField_cmdWord]
  cases c <;> rfl

theorem isRxn_cmdWord {c : Cmd} {d : Byte} : isRxn (cmdWord c d) = decide (c = .rxn) := by
  rw [isRxn, cmdField_cmdWord]
  cases c <;> rfl

end

/-! ## The registers -/

/-- The hardware-side bounds (R36 to R38, R42). -/
structure HwFits (p : Params) (h : HW) : Prop where
  txf : h.txf.length ≤ p.txDepth
  rxf : h.rxf.length ≤ p.rxDepth
  rxw : h.rxw < p.rxDepth
  rxLeft : h.rxLeft ≤ 256
  words : ∀ w ∈ h.txf, cmdGood w = true

theorem hwGood_iff {p : Params} {h : HW} : hwGood p h = true ↔ HwFits p h := by
  simp only [hwGood, Bool.and_eq_true, decide_eq_true_iff, List.all_eq_true]
  exact ⟨fun ⟨⟨⟨⟨htxf, hrxf⟩, hrxw⟩, hleft⟩, hwords⟩ => ⟨htxf, hrxf, hrxw, hleft, hwords⟩,
    fun h => ⟨⟨⟨⟨h.txf, h.rxf⟩, h.rxw⟩, h.rxLeft⟩, h.words⟩⟩

/-! ## The master engine -/

/-- What holds of a master with and without a transfer in flight. -/
structure MasterOn (p : Params) (m : MCtx) (h : HW) : Prop extends HwFits p h where
  men : h.men = true
  irqEn : h.irqEn = true
  sen : h.sen = false
  sie : h.sie = .none
  queue : swqCount m ≤ 5
  rxSize : m.rxSize ≤ 256
  txGood : bufGood p m.txBuff m.txSize = true
  rxGood : bufGood p m.rxBuff m.rxSize = true

/-- A master engine at rest (R22, R39, R241, R342). -/
structure Resting (m : MCtx) (h : HW) (d : DmaCh) : Prop where
  idle : m.idle = true
  phase : m.phase = .idle
  txBuff : m.txBuff = none
  rxBuff : m.rxBuff = none
  txSize : m.txSize = 0
  rxSize : m.rxSize = 0
  dir : m.dir = .none
  mie : h.mie = .none
  dma : d = .stopped
  empty : m.swqWr = m.swqRd
  rxf : h.rxf = []
  rxLeft : h.rxLeft = 0
  pending : pendingRx h.txf = 0

/-- What a send and a receive in flight have in common (R22, R28). -/
structure InFlight (m : MCtx) : Prop where
  idle : m.idle = false
  phase : m.phase = if swqEmpty m then .transferring else .addressing
  status : m.status = .busy
  queued : ∀ w ∈ swqEntries m, cmdGood w = true

/-- A send in flight (R153, R338, R342). -/
structure Sending (p : Params) (m : MCtx) (h : HW) (d : DmaCh) : Prop extends InFlight m where
  dir : m.dir = .send
  rxSize : m.rxSize = 0
  rxBuff : m.rxBuff = none
  rxf : h.rxf = []
  rxLeft : h.rxLeft = 0
  pending : pendingRx (commandStream m h) = 0
  rxrdy : h.mie.rxrdy = false
  channel : sendDmaGood p m d = true

/-- The count of bytes a receive has still to store, `left`, in the context or in the channel (R155, R157, R342). -/
inductive Remaining (p : Params) (m : MCtx) (left : Nat) : DmaCh → Prop
  | context (htype : m.transferType = .interrupts) (hsize : m.rxSize = left) : Remaining p m left .stopped
  | channel {ptr : Nat} (htype : m.transferType = .dma) (hgood : bufGood p (some ptr) left = true) :
    Remaining p m left (.running .periphToMem .mrx ptr left)

/-- A receive in flight that has `left` bytes still to store (R155, R90). -/
structure Receiving (p : Params) (m : MCtx) (h : HW) (d : DmaCh) (left : Nat) : Prop extends InFlight m where
  dir : m.dir = .receive
  txSize : m.txSize = 0
  txBuff : m.txBuff = none
  rxrdy : h.mie.rxrdy = true → m.transferType = .interrupts
  remaining : Remaining p m left d
  bound : h.rxf.length + h.rxLeft + pendingRx (commandStream m h) ≤ left
  last : ∀ w, (commandStream m h).getLast? = some w → isRxn w = true

/-- What a master engine is doing. -/
inductive MasterDoing (p : Params) (m : MCtx) (h : HW) (d : DmaCh) : Prop
  | resting (h : Resting m h d)
  | sending (h : Sending p m h d)
  | receiving {left : Nat} (h : Receiving p m h d left) (hpos : m.transferType = .interrupts → 0 < left)

/-- The invariant of a master but for its host. -/
structure MasterSound (p : Params) (m : MCtx) (h : HW) (d : DmaCh) : Prop extends MasterOn p m h where
  doing : MasterDoing p m h d

/-- A host waits on the master only for a blocking transfer in flight, or for one whose end has been posted (R26, R47). -/
def MasterWaits (m : MCtx) (w : Option Wait) : Prop :=
  ∀ v, w = some v → v.engine = .m ∧ m.blocking = true ∧ (m.sem = true ∨ m.idle = false)

theorem masterWaitGood_iff {m : MCtx} {w : Option Wait} : masterWaitGood m w = true ↔ MasterWaits m w := by
  cases w <;> simp [masterWaitGood, MasterWaits, and_assoc]

theorem masterIdleGood_iff {m : MCtx} {x : Inst} :
    m.idle = true ∧ masterIdleGood m x = true ↔ Resting m x.hw x.dma := by
  simp only [masterIdleGood, Bool.and_eq_true, beq_iff_eq, swqEmpty_iff]
  constructor
  · rintro ⟨hidle, ⟨⟨⟨⟨⟨⟨⟨⟨⟨⟨⟨h1, h2⟩, h3⟩, h4⟩, h5⟩, h6⟩, h7⟩, h8⟩, h9⟩, h10⟩, h11⟩, h12⟩⟩
    exact ⟨hidle, h1, h2, h3, h4, h5, h6, h7, h8, h9, h10, h11, h12⟩
  · intro h
    exact ⟨h.idle, ⟨⟨⟨⟨⟨⟨⟨⟨⟨⟨⟨h.phase, h.txBuff⟩, h.rxBuff⟩, h.txSize⟩, h.rxSize⟩, h.dir⟩, h.mie⟩, h.dma⟩, h.empty⟩, h.rxf⟩,
      h.rxLeft⟩, h.pending⟩⟩

theorem recvRemaining_eq_some {p : Params} {m : MCtx} {d : DmaCh} {left : Nat} :
    recvRemaining p m d = some left ↔ Remaining p m left d ∧ (m.transferType = .interrupts → 0 < left) := by
  constructor
  · intro h
    unfold recvRemaining at h
    split at h
    · next htype =>
      obtain ⟨hpos, hsize⟩ := Option.ite_none_right_eq_some.mp h
      obtain rfl := Option.some.inj hsize
      exact ⟨.context htype rfl, fun _ => hpos⟩
    · next htype =>
      obtain ⟨hgood, hcount⟩ := Option.ite_none_right_eq_some.mp h
      obtain rfl := Option.some.inj hcount
      exact ⟨.channel htype hgood, fun h => by cases htype.symm.trans h⟩
    · cases h
  · rintro ⟨⟨htype, rfl⟩ | ⟨htype, hgood⟩, hpos⟩
    · simp [recvRemaining, htype, hpos htype]
    · simp [recvRemaining, htype, hgood]

theorem recvGood_iff {p : Params} {m : MCtx} {x : Inst} : recvGood p m x = true ↔
    ∃ left, recvRemaining p m x.dma = some left ∧
      x.hw.rxf.length + x.hw.rxLeft + pendingRx (commandStream m x.hw) ≤ left ∧
      ∀ w, (commandStream m x.hw).getLast? = some w → isRxn w = true := by
  unfold recvGood
  cases recvRemaining p m x.dma with
  | none => simp
  | some left => cases (commandStream m x.hw).getLast? <;> simp

theorem masterBusyGood_iff {p : Params} {m : MCtx} {x : Inst} :
    m.idle = false ∧ masterBusyGood p m x = true ↔ Sending p m x.hw x.dma ∨
      ∃ left, Receiving p m x.hw x.dma left ∧ (m.transferType = .interrupts → 0 < left) := by
  simp only [masterBusyGood, Bool.and_eq_true, beq_iff_eq, List.all_eq_true]
  constructor
  · rintro ⟨hidle, ⟨⟨hphase, hstatus⟩, hqueued⟩, h⟩
    have hflight : InFlight m := ⟨hidle, hphase, hstatus, hqueued⟩
    cases hdir : m.dir <;> simp only [hdir, Bool.and_eq_true, Bool.not_eq_true', Bool.or_eq_true, beq_iff_eq] at h
    case none => cases h
    case send =>
      obtain ⟨⟨⟨⟨⟨⟨h1, h2⟩, h3⟩, h4⟩, h5⟩, h6⟩, h7⟩ := h
      exact .inl ⟨hflight, hdir, h1, h2, h3, h4, h5, h6, h7⟩
    case receive =>
      obtain ⟨⟨⟨h1, h2⟩, h3⟩, h4⟩ := h
      obtain ⟨left, hleft, hbound, hlast⟩ := recvGood_iff.mp h4
      obtain ⟨hremaining, hpos⟩ := recvRemaining_eq_some.mp hleft
      exact .inr ⟨left, ⟨hflight, hdir, h1, h2, fun h => h3.resolve_left (by simp [h]), hremaining, hbound, hlast⟩, hpos⟩
  · rintro (h | ⟨left, h, hpos⟩)
    · simp only [h.dir, Bool.and_eq_true, beq_iff_eq, Bool.not_eq_true']
      exact ⟨h.idle, ⟨⟨h.phase, h.status⟩, h.queued⟩,
        ⟨⟨⟨⟨⟨⟨h.rxSize, h.rxBuff⟩, h.rxf⟩, h.rxLeft⟩, h.pending⟩, h.rxrdy⟩, h.channel⟩⟩
    · have hrxrdy : x.hw.mie.rxrdy = false ∨ m.transferType = .interrupts := by
        cases hmie : x.hw.mie.rxrdy
        · exact .inl rfl
        · exact .inr (h.rxrdy hmie)
      simp only [h.dir, Bool.and_eq_true, beq_iff_eq, Bool.or_eq_true, Bool.not_eq_true']
      exact ⟨h.idle, ⟨⟨h.phase, h.status⟩, h.queued⟩, ⟨⟨⟨h.txSize, h.txBuff⟩, hrxrdy⟩,
        recvGood_iff.mpr ⟨left, recvRemaining_eq_some.mpr ⟨h.remaining, hpos⟩, h.bound, h.last⟩⟩⟩

theorem MasterSound.oneDirection {p : Params} {m : MCtx} {h : HW} {d : DmaCh} (hs : MasterSound p m h d) :
    m.txSize = 0 ∨ m.rxSize = 0 := by
  cases hs.doing with
  | resting h => exact .inl h.txSize
  | sending h => exact .inr h.rxSize
  | receiving h => exact .inl h.txSize

/-- The invariant of an instance with the role Master. -/
theorem masterGood_iff {p : Params} {m : MCtx} {x : Inst} (hrole : x.role = .master m) :
    Inst.good p x = true ↔ MasterSound p m x.hw x.dma ∧ MasterWaits m x.hostw := by
  rw [Inst.good, hrole, Bool.and_eq_true, hwGood_iff]
  simp only [masterGood, Bool.and_eq_true, Bool.not_eq_true', beq_iff_eq, Bool.or_eq_true, decide_eq_true_iff,
    masterWaitGood_iff]
  constructor
  · rintro ⟨hfits, ⟨⟨⟨⟨⟨⟨⟨⟨⟨h1, h2⟩, h3⟩, h4⟩, h5⟩, -⟩, h6⟩, h7⟩, h8⟩, hwaits⟩, hengine⟩
    have hon : MasterOn p m x.hw := ⟨hfits, h1, h2, h3, h4, h5, h6, h7, h8⟩
    refine ⟨⟨hon, ?_⟩, hwaits⟩
    cases hidle : m.idle <;> simp only [hidle] at hengine
    · obtain h | ⟨left, h, hpos⟩ := masterBusyGood_iff.mp ⟨hidle, hengine⟩
      · exact .sending h
      · exact .receiving h hpos
    · exact .resting (masterIdleGood_iff.mp ⟨hidle, hengine⟩)
  · rintro ⟨hs, hwaits⟩
    refine ⟨hs.toHwFits, ⟨⟨⟨⟨⟨⟨⟨⟨⟨hs.men, hs.irqEn⟩, hs.sen⟩, hs.sie⟩, hs.queue⟩, hs.oneDirection⟩, hs.rxSize⟩,
      hs.txGood⟩, hs.rxGood⟩, hwaits⟩, ?_⟩
    cases hs.doing with
    | resting h =>
      rw [if_pos h.idle]
      exact (masterIdleGood_iff.mpr h).2
    | sending h =>
      rw [if_neg (by simp [h.idle])]
      exact (masterBusyGood_iff.mpr (.inl h)).2
    | receiving h hpos =>
      rw [if_neg (by simp [h.idle])]
      exact (masterBusyGood_iff.mpr (.inr ⟨_, h, hpos⟩)).2

/-! ## The slave engine -/

/-- The channel of a slave: stopped, or serving a slave data register in a transaction of a DMA slave (R342). -/
inductive SlaveChannel (p : Params) (c : SCtx) : DmaCh → Prop
  | stopped : SlaveChannel p c .stopped
  | stx {ptr count : Nat} (htype : c.transferType = .dma) (hbusy : c.isTransferInProgress = true)
    (hgood : bufGood p (some ptr) count = true) : SlaveChannel p c (.running .memToPeriph .stx ptr count)
  | srx {ptr count : Nat} (htype : c.transferType = .dma) (hbusy : c.isTransferInProgress = true)
    (hgood : bufGood p (some ptr) count = true) : SlaveChannel p c (.running .periphToMem .srx ptr count)

/-- The invariant of a slave but for its host. -/
structure SlaveSound (p : Params) (c : SCtx) (h : HW) (d : DmaCh) : Prop extends HwFits p h where
  men : h.men = false
  irqEn : h.irqEn = true
  mie : h.mie = .none
  busy : c.isTransferInProgress = true → c.phase = .addressing ∨ c.phase = .transferring
  free : c.isTransferInProgress = false → c.phase = .idle
  repeatedStarts : c.repeatedStarts ≤ 255
  txGood : bufGood p c.txBuff c.txSize = true
  rxGood : bufGood p c.rxBuff c.rxSize = true
  channel : SlaveChannel p c d
  on : c.listening = true ∨ c.isTransferInProgress = true → h.sen = true ∧ armed h.sie = true
  off : c.listening = false → c.isTransferInProgress = false → h.sen = false ∧ h.sie = .none ∧ h.sef = .none

/-- A host waits on an on-demand slave only for a transfer in flight, or for one whose end has been posted (R47, R283). -/
def SlaveWaits (c : SCtx) (w : Option Wait) : Prop :=
  ∀ v, w = some v → v.engine = .s ∧ v.stage = .first ∧ c.blocking = true ∧ c.listening = false ∧
    (c.sem = true ∨ c.isTransferInProgress = true)

theorem slaveWaitGood_iff {c : SCtx} {w : Option Wait} : slaveWaitGood c w = true ↔ SlaveWaits c w := by
  cases w <;> simp [slaveWaitGood, SlaveWaits, and_assoc]

theorem slaveDmaGood_iff {p : Params} {c : SCtx} {d : DmaCh} : slaveDmaGood p c d = true ↔ SlaveChannel p c d := by
  constructor
  · intro h
    unfold slaveDmaGood at h
    split at h
    · exact .stopped
    · obtain ⟨⟨htype, hbusy⟩, hgood⟩ : (_ ∧ _) ∧ _ := by simpa only [Bool.and_eq_true, beq_iff_eq] using h
      exact .stx htype hbusy hgood
    · obtain ⟨⟨htype, hbusy⟩, hgood⟩ : (_ ∧ _) ∧ _ := by simpa only [Bool.and_eq_true, beq_iff_eq] using h
      exact .srx htype hbusy hgood
    · cases h
  · rintro (_ | ⟨htype, hbusy, hgood⟩ | ⟨htype, hbusy, hgood⟩)
    · rfl
    · simp [slaveDmaGood, htype, hbusy, hgood]
    · simp [slaveDmaGood, htype, hbusy, hgood]

/-- The invariant of an instance with the role Slave. -/
theorem slaveGood_iff {p : Params} {c : SCtx} {x : Inst} (hrole : x.role = .slave c) :
    Inst.good p x = true ↔ SlaveSound p c x.hw x.dma ∧ SlaveWaits c x.hostw := by
  rw [Inst.good, hrole, Bool.and_eq_true, hwGood_iff]
  simp only [slaveGood, Bool.and_eq_true, Bool.not_eq_true', beq_iff_eq, decide_eq_true_iff, slaveWaitGood_iff,
    slaveDmaGood_iff]
  constructor
  · rintro ⟨hfits, ⟨⟨⟨⟨⟨⟨⟨⟨h1, h2⟩, h3⟩, hphase⟩, h4⟩, h5⟩, h6⟩, h7⟩, hwaits⟩, hlogic⟩
    refine ⟨⟨hfits, h1, h2, h3, fun hb => ?_, fun hb => ?_, h4, h5, h6, h7, fun hon => ?_, fun hl hb => ?_⟩, hwaits⟩
    · simpa [hb] using hphase
    · simpa [hb] using hphase
    · have hon : (c.listening || c.isTransferInProgress) = true := by simpa using hon
      simpa [hon] using hlogic
    · simpa [hl, hb, and_assoc] using hlogic
  · rintro ⟨hs, hwaits⟩
    refine ⟨hs.toHwFits, ⟨⟨⟨⟨⟨⟨⟨⟨hs.men, hs.irqEn⟩, hs.mie⟩, ?_⟩, hs.repeatedStarts⟩, hs.txGood⟩, hs.rxGood⟩, hs.channel⟩,
      hwaits⟩, ?_⟩
    · cases hb : c.isTransferInProgress
      · simpa using hs.free hb
      · simpa using hs.busy hb
    · by_cases hon : c.listening = true ∨ c.isTransferInProgress = true
      · rw [if_pos (by simpa using hon)]
        simpa using hs.on hon
      · obtain ⟨hl, hb⟩ := not_or.mp hon
        rw [if_neg (by simpa using hon)]
        simpa [and_assoc] using hs.off (by simpa using hl) (by simpa using hb)

/-! ## An instance without a role -/

/-- The invariant of an instance without a role: nothing enabled, nothing running (R45, R50, R384). -/
structure UnownedSound (p : Params) (x : Inst) : Prop extends HwFits p x.hw where
  men : x.hw.men = false
  sen : x.hw.sen = false
  irqEn : x.hw.irqEn = false
  mie : x.hw.mie = .none
  sie : x.hw.sie = .none
  dma : x.dma = .stopped
  hostw : x.hostw = none

theorem unownedGood_iff {p : Params} {x : Inst} (hrole : x.role = .unowned) :
    Inst.good p x = true ↔ UnownedSound p x := by
  rw [Inst.good, hrole, Bool.and_eq_true, hwGood_iff]
  simp only [unownedGood, Bool.and_eq_true, Bool.not_eq_true', beq_iff_eq]
  constructor
  · rintro ⟨hfits, ⟨⟨⟨⟨⟨h1, h2⟩, h3⟩, h4⟩, h5⟩, h6⟩, h7⟩
    exact ⟨hfits, h1, h2, h3, h4, h5, h6, h7⟩
  · intro h
    exact ⟨h.toHwFits, ⟨⟨⟨⟨⟨⟨h.men, h.sen⟩, h.irqEn⟩, h.mie⟩, h.sie⟩, h.dma⟩, h.hostw⟩⟩

/-! ## The invariant in the spec's words -/

/-- The engine rests exactly in phase Idle (R28). -/
theorem MasterSound.idle_iff {p : Params} {m : MCtx} {h : HW} {d : DmaCh} (hs : MasterSound p m h d) :
    m.idle = true ↔ m.phase = .idle := by
  have hflight (hf : InFlight m) : m.idle = true ↔ m.phase = .idle := by
    rw [hf.idle, hf.phase]
    split <;> simp
  cases hs.doing with
  | resting h => exact iff_of_true h.idle h.phase
  | sending h => exact hflight h.toInFlight
  | receiving h => exact hflight h.toInFlight

theorem MasterSound.resting {p : Params} {m : MCtx} {h : HW} {d : DmaCh} (hs : MasterSound p m h d)
    (hidle : m.idle = true) : Resting m h d := by
  cases hs.doing with
  | resting h => exact h
  | sending h => cases h.idle.symm.trans hidle
  | receiving h => cases h.idle.symm.trans hidle

/-- A channel that runs serves the master's registers in a DMA transfer in flight (R342). -/
theorem MasterSound.channel {p : Params} {m : MCtx} {h : HW} {dir : DmaDir} {reg : DmaReg} {ptr count : Nat}
    (hs : MasterSound p m h (.running dir reg ptr count)) :
    (reg = .mtx ∨ reg = .mrx) ∧ m.transferType = .dma ∧ m.idle = false := by
  cases hs.doing with
  | resting h => cases h.dma
  | sending h =>
    have hchannel := h.channel
    unfold sendDmaGood at hchannel
    split at hchannel
    · cases ‹DmaCh.running dir reg ptr count = .stopped›
    · cases ‹DmaCh.running dir reg ptr count = .stopped›
    · cases ‹DmaCh.running dir reg ptr count = .running .memToPeriph .mtx _ _›
      exact ⟨.inl rfl, ‹_›, h.idle⟩
    · cases hchannel
  | receiving h =>
    cases h.remaining with
    | channel htype => exact ⟨.inr rfl, htype, h.idle⟩

/-- Settles O54: the parts of the invariant, role by role. -/
theorem goodStatesMeetTheSpecsInvariants : Obligations.GoodStatesMeetTheSpecsInvariants := by
  intro s hs x hx
  have hgood : Inst.good s.par x = true := by
    obtain ⟨-, -, -, hall⟩ := hs
    exact List.all_eq_true.mp hall x hx
  refine ⟨fun m hrole => ?master, fun c hrole => ?slave, fun dir reg ptr count hdma => ?channel⟩
  case master =>
    obtain ⟨hsound, -⟩ := (masterGood_iff hrole).mp hgood
    refine ⟨hsound.oneDirection, hsound.rxSize, hsound.idle_iff, hsound.queue, fun hidle => ?_⟩
    have h := hsound.resting hidle
    exact ⟨h.txBuff, h.rxBuff, h.txSize, h.rxSize, h.mie, h.dma⟩
  case slave =>
    obtain ⟨hsound, -⟩ := (slaveGood_iff hrole).mp hgood
    refine ⟨hsound.free, fun hphase => Bool.eq_false_iff.mpr fun hbusy => ?_⟩
    obtain h | h := hsound.busy hbusy <;> cases hphase.symm.trans h
  case channel =>
    cases hrole : x.role with
    | unowned => cases hdma.symm.trans ((unownedGood_iff hrole).mp hgood).dma
    | master m =>
      obtain ⟨hsound, -⟩ := (masterGood_iff hrole).mp hgood
      obtain ⟨hreg, htype, hidle⟩ := (hdma ▸ hsound).channel
      exact .inl ⟨hreg, m, rfl, htype, hidle⟩
    | slave c =>
      obtain ⟨hsound, -⟩ := (slaveGood_iff hrole).mp hgood
      have hchannel := hsound.channel
      rw [hdma] at hchannel
      cases hchannel with
      | stx htype hbusy => exact .inr ⟨.inl rfl, c, rfl, htype, hbusy⟩
      | srx htype hbusy => exact .inr ⟨.inr rfl, c, rfl, htype, hbusy⟩

end Sys2Proof.Machine
end

section
/-! SUPPORT. The slave engine keeps its invariant: every request, every handler and every step of its bus side (spec
10_state.md R34; 43_slave_requests.md R277 to R284; 44_slave_events.md R300 to R309; 45_dma.md R340 to R342). -/

namespace Sys2Proof.Machine
open Sys2Proof.Claims

/-! ## What holds wherever a rule goes on -/

/-- Wherever the rule goes on, `P` holds of what it leaves. -/
def Yields {α : Type} (r : Res α) (P : α → Prop) : Prop := ∀ a, r = .next a → P a

section
variable {α β : Type} {r r' : Res α} {P Q : α → Prop} {a : α}

theorem Yields.next (h : P a) : Yields (.next a) P := by
  rintro _ ⟨⟩
  exact h

theorem Yields.refused {e : Refusal} : Yields (.refused e) P := nofun

theorem Yields.fault {e : Fault} : Yields (.fault e) P := nofun

theorem Yields.mono (h : Yields r P) (hPQ : ∀ a, P a → Q a) : Yields r Q := fun a ha => hPQ a (h a ha)

theorem Yields.andThen {f : α → Res β} {R : β → Prop} (hr : Yields r P) (hf : ∀ a, P a → Yields (f a) R) :
    Yields (Machine.andThen r f) R := by
  intro b hb
  obtain ⟨a, ha, hb⟩ := andThen_eq_next.mp hb
  exact hf a (hr a ha) b hb

theorem Yields.ite {c : Prop} [Decidable c] (h : c → Yields r P) (h' : ¬ c → Yields r' P) :
    Yields (if c then r else r') P := by
  split
  · exact h ‹_›
  · exact h' ‹_›

end

/-! ## The slave's view -/

/-- The invariant of a slave, of a view. -/
def Node.SlaveGood (n : SNode) : Prop := SlaveSound n.par n.ctx n.hw n.dma ∧ SlaveWaits n.ctx n.hostw

section
variable {n : SNode} {p : Params} {c : SCtx} {h : HW} {d : DmaCh} {buf len : Nat} {o : Origin} {ev : CbEvent}
  {reg : DmaReg} {dir : Dir} {timeout : Option Nat} {st : Status}

/-- The buffer supplied by `SSETTX` or `SSETRX` is good, a withdrawn one null (R279, R280). -/
theorem bufGood_supplied (hlen : len < 2 ^ p.sizeW) (hwraps : ¬ bufferWraps p buf len = true) :
    bufGood p (if len = 0 then none else some buf) len = true := by
  have hfits : buf + len ≤ 2 ^ p.addrW := by simpa [bufferWraps] using hwraps
  split
  · exact bufGood_none.mpr ‹_›
  · exact bufGood_some.mpr ⟨hlen, by omega⟩

/-- A pointer that advances stays good (R82). -/
theorem bufGood_ptrNext {b : Option Nat} {a count : Nat} (h : bufGood p b count = true) :
    bufGood p (some (ptrNext p a)) (count - 1) = true := by
  have hcount : count < 2 ^ p.sizeW := by
    simp only [bufGood, Bool.and_eq_true, decide_eq_true_eq] at h
    exact h.1
  exact bufGood_some.mpr ⟨by omega, Nat.mod_lt _ (Nat.two_pow_pos _)⟩

/-- The channel's invariant depends on the transfer type and the transaction only. -/
theorem SlaveChannel.congr {c' : SCtx} (hd : SlaveChannel p c d) (htype : c'.transferType = c.transferType := by rfl)
    (hbusy : c'.isTransferInProgress = c.isTransferInProgress := by rfl) : SlaveChannel p c' d := by
  cases hd with
  | stopped => exact .stopped
  | stx ht hb hgood => exact .stx (htype.trans ht) (hbusy.trans hb) hgood
  | srx ht hb hgood => exact .srx (htype.trans ht) (hbusy.trans hb) hgood

/-- Outside a transaction the channel is stopped. -/
theorem SlaveChannel.eq_stopped (hd : SlaveChannel p c d) (hbusy : c.isTransferInProgress = false) : d = .stopped := by
  cases hd with
  | stopped => rfl
  | stx _ hb | srx _ hb => cases hbusy.symm.trans hb

/-! ## Requests and the callback -/

/-- Behind a request of a callback: the invariant, the transaction as before. -/
def Node.SlaveStays (n n' : SNode) : Prop :=
  n'.SlaveGood ∧ n'.ctx.isTransferInProgress = n.ctx.isTransferInProgress

theorem sSetTx_stays (hn : n.SlaveGood) (hlen : len < 2 ^ n.par.sizeW) : Yields (sSetTx o buf len n) n.SlaveStays :=
  .ite (fun _ => .refused) fun _ => .ite (fun _ => .refused) fun hwraps =>
    .next ⟨⟨{ hn.1 with txGood := bufGood_supplied hlen hwraps, channel := hn.1.channel.congr }, hn.2⟩, rfl⟩

theorem sSetRx_stays (hn : n.SlaveGood) (hlen : len < 2 ^ n.par.sizeW) : Yields (sSetRx o buf len n) n.SlaveStays :=
  .ite (fun _ => .refused) fun _ => .ite (fun _ => .refused) fun hwraps =>
    .next ⟨⟨{ hn.1 with rxGood := bufGood_supplied hlen hwraps, channel := hn.1.channel.congr }, hn.2⟩, rfl⟩

theorem sStatus_stays (hn : n.SlaveGood) : Yields (sStatus o n) n.SlaveStays :=
  .ite (fun _ => .refused) fun _ => .next ⟨hn, rfl⟩

theorem sCallbackRequest_stays {r : CbReq} (hn : n.SlaveGood) : Yields (sCallbackRequest r n) n.SlaveStays := by
  cases r with
  | ssettx => exact sSetTx_stays hn (onPort_lt _ _)
  | ssetrx => exact sSetRx_stays hn (onPort_lt _ _)
  | sstatus => exact sStatus_stays hn
  | msend | mrecv | mstatus | mgetbaud | msetbaud => exact .refused

theorem sCallbackRun_stays {rs : List CbReq} (hn : n.SlaveGood) : Yields (sCallbackRun rs n) n.SlaveStays := by
  induction rs generalizing n with
  | nil => exact .next ⟨hn, rfl⟩
  | cons r rs ih =>
    exact (sCallbackRequest_stays hn).andThen fun n₁ h₁ => (ih h₁.1).mono fun n₂ h₂ => ⟨h₂.1, h₂.2.trans h₁.2⟩

theorem sCallback_stays (hn : n.SlaveGood) : Yields (sCallback ev n) n.SlaveStays := by
  unfold sCallback
  split
  · exact .next ⟨hn, rfl⟩
  · exact sCallbackRun_stays (n := { n with cbTrace := _ }) hn

/-- The foreground's requests find the host not waiting (R272). -/
theorem hostw_of_not_suspended {C : Type} {n : Node C} {exempt : Bool}
    (h : ¬ suspended .foreground exempt n = true) : n.hostw = none := by
  cases hw : n.hostw <;> simp_all [suspended]

theorem SlaveWaits.none : SlaveWaits c none := nofun

/-- An accepted request begins a transaction (R281). -/
theorem sAccepted_sound {blocking : Bool} (hs : SlaveSound n.par n.ctx n.hw n.dma) (hlen : len < 2 ^ n.par.sizeW)
    (hverdict : sVerdict n.par n.ctx buf len = .accept) :
    SlaveSound n.par (sAccepted dir buf len blocking n).ctx (sAccepted dir buf len blocking n).hw n.dma := by
  obtain ⟨-, hbusy, hpos, hfits⟩ := sVerdict_accept.mp hverdict
  have hgood : bufGood n.par (some buf) len = true := bufGood_some.mpr ⟨hlen, by omega⟩
  exact { hs with
    busy := fun _ => .inl rfl
    free := nofun
    txGood := by
      by_cases hdir : dir = .send
      · simpa [sAccepted, hdir] using hgood
      · simpa [sAccepted, hdir] using hs.txGood
    rxGood := by
      by_cases hdir : dir = .send
      · simpa [sAccepted, hdir] using hs.rxGood
      · simpa [sAccepted, hdir] using hgood
    channel := by
      rw [hs.channel.eq_stopped hbusy]
      exact .stopped
    on := fun _ => ⟨rfl, rfl⟩
    off := nofun }

/-- A request that makes its caller wait does so for its transaction (R281). -/
theorem sTransfer_good (hn : n.SlaveGood) (hlen : len < 2 ^ n.par.sizeW) :
    Yields (sTransfer dir buf len timeout n) Node.SlaveGood := by
  refine .ite (fun _ => .refused) fun hfree => ?_
  cases hverdict : sVerdict n.par n.ctx buf len with
  | answer st => exact .next hn
  | refuse r => exact .refused
  | accept =>
    obtain ⟨hlisten, -⟩ := sVerdict_accept.mp hverdict
    refine .next ?_
    cases timeout with
    | none => exact ⟨sAccepted_sound hn.1 hlen hverdict, hostw_of_not_suspended hfree ▸ .none⟩
    | some t =>
      refine ⟨sAccepted_sound hn.1 hlen hverdict, ?_⟩
      rintro _ ⟨⟩
      exact ⟨rfl, rfl, rfl, hlisten, .inr rfl⟩

/-! ## The ends of a transaction -/

/-- The teardown leaves an on-demand slave off (R284). -/
theorem sTeardown_sound (hs : HwFits n.par n.hw) (hmen : n.hw.men = false) (hirq : n.hw.irqEn = true)
    (hmie : n.hw.mie = .none) (hlisten : n.ctx.listening = false) :
    SlaveSound n.par (sTeardown n).ctx (sTeardown n).hw .stopped :=
  { hs with
    men := hmen, irqEn := hirq, mie := hmie, busy := nofun, free := fun _ => rfl, repeatedStarts := Nat.zero_le _
    txGood := bufGood_none.mpr rfl, rxGood := bufGood_none.mpr rfl, channel := .stopped
    on := fun h => by cases h with
      | inl h => cases hlisten.symm.trans h
      | inr h => cases h
    off := fun _ _ => ⟨rfl, rfl, rfl⟩ }

/-- The context at the end of a transaction: the remainder of a running channel is a good buffer again (R301). -/
theorem sEndCtx_eq (hs : SlaveSound p c h d) : ∃ tb ts rb rs st, bufGood p tb ts = true ∧ bufGood p rb rs = true ∧
    sEndCtx d c = { c with
      txBuff := tb, txSize := ts, rxBuff := rb, rxSize := rs, status := st, repeatedStarts := 0
      isTransferInProgress := false, phase := .idle } := by
  cases hs.channel with
  | stopped => exact ⟨_, _, _, _, _, hs.txGood, hs.rxGood, rfl⟩
  | stx _ _ hgood => exact ⟨_, _, _, _, _, hgood, hs.rxGood, rfl⟩
  | srx _ _ hgood => exact ⟨_, _, _, _, _, hs.txGood, hgood, rfl⟩

/-- The end of a transaction: a listening slave stays on, an on-demand one is torn down and its caller released
(R301). -/
theorem sEnd_good (hn : n.SlaveGood) : (sEnd n).SlaveGood := by
  obtain ⟨hs, hw⟩ := hn
  obtain ⟨tb, ts, rb, rs, st, htx, hrx, hctx⟩ := sEndCtx_eq hs
  simp only [sEnd, sEndCommon, hctx, Node.SlaveGood]
  cases hlisten : n.ctx.listening
  case true =>
    obtain ⟨hsen, harmed⟩ := hs.on (.inl hlisten)
    refine ⟨{ hs with
      busy := nofun, free := fun _ => rfl, repeatedStarts := Nat.zero_le _, txGood := htx, rxGood := hrx
      channel := .stopped, on := fun _ => ⟨hsen, harmed⟩, off := fun h => by cases h }, fun v hv => ?_⟩
    obtain ⟨-, -, -, hoff, -⟩ := hw v hv
    cases hoff.symm.trans hlisten
  case false =>
    have htorn := sTeardown_sound (n := { n with ctx := { n.ctx with listening := false } }) hs.toHwFits hs.men hs.irqEn
      hs.mie rfl
    refine ⟨{ htorn with channel := .stopped }, fun v hv => ?_⟩
    obtain ⟨hengine, hstage, hblocking, -, -⟩ := hw v hv
    exact ⟨hengine, hstage, hblocking, rfl, .inl (by simp [sTeardown, dmaStop, hblocking])⟩

theorem boundary_good (hn : n.SlaveGood) : Yields (boundary n) Node.SlaveGood :=
  (sCallback_stays (sEnd_good hn)).mono fun _ h => h.1

/-! ## The handlers -/

/-- The slave's logic is on. -/
def Node.SlaveOn (n : SNode) : Prop := n.ctx.listening = true ∨ n.ctx.isTransferInProgress = true

/-- A transaction has begun: an engine that is on stays so (R303). -/
theorem begun_good (hn : n.SlaveGood) (hon : n.SlaveOn) : n.begun.SlaveGood := by
  obtain ⟨hs, hw⟩ := hn
  refine ⟨{ hs with
    busy := fun _ => .inr rfl, free := nofun, channel := ?_, on := fun _ => hs.on hon, off := nofun }, fun v hv => ?_⟩
  · cases hchannel : n.ctx.isTransferInProgress
    · exact hs.channel.eq_stopped hchannel ▸ .stopped
    · exact hs.channel.congr rfl hchannel.symm
  · obtain ⟨hengine, hstage, hblocking, hlisten, -⟩ := hw v hv
    exact ⟨hengine, hstage, hblocking, hlisten, .inr rfl⟩

/-- A clear of a flag of the bus side, on or off, is kept (R44, R86). -/
theorem SlaveSound.clears {f : SSources → SSources} (hs : SlaveSound p c h d) (hf : f .none = .none) :
    SlaveSound p c { h with sef := f h.sef } d := by
  refine { hs with off := fun hl hb => ?_ }
  obtain ⟨hsen, hsie, hsef⟩ := hs.off hl hb
  exact ⟨hsen, hsie, (congrArg f hsef).trans hf⟩

/-- An enable outside the five of the armed set, in a transaction (R303, R340). -/
theorem SlaveSound.enables {f : SSources} (hs : SlaveSound p c h d) (hbusy : c.isTransferInProgress = true)
    (harmed : armed f = armed h.sie) : SlaveSound p c { h with sie := f } d :=
  { hs with
    on := fun hon => ⟨(hs.on hon).1, harmed.trans (hs.on hon).2⟩
    off := fun _ hb => by cases hbusy.symm.trans hb }

theorem bufAddr_eq_next {b : Option Nat} {a : Nat} : bufAddr b = .next a ↔ b = some a := by
  cases b <;> simp [bufAddr]

theorem addrRead_good (hn : n.SlaveGood) (hbusy : n.ctx.isTransferInProgress = true) :
    Yields (addrRead n) Node.SlaveGood := by
  refine (sCallback_stays (n := { n with ctx := { n.ctx with txUnderrunWarning := false } })
    ⟨{ hn.1 with channel := hn.1.channel.congr }, hn.2⟩).andThen fun m ⟨hm, hkept⟩ => ?_
  have hbusy : m.ctx.isTransferInProgress = true := hkept.trans hbusy
  refine .ite (fun ⟨htype, _⟩ => ?_) fun _ => .next ⟨hm.1.enables hbusy rfl, hm.2⟩
  exact Yields.andThen (fun a => bufAddr_eq_next.mp) fun a ha =>
    .next ⟨{ hm.1 with channel := .stx htype hbusy (ha ▸ hm.1.txGood) }, hm.2⟩

theorem addrWrite_good (hn : n.SlaveGood) (hbusy : n.ctx.isTransferInProgress = true) :
    Yields (addrWrite n) Node.SlaveGood := by
  refine (sCallback_stays hn).andThen fun m ⟨hm, hkept⟩ => ?_
  have hbusy : m.ctx.isTransferInProgress = true := hkept.trans hbusy
  refine .ite (fun ⟨htype, _⟩ => ?_) fun _ => .next ⟨hm.1.enables hbusy rfl, hm.2⟩
  exact Yields.andThen (fun a => bufAddr_eq_next.mp) fun a ha =>
    .next ⟨{ hm.1 with channel := .srx htype hbusy (ha ▸ hm.1.rxGood) }, hm.2⟩

theorem handleAddrvalid_good (hn : n.SlaveGood) (hon : n.SlaveOn) : Yields (handleAddrvalid n) Node.SlaveGood :=
  .ite (fun _ => addrRead_good (begun_good hn hon) rfl) fun _ => addrWrite_good (begun_good hn hon) rfl

/-- A handler that asks for a buffer where there is none, and then goes on. -/
theorem askedBuffer_good {c : Prop} [Decidable c] {f : SNode → Res SNode} (hn : n.SlaveGood)
    (hf : ∀ m : SNode, m.SlaveGood → Yields (f m) Node.SlaveGood) :
    Yields (andThen (if c then sCallback ev n else .next n) f) Node.SlaveGood :=
  Yields.andThen (.ite (fun _ => (sCallback_stays hn).mono fun _ h => h.1) fun _ => .next hn) hf

theorem sendNextByte_good (hn : n.SlaveGood) : Yields (sendNextByte n) Node.SlaveGood :=
  Yields.andThen (P := fun _ => True) (fun _ _ => trivial) fun _ _ =>
    Yields.andThen (P := fun _ => True) (fun _ _ => trivial) fun _ _ =>
      .next ⟨{ hn.1.clears (f := fun f => { f with txdata := false }) rfl with
        txGood := bufGood_ptrNext hn.1.txGood, channel := hn.1.channel.congr }, hn.2⟩

theorem handleTxdata_good (hn : n.SlaveGood) : Yields (handleTxdata n) Node.SlaveGood :=
  askedBuffer_good hn fun _ hm => .ite (fun _ => .next ⟨{ hm.1.clears (f := fun f => { f with txdata := false }) rfl with
    channel := hm.1.channel.congr }, hm.2⟩) fun _ => sendNextByte_good hm

theorem storeByte_good {b : Byte} (hn : n.SlaveGood) : Yields (storeByte b n) Node.SlaveGood :=
  Yields.andThen (P := fun _ => True) (fun _ _ => trivial) fun _ _ =>
    Yields.andThen (P := fun _ => True) (fun _ _ => trivial) fun _ _ =>
      .next ⟨{ hn.1 with rxGood := bufGood_ptrNext hn.1.rxGood, channel := hn.1.channel.congr }, hn.2⟩

theorem readSrdr_good (hn : n.SlaveGood) : (readSrdr n).SlaveGood :=
  ⟨hn.1.clears (f := fun f => { f with rxdata := false }) rfl, hn.2⟩

theorem setSStatus_good (hn : n.SlaveGood) : (setSStatus st n).SlaveGood :=
  ⟨{ hn.1 with channel := hn.1.channel.congr }, hn.2⟩

theorem handleRxdata_good (hn : n.SlaveGood) : Yields (handleRxdata n) Node.SlaveGood :=
  askedBuffer_good hn fun _ hm => .ite (fun _ => .next (setSStatus_good (readSrdr_good hm)))
    fun _ => storeByte_good (readSrdr_good hm)

theorem handleRstart_good (hn : n.SlaveGood) : Yields (handleRstart n) Node.SlaveGood := by
  have hcounted : Node.SlaveGood { n with
      hw := { n.hw with sef := { n.hw.sef with rstart := false } }
      ctx := { n.ctx with repeatedStarts := min (n.ctx.repeatedStarts + 1) 255 } } :=
    ⟨SlaveSound.clears (f := fun f => { f with rstart := false })
      { hn.1 with repeatedStarts := Nat.min_le_right _ _, channel := hn.1.channel.congr } rfl, hn.2⟩
  exact .ite (fun _ => .next hcounted) fun _ => boundary_good hcounted

theorem handleStop_good (hn : n.SlaveGood) : Yields (handleStop n) Node.SlaveGood :=
  boundary_good (n := { n with hw := { n.hw with sef := { n.hw.sef with stop := false } } })
    ⟨hn.1.clears (f := fun f => { f with stop := false }) rfl, hn.2⟩

/-- A status written at the end of a transaction, whose callback hears of an error (R308, R309, R341). -/
theorem slaveErrorEnd_good (hn : n.SlaveGood) :
    Yields (sCallback .errorEvent (sEnd (setSStatus st n))) Node.SlaveGood :=
  (sCallback_stays (sEnd_good (setSStatus_good hn))).mono fun _ h => h.1

theorem handleBiterr_good (hn : n.SlaveGood) : Yields (handleBiterr n) Node.SlaveGood :=
  slaveErrorEnd_good (n := { n with hw := { n.hw with sef := { n.hw.sef with biterr := false } } })
    ⟨hn.1.clears (f := fun f => { f with biterr := false }) rfl, hn.2⟩

theorem handleSfifoerr_good (hn : n.SlaveGood) : Yields (handleSfifoerr n) Node.SlaveGood :=
  slaveErrorEnd_good (n := { n with hw := { n.hw with sef := { n.hw.sef with sfifoerr := false } } })
    ⟨hn.1.clears (f := fun f => { f with sfifoerr := false }) rfl, hn.2⟩

theorem slaveDmaok_good (hn : n.SlaveGood) (hbusy : n.ctx.isTransferInProgress = true) :
    Yields (slaveDmaok reg n) Node.SlaveGood :=
  .ite
    (fun _ => .next ⟨SlaveSound.enables { hn.1 with txGood := bufGood_none.mpr rfl, channel := .stopped } hbusy rfl, hn.2⟩)
    fun _ => .next ⟨SlaveSound.enables { hn.1 with rxGood := bufGood_none.mpr rfl, channel := .stopped } hbusy rfl, hn.2⟩

theorem slaveDmaerr_good (hn : n.SlaveGood) : Yields (slaveDmaerr reg n) Node.SlaveGood := slaveErrorEnd_good hn

/-! ## The abort and the timeout -/

theorem sAbort_good (hn : n.SlaveGood) : Yields (sAbort n) Node.SlaveGood := by
  obtain ⟨hs, hw⟩ := hn
  refine .ite (fun _ => .refused) fun hfree => .ite (fun _ => .next ⟨hs, hw⟩) fun _ => .ite (fun _ => .next ⟨hs, hw⟩)
    fun hlisten => .next ⟨?_, hostw_of_not_suspended hfree ▸ .none⟩
  exact { sTeardown_sound hs.toHwFits hs.men hs.irqEn hs.mie (Bool.eq_false_iff.mpr hlisten) with channel := .stopped }

/-- The expiry of an on-demand slave's timer (R282). -/
theorem slaveTimeout_good (hs : SlaveSound n.par n.ctx n.hw n.dma) (hlisten : n.ctx.listening = false) :
    (slaveTimeout n).SlaveGood :=
  ⟨{ sTeardown_sound hs.toHwFits hs.men hs.irqEn hs.mie hlisten with channel := .stopped }, .none⟩

end

/-! ## The bus side and the init -/

section
variable {p : Params} {c : SCtx} {x : Inst}

/-- A step of the slave's bus side raises a flag of an engine that is on (R300). -/
theorem bussEffect_sound {act : BussAct} {d : DmaCh} {h : HW} (hs : SlaveSound p c h d) (hsen : h.sen = true) :
    SlaveSound p c (bussEffect act c h) d := by
  have hoff (hl : c.listening = false) (hb : c.isTransferInProgress = false) : False := by
    cases (hs.off hl hb).1.symm.trans hsen
  cases act <;> exact { hs with off := fun hl hb => (hoff hl hb).elim }

theorem hwFits_hwReset {h : HW} (hdepth : 1 ≤ p.rxDepth) : HwFits p (hwReset h) :=
  ⟨Nat.zero_le _, Nat.zero_le _, hdepth, Nat.zero_le _, nofun⟩

/-- An init of the slave leaves it on if it listens, else off (R270). -/
theorem sInit_sound {cfg : Cfg} {h : HW} (hdepth : 1 ≤ p.rxDepth) :
    SlaveSound p (sFreshCtx cfg) (sInitHw cfg.listening (hwReset h)) .stopped := by
  have hfits := hwFits_hwReset (h := h) hdepth
  rw [sInitHw]
  split
  · next hl => exact { hfits with
      men := rfl, irqEn := rfl, mie := rfl, busy := nofun, free := fun _ => rfl, repeatedStarts := Nat.zero_le _
      txGood := bufGood_none.mpr rfl, rxGood := bufGood_none.mpr rfl, channel := .stopped, on := fun _ => ⟨rfl, rfl⟩
      off := fun h => by cases h.symm.trans hl }
  · next hl => exact { hfits with
      men := rfl, irqEn := rfl, mie := rfl, busy := nofun, free := fun _ => rfl, repeatedStarts := Nat.zero_le _
      txGood := bufGood_none.mpr rfl, rxGood := bufGood_none.mpr rfl, channel := .stopped
      on := fun h => by cases h with
        | inl h => exact absurd h hl
        | inr h => cases h
      off := fun _ _ => ⟨rfl, rfl, rfl⟩ }

/-- A deinit of the slave turns everything off (R271). -/
theorem sDeinit_sound {y : Inst} (hs : SlaveSound p c x.hw x.dma) (hbusy : c.isTransferInProgress = false)
    (hhw : y.hw = { x.hw with irqEn := false, sie := .none, sen := false }) (hdma : y.dma = x.dma)
    (hhost : y.hostw = none) : UnownedSound p y := by
  obtain ⟨hfits, hmen, -, hmie, -, -, -, -, -, hchannel, -⟩ := hs
  refine ⟨hhw ▸ { hfits with }, ?_, ?_, ?_, ?_, ?_, hdma.trans (hchannel.eq_stopped hbusy), hhost⟩ <;> rw [hhw]
  · exact hmen
  · exact hmie

end

end Sys2Proof.Machine
end

section
/-! SUPPORT. The master engine keeps its invariant: the accepted transfer, the drain and the fill, every end of a transfer
with its callback, every handler and the timeouts (spec 10_state.md R22 to R28; 40_master_requests.md R152 to R168;
42_master_events.md R230 to R241; 45_dma.md R338, R339, R342). -/

namespace Sys2Proof.Machine
open Sys2Proof.Claims

/-! ## The master's view -/

/-- The invariant of a master but for its host, of a view. -/
structure Node.Sound (n : MNode) : Prop extends MasterSound n.par n.ctx n.hw n.dma where
  wf : n.par.wf

/-- The invariant of a master, of a view. -/
def Node.MasterGood (n : MNode) : Prop := n.Sound ∧ MasterWaits n.ctx n.hostw

/-- A view at rest. -/
structure Node.AtRest (n : MNode) : Prop where
  wf : n.par.wf
  on : MasterOn n.par n.ctx n.hw
  rest : Resting n.ctx n.hw n.dma

section
variable {p : Params} {m m' : MCtx} {h : HW} {d : DmaCh} {n n' : MNode}

theorem Node.AtRest.sound (hn : n.AtRest) : n.Sound := ⟨⟨hn.on, .resting hn.rest⟩, hn.wf⟩

theorem Node.Sound.atRest (hn : n.Sound) (hidle : n.ctx.idle = true) : n.AtRest :=
  ⟨hn.wf, hn.toMasterOn, hn.toMasterSound.resting hidle⟩

/-- Both FIFOs hold at least a word (R9). -/
theorem depths_pos (hwf : p.wf) : 1 ≤ p.txDepth ∧ 1 ≤ p.rxDepth := by
  obtain ⟨-, htx, hrx, -⟩ := hwf
  exact ⟨htx, hrx⟩

theorem Node.Sound.txDepth_pos (hn : n.Sound) : 1 ≤ n.par.txDepth := (depths_pos hn.wf).1

theorem MasterWaits.none : MasterWaits m none := nofun

/-- What is left depends on the transfer type and the context's count only. -/
theorem Remaining.congr {left : Nat} (h : Remaining p m left d) (htype : m'.transferType = m.transferType := by rfl)
    (hsize : m'.rxSize = m.rxSize := by rfl) : Remaining p m' left d := by
  cases h with
  | context ht hs => exact .context (htype.trans ht) (hsize.trans hs)
  | channel ht hgood => exact .channel (htype.trans ht) hgood

/-- What the invariant does not read: the rates, the burst, the semaphore and its flags, the wire. -/
theorem MasterSound.aside (hs : MasterSound p m h d) {mode : Mode} {rate rateHS : BitVec 32}
    {burst blocking aborted sem busOpen : Bool} {mef : MLatched} {baud hs' : Baud} {fIn : Nat} {wire : List WireSym} :
    MasterSound p
      { m with
        mode := mode, baudRate := rate, baudRateHS := rateHS, hsInProgress := burst, blocking := blocking
        abortedByTimeout := aborted, sem := sem }
      { h with mef := mef, baud := baud, hs := hs', fIn := fIn, wire := wire, busOpen := busOpen } d := by
  refine { hs with doing := ?_ }
  cases hs.doing with
  | resting h => exact .resting { h with }
  | sending h => exact .sending { h with }
  | receiving h hpos => exact .receiving { h with remaining := h.remaining.congr } hpos

/-! ## The ends of a transfer -/

/-- Nothing is left of a transfer, and the transmit FIFO has room for its `STOP`. -/
structure Node.Spent (n : MNode) : Prop where
  wf : n.par.wf
  on : MasterOn n.par n.ctx n.hw
  ready : n.StopReady
  rxf : n.hw.rxf = []
  rxLeft : n.hw.rxLeft = 0
  pending : pendingRx n.hw.txf = 0
  stopped : n.ctx.transferType = .interrupts → n.dma = .stopped

theorem endedDma_eq_stopped (h : m.transferType = .interrupts → d = .stopped) : endedDma m d = .stopped := by
  unfold endedDma
  split
  · rfl
  · next htype => exact h (by cases hm : m.transferType <;> simp_all)

/-- The words an end leaves are commands of R115 and receive nothing. -/
theorem stop_appended {stop : Bool} {ws : List CmdWord} (hwords : ∀ w ∈ ws, cmdGood w = true) (hpending : pendingRx ws = 0) :
    (∀ w ∈ ws ++ (if stop then [stopWord] else []), cmdGood w = true) ∧
      pendingRx (ws ++ (if stop then [stopWord] else [])) = 0 := by
  cases stop
  · simpa using ⟨hwords, hpending⟩
  · refine ⟨?_, ?_⟩
    · simp only [if_true, List.mem_append, List.mem_singleton]
      rintro w (hw | rfl)
      · exact hwords w hw
      · exact cmdGood_cmdWord (c := .stop) (d := 0#8)
    · rw [pendingRx_append, hpending]
      rfl

/-- The end of a transfer with its FIFOs kept leaves the engine at rest (R230). -/
theorem ended_atRest {stop : Bool} (hn : n.Spent) : (n.ended stop).AtRest := by
  obtain ⟨hempty, hroom⟩ := hn.ready
  obtain ⟨hwords, hpending⟩ := stop_appended (stop := stop) hn.on.words hn.pending
  have hlen : (if stop then [stopWord] else []).length ≤ 1 := by cases stop <;> simp
  have hon : MasterOn n.par (n.ended stop).ctx (n.ended stop).hw := { hn.on with
    txf := by simp only [Node.ended, List.length_append]; omega
    words := hwords, rxSize := Nat.zero_le _, txGood := bufGood_none.mpr rfl, rxGood := bufGood_none.mpr rfl }
  exact ⟨hn.wf, hon, ⟨rfl, rfl, rfl, rfl, rfl, rfl, rfl, rfl, endedDma_eq_stopped hn.stopped, hempty, hn.rxf, hn.rxLeft,
    hpending⟩⟩

/-- In interrupt mode the channel is stopped (R342). -/
theorem MasterSound.stopped (hs : MasterSound p m h d) (htype : m.transferType = .interrupts) : d = .stopped := by
  cases hs.doing with
  | resting h => exact h.dma
  | sending h =>
    have hchannel := h.channel
    cases d with
    | stopped => rfl
    | running dir reg ptr count => simp [sendDmaGood, htype] at hchannel
  | receiving h =>
    cases h.remaining with
    | context => rfl
    | channel ht => cases htype.symm.trans ht

/-- A force abort leaves the engine at rest with a `STOP` to send (R158, R164). -/
theorem forceAbort_atRest {st : Status} (hn : n.Sound) : Yields (forceAbort st n) fun n' =>
    n'.AtRest ∧ n'.ctx.blocking = n.ctx.blocking ∧ n'.hostw = n.hostw := by
  rw [forceAbort_of hn.txDepth_pos]
  refine .next ⟨⟨hn.wf, { hn.toMasterOn with
    txf := hn.txDepth_pos, rxf := Nat.zero_le _, rxLeft := Nat.zero_le _, words := ?_, queue := Nat.zero_le _
    rxSize := Nat.zero_le _, txGood := bufGood_none.mpr rfl, rxGood := bufGood_none.mpr rfl },
    ⟨rfl, rfl, rfl, rfl, rfl, rfl, rfl, rfl, endedDma_eq_stopped hn.toMasterSound.stopped, rfl, rfl, rfl, rfl⟩⟩,
    rfl, rfl⟩
  simpa using cmdGood_cmdWord

/-! ## The start of a transfer -/

/-- The words of the address phase are commands, and none is `RXN` (R194, R195). -/
theorem addressWords_forall {P : CmdWord → Prop} {receive : Bool} (h : ∀ c d, c ≠ .rxn → P (cmdWord c d)) :
    ∀ w ∈ addressWords m receive, P w := by
  have hstart (d : Byte) : P (startWord m.mode (d.setWidth 11)) := by
    rw [← cmdWord_startCmd]
    exact h _ _ (by cases m.mode <;> decide)
  have hcode : P (0x508#11 ||| m.masterCode.setWidth 11) := cmdWord_masterCode m.masterCode ▸ h _ _ (by decide)
  have hseven := setWidth_addrByte7 m.addr receive ▸ hstart (addrByte7 m.addr receive)
  have hread := setWidth_addrByte10a m.addr true ▸ hstart (addrByte10a m.addr true)
  have hwrite := setWidth_addrByte10a m.addr false ▸ hstart (addrByte10a m.addr false)
  have hlow : P (m.addr.setWidth 11 &&& 0xFF#11) := by
    rw [← setWidth_addrByte10b, ← cmdWord_txd]
    exact h _ _ (by decide)
  refine List.forall_mem_append.mpr ⟨?_, ?_⟩
  · split
    · exact List.forall_mem_singleton.mpr hcode
    · exact List.forall_mem_nil _
  · split
    · exact List.forall_mem_singleton.mpr hseven
    · refine List.forall_mem_append.mpr ⟨List.forall_mem_cons.mpr ⟨hwrite, List.forall_mem_singleton.mpr hlow⟩, ?_⟩
      split
      · exact List.forall_mem_singleton.mpr hread
      · exact List.forall_mem_nil _

theorem txdWords_forall {P : CmdWord → Prop} {mem : Memory} {a count : Nat} (h : ∀ d, P (cmdWord .txd d)) :
    ∀ w ∈ txdWords mem a count, P w := by
  intro w hw
  obtain ⟨j, -, rfl⟩ := List.mem_map.mp hw
  exact cmdWord_txd (mem.read (a + j)) ▸ h _

theorem length_txdWords {mem : Memory} {a count : Nat} : (txdWords mem a count).length = count := by
  simp [txdWords]

/-- Behind an accepted transfer request: the invariant, and the transfer in flight for its caller. -/
def Node.Accepted (blocking : Bool) (n n' : MNode) : Prop :=
  n'.Sound ∧ n'.hostw = n.hostw ∧ n'.ctx.blocking = blocking ∧ n'.ctx.idle = false

/-- A word of a send: a command that receives nothing. -/
def sendWord (w : CmdWord) : Prop := cmdGood w = true ∧ isRxn w = false

theorem sendWord_cmdWord {c : Cmd} {b : Byte} (hc : c ≠ .rxn) : sendWord (cmdWord c b) :=
  ⟨cmdGood_cmdWord, isRxn_cmdWord.trans (decide_eq_false hc)⟩

/-- What an engine at rest has left to send are words of a send. -/
theorem Node.AtRest.sendWords (hn : n.AtRest) : ∀ w ∈ n.hw.txf, sendWord w :=
  fun w hw => ⟨hn.on.words w hw, pendingRx_eq_zero.mp hn.rest.pending w hw⟩

/-- How many data bytes an accepted send moves at once (R153). -/
def Node.firstBytes (len : Nat) (n : MNode) : Nat :=
  if decide ((addressWords n.ctx false).length ≤ n.par.txDepth - n.hw.txf.length) &&
      decide (n.ctx.transferType = .interrupts) then
    min len (n.par.txDepth - n.hw.txf.length - (addressWords n.ctx false).length)
  else 0

theorem firstBytes_fits {len : Nat} : min (n.par.txDepth - n.hw.txf.length) (addressWords n.ctx false).length +
    n.firstBytes len ≤ n.par.txDepth - n.hw.txf.length := by
  unfold Node.firstBytes
  split
  · next h =>
    have hfits := of_decide_eq_true (Bool.and_eq_true_iff.mp h).1
    omega
  · omega

/-- A send that starts from rest is a send in flight (R153). -/
theorem sendStart_sound {buf len : Nat} {stop blocking : Bool} (hn : n.AtRest) (hpos : 1 ≤ len)
    (hlen : len < 2 ^ n.par.sizeW) (hwrap : buf + len ≤ 2 ^ n.par.addrW) :
    Yields (sendStart buf len (mAccepted .send buf len stop blocking n)) (n.Accepted blocking) := by
  obtain ⟨m', hqueue, hstart⟩ :=
    sendStart_of (n := mAccepted .send buf len stop blocking n) (len := len) hn.rest.empty rfl rfl rfl hpos hwrap
  rw [hstart]
  refine .next ?_
  have hempty := withQueue_drop_empty hqueue
  obtain ⟨⟨slots, wr, rd, rfl⟩, hentries⟩ := hqueue
  have hwords : ∀ w ∈ addressWords n.ctx false, sendWord w := addressWords_forall fun _ _ => sendWord_cmdWord
  have hfour := length_addressWords (m := n.ctx) (receive := false)
  have htxf := hn.on.txf
  have hqueued : ∀ w ∈ (addressWords n.ctx false).drop (n.par.txDepth - n.hw.txf.length), sendWord w :=
    fun w hw => hwords w (List.mem_of_mem_drop hw)
  have hpushed (moved : Nat) : ∀ w ∈ n.hw.txf ++ (addressWords n.ctx false).take (n.par.txDepth - n.hw.txf.length) ++
      txdWords n.mem buf moved, sendWord w :=
    List.forall_mem_append.mpr ⟨List.forall_mem_append.mpr
      ⟨hn.sendWords, fun w hw => hwords w (List.mem_of_mem_take hw)⟩, txdWords_forall fun d => sendWord_cmdWord (by decide)⟩
  have hcount : swqCount { n.ctx with swq := slots, swqWr := wr, swqRd := rd } ≤ 4 := by
    have hlength := congrArg List.length hentries
    rw [length_swqEntries, List.length_drop] at hlength
    exact hlength.trans_le (Nat.le_trans (Nat.sub_le _ _) hfour)
  refine ⟨⟨⟨{ hn.on with
      txf := ?txf, words := fun w hw => (hpushed _ w hw).1, queue := Nat.le_succ_of_le hcount, txGood := ?txGood }, .sending
        ⟨⟨rfl, ?phase, rfl, fun w hw => ?queued⟩, rfl, hn.rest.rxSize, hn.rest.rxBuff, hn.rest.rxf, hn.rest.rxLeft,
        ?pending, rfl, ?channel⟩⟩, hn.wf⟩, rfl, rfl, rfl⟩
  case txf =>
    change (n.hw.txf ++ (addressWords n.ctx false).take (n.par.txDepth - n.hw.txf.length) ++
      txdWords n.mem buf (n.firstBytes len)).length ≤ n.par.txDepth
    have hfits := firstBytes_fits (n := n) (len := len)
    simp only [List.length_append, List.length_take, length_txdWords]
    omega
  case txGood => exact bufGood_some.mpr ⟨Nat.lt_of_le_of_lt (Nat.sub_le _ _) hlen, Nat.mod_lt _ (Nat.two_pow_pos _)⟩
  case phase => exact (congrArg (if · then Phase.transferring else .addressing) hempty).symm
  case queued => exact (hqueued w (hentries ▸ hw)).1
  case pending =>
    refine pendingRx_eq_zero.mpr (List.forall_mem_append.mpr ⟨fun w hw => (hpushed _ w hw).2, fun w hw => ?_⟩)
    exact (hqueued w (hentries ▸ hw)).2
  case channel =>
    have hbuf : bufGood n.par (some buf) len = true := bufGood_some.mpr ⟨hlen, by omega⟩
    cases htype : n.ctx.transferType
    · simp [sendDmaGood, mAccepted, htype, hn.rest.dma]
    · simp [sendDmaGood, mAccepted, htype, hbuf]

/-- What is left at the start of a receive: the context's count, or the channel's with the buffer it is armed for. -/
theorem Remaining.armed {buf len : Nat} (hd : d = .stopped) (hsize : m.rxSize = len)
    (hbuf : bufGood p (some buf) len = true) :
    Remaining p m len (if decide (m.transferType = .interrupts) then d else .running .periphToMem .mrx buf len) := by
  subst hd
  cases htype : m.transferType
  · exact .context htype hsize
  · exact .channel htype hbuf

/-- A receive that starts from rest is a receive in flight (R155). -/
theorem recvStart_sound {buf len : Nat} {stop blocking : Bool} (hn : n.AtRest) (hpos : 1 ≤ len) (hmax : len ≤ 256)
    (hlen : len < 2 ^ n.par.sizeW) (hwrap : buf + len ≤ 2 ^ n.par.addrW) :
    Yields (recvStart buf len (mAccepted .receive buf len stop blocking n)) (n.Accepted blocking) := by
  obtain ⟨m', hqueue, hstart⟩ :=
    recvStart_of (n := mAccepted .receive buf len stop blocking n) (buf := buf) (len := len) hn.rest.empty rfl hmax
  rw [hstart]
  refine .next ?_
  have hempty := withQueue_drop_empty hqueue
  obtain ⟨⟨slots, wr, rd, rfl⟩, hentries⟩ := hqueue
  let words := addressWords n.ctx true ++ [rxnWord len]
  let room := n.par.txDepth - n.hw.txf.length
  have hgood : ∀ w ∈ words, cmdGood w = true :=
    List.forall_mem_append.mpr ⟨addressWords_forall fun _ _ _ => cmdGood_cmdWord,
      List.forall_mem_singleton.mpr (cmdWord_rxn hmax ▸ cmdGood_cmdWord)⟩
  have hfive : words.length ≤ 5 := by
    have := length_addressWords (m := n.ctx) (receive := true)
    simp [words]
    omega
  have hcount : swqCount { n.ctx with swq := slots, swqWr := wr, swqRd := rd } ≤ 5 := by
    have hlength := congrArg List.length hentries
    rw [length_swqEntries, List.length_drop] at hlength
    exact hlength.trans_le (Nat.le_trans (Nat.sub_le _ _) hfive)
  have hstream : (n.hw.txf ++ words.take room) ++ words.drop room = (n.hw.txf ++ addressWords n.ctx true) ++ [rxnWord len] := by
    rw [List.append_assoc, List.take_append_drop, List.append_assoc]
  have hstream' : (n.hw.txf ++ words.take room) ++ swqEntries { n.ctx with swq := slots, swqWr := wr, swqRd := rd } = _ :=
    (congrArg _ hentries).trans hstream
  have hrxn : isRxn (rxnWord len) = true := by rw [← cmdWord_rxn hmax, isRxn_cmdWord]; rfl
  have hpending : pendingRx ((n.hw.txf ++ addressWords n.ctx true) ++ [rxnWord len]) = len := by
    have haddress : pendingRx (addressWords n.ctx true) = 0 :=
      pendingRx_eq_zero.mpr (addressWords_forall fun c d hc => isRxn_cmdWord.trans (decide_eq_false hc))
    rw [pendingRx_append, pendingRx_append, hn.rest.pending, haddress, pendingRx, hrxn, if_pos rfl, ← cmdWord_rxn hmax,
      dataField_cmdWord, rxnCount, rxnData, BitVec.toNat_ofNat, pendingRx]
    omega
  have hrxw : min n.par.rxDepth len - 1 < n.par.rxDepth := by
    have : 1 ≤ n.par.rxDepth := (depths_pos hn.wf).2
    omega
  have hbuf : bufGood n.par (some buf) len = true := bufGood_some.mpr ⟨hlen, by omega⟩
  refine ⟨⟨⟨{ hn.on with
      txf := ?txf, words := ?words, queue := hcount, rxw := ?rxw, rxSize := hmax, rxGood := hbuf }, .receiving (left := len)
        ⟨⟨rfl, ?phase, rfl, fun w hw => ?queued⟩, rfl, hn.rest.txSize, hn.rest.txBuff, ?rxrdy, ?remaining, ?bound,
          ?last⟩ fun _ => hpos⟩, hn.wf⟩, rfl, rfl, rfl⟩
  case txf =>
    change (n.hw.txf ++ words.take room).length ≤ n.par.txDepth
    have htxf := hn.on.txf
    rw [List.length_append, List.length_take]
    omega
  case words => exact List.forall_mem_append.mpr ⟨hn.on.words, fun w hw => hgood w (List.mem_of_mem_take hw)⟩
  case rxw =>
    change (if decide (n.ctx.transferType = .interrupts) then min n.par.rxDepth len - 1 else 0) < n.par.rxDepth
    split <;> omega
  case phase => exact (congrArg (if · then Phase.transferring else .addressing) hempty).symm
  case queued => exact hgood w (List.mem_of_mem_drop (hentries ▸ hw))
  case rxrdy => exact of_decide_eq_true
  case remaining => exact .armed hn.rest.dma rfl hbuf
  case bound =>
    refine Nat.le_of_eq ?_
    change n.hw.rxf.length + n.hw.rxLeft + pendingRx ((n.hw.txf ++ words.take room) ++ swqEntries _) = len
    rw [hn.rest.rxf, hn.rest.rxLeft, List.length_nil, Nat.zero_add]
    exact (congrArg pendingRx hstream').trans hpending
  case last =>
    intro w hw
    obtain rfl : rxnWord len = w := by
      have hlast := (congrArg List.getLast? hstream').symm.trans hw
      simpa using hlast
    exact hrxn

/-! ## Requests and the callback -/

section
variable {o : Origin} {dir : Dir} {buf len : Nat} {stop : Bool} {timeout : Option Nat} {ev : CbEvent}

theorem hostw_of_free {C : Type} {n : Node C} (h : ¬ suspended o false n = true) : n.hostw = none := by
  cases hw : n.hostw <;> simp_all [suspended]

/-- A transfer request keeps the invariant if its start does from rest; a host it makes wait has the transfer to wait
for (R152, R154). -/
theorem mTransfer_good {start : Nat → Nat → MNode → Res MNode} (hn : n.MasterGood)
    (hstart : n.AtRest → mVerdict n.par n.ctx dir buf len = .accept →
      Yields (start buf len (mAccepted dir buf len stop timeout.isSome n)) (n.Accepted timeout.isSome)) :
    Yields (mTransfer start dir o buf len stop timeout n) Node.MasterGood := by
  refine .ite (fun _ => .refused) fun hfree => ?_
  cases hverdict : mVerdict n.par n.ctx dir buf len with
  | answer st => exact .next ⟨{ hn.1 with }, hn.2⟩
  | refuse r => exact .refused
  | accept =>
    have hidle := (mVerdict_accept.mp hverdict).1
    refine (hstart (hn.1.atRest hidle) hverdict).andThen fun n' ⟨hs, hhost, hblocking, hbusy⟩ => .next ?_
    cases timeout with
    | none => exact ⟨{ hs with }, hhost.trans (hostw_of_free hfree) ▸ .none⟩
    | some t =>
      refine ⟨{ hs with }, ?_⟩
      rintro _ ⟨⟩
      exact ⟨rfl, hblocking, .inr hbusy⟩

theorem mSend_good (hn : n.MasterGood) (hlen : len < 2 ^ n.par.sizeW) :
    Yields (mSend o buf len stop timeout n) Node.MasterGood :=
  mTransfer_good hn fun hrest hverdict => by
    obtain ⟨-, -, hpos, -, hwrap⟩ := mVerdict_accept.mp hverdict
    exact sendStart_sound hrest (by omega) hlen hwrap

theorem mRecv_good (hn : n.MasterGood) (hlen : len < 2 ^ n.par.sizeW) :
    Yields (mRecv o buf len stop timeout n) Node.MasterGood :=
  mTransfer_good hn fun hrest hverdict => by
    obtain ⟨-, -, hpos, hmax, hwrap⟩ := mVerdict_accept.mp hverdict
    exact recvStart_sound hrest (by omega) (Nat.not_lt.mp fun h => hmax ⟨rfl, h⟩) hlen hwrap

theorem mStatus_good (hn : n.MasterGood) : Yields (mStatus o n) Node.MasterGood :=
  .ite (fun _ => .refused) fun _ => .next ⟨{ hn.1 with }, hn.2⟩

theorem mGetBaud_good (hn : n.MasterGood) : Yields (mGetBaud o n) Node.MasterGood :=
  .ite (fun _ => .refused) fun _ => .next ⟨{ hn.1 with }, hn.2⟩

theorem mSetBaud_good {mode : BitVec 3} {rate rateHS : BitVec 32} (hn : n.MasterGood) :
    Yields (mSetBaud o mode rate rateHS n) Node.MasterGood := by
  refine .ite (fun _ => .refused) fun hfree => ?_
  split
  · exact .refused
  · exact .ite (fun _ => .next ⟨{ hn.1 with }, hn.2⟩) fun _ => .next ⟨⟨hn.1.toMasterSound.aside, hn.1.wf⟩, hn.2⟩

theorem mCallbackRequest_good {r : CbReq} (hn : n.MasterGood) : Yields (mCallbackRequest r n) Node.MasterGood := by
  cases r with
  | msend => exact mSend_good hn (onPort_lt _ _)
  | mrecv => exact mRecv_good hn (onPort_lt _ _)
  | mstatus => exact mStatus_good hn
  | mgetbaud => exact mGetBaud_good hn
  | msetbaud => exact mSetBaud_good hn
  | ssettx | ssetrx | sstatus => exact .refused

theorem mCallbackRun_good {rs : List CbReq} (hn : n.MasterGood) : Yields (mCallbackRun rs n) Node.MasterGood := by
  induction rs generalizing n with
  | nil => exact .next hn
  | cons r rs ih => exact (mCallbackRequest_good hn).andThen fun _ => ih

/-- The callback keeps the invariant, its requests being the foreground's (R231). -/
theorem mCallback_good (hn : n.MasterGood) : Yields (mCallback ev n) Node.MasterGood := by
  unfold mCallback
  split
  · exact .next hn
  · exact mCallbackRun_good (n := { n with cbTrace := _ }) ⟨{ hn.1 with }, hn.2⟩

end

/-! ## The completions -/

section
variable {st : Status} {ev : CbEvent} {clear : MLatched → MLatched}

/-- A host that waits does so on this engine, for a blocking request. -/
def Node.Blocks (n : MNode) : Prop := ∀ v, n.hostw = some v → v.engine = .m ∧ n.ctx.blocking = true

theorem MasterWaits.blocks (hw : MasterWaits n.ctx n.hostw) : n.Blocks := fun v hv => by
  obtain ⟨hengine, hblocking, -⟩ := hw v hv
  exact ⟨hengine, hblocking⟩

/-- Behind the post of a transfer's end a blocking caller's semaphore is set (R26, R231). -/
theorem mPost_good (hn : n.AtRest) (hw : n.Blocks) : (mPost n).MasterGood := by
  refine ⟨⟨hn.sound.toMasterSound.aside, hn.wf⟩, fun v hv => ?_⟩
  obtain ⟨hengine, hblocking⟩ := hw v hv
  exact ⟨hengine, hblocking, .inl (by simp [mPost, hblocking])⟩

theorem mNotify_good (hn : n.AtRest) (hw : n.Blocks) : Yields (mNotify n) Node.MasterGood :=
  mCallback_good (mPost_good hn hw)

theorem setMStatus_atRest (hn : n.AtRest) : (setMStatus st n).AtRest := ⟨hn.wf, { hn.on with }, { hn.rest with }⟩

/-- An end that resets the FIFOs and offers no `STOP` leaves the engine at rest (R230, R236). -/
theorem resetEnd_atRest (hwf : n.par.wf) (hon : MasterOn n.par n.ctx n.hw)
    (hstopped : n.ctx.transferType = .interrupts → n.dma = .stopped) : (mEndRelease (mEndQuiet true n)).AtRest := by
  rw [mEndQuiet_eq]
  exact ⟨hwf, { hon with
    txf := Nat.zero_le _, rxf := Nat.zero_le _, rxLeft := Nat.zero_le _, words := nofun, queue := Nat.zero_le _
    rxSize := Nat.zero_le _, txGood := bufGood_none.mpr rfl, rxGood := bufGood_none.mpr rfl },
    ⟨rfl, rfl, rfl, rfl, rfl, rfl, rfl, rfl, endedDma_eq_stopped hstopped, rfl, rfl, rfl, rfl⟩⟩

/-- An end without `STOP` leaves the host's wait. -/
theorem resetEnd_blocks (hw : n.Blocks) : (mEndRelease (mEndQuiet true n)).Blocks := by
  rw [mEndQuiet_eq]
  exact hw

/-- An error ends the transfer, is told, and its flag cleared (R236). -/
theorem errEnd_good (hn : n.MasterGood) : Yields (errEnd st clear n) Node.MasterGood := by
  obtain ⟨hs, hw⟩ := hn
  have hrest : (mEndRelease (mEndQuiet true (setMPhase .completingError n))).AtRest :=
    resetEnd_atRest hs.wf { hs.toMasterOn with } hs.toMasterSound.stopped
  have hblocks : (mEndRelease (mEndQuiet true (setMPhase .completingError n))).Blocks := resetEnd_blocks hw.blocks
  rw [errEnd, mEnd_noStop, andThen_next]
  refine Yields.andThen (mNotify_good (setMStatus_atRest ⟨hrest.wf, { hrest.on with }, { hrest.rest with }⟩) hblocks)
    fun m hm => .next ⟨⟨hm.1.toMasterSound.aside, hm.1.wf⟩, hm.2⟩

/-- Any other end that resets the FIFOs is a force abort that is told (R230, R339). -/
theorem mFinish_reset (hst : st ≠ .success) :
    mFinish st true true n = andThen (forceAbort st n) mNotify := by
  rw [mFinish, if_neg hst, forceAbort]
  cases mEnd true true (setMPhase .completingError n) <;> rfl

theorem masterDmaerr_good (hn : n.MasterGood) : Yields (masterDmaerr n) Node.MasterGood := by
  rw [masterDmaerr, mFinish_reset (by split <;> decide)]
  refine (forceAbort_atRest hn.1).andThen fun m ⟨hrest, hblocking, hhost⟩ => mNotify_good hrest fun v hv => ?_
  rw [hblocking]
  exact hn.2.blocks v (hhost ▸ hv)

/-- A send with nothing left to do completes (R231, R232). -/
theorem mFinish_good {stop : Bool} (hn : n.Spent) (hw : n.Blocks) :
    Yields (mFinish .success stop false n) Node.MasterGood := by
  rw [mFinish_success hn.ready]
  exact mNotify_good (setMStatus_atRest (ended_atRest hn)) hw

/-- A receive with nothing left to store completes (R235). -/
theorem rxComplete_good (hn : n.Spent) (hw : n.Blocks) : Yields (rxComplete n) Node.MasterGood := by
  rw [rxComplete_eq hn.ready]
  let stop := n.ctx.sendStop || (n.ctx.abortedByTimeout && n.par.abortedRx == .forceStop)
  have hposted := mPost_good (setMStatus_atRest (st := .success) (ended_atRest (stop := stop) hn)) hw
  exact .ite (fun _ => .next hposted) fun _ => mCallback_good hposted

/-- A receive that has nothing left to store is spent: no byte is expected and no word is left to execute. -/
theorem Receiving.spent (hwf : n.par.wf) (hon : MasterOn n.par n.ctx n.hw) (h : Receiving n.par n.ctx n.hw d 0)
    (hstopped : n.ctx.transferType = .interrupts → n.dma = .stopped) : n.Spent := by
  have hbound := h.bound
  have hnil : commandStream n.ctx n.hw = [] := eq_nil_of_pendingRx (by omega) h.last
  obtain ⟨htxf, hqueue⟩ := List.append_eq_nil_iff.mp hnil
  refine ⟨hwf, hon, ⟨swqEntries_eq_nil.mp hqueue, ?_⟩, List.eq_nil_of_length_eq_zero (by omega), by omega, ?_, hstopped⟩
  · rw [htxf]
    exact (depths_pos hwf).1
  · rw [htxf]
    rfl

end

/-! ## The drain of the queue and the fill -/

/-- Words that move from the queue to the FIFO, in their order, leave a transfer in flight (R193). -/
theorem MasterSound.moved {slots : Vector CmdWord 5} {wr rd : Fin 10} {txf : List CmdWord} {phase : Phase}
    (hs : MasterSound p m h d) (hidle : m.idle = false)
    (hstream : txf ++ swqEntries { m with swq := slots, swqWr := wr, swqRd := rd } = commandStream m h)
    (htxf : txf.length ≤ p.txDepth) (hcount : swqCount { m with swq := slots, swqWr := wr, swqRd := rd } ≤ 5)
    (hphase : phase = if swqEmpty { m with swq := slots, swqWr := wr, swqRd := rd } then .transferring else .addressing) :
    MasterSound p { m with swq := slots, swqWr := wr, swqRd := rd, phase := phase } { h with txf := txf } d := by
  have hstream : commandStream { m with swq := slots, swqWr := wr, swqRd := rd, phase := phase } { h with txf := txf } =
      commandStream m h := hstream
  have hflight (hf : InFlight m) : (∀ w ∈ txf, cmdGood w = true) ∧
      InFlight { m with swq := slots, swqWr := wr, swqRd := rd, phase := phase } := by
    have hgood : ∀ w ∈ commandStream m h, cmdGood w = true := List.forall_mem_append.mpr ⟨hs.words, hf.queued⟩
    rw [← hstream] at hgood
    obtain ⟨hwords, hqueued⟩ := List.forall_mem_append.mp hgood
    exact ⟨hwords, { hf with phase := hphase, queued := hqueued }⟩
  cases hs.doing with
  | resting h => cases h.idle.symm.trans hidle
  | sending h =>
    obtain ⟨hwords, hf⟩ := hflight h.toInFlight
    exact { hs with
      txf := htxf, words := hwords, queue := hcount
      doing := .sending { h with toInFlight := hf, pending := (congrArg pendingRx hstream).trans h.pending } }
  | receiving h hpos =>
    obtain ⟨hwords, hf⟩ := hflight h.toInFlight
    exact { hs with
      txf := htxf, words := hwords, queue := hcount
      doing := .receiving { h with
        toInFlight := hf
        remaining := h.remaining.congr
        bound := by
          rw [hstream]
          exact h.bound
        last := by
          rw [hstream]
          exact h.last } hpos }

/-- In flight, the phase says whether the queue is empty (R28). -/
theorem MasterSound.inFlight (hs : MasterSound p m h d) (hidle : m.idle = false) : InFlight m := by
  cases hs.doing with
  | resting h => cases h.idle.symm.trans hidle
  | sending h => exact h.toInFlight
  | receiving h => exact h.toInFlight

/-- A drain of the queue keeps a transfer in flight (R193). -/
theorem drainQueue_good (hn : n.MasterGood) (hidle : n.ctx.idle = false) :
    Yields (drainQueue n) fun n' => n'.MasterGood ∧ n'.ctx.idle = false := by
  obtain ⟨hs, hw⟩ := hn
  have htxf := hs.txf
  have hroom : n.hw.txf.length + (n.par.txDepth - n.hw.txf.length) = n.par.txDepth := by omega
  have hphase := (hs.toMasterSound.inFlight hidle).phase
  obtain ⟨n', hloop, m', hqueue, rfl⟩ := drainLoop_of (Nat.le_refl _) hroom
  obtain ⟨⟨slots, wr, rd, rfl⟩, hentries⟩ := hqueue
  have hstream := congrArg (n.hw.txf ++ (swqEntries n.ctx).take (n.par.txDepth - n.hw.txf.length) ++ ·) hentries
  have hcount := (length_swqEntries _).symm.trans (congrArg List.length hentries)
  have hqueue := hs.queue
  have hmoved (phase : Phase) := hs.toMasterSound.moved (phase := phase) hidle
    (hstream.trans (by rw [List.append_assoc, List.take_append_drop]; rfl))
    (by rw [List.length_append, List.length_take]; omega)
    (by rw [hcount, List.length_drop, length_swqEntries]; omega)
  rw [drainQueue, hloop, andThen_next]
  refine .ite (fun hc => ?empties) fun hc => ?stays
  case empties =>
    obtain ⟨hempty, -⟩ := Bool.and_eq_true_iff.mp hc
    exact .next ⟨⟨⟨hmoved _ (if_pos hempty).symm, hs.wf⟩, hw⟩, hidle⟩
  case stays =>
    refine .next ⟨⟨⟨hmoved n.ctx.phase ?_, hs.wf⟩, hw⟩, hidle⟩
    split
    · next hempty =>
      have hne : n.ctx.phase ≠ .addressing := fun h => hc (by
        rw [Bool.and_eq_true, beq_iff_eq]
        exact ⟨hempty, h⟩)
      rw [hphase] at hne ⊢
      exact if_pos (Decidable.byContradiction fun h => hne (if_neg h))
    · next hne =>
      refine hphase.trans (if_neg fun h => hne (swqEmpty_iff_entries.mpr ?_))
      rw [hentries, swqEmpty_iff_entries.mp h, List.drop_nil]

theorem MasterSound.sends (hs : MasterSound p m h d) (hdir : m.dir = .send) : Sending p m h d := by
  cases hs.doing with
  | resting h => cases hdir.symm.trans h.dir
  | sending h => exact h
  | receiving h => cases hdir.symm.trans h.dir

theorem MasterSound.receives (hs : MasterSound p m h d) (hdir : m.dir = .receive) : ∃ left, Receiving p m h d left ∧
    (m.transferType = .interrupts → 0 < left) := by
  cases hs.doing with
  | resting h => cases hdir.symm.trans h.dir
  | sending h => cases hdir.symm.trans h.dir
  | receiving h hpos => exact ⟨_, h, hpos⟩

/-- Outside DMA mode, and with the channel done, the send's channel does not depend on the count going down. -/
theorem sendDmaGood_sent {txBuff : Option Nat} (h : sendDmaGood p m d = true) :
    sendDmaGood p { m with txBuff := txBuff, txSize := m.txSize - 1 } d = true := by
  unfold sendDmaGood at h ⊢
  split at h <;> simp_all

/-- Of the words of a send, one more is one more. -/
theorem Sending.pushed {w : CmdWord} (hsend : Sending p m h d) (hw : isRxn w = false) :
    pendingRx (commandStream m { h with txf := h.txf ++ [w] }) = 0 := by
  have hpending := hsend.pending
  rw [commandStream, pendingRx_append] at hpending ⊢
  have hone : pendingRx [w] = 0 := pendingRx_eq_zero.mpr (by simpa using hw)
  rw [pendingRx_append]
  omega

/-- A data byte in the FIFO: the word, the pointer and the count (R233). -/
theorem fillOne_good (hn : n.MasterGood) (hdir : n.ctx.dir = .send) :
    Yields (fillOne n) fun n' => n'.MasterGood ∧ n'.ctx.dir = .send := by
  obtain ⟨hs, hw⟩ := hn
  have hsend := hs.toMasterSound.sends hdir
  refine Yields.andThen (P := fun _ => True) (fun _ _ => trivial) fun a _ =>
    Yields.andThen (P := fun _ => True) (fun _ _ => trivial) fun b _ =>
      Yields.andThen (fun _ => pushTxf_eq_next.mp) ?_
  rintro _ ⟨hroom, rfl⟩
  refine .next ⟨⟨⟨⟨{ hs.toMasterOn with
    txf := ?_, words := ?_, txGood := bufGood_ptrNext hs.txGood }, .sending { hsend with
      pending := hsend.pushed isRxn_cmdWord, channel := sendDmaGood_sent hsend.channel }⟩, hs.wf⟩, hw⟩, hdir⟩
  · rw [List.length_append]
    exact hroom
  · exact List.forall_mem_append.mpr ⟨hs.words, List.forall_mem_singleton.mpr cmdGood_cmdWord⟩

theorem fillLoop_good {fuel : Nat} (hn : n.MasterGood) (hdir : n.ctx.dir = .send) :
    Yields (fillLoop fuel n) Node.MasterGood := by
  induction fuel generalizing n with
  | zero => exact .next hn
  | succ fuel ih => exact .ite (fun _ => (fillOne_good hn hdir).andThen fun _ h => ih h.1 h.2) fun _ => .next hn

/-! ## The master events -/

/-- The send's source may be switched in flight, unless the transfer rests. -/
theorem setMieTxrdy_good {v : Bool} (hn : n.MasterGood) (hidle : n.ctx.idle = false) : (setMieTxrdy v n).MasterGood := by
  obtain ⟨hs, hw⟩ := hn
  refine ⟨⟨⟨{ hs.toMasterOn with }, ?_⟩, hs.wf⟩, hw⟩
  cases hs.doing with
  | resting h => cases h.idle.symm.trans hidle
  | sending h => exact .sending { h with }
  | receiving h hpos => exact .receiving { h with } hpos

theorem Sending.spent (hsend : Sending n.par n.ctx n.hw n.dma) (hs : n.Sound) (hqueue : swqEmpty n.ctx = true)
    (hfifo : n.hw.txf = []) : n.Spent := by
  refine ⟨hs.wf, hs.toMasterOn, ⟨swqEmpty_iff.mp hqueue, ?_⟩, hsend.rxf, hsend.rxLeft, ?_, hs.toMasterSound.stopped⟩
  · rw [hfifo]
    exact hs.txDepth_pos
  · rw [hfifo]
    rfl

theorem handleTxrdy_good (hn : n.MasterGood) (hidle : n.ctx.idle = false) : Yields (handleTxrdy n) Node.MasterGood := by
  refine (drainQueue_good hn hidle).andThen fun m ⟨hm, hidle⟩ => .ite (fun _ => .next hm) fun hqueue =>
    .ite (fun _ => .next (setMieTxrdy_good hm hidle)) fun hdir => .ite (fun _ => .next (setMieTxrdy_good hm hidle)) fun _ => ?_
  have hdir : m.ctx.dir = .send := by
    cases hm.1.doing with
    | resting h => cases h.idle.symm.trans hidle
    | sending h => exact h.dir
    | receiving h => exact absurd h.dir hdir
  refine .ite (fun ⟨_, hfifo⟩ => mFinish_good ?_ hm.2.blocks) fun _ => fillLoop_good hm hdir
  exact (hm.1.toMasterSound.sends hdir).spent hm.1 (by simpa using hqueue) hfifo

/-- Of a receive in interrupt mode: the invariant with what it has still to store, which may have come to nothing. -/
structure Node.Draining (n : MNode) : Prop where
  wf : n.par.wf
  on : MasterOn n.par n.ctx n.hw
  receiving : Receiving n.par n.ctx n.hw .stopped n.ctx.rxSize
  interrupts : n.ctx.transferType = .interrupts
  dma : n.dma = .stopped

/-- A byte stored in the buffer: the pointer and the count (R234). -/
theorem drainOne_good (hn : n.Draining) : Yields (drainOne n) fun n' =>
    n'.Draining ∧ n'.hostw = n.hostw ∧ n'.ctx.blocking = n.ctx.blocking ∧ n'.ctx.rxSize = n.ctx.rxSize - 1 := by
  refine Yields.andThen (P := fun r => ∃ rest, n.hw.rxf = r.1 :: rest ∧ r.2 = { n with hw := { n.hw with rxf := rest } })
    (fun r => popRxf_eq_next.mp) ?_
  rintro ⟨b, _⟩ ⟨rest, hrxf, rfl⟩
  refine Yields.andThen (P := fun _ => True) (fun _ _ => trivial) fun a _ =>
    Yields.andThen (P := fun _ => True) (fun _ _ => trivial) fun mem _ => .next ⟨?_, rfl, rfl, rfl⟩
  have hrx := hn.on.rxf
  have hbound := hn.receiving.bound
  rw [hrxf, List.length_cons] at hrx hbound
  refine ⟨hn.wf, { hn.on with
    rxf := Nat.le_of_succ_le hrx, rxSize := Nat.le_trans (Nat.sub_le _ _) hn.on.rxSize
    rxGood := bufGood_ptrNext hn.on.rxGood }, { hn.receiving with
      remaining := .context hn.interrupts rfl, bound := ?_ }, hn.interrupts, hn.dma⟩
  change rest.length + n.hw.rxLeft + pendingRx (commandStream n.ctx n.hw) ≤ n.ctx.rxSize - 1
  omega

/-- Behind `k` bytes stored: the count has gone down by as much, the host waits as before. -/
def Node.DrainedBy (k : Nat) (n n' : MNode) : Prop :=
  n'.Draining ∧ n'.hostw = n.hostw ∧ n'.ctx.blocking = n.ctx.blocking ∧ n'.ctx.rxSize = n.ctx.rxSize - k

theorem lateLoop_good {k : Nat} (hn : n.Draining) : Yields (lateLoop k n) (n.DrainedBy k) := by
  induction k generalizing n with
  | zero => exact .next ⟨hn, rfl, rfl, rfl⟩
  | succ k ih =>
    refine (drainOne_good hn).andThen fun m ⟨hm, hhost, hblocking, hsize⟩ => (ih hm).mono fun n' ⟨hn', h₁, h₂, h₃⟩ => ?_
    exact ⟨hn', h₁.trans hhost, h₂.trans hblocking, by omega⟩

theorem Node.Draining.spent (hn : n.Draining) (hsize : n.ctx.rxSize = 0) : n.Spent := by
  have h := hn.receiving
  rw [hsize] at h
  exact h.spent hn.wf hn.on fun _ => hn.dma

/-- With bytes still to store, a receive that has stored some is one in flight. -/
theorem Node.Draining.sound (hn : n.Draining) (hpos : 0 < n.ctx.rxSize) : n.Sound :=
  ⟨⟨hn.on, .receiving (hn.dma ▸ hn.receiving) fun _ => hpos⟩, hn.wf⟩

/-- A host that waits on a transfer in flight. -/
theorem Node.Blocks.waits (hw : n.Blocks) (hidle : n.ctx.idle = false) : MasterWaits n.ctx n.hostw := fun v hv => by
  obtain ⟨hengine, hblocking⟩ := hw v hv
  exact ⟨hengine, hblocking, .inr hidle⟩

theorem Node.Blocks.congr (hw : n.Blocks) (hhost : n'.hostw = n.hostw) (hblocking : n'.ctx.blocking = n.ctx.blocking) :
    n'.Blocks := fun v hv => by
  rw [hblocking]
  exact hw v (hhost ▸ hv)

/-- A receive in interrupt mode (R155). -/
theorem Node.Sound.draining (hn : n.Sound) (hdir : n.ctx.dir = .receive) (htype : n.ctx.transferType = .interrupts) :
    n.Draining := by
  obtain ⟨left, h, -⟩ := hn.toMasterSound.receives hdir
  have hdma := hn.toMasterSound.stopped htype
  rw [hdma] at h
  cases h.remaining with
  | context _ hsize => exact ⟨hn.wf, hn.toMasterOn, hsize ▸ h, htype, hdma⟩

theorem shrinkWatermark_good (hn : n.Draining) (hw : n.Blocks) (hpos : 0 < n.ctx.rxSize) : (shrinkWatermark n).MasterGood := by
  have hs := hn.sound hpos
  have hwaits := hw.waits hn.receiving.idle
  unfold shrinkWatermark
  split
  · next hle =>
    have hlt := hs.rxw
    exact ⟨⟨⟨{ hs.toMasterOn with rxw := by simp only; omega },
      .receiving { hn.dma ▸ hn.receiving with } fun _ => hpos⟩, hs.wf⟩, hwaits⟩
  · exact ⟨hs, hwaits⟩

/-- The receive's source is enabled in a receive in interrupt mode only. -/
theorem Node.Sound.draining_of_rxrdy (hn : n.Sound) (hmie : n.hw.mie.rxrdy = true) : n.Draining := by
  cases hn.doing with
  | resting h =>
    rw [h.mie] at hmie
    cases hmie
  | sending h => cases h.rxrdy.symm.trans hmie
  | receiving h => exact hn.draining h.dir (h.rxrdy hmie)

theorem handleRxrdy_good (hn : n.MasterGood) (hmie : n.hw.mie.rxrdy = true) : Yields (handleRxrdy n) Node.MasterGood := by
  have hdraining := hn.1.draining_of_rxrdy hmie
  refine Yields.andThen (P := fun n' => n'.Draining ∧ n'.Blocks) ?_ fun m ⟨hm, hblocks⟩ => .ite
    (fun hzero => rxComplete_good (hm.spent hzero) hblocks) fun hpos => .next (shrinkWatermark_good hm hblocks (by omega))
  rw [rxLoop_eq_lateLoop]
  exact (lateLoop_good hdraining).mono fun m ⟨hm, hhost, hblocking, _⟩ => ⟨hm, hn.2.blocks.congr hhost hblocking⟩

theorem handleNack_good (hn : n.MasterGood) : Yields (handleNack n) Node.MasterGood :=
  .ite (fun _ => .next ⟨⟨hn.1.toMasterSound.aside, hn.1.wf⟩, hn.2⟩) fun _ => errEnd_good hn

/-- A channel that is through with its bytes: a send waits for `TXRDY`, a receive is complete (R338). -/
theorem masterDmaok_good {reg : DmaReg} {dir : DmaDir} {ptr : Nat} (hn : n.MasterGood)
    (hdma : n.dma = .running dir reg ptr 0) : Yields (masterDmaok n) Node.MasterGood := by
  obtain ⟨hs, hw⟩ := hn
  have hchannel : MasterSound n.par n.ctx n.hw (.running dir reg ptr 0) := hdma ▸ hs.toMasterSound
  obtain ⟨-, htype, hidle⟩ := hchannel.channel
  refine .ite (fun hdir => .next ?_) fun hdir => rxComplete_good ?_ hw.blocks
  · have hsend := hs.toMasterSound.sends hdir
    refine ⟨⟨⟨{ hs.toMasterOn with txGood := bufGood_none.mpr rfl }, .sending { hsend with channel := ?_ }⟩, hs.wf⟩, hw⟩
    simp [sendDmaGood, dmaStop, htype]
  · cases hchannel.doing with
    | resting h => cases h.dma
    | sending h => exact absurd h.dir hdir
    | receiving h =>
      cases h.remaining with
      | channel ht hgood =>
        exact Receiving.spent (d := .running .periphToMem .mrx ptr 0) hs.wf
          { hs.toMasterOn with rxSize := Nat.zero_le _, rxGood := bufGood_none.mpr rfl }
          { h with remaining := .channel ht hgood } fun _ => rfl

/-! ## The aborts and the timeouts -/

theorem mAbort_good (hn : n.MasterGood) : Yields (mAbort n) Node.MasterGood := by
  refine .ite (fun _ => .refused) fun hfree => .ite (fun _ => .next ⟨{ hn.1 with }, hn.2⟩) fun _ =>
    .ite (fun _ => .next ⟨{ hn.1 with }, hn.2⟩) fun _ => ?_
  refine (forceAbort_atRest hn.1).andThen fun m ⟨hm, _, hhost⟩ => .next ⟨{ hm.sound with }, ?_⟩
  exact hhost.trans (hostw_of_not_suspended hfree) ▸ .none

theorem timeoutAbort_good (hn : n.Sound) : Yields (timeoutAbort n) Node.MasterGood :=
  (forceAbort_atRest hn).andThen fun _ ⟨hm, _⟩ => .next ⟨⟨hm.sound.toMasterSound.aside, hm.wf⟩, .none⟩

/-- While the host waits, the callback of the completion changes nothing the invariant reads (R161, R166). -/
theorem rxComplete_waiting (hn : n.Spent) (hwaits : n.hostw.isSome = true) : Yields (rxComplete n) Node.Sound := by
  rw [rxComplete_requests hn.ready]
  intro m hm
  obtain ⟨l, rfl⟩ := runRequests_waiting (n := n.received) hwaits hm
  have hrest := setMStatus_atRest (st := .success)
    (ended_atRest (stop := n.ctx.sendStop || (n.ctx.abortedByTimeout && n.par.abortedRx == .forceStop)) hn)
  exact ⟨hrest.sound.toMasterSound.aside, hn.wf⟩

theorem lateSuccess_good (hn : n.Draining) (hwaits : n.hostw.isSome = true) : Yields (lateSuccess n) Node.MasterGood := by
  refine (lateLoop_good hn).andThen fun m ⟨hm, hhost, _, hsize⟩ => ?_
  have hspent := hm.spent (by omega)
  refine Yields.andThen (rxComplete_waiting (n := { m with ctx := { m.ctx with blocking := false } })
    { hspent with on := { hspent.on with }, ready := hspent.ready } (hhost ▸ hwaits)) fun m' hm' =>
      .next ⟨⟨hm'.toMasterSound.aside, hm'.wf⟩, .none⟩

theorem narrowAndWait_good {t : Nat} (hn : n.Sound) (hblocking : n.ctx.blocking = true) (hidle : n.ctx.idle = false) :
    (narrowAndWait t n).MasterGood := by
  refine ⟨⟨⟨{ hn.toMasterOn with rxw := (depths_pos hn.wf).2 }, ?_⟩, hn.wf⟩, ?_⟩
  · cases hn.doing with
    | resting h => cases h.idle.symm.trans hidle
    | sending h => exact .sending { h with }
    | receiving h hpos => exact .receiving { h with } hpos
  · rintro _ ⟨⟩
    exact ⟨rfl, hblocking, .inr hidle⟩

theorem masterTimeoutFirst_good {t : Nat} (hn : n.MasterGood) (hwaits : n.hostw.isSome = true)
    (hsem : n.ctx.sem = false) : Yields (masterTimeoutFirst t n) Node.MasterGood := by
  obtain ⟨hs, hw⟩ := hn
  obtain ⟨v, hv⟩ := Option.isSome_iff_exists.mp hwaits
  obtain ⟨-, hblocking, hflight⟩ := hw v hv
  have hidle : n.ctx.idle = false := hflight.resolve_left (by simp [hsem])
  refine .ite (fun _ => timeoutAbort_good hs) fun hnot => ?_
  obtain ⟨hdir, hrest⟩ := not_or.mp hnot
  obtain ⟨-, htype⟩ := not_or.mp hrest
  have htype : n.ctx.transferType = .interrupts := by cases ht : n.ctx.transferType <;> simp_all
  have hdir : n.ctx.dir = .receive := by
    cases hs.doing with
    | resting h => cases h.idle.symm.trans hidle
    | sending h => exact absurd h.dir hdir
    | receiving h => exact h.dir
  have hs' : Node.Sound { n with ctx := { n.ctx with abortedByTimeout := true } } := ⟨hs.toMasterSound.aside, hs.wf⟩
  exact .ite (fun _ => lateSuccess_good (hs'.draining hdir htype) hwaits) fun _ => .next (narrowAndWait_good hs' hblocking hidle)

/-- An init leaves the engine at rest (R150, R162). -/
theorem mInit_atRest {c : Cfg} {fIn : Nat} {slots : Vector CmdWord 5} {st : Status} (hwf : p.wf) :
    MasterOn p { mFreshCtx c slots with status := st } (mInitHw p fIn c (hwReset h)) ∧
      Resting { mFreshCtx c slots with status := st } (mInitHw p fIn c (hwReset h)) .stopped :=
  ⟨{ hwFits_hwReset (h := h) (depths_pos hwf).2 with
    men := rfl, irqEn := rfl, sen := rfl, sie := rfl, queue := Nat.zero_le _, rxSize := Nat.zero_le _
    txGood := bufGood_none.mpr rfl, rxGood := bufGood_none.mpr rfl },
    ⟨rfl, rfl, rfl, rfl, rfl, rfl, rfl, rfl, rfl, rfl, rfl, rfl, rfl⟩⟩

theorem masterTimeout_good {w : Wait} (hn : n.MasterGood) (hwaits : n.hostw = some w) (hsem : n.ctx.sem = false) :
    Yields (masterTimeout w n) Node.MasterGood := by
  unfold masterTimeout
  split
  · exact masterTimeoutFirst_good hn (by simp [hwaits]) hsem
  · obtain ⟨hon, hrest⟩ := mInit_atRest (h := n.hw) (c := n.ctx.initCfg) (fIn := n.inp.fIn) (slots := n.ctx.swq)
      (st := .timeout) hn.1.wf
    exact .next ⟨⟨⟨{ hon with }, .resting hrest⟩, hn.1.wf⟩, .none⟩

end

end Sys2Proof.Machine
end

section
/-! SUPPORT. The bus sides, the DMA channel and the host's semaphore keep the invariant of their instance (spec
20_memory.md R90; 40_master_requests.md R163; 41_master_commands.md R200 to R209; 43_slave_requests.md R283;
44_slave_events.md R300; 45_dma.md R332 to R336). -/

namespace Sys2Proof.Machine
open Sys2Proof.Claims

section
variable {p : Params} {m : MCtx} {c : SCtx} {h : HW} {d : DmaCh} {w : CmdWord} {rest : List CmdWord} {left : Nat}

/-! ## The master's bus side -/

theorem pendingRx_singleton_le : pendingRx [w] ≤ 256 := by
  have hbyte := (dataField w).isLt
  unfold pendingRx rxnCount pendingRx
  split <;> omega

theorem pendingRx_cons {ws : List CmdWord} : pendingRx (w :: ws) = pendingRx [w] + pendingRx ws :=
  pendingRx_append (ws := [w])

theorem getLast?_of_cons {ws : List CmdWord} {v : CmdWord} (hv : ws.getLast? = some v) :
    (w :: ws).getLast? = some v := by
  rw [List.getLast?_cons, hv, Option.getD_some]

/-- A command popped from the FIFO, after which the bus side expects no more bytes than the word asks for, is accounted
for (R200, R90). -/
theorem MasterSound.popped (hs : MasterSound p m h d) (htxf : h.txf = w :: rest) (hzero : h.rxLeft = 0)
    (hleft : left ≤ pendingRx [w]) : MasterSound p m { h with txf := rest, rxLeft := left } d := by
  have hfits := hs.txf
  have hwords := hs.words
  rw [htxf] at hfits hwords
  have hstream : commandStream m h = w :: commandStream m { h with txf := rest, rxLeft := left } :=
    congrArg (· ++ swqEntries m) htxf
  have hpending := (congrArg pendingRx hstream).trans pendingRx_cons
  have hone := pendingRx_singleton_le (w := w)
  refine { hs with
    txf := Nat.le_of_succ_le hfits, rxLeft := hleft.trans hone, words := (List.forall_mem_cons.mp hwords).2, doing := ?_ }
  cases hs.doing with
  | resting h =>
    have hall := h.pending
    rw [htxf, pendingRx_cons] at hall
    exact .resting { h with rxLeft := by simp only; omega, pending := by simp only; omega }
  | sending h =>
    have hall := h.pending
    exact .sending { h with rxLeft := by simp only; omega, pending := by omega }
  | receiving h hpos =>
    have hbound := h.bound
    exact .receiving { h with
      bound := by simp only; omega
      last := fun v hv => h.last v (hstream ▸ getLast?_of_cons hv) } hpos

/-- What a command leaves of the instance it executes on (R201 to R209). -/
inductive Inst.Executes (i : Instr) (x : Inst) : Inst → Prop
  | signals {wire : List WireSym} {mef : MLatched} {busOpen : Bool} :
    Executes i x { x with hw := { x.hw with wire := wire, mef := mef, busOpen := busOpen } }
  | receives {k : BusIndex} {b : Byte} (h : i = .rxn k b) : Executes i x { x with hw := { x.hw with rxLeft := rxnCount b } }

theorem executes_transmitByte {i : Instr} {b : Byte} {expectNack : Bool} {ans : TxAnswer} {x y : Inst}
    (hy : transmitByte b expectNack ans x = .next y) : x.Executes i y := by
  obtain ⟨tail, mef, busOpen, rfl⟩ := transmitByte_frame hy
  exact .signals

theorem executes_start {i : Instr} {b : Byte} {expectNack : Bool} {ans : TxAnswer} {fresh repeated : WireSym} {x y : Inst}
    (hy : transmitByte b expectNack ans (startSymbol fresh repeated x) = .next y) : x.Executes i y := by
  obtain ⟨tail, mef, busOpen, rfl⟩ := transmitByte_frame hy
  exact .signals

theorem exec_command {s s' : State} {k : BusIndex} {i : Instr} (hi : encode i = .cmd k w) (h : exec i s = .next s') :
    ∃ x y, s.inst? k = some x ∧ x.Executes i y ∧ s' = s.setInst k y := by
  have hbus {f : Inst → Res Inst} (hf : ∀ x y, f x = .next y → x.Executes i y) (h : onBus k s f = .next s') :
      ∃ x y, s.inst? k = some x ∧ x.Executes i y ∧ s' = s.setInst k y := by
    obtain ⟨x, y, hx, hy, rfl⟩ := onBus_eq_next.mp h
    exact ⟨x, y, hx, hf x y hy, rfl⟩
  cases i <;> cases hi
  case txd =>
    refine hbus (fun x y hy => ?_) h
    split at hy
    · exact executes_transmitByte hy
    · cases hy
      exact .signals (busOpen := x.hw.busOpen)
  case rxn =>
    refine hbus (fun x y hy => ?_) h
    split at hy <;> cases hy
    · exact .receives rfl
    · exact .signals (busOpen := x.hw.busOpen)
  case stop =>
    refine hbus (fun x y hy => ?_) h
    split at hy <;> cases hy
    · exact .signals
    · exact .signals (wire := x.hw.wire)
  case start | startn | starths => exact hbus (fun _ _ => executes_start) h

/-- The invariant of an instance whose bus side executes the word it has popped. -/
theorem good_of_executes {x y : Inst} {i : Instr} {k : BusIndex} (hx : Inst.good p x = true) (hrole : x.role = .master m)
    (htxf : x.hw.txf = w :: rest) (hzero : x.hw.rxLeft = 0) (hi : ∀ b, i = .rxn k b → w = cmdWord .rxn b)
    (hk : i.bus = k) (hy : Inst.Executes i { x with hw := { x.hw with txf := rest } } y) : Inst.good p y = true := by
  obtain ⟨hs, hw⟩ := (masterGood_iff hrole).mp hx
  cases hy with
  | signals =>
    have hpopped := hs.popped (left := x.hw.rxLeft) htxf hzero (hzero ▸ Nat.zero_le _)
    exact (masterGood_iff (x := { x with hw := { x.hw with txf := rest, wire := _, mef := _, busOpen := _ } }) hrole).mpr
      ⟨hpopped.aside, hw⟩
  | @receives k' b hrxn =>
    subst hrxn
    obtain rfl : k' = k := hk
    refine (masterGood_iff (x := { x with hw := { x.hw with txf := rest, rxLeft := _ } }) hrole).mpr
      ⟨hs.popped htxf hzero ?_, hw⟩
    rw [hi b rfl, pendingRx, isRxn_cmdWord, dataField_cmdWord]
    exact Nat.le_add_right _ _

/-- A byte received is expected no more (R205). -/
theorem MasterSound.received {b : Byte} (hs : MasterSound p m h d) (hpos : 0 < h.rxLeft) (hroom : h.rxf.length < p.rxDepth) :
    MasterSound p m { h with rxf := h.rxf ++ [b], rxLeft := h.rxLeft - 1 } d := by
  have hcount := hs.rxLeft
  refine { hs with rxf := by simpa using hroom, rxLeft := by simp only; omega, doing := ?_ }
  cases hs.doing with
  | resting h => have := h.rxLeft; omega
  | sending h => have := h.rxLeft; omega
  | receiving hr hdone =>
    have hbound := hr.bound
    refine .receiving { hr with bound := ?_ } hdone
    change (h.rxf ++ [b]).length + (h.rxLeft - 1) + pendingRx (commandStream m h) ≤ _
    rw [List.length_append, List.length_singleton]
    omega

/-- Bytes no longer expected need no room (R205). -/
theorem MasterSound.dropped (hs : MasterSound p m h d) : MasterSound p m { h with rxLeft := 0 } d := by
  refine { hs with rxLeft := Nat.zero_le _, doing := ?_ }
  cases hs.doing with
  | resting h => exact .resting { h with rxLeft := rfl }
  | sending h => exact .sending { h with rxLeft := rfl }
  | receiving hr hdone =>
    have hbound := hr.bound
    refine .receiving { hr with bound := ?_ } hdone
    change h.rxf.length + 0 + pendingRx (commandStream m h) ≤ _
    omega

/-- Only a master's bus side is enabled (R39). -/
theorem master_of_men {x : Inst} (hx : Inst.good p x = true) (hmen : x.hw.men = true) : ∃ m, x.role = .master m := by
  cases hrole : x.role with
  | unowned => cases ((unownedGood_iff hrole).mp hx).men.symm.trans hmen
  | master m => exact ⟨m, rfl⟩
  | slave c => cases ((slaveGood_iff hrole).mp hx).1.men.symm.trans hmen

theorem receiveStep_good {x : Inst} {ans : RxAnswer} (hx : Inst.good p x = true) (hen : receiveEnabled p x = true) :
    Inst.good p (receiveStep ans x) = true := by
  simp only [receiveEnabled, Bool.and_eq_true, decide_eq_true_eq] at hen
  obtain ⟨⟨⟨hmen, -⟩, hpos⟩, hroom⟩ := hen
  obtain ⟨m, hrole⟩ := master_of_men hx hmen
  obtain ⟨hs, hw⟩ := (masterGood_iff hrole).mp hx
  refine (masterGood_iff (m := m) (receiveStep_role.trans hrole)).mpr ?_
  cases ans with
  | byte b => exact ⟨(hs.received hpos hroom).aside, hw⟩
  | lineLow => exact ⟨hs.dropped.aside, hw⟩

/-! ## The slave's bus side and the host -/

theorem bussStep_good {x y : Inst} {act : BussAct} (hx : Inst.good p x = true) (hy : bussStep act x = some y) :
    Inst.good p y = true := by
  unfold bussStep at hy
  split at hy
  · next c hrole =>
    obtain ⟨hen, hy⟩ := Option.ite_none_right_eq_some.mp hy
    obtain rfl := Option.some.inj hy
    obtain ⟨hs, hw⟩ := (slaveGood_iff hrole).mp hx
    exact (slaveGood_iff (x := { x with hw := bussEffect act c x.hw }) hrole).mpr
      ⟨bussEffect_sound hs (Bool.and_eq_true_iff.mp hen).1, hw⟩
  · cases hy

/-- A host that takes its semaphore leaves the engine's work as it is (R163, R283). -/
theorem resumeStep_good {x y : Inst} (hx : Inst.good p x = true) (hy : resumeStep x = some y) : Inst.good p y = true := by
  unfold resumeStep at hy
  split at hy
  · next m _ _ hrole _ =>
    obtain ⟨-, hy⟩ := Option.ite_none_right_eq_some.mp hy
    obtain rfl := Option.some.inj hy
    exact (masterGood_iff rfl).mpr ⟨((masterGood_iff hrole).mp hx).1.aside, .none⟩
  · next c _ hrole _ =>
    obtain ⟨-, hy⟩ := Option.ite_none_right_eq_some.mp hy
    obtain rfl := Option.some.inj hy
    have hs := ((slaveGood_iff hrole).mp hx).1
    exact (slaveGood_iff (c := { c with sem := false, blocking := false }) rfl).mpr
      ⟨{ hs with channel := hs.channel.congr }, .none⟩
  · cases hy

/-! ## The DMA channel -/

section
variable {dir : DmaDir} {reg : DmaReg} {ptr count : Nat}

theorem sendDmaGood_moved (hd : sendDmaGood p m (.running dir reg ptr count) = true) :
    sendDmaGood p m (.running dir reg (ptrNext p ptr) (count - 1)) = true := by
  unfold sendDmaGood at hd
  split at hd
  · cases ‹DmaCh.running dir reg ptr count = .stopped›
  · cases ‹DmaCh.running dir reg ptr count = .stopped›
  · cases ‹DmaCh.running dir reg ptr count = .running .memToPeriph .mtx _ _›
    rw [sendDmaGood]
    · exact bufGood_ptrNext hd
    · assumption
  · cases hd

/-- A byte of the send buffer moved to the transmit FIFO by the channel (R334). -/
theorem MasterSound.moved_mtx {b : Byte} (hs : MasterSound p m h (.running dir .mtx ptr count))
    (hroom : h.txf.length < p.txDepth) : MasterSound p m { h with txf := h.txf ++ [cmdWord .txd b] }
      (.running dir .mtx (ptrNext p ptr) (count - 1)) := by
  refine { hs with
    txf := by simpa using hroom
    words := List.forall_mem_append.mpr ⟨hs.words, List.forall_mem_singleton.mpr cmdGood_cmdWord⟩, doing := ?_ }
  cases hs.doing with
  | resting h => cases h.dma
  | sending h =>
    exact .sending { h with pending := h.pushed isRxn_cmdWord, channel := sendDmaGood_moved h.channel }
  | receiving h => cases h.remaining

/-- A byte of the receive FIFO stored by the channel (R335). -/
theorem MasterSound.moved_mrx {rest : List Byte} {b : Byte} (hs : MasterSound p m h (.running dir .mrx ptr count))
    (hrxf : h.rxf = b :: rest) :
    MasterSound p m { h with rxf := rest } (.running dir .mrx (ptrNext p ptr) (count - 1)) := by
  have hfits := hs.rxf
  rw [hrxf] at hfits
  refine { hs with rxf := Nat.le_of_succ_le hfits, doing := ?_ }
  cases hs.doing with
  | resting h => cases h.dma
  | sending h => cases hrxf.symm.trans h.rxf
  | receiving hr =>
    have hbound := hr.bound
    rw [hrxf, List.length_cons] at hbound
    cases hr.remaining with
    | channel htype hgood =>
      refine .receiving { hr with remaining := .channel htype (bufGood_ptrNext hgood), bound := ?_ } fun ht => ?_
      · change rest.length + h.rxLeft + pendingRx (commandStream m h) ≤ count - 1
        omega
      · cases htype.symm.trans ht

/-- A granted move keeps the instance good (R332 to R336). -/
theorem dmaMove_good {s : State} {x : Inst} {n : Node Unit} (hx : Inst.good s.par x = true)
    (hn : dmaMove (Node.of s x ()) = .next n) : Inst.good s.par (n.inst x.role x) = true := by
  obtain ⟨-, rfl⟩ | ⟨dir, reg, ptr, count, m, hdma, hbyte, rfl⟩ := dmaMove_eq_next hn
  · exact hx
  have hdma : x.dma = .running dir reg ptr count := hdma
  obtain ⟨-, hbyte⟩ := dmaByte_eq_next hbyte
  cases hrole : x.role with
  | unowned => cases hdma.symm.trans ((unownedGood_iff hrole).mp hx).dma
  | master c =>
    obtain ⟨hs, hw⟩ := (masterGood_iff hrole).mp hx
    rw [hdma] at hs
    obtain ⟨rfl | rfl, -⟩ := hs.channel
    · obtain ⟨hroom, rfl⟩ := hbyte
      exact (masterGood_iff rfl).mpr ⟨hs.moved_mtx hroom, hw⟩
    · obtain ⟨b, rest, hrxf, rfl⟩ := hbyte
      exact (masterGood_iff rfl).mpr ⟨hs.moved_mrx hrxf, hw⟩
  | slave c =>
    obtain ⟨hs, hw⟩ := (slaveGood_iff hrole).mp hx
    have hchannel := hs.channel
    rw [hdma] at hchannel
    cases hchannel with
    | stx htype hbusy hgood =>
      dsimp only at hbyte
      subst hbyte
      exact (slaveGood_iff rfl).mpr ⟨{ hs.clears (f := fun f => { f with txdata := false }) rfl with
        channel := .stx htype hbusy (bufGood_ptrNext hgood) }, hw⟩
    | srx htype hbusy hgood =>
      dsimp only at hbyte
      subst hbyte
      exact (slaveGood_iff rfl).mpr ⟨{ hs.clears (f := fun f => { f with rxdata := false }) rfl with
        channel := .srx htype hbusy (bufGood_ptrNext hgood) }, hw⟩

end

end

end Sys2Proof.Machine
end

section
/-! SUPPORT. Every step keeps the invariant: each instruction and each step of an agent's own leaves its instance good, and
the others as they are (spec 10_state.md R22 to R47; 20_memory.md R90). -/

namespace Sys2Proof.Machine
open Sys2Proof.Claims

/-! ## An instance written back -/

/-- Wherever the rule goes on, every instance is good. -/
def KeepsBuses (s : State) (r : Res State) : Prop := Yields r fun s' => s'.insts.all (Inst.good s.par) = true

section
variable {s s' : State} {k : BusIndex} {x y : Inst} {m : MCtx} {c : SCtx} {i : Instr}

theorem State.good.buses (hs : s.good) : s.insts.all (Inst.good s.par) = true := by
  obtain ⟨-, -, -, hall⟩ := hs
  exact hall

theorem State.good.wf (hs : s.good) : s.par.wf := by
  obtain ⟨hwf, -⟩ := hs
  exact hwf

/-- A good instance in the place of any other. -/
theorem all_set {l : List Inst} {f : Inst → Bool} {j : Nat} (hl : l.all f = true) (hy : f y = true) :
    (l.set j y).all f = true := by
  rw [List.all_eq_true] at hl ⊢
  intro z hz
  obtain hz | rfl := List.mem_or_eq_of_mem_set hz
  · exact hl z hz
  · exact hy

theorem State.good.setInst (hs : s.good) (hy : Inst.good s.par y = true) : KeepsBuses s (.next (s.setInst k y)) :=
  .next (all_set hs.buses hy)

theorem State.good.masterView (hs : s.good) (hx : s.inst? k = some x) (hrole : x.role = .master m) :
    (Node.of s x m).MasterGood := by
  obtain ⟨hsound, hwaits⟩ := (masterGood_iff hrole).mp (hs.inst hx)
  exact ⟨⟨hsound, hs.wf⟩, hwaits⟩

theorem State.good.slaveView (hs : s.good) (hx : s.inst? k = some x) (hrole : x.role = .slave c) :
    (Node.of s x c).SlaveGood := (slaveGood_iff hrole).mp (hs.inst hx)

theorem State.good.putMaster {n : MNode} (hs : s.good) (hn : n.MasterGood) (hpar : n.par = s.par) :
    (s.putNode k x (.master n.ctx) n).insts.all (Inst.good s.par) = true :=
  all_set hs.buses ((masterGood_iff rfl).mpr (hpar ▸ ⟨hn.1.toMasterSound, hn.2⟩))

theorem State.good.putSlave {n : SNode} (hs : s.good) (hn : n.SlaveGood) (hpar : n.par = s.par) :
    (s.putNode k x (.slave n.ctx) n).insts.all (Inst.good s.par) = true :=
  all_set hs.buses ((slaveGood_iff rfl).mpr (hpar ▸ hn))

/-! ## Requests -/

theorem onMaster_keepsBuses {f : MNode → Res MNode} (hs : s.good)
    (hf : ∀ n : MNode, n.par = s.par → n.MasterGood → Yields (f n) Node.MasterGood) (hframe : ∀ n, Node.Frames true n (f n)) :
    KeepsBuses s (onMaster k s f) := by
  intro s' h
  obtain ⟨x, m, n, hx, hrole, hn, rfl⟩ := onMaster_eq_next.mp h
  exact hs.putMaster (hf _ rfl (hs.masterView hx hrole) n hn) (hframe _ n hn).par

theorem onSlave_keepsBuses {f : SNode → Res SNode} (hs : s.good)
    (hf : ∀ n : SNode, n.par = s.par → n.SlaveGood → Yields (f n) Node.SlaveGood) (hframe : ∀ n, Node.Frames true n (f n)) :
    KeepsBuses s (onSlave k s f) := by
  intro s' h
  obtain ⟨x, c, n, hx, hrole, hn, rfl⟩ := onSlave_eq_next.mp h
  exact hs.putSlave (hf _ rfl (hs.slaveView hx hrole) n hn) (hframe _ n hn).par

theorem execMinit_keepsBuses {cfg : CfgPort} (hs : s.good) : KeepsBuses s (execMinit k cfg s) := by
  intro s' h
  obtain ⟨x, hx, h⟩ := onInst_eq_next.mp h
  split at h
  · next hrole =>
    have hu := (unownedGood_iff hrole).mp (hs.inst hx)
    split at h
    · cases h
    · next cfg' _ =>
      dsimp only at h
      split at h <;> cases h
      · obtain ⟨hon, hrest⟩ := mInit_atRest (c := cfg') (fIn := s.inp.fIn) (h := x.hw) (slots := freeSlots s.freeCtr)
          (st := .success) hs.wf
        exact all_set hs.buses ((masterGood_iff rfl).mpr ⟨⟨hon, .resting hrest⟩, hu.hostw ▸ .none⟩)
      · have hreset : UnownedSound s.par { x with
            hw := hwReset x.hw, dma := .stopped, replies := x.replies ++ [⟨.foreground, .busBusy, none, none⟩] } :=
          { hwFits_hwReset (h := x.hw) (depths_pos hs.wf).2 with
            men := rfl, sen := rfl, irqEn := hu.irqEn, mie := rfl, sie := rfl, dma := rfl, hostw := hu.hostw }
        exact all_set hs.buses ((unownedGood_iff (by exact hrole)).mpr hreset)
  · cases h

theorem execSinit_keepsBuses {cfg : CfgPort} (hs : s.good) : KeepsBuses s (execSinit k cfg s) := by
  intro s' h
  obtain ⟨x, hx, h⟩ := onInst_eq_next.mp h
  split at h
  · next hrole =>
    have hu := (unownedGood_iff hrole).mp (hs.inst hx)
    split at h
    · cases h
    · split at h <;> cases h
      exact all_set hs.buses ((slaveGood_iff rfl).mpr ⟨sInit_sound (depths_pos hs.wf).2, hu.hostw ▸ .none⟩)
  · cases h

/-- A deinit of the master turns everything off (R151). -/
theorem MasterSound.deinit (hsound : MasterSound s.par m x.hw x.dma) (hidle : m.idle = true) (hhost : x.hostw = none)
    {replies : List Reply} : UnownedSound s.par { x with
      role := .unowned, hw := { x.hw with irqEn := false, mie := .none, men := false }, replies := replies } :=
  { hsound.toHwFits with
    men := rfl, sen := hsound.sen, irqEn := rfl, mie := rfl, sie := hsound.sie, dma := (hsound.resting hidle).dma
    hostw := hhost }

theorem hostw_none_of_not (h : ¬ x.hostw.isSome = true) : x.hostw = none := by simpa using h

theorem execMdeinit_keepsBuses (hs : s.good) : KeepsBuses s (execMdeinit k s) := by
  intro s' h
  obtain ⟨x, hx, h⟩ := onInst_eq_next.mp h
  split at h
  · next m hrole =>
    obtain ⟨hsound, -⟩ := (masterGood_iff hrole).mp (hs.inst hx)
    split at h
    · cases h
    · next hhost =>
      split at h <;> cases h
      next hidle =>
      exact all_set hs.buses ((unownedGood_iff rfl).mpr (hsound.deinit (by simpa using hidle) (hostw_none_of_not hhost)))
  · cases h

theorem execSdeinit_keepsBuses (hs : s.good) : KeepsBuses s (execSdeinit k s) := by
  intro s' h
  obtain ⟨x, hx, h⟩ := onInst_eq_next.mp h
  split at h
  · next c hrole =>
    obtain ⟨hsound, -⟩ := (slaveGood_iff hrole).mp (hs.inst hx)
    split at h
    · cases h
    · next hhost =>
      split at h <;> cases h
      next hbusy =>
      exact all_set hs.buses ((unownedGood_iff rfl).mpr
        (sDeinit_sound hsound (Bool.eq_false_iff.mpr hbusy) rfl rfl (hostw_none_of_not hhost)))
  · cases h

/-! ## Events -/

theorem takeMasterEvent_keepsBuses {src : MSources → Bool} {f : MNode → Res MNode} (hs : s.good)
    (hf : ∀ x m, x.role = .master m → src (deliverableM x) = true → (Node.of s x m).MasterGood →
      Yields (f (Node.of s x m)) Node.MasterGood)
    (hframe : ∀ n, Node.Frames true n (f n)) : KeepsBuses s (takeMasterEvent src k s f) := by
  intro s' h
  obtain ⟨x, m, n, hx, hrole, hsrc, hn, rfl⟩ := takeMasterEvent_eq_next.mp h
  exact hs.putMaster (hf x m hrole hsrc (hs.masterView hx hrole) n hn) (hframe _ n hn).par

theorem takeSlaveEvent_keepsBuses {src : SSources → Bool} {f : SNode → Res SNode} (hs : s.good)
    (hf : ∀ x c, x.role = .slave c → src (deliverableS x) = true → (Node.of s x c).SlaveGood →
      Yields (f (Node.of s x c)) Node.SlaveGood)
    (hframe : ∀ n, Node.Frames true n (f n)) : KeepsBuses s (takeSlaveEvent src k s f) := by
  intro s' h
  obtain ⟨x, c, n, hx, hrole, hsrc, hn, rfl⟩ := takeSlaveEvent_eq_next.mp h
  exact hs.putSlave (hf x c hrole hsrc (hs.slaveView hx hrole) n hn) (hframe _ n hn).par

theorem takeDmaEvent_keepsBuses {en : Inst → Bool} {fm : MNode → Res MNode} {fs : DmaReg → SNode → Res SNode} (hs : s.good)
    (hm : ∀ x m, en x = true → (Node.of s x m).MasterGood → Yields (fm (Node.of s x m)) Node.MasterGood)
    (hsl : ∀ reg (n : SNode), n.SlaveGood → n.ctx.isTransferInProgress = true → Yields (fs reg n) Node.SlaveGood)
    (hmframe : ∀ n, Node.Frames true n (fm n)) (hsframe : ∀ reg n, Node.Frames true n (fs reg n)) :
    KeepsBuses s (takeDmaEvent en k s fm fs) := by
  intro s' h
  obtain ⟨x, hx, hen, ⟨m, n, hrole, hn, rfl⟩ | ⟨c, n, dir, reg, ptr, count, hrole, hdma, hn, rfl⟩⟩ :=
    takeDmaEvent_eq_next.mp h
  · exact hs.putMaster (hm x m hen (hs.masterView hx hrole) n hn) (hmframe _ n hn).par
  · have hview := hs.slaveView hx hrole
    refine hs.putSlave (hsl reg _ hview ?_ n hn) (hsframe reg _ n hn).par
    have hchannel := hview.1.channel
    rw [nodeOf_dma, hdma] at hchannel
    cases hchannel with
    | stx _ hbusy | srx _ hbusy => exact hbusy

/-- The send's source is enabled only in flight (R241). -/
theorem Node.Sound.busy_of_txrdy {n : MNode} (hn : n.Sound) (hmie : n.hw.mie.txrdy = true) : n.ctx.idle = false := by
  cases hn.doing with
  | resting h =>
    rw [h.mie] at hmie
    cases hmie
  | sending h => exact h.idle
  | receiving h => exact h.idle

theorem txrdy_enabled (h : (deliverableM x).txrdy = true) : x.hw.mie.txrdy = true := by
  unfold deliverableM at h
  split at h
  · split at h
    · simp only [MSources.meet, Bool.and_eq_true] at h
      exact h.2
    · cases h
  · cases h

theorem addrvalid_enabled (h : (deliverableS x).addrvalid = true) : x.hw.sie.addrvalid = true := by
  unfold deliverableS at h
  split at h
  · split at h
    · simp only [SSources.meet, Bool.and_eq_true] at h
      exact h.2
    · cases h
  · cases h

/-- A slave with a source enabled is on (R271, R284). -/
theorem Node.SlaveGood.on_of_enabled {n : SNode} (hn : n.SlaveGood) (hsie : n.hw.sie ≠ .none) : n.SlaveOn := by
  by_contra hoff
  obtain ⟨hl, hb⟩ := not_or.mp hoff
  obtain ⟨-, hnone, -⟩ := hn.1.off (by simpa using hl) (by simpa using hb)
  exact hsie hnone

theorem wtimeout_semaphore {v : Wait} (hrole : x.role = .master m) (hwait : x.hostw = some v)
    (hen : wtimeoutEnabled x = true) : m.sem = false := by
  rw [wtimeoutEnabled, hrole, hwait] at hen
  split at hen <;> simp_all

theorem execWtimeout_keepsBuses (hs : s.good) : KeepsBuses s (execWtimeout k s) := by
  intro s' h
  obtain ⟨x, hx, h⟩ := onInst_eq_next.mp h
  split at h
  · next hen =>
    split at h
    · next m v hrole hwait =>
      obtain ⟨n, hn, h⟩ := andThen_eq_next.mp h
      cases h
      exact hs.putMaster (masterTimeout_good (hs.masterView hx hrole) hwait (wtimeout_semaphore hrole hwait hen) n hn)
        (masterTimeout_frames n hn).par
    · next c v hrole hwait =>
      cases h
      have hview := hs.slaveView hx hrole
      obtain ⟨-, -, -, hlisten, -⟩ := hview.2 v hwait
      exact hs.putSlave (slaveTimeout_good hview.1 hlisten) (slaveTimeout_frame (b := true)).par
    · cases h
  · cases h

/-! ## Every instruction -/

/-- Every instruction that is no command keeps the invariant; a command is the rest of the step that pops it. -/
theorem exec_keepsBuses (hs : s.good) (hfit : i.operandsFit s.par = true) (hi : ∀ k w, encode i ≠ .cmd k w) :
    KeepsBuses s (exec i s) := by
  cases i with
  | minit => exact execMinit_keepsBuses hs
  | mdeinit => exact execMdeinit_keepsBuses hs
  | msend =>
    obtain ⟨-, hlen⟩ := of_decide_eq_true hfit
    exact onMaster_keepsBuses hs (fun n hpar hn => mSend_good hn (hpar ▸ hlen)) fun _ => mSend_frames
  | msendb =>
    obtain ⟨⟨-, hlen⟩, -⟩ := of_decide_eq_true hfit
    exact onMaster_keepsBuses hs (fun n hpar hn => mSend_good hn (hpar ▸ hlen)) fun _ => mSend_frames
  | mrecv =>
    obtain ⟨-, hlen⟩ := of_decide_eq_true hfit
    exact onMaster_keepsBuses hs (fun n hpar hn => mRecv_good hn (hpar ▸ hlen)) fun _ => mRecv_frames
  | mrecvb =>
    obtain ⟨⟨-, hlen⟩, -⟩ := of_decide_eq_true hfit
    exact onMaster_keepsBuses hs (fun n hpar hn => mRecv_good hn (hpar ▸ hlen)) fun _ => mRecv_frames
  | mstatus => exact onMaster_keepsBuses hs (fun _ _ => mStatus_good) fun _ => mStatus_frames
  | mabort => exact onMaster_keepsBuses hs (fun _ _ => mAbort_good) fun _ => mAbort_frames
  | mgetbaud => exact onMaster_keepsBuses hs (fun _ _ => mGetBaud_good) fun _ => mGetBaud_frames
  | msetbaud => exact onMaster_keepsBuses hs (fun _ _ => mSetBaud_good) fun _ => mSetBaud_frames
  | sinit => exact execSinit_keepsBuses hs
  | sdeinit => exact execSdeinit_keepsBuses hs
  | ssend | srecv =>
    obtain ⟨-, hlen⟩ := of_decide_eq_true hfit
    exact onSlave_keepsBuses hs (fun n hpar hn => sTransfer_good hn (hpar ▸ hlen)) fun _ => sTransfer_frames
  | ssendb | srecvb =>
    obtain ⟨⟨-, hlen⟩, -⟩ := of_decide_eq_true hfit
    exact onSlave_keepsBuses hs (fun n hpar hn => sTransfer_good hn (hpar ▸ hlen)) fun _ => sTransfer_frames
  | sstatus => exact onSlave_keepsBuses hs (fun _ _ hn => (sStatus_stays hn).mono fun _ h => h.1) fun _ => sStatus_frames
  | sabort => exact onSlave_keepsBuses hs (fun _ _ => sAbort_good) fun _ => sAbort_frames
  | ssettx =>
    obtain ⟨-, hlen⟩ := of_decide_eq_true hfit
    exact onSlave_keepsBuses hs (fun n hpar hn => (sSetTx_stays hn (hpar ▸ hlen)).mono fun _ h => h.1) fun _ => sSetTx_frames
  | ssetrx =>
    obtain ⟨-, hlen⟩ := of_decide_eq_true hfit
    exact onSlave_keepsBuses hs (fun n hpar hn => (sSetRx_stays hn (hpar ▸ hlen)).mono fun _ h => h.1) fun _ => sSetRx_frames
  | txd | rxn | stop | start | startn | starths => exact absurd rfl (hi _ _)
  | txrdy =>
    exact takeMasterEvent_keepsBuses hs (fun _ _ _ hsrc hn => handleTxrdy_good hn (hn.1.busy_of_txrdy (txrdy_enabled hsrc)))
      fun _ => handleTxrdy_frames
  | rxrdy =>
    exact takeMasterEvent_keepsBuses hs (fun _ _ _ hsrc hn => handleRxrdy_good hn (rxrdy_enabled hsrc))
      fun _ => handleRxrdy_frames
  | nack => exact takeMasterEvent_keepsBuses hs (fun _ _ _ _ => handleNack_good) fun _ => handleNack_frames
  | arblost | fifoerr | pinlow => exact takeMasterEvent_keepsBuses hs (fun _ _ _ _ => errEnd_good) fun _ => errEnd_frames
  | addrvalid =>
    refine takeSlaveEvent_keepsBuses hs (fun x c _ hsrc hn => handleAddrvalid_good hn (hn.on_of_enabled fun hnone => ?_))
      fun _ => handleAddrvalid_frames
    have henabled := addrvalid_enabled hsrc
    rw [show x.hw.sie = .none from hnone] at henabled
    cases henabled
  | txdata => exact takeSlaveEvent_keepsBuses hs (fun _ _ _ _ => handleTxdata_good) fun _ => handleTxdata_frames
  | rxdata => exact takeSlaveEvent_keepsBuses hs (fun _ _ _ _ => handleRxdata_good) fun _ => handleRxdata_frames
  | rstart => exact takeSlaveEvent_keepsBuses hs (fun _ _ _ _ => handleRstart_good) fun _ => handleRstart_frames
  | evtStop => exact takeSlaveEvent_keepsBuses hs (fun _ _ _ _ => handleStop_good) fun _ => handleStop_frames
  | biterr => exact takeSlaveEvent_keepsBuses hs (fun _ _ _ _ => handleBiterr_good) fun _ => handleBiterr_frames
  | sfifoerr => exact takeSlaveEvent_keepsBuses hs (fun _ _ _ _ => handleSfifoerr_good) fun _ => handleSfifoerr_frames
  | dmaok =>
    refine takeDmaEvent_keepsBuses hs (fun x m hen hn => ?_) (fun _ _ => slaveDmaok_good) (fun _ => masterDmaok_frames)
      fun _ _ => slaveDmaok_frames
    obtain ⟨dir, reg, ptr, hdma⟩ := running_of_dmaokEnabled hen
    exact masterDmaok_good hn hdma
  | dmaerr =>
    exact takeDmaEvent_keepsBuses hs (fun _ _ _ => masterDmaerr_good) (fun _ _ hn _ => slaveDmaerr_good hn)
      (fun _ => masterDmaerr_frames) fun _ _ => slaveDmaerr_frames
  | wtimeout => exact execWtimeout_keepsBuses hs

/-! ## Every turn -/

theorem ownStep_keepsBuses {f : Inst → Option Inst} (hs : s.good)
    (hf : ∀ x y, Inst.good s.par x = true → f x = some y → Inst.good s.par y = true) :
    (ownStep k s f).insts.all (Inst.good s.par) = true := by
  obtain e | ⟨x, y, hx, hy, e⟩ := ownStep_cases k s f <;> rw [e]
  · exact hs.buses
  · exact all_set hs.buses (hf x y (hs.inst hx) hy)

theorem dmaTurn_keepsBuses (hs : s.good) : KeepsBuses s (dmaTurn k s) := by
  unfold dmaTurn
  split
  · exact .next hs.buses
  · next x hx =>
    exact .ite (fun _ => Yields.andThen (fun _ => id) fun n hn => .next (all_set hs.buses (dmaMove_good (hs.inst hx) hn)))
      fun _ => .next hs.buses

/-- A step of an agent's own keeps the invariant. -/
theorem fetch_own_keepsBuses {a : Agent} {r : Res State} (hs : s.good) (h : fetch a s = .own r) : KeepsBuses s r := by
  have hevent {due : Inst → Option EvtCode} {j : BusIndex} (h : eventFetch j s due = .own r) : KeepsBuses s r := by
    obtain e | ⟨x, c, -, -, e⟩ := eventFetch_cases j s due <;> rw [e] at h <;> cases h
    exact .next hs.buses
  cases a with
  | request => cases h
  | resume =>
    cases h
    exact .next (ownStep_keepsBuses hs fun _ _ => resumeStep_good)
  | busm k =>
    change busFetch k s = _ at h
    obtain e | ⟨x, hx, hen, e⟩ | ⟨x, c, rest, -, -, -, -, e⟩ := busFetch_cases k s <;> rw [e] at h <;> cases h
    · exact .next hs.buses
    · exact hs.setInst (receiveStep_good (hs.inst hx) hen)
  | buss =>
    cases h
    exact .next (ownStep_keepsBuses hs fun _ _ => bussStep_good)
  | isr | dmaOk | dmaErr | timer => exact hevent h
  | dmaMove =>
    cases h
    exact dmaTurn_keepsBuses hs
  | app =>
    cases h
    exact Yields.andThen (P := fun _ => True) (fun _ _ => trivial) fun _ _ => .next hs.buses

/-- An event has no operands. -/
theorem operandsFit_of_decodeEvt {p : Params} {e : EvtCode} (hi : decodeEvt k e = .ok i) : i.operandsFit p = true := by
  simp only [decodeEvt] at hi
  split at hi <;> cases hi <;> rfl

/-- The word of a request or of an event. -/
theorem runWord_keepsBuses {w : PortWord} (hs : s.good) (hw : ∀ k c, w ≠ .cmd k c) : KeepsBuses s (runWord w s) := by
  intro s' hrun
  obtain ⟨i, hi, hexec⟩ := runWord_eq_next hrun
  cases w with
  | req hd o =>
    have henc := encode_of_decodeReq hi
    exact exec_keepsBuses hs (operandsFit_of_decodeReq hi) (fun k w e => by cases henc.symm.trans e) s' hexec
  | cmd k c => exact absurd rfl (hw k c)
  | evt k c =>
    have henc := encode_of_decodeEvt hi
    exact exec_keepsBuses hs (operandsFit_of_decodeEvt hi) (fun k w e => by cases henc.symm.trans e) s' hexec

/-- The step of the master's bus side that pops a command and executes it (R200). -/
theorem command_keepsBuses {w : CmdWord} {rest : List CmdWord} (hs : s.good) (hx : s.inst? k = some x)
    (hen : commandEnabled x = true) (htxf : x.hw.txf = w :: rest) :
    KeepsBuses s (runWord (.cmd k w) (s.setInst k { x with hw := { x.hw with txf := rest } })) := by
  intro s' hrun
  obtain ⟨i, hdecode, hexec⟩ := runWord_eq_next hrun
  have hi : decodeCmd k w = .ok i := hdecode
  simp only [commandEnabled, Bool.and_eq_true, beq_iff_eq] at hen
  obtain ⟨⟨hmen, -⟩, hzero⟩ := hen
  obtain ⟨m, hrole⟩ := master_of_men (hs.inst hx) hmen
  obtain ⟨v, hv⟩ : ∃ v, encode i = .cmd k v := by
    obtain e | ⟨-, -, e⟩ := encode_of_decodeCmd hi <;> exact ⟨_, e⟩
  obtain ⟨x₁, y, hx₁, hy, rfl⟩ := exec_command hv hexec
  obtain rfl := Option.some.inj ((inst?_setInst_self hx).symm.trans hx₁)
  have hrxn (b : Byte) (h : i = .rxn k b) : w = cmdWord .rxn b := by
    subst h
    obtain e | ⟨e, -⟩ := encode_of_decodeCmd hi <;> cases e
    rfl
  have hgood := good_of_executes (hs.inst hx) hrole htxf hzero hrxn (decode_bus (p := s.par) (w := .cmd k w) hi) hy
  simpa only [State.setInst, List.set_set] using all_set hs.buses hgood

/-- A turn that comes to a word keeps the invariant when the word is executed. -/
theorem fetch_word_keepsBuses {a : Agent} {w : PortWord} (hs : s.good) (h : fetch a s = .word w s') :
    KeepsBuses s (runWord w s') := by
  have hevent {due : Inst → Option EvtCode} {j : BusIndex} (h : eventFetch j s due = .word w s') :
      KeepsBuses s (runWord w s') := by
    obtain e | ⟨x, c, -, -, e⟩ := eventFetch_cases j s due <;> rw [e] at h <;> cases h
    exact runWord_keepsBuses hs nofun
  cases a with
  | request =>
    cases h
    exact runWord_keepsBuses hs nofun
  | busm k =>
    change busFetch k s = _ at h
    obtain e | ⟨x, -, -, e⟩ | ⟨x, c, rest, hx, -, hen, htxf, e⟩ := busFetch_cases k s <;> rw [e] at h <;> cases h
    exact command_keepsBuses hs hx hen htxf
  | isr | dmaOk | dmaErr | timer => exact hevent h
  | resume | buss | dmaMove | app => cases h

end

/-- The turn's work leaves every instance good. -/
theorem step_keepsBuses {s : State} (hs : s.good) : KeepsBuses s (step s) := by
  obtain ⟨-, e⟩ | ⟨t, rest, -, ⟨w, s₁, hw, e⟩ | ⟨r, hr, e⟩⟩ := step_cases s <;> rw [e]
  · exact .next hs.buses
  · exact fetch_word_keepsBuses (s := beginTurn t rest s) hs hw
  · exact fetch_own_keepsBuses (s := beginTurn t rest s) hs hr

/-- Settles O52: the turn's work leaves every instance good; the memory's form, the parameters and the number of
instances are the frame's. -/
theorem stepKeepsGood : Obligations.StepKeepsGood := by
  intro s s' hs h
  have hbuses := step_keepsBuses hs s' h
  obtain ⟨hwf, hlength, hmem, -⟩ := hs
  obtain ⟨hmem, hpar, hplatform⟩ := stepKeepsMemoryForm s s' hmem h
  have hsame : s'.insts.length = s.insts.length := by simpa using congrArg List.length hplatform
  exact ⟨hpar ▸ hwf, hpar ▸ hsame.trans hlength, hmem, hpar ▸ hbuses⟩

end Sys2Proof.Machine
end
